-- ==== Sys2Proof/Word.lean ====
section
/-! DEFINITION. The plain words of the model: bytes, stamps, and the byte lanes of a beat. -/

namespace Sys2Proof

/-- One byte. -/
abbrev Byte := BitVec 8

/-- A value of the Stamp Clock: 32 bits, one count a microsecond, wrapping (R43). -/
abbrev Stamp := BitVec 32

/-- One byte lane of a write beat: `some b` when its byte-enable is set and it carries `b`, `none`
when its byte-enable is clear (R1, R2). The value on a lane whose enable is clear reaches nothing
("the bytes it does not enable are untouched wherever the write lands", R1), so it is not kept
(log entry 12). -/
abbrev Lane := Option Byte

end Sys2Proof
end

