-- ==== Sys2Proof/Config.lean ====
section
/-! DEFINITION. What the manual leaves open and the model leaves free: constants with no body, so
that no proof can see what they are. -/

namespace Sys2Proof

/-- A free byte, fresh for each count: a byte whose value the manual calls undefined or does not
state (the data of a line that has just entered FILLING, R132). Log entry 3. -/
opaque Config.freeByte : Nat → Byte

/-- A free sort key, fresh for each count: the order in which one event takes several slots, to
which the manual "gives no order among themselves" (R88). Log entry 4. -/
opaque Config.orderKey : Nat → Fin 8 → Nat

/-- A free choice, fresh for each count: which of several internal events due at the same moment is
taken first ("the outcome of either order", R44, R100). Log entry 4. -/
opaque Config.duePick : Nat → Nat

/-- Whether a bypass region whose base plus size is exactly 2^40 passes the check "base + size
within 40 bits" of R176, which does not say on which side that value lies. Log entry 24. -/
opaque Config.regionMayEndAtTop : Bool

/-- Which focus from the one of the lower sample to the one of the upper sample is used when the lower sample is
not earlier than the upper one (their two stamps, the band time, their two focuses): R90's formula and its
statements on the two differences disagree there. Log entry 55. -/
opaque Config.crossedFocus : BitVec 32 → BitVec 32 → BitVec 32 → BitVec 16 → BitVec 16 → Nat

end Sys2Proof
end

