-- ==== Sys2Proof/Syntax.lean ====
section
/-! DEFINITION. The commands of the part: one constructor of `Instr` for each row of
`spec/opcode_table.json`, with the operands the spec's rules give that operation or event. -/

namespace Sys2Proof

/-- The status of a completion (R1, R2). -/
inductive Status where
  | okay
  | fault
  deriving DecidableEq, Repr

/-- READ, or WRITE with its data: 16 lanes for each beat, in address order (R1). -/
inductive ReqKind where
  | read
  | write (lanes : List Lane)
  deriving DecidableEq, Repr

/-- An upstream request (R1). Its fields are taken as they are given. -/
structure UpRequest where
  /-- 0–15 -/
  master : BitVec 4
  /-- upstream tag, 0–31 -/
  tag : BitVec 5
  /-- 40 bits, beat-aligned -/
  addr : BitVec 40
  /-- 1–16 -/
  beats : Nat
  kind : ReqKind
  deriving DecidableEq, Repr

/-- The bytes of an OKAY CONTROL write as they are handed to the Control and Reporting Unit: the
offset of the write in the control area and its lanes (R11, R172). -/
structure ControlBytes where
  offset : Nat
  lanes : List Lane
  deriving DecidableEq, Repr

/-- The four lanes of one 32-bit header word of the control block (R173). -/
abbrev WordLanes := Vector Lane 4

/-- The commands and events of the part, one constructor per row of the table. An event that cannot
come about in the present state (a completion for a tag of another origin, a grant the arbiter does
not make, an expiry that is not due) changes nothing: log entry 2. -/
inductive Instr where
  /-- RESET_N_LOW (R20): the pin goes Low; the straps CTLBASE and REFSEL are sampled. -/
  | resetNLow (ctlbase : BitVec 8) (refsel : BitVec 2)
  /-- RESET_N_HIGH (R20). -/
  | resetNHigh
  /-- INVALIDATE_SWEEP_END (R136). -/
  | invalidateSweepEnd
  /-- BYPASS_RISE (R181). -/
  | bypassRise
  /-- BYPASS_ENTRY_SEQUENCE_END (R181). -/
  | bypassEntrySequenceEnd
  /-- BYPASS_FALL (R9). -/
  | bypassFall
  /-- EXPO_EDGE (R45). -/
  | expoEdge
  /-- UPSTREAM_REQUEST (R3): a request arrives at the upstream port; the next request in arrival
  order is presented. -/
  | upstreamRequest (r : UpRequest)
  /-- EGRESS_QUEUE_ENTRY (R155). -/
  | egressQueueEntry
  /-- FORWARDED_GRANT (R3). -/
  | forwardedGrant
  /-- CASTOUT_GRANT (R128). -/
  | castoutGrant
  /-- FILL_GRANT (R132). -/
  | fillGrant
  /-- EVENT_RECORD_WRITE_GRANT (R183). -/
  | eventRecordWriteGrant
  /-- SNAPSHOT_WRITE_GRANT (R185). -/
  | snapshotWriteGrant
  /-- UPSTREAM_ORIGIN_COMPLETION (R17): downstream tag, status, the data of a READ. -/
  | upstreamOriginCompletion (tag : Fin 64) (status : Status) (data : List Byte)
  /-- CASTOUT_COMPLETION (R128). -/
  | castoutCompletion (tag : Fin 64) (status : Status)
  /-- FILL_COMPLETION (R132). -/
  | fillCompletion (tag : Fin 64) (status : Status) (data : List Byte)
  /-- EVENT_RECORD_WRITE_COMPLETION (R183). -/
  | eventRecordWriteCompletion (tag : Fin 64) (status : Status)
  /-- SNAPSHOT_WRITE_COMPLETION (R185). -/
  | snapshotWriteCompletion (tag : Fin 64) (status : Status)
  /-- STALE_COMPLETION (R17). -/
  | staleCompletion (tag : Fin 64) (status : Status) (data : List Byte)
  /-- CONTROL_WRITE (R172): the handed-over write. -/
  | controlWrite (w : ControlBytes)
  /-- COMMIT (R174): a handed-over write of the commit word's lanes. -/
  | commit (w : WordLanes)
  /-- CONSUMED_INDEX (R183): a handed-over write of the consumed index word's lanes. -/
  | consumedIndex (w : WordLanes)
  /-- SNAPSHOT_REQUEST (R185): a handed-over write of the snapshot request word's lanes. -/
  | snapshotRequest (w : WordLanes)
  /-- NONE (R177): a handed-over write of the value 0 to the command word. -/
  | none
  /-- DRAIN_RESTART (R178): a handed-over write of the value 1 to the command word. -/
  | drainRestart
  /-- RELOAD_PROFILE (R108): a handed-over write of the value 2 to the command word. -/
  | reloadProfile
  /-- LINK_RESTART (R81): a handed-over write of the value 3 to the command word. -/
  | linkRestart
  /-- UNKNOWN_COMMAND (R177): a handed-over write of any other value to the command word. -/
  | unknownCommand (value : BitVec 32)
  /-- DRAIN_STEP_4 (R180). -/
  | drainStep4
  /-- LENS_FRAME (R64): one complete run of bytes from the lens. -/
  | lensFrame (bytes : List Byte)
  /-- MISSING_PERIOD (R63). -/
  | missingPeriod
  /-- RESOLVE_DEADLINE_EXPIRY (R89). -/
  | resolveDeadlineExpiry (slot band : Fin 8)
  /-- TAG_DEADLINE_EXPIRY (R58). -/
  | tagDeadlineExpiry (slot : Fin 8)
  deriving DecidableEq, Repr

end Sys2Proof
end

