-- ==== Sys2Proof/WellFormed.lean ====
section
/-! DEFINITION. Which operands are ones the spec gives a command. -/

namespace Sys2Proof

/-- The values R1 gives an upstream request: a beat-aligned address, 1 to 16 beats, and for a WRITE
16 lanes a beat. -/
def UpRequest.wf (r : UpRequest) : Bool :=
  r.addr.toNat % 16 == 0 && 1 ≤ r.beats && r.beats ≤ 16 &&
    (match r.kind with
     | .read => true
     | .write lanes => lanes.length == 16 * r.beats)

/-- A CONTROL write as it is handed over (R11): whole beats within one 256-byte line (a write that
crosses is PASS, R7) of the 4096-byte control area. -/
def ControlBytes.wf (w : ControlBytes) : Bool :=
  w.offset % 16 == 0 && w.lanes.length % 16 == 0 && 16 ≤ w.lanes.length &&
    w.offset / 256 == (w.offset + w.lanes.length - 1) / 256 && w.offset + w.lanes.length ≤ 4096

/-- Whether a value names no command (R177). -/
def unknownValue (v : BitVec 32) : Bool := 3 < v.toNat

/-- Whether a header-word write covers at least one byte of the word (R173). -/
def coversWord (w : WordLanes) : Bool := w.toList.any Option.isSome

/-- The check on a command's operands. -/
def Instr.wf : Instr → Bool
  | .upstreamRequest r => r.wf
  | .controlWrite w => w.wf
  | .commit w => coversWord w
  | .consumedIndex w => coversWord w
  | .snapshotRequest w => coversWord w
  | .unknownCommand v => unknownValue v
  | .resetNLow _ _ => true
  | .resetNHigh => true
  | .invalidateSweepEnd => true
  | .bypassRise => true
  | .bypassEntrySequenceEnd => true
  | .bypassFall => true
  | .expoEdge => true
  | .egressQueueEntry => true
  | .forwardedGrant => true
  | .castoutGrant => true
  | .fillGrant => true
  | .eventRecordWriteGrant => true
  | .snapshotWriteGrant => true
  | .upstreamOriginCompletion _ _ _ => true
  | .castoutCompletion _ _ => true
  | .fillCompletion _ _ _ => true
  | .eventRecordWriteCompletion _ _ => true
  | .snapshotWriteCompletion _ _ => true
  | .staleCompletion _ _ _ => true
  | .none => true
  | .drainRestart => true
  | .reloadProfile => true
  | .linkRestart => true
  | .drainStep4 => true
  | .lensFrame _ => true
  | .missingPeriod => true
  | .resolveDeadlineExpiry _ _ => true
  | .tagDeadlineExpiry _ => true

end Sys2Proof
end

