-- ==== Sys2Proof/Decode.lean ====
section
/-! DEFINITION. Commands spelled by a table word. The rows of `spec/opcode_table.json` give no bits,
so no word spells a command. -/

namespace Sys2Proof

/-- The command that a word spells by the table's bits: none, since no row of the table has bits
("fields" is empty in every row). -/
def decodeTableWord (nbits w : Nat) : Option Instr :=
  match nbits, w with
  | _, _ => Option.none

end Sys2Proof
end

