-- ==== Sys2Proof/Machine/State.lean ====
section
/-! DEFINITION. The state of the part, as plain data: every register, table, queue, mark and pin the
manual names, and the queue of commands waiting. -/

namespace Sys2Proof.Machine

/-- The part never stops: the manual gives it no state in which it does (INVENTORY.md, Faults). No
meaning raises this fault; the type needs a name for the outcome. Safe: nothing is cut short. -/
inductive Fault where
  /-- Raised by no meaning. Safe. -/
  | neverRaised
  deriving DecidableEq, Repr

/-- Why a command has no meaning. -/
inductive Refusal where
  /-- An arm of `exec` whose command has no meaning yet. Safe. -/
  | notModelled (mnemonic : String)
  /-- Raised by `execUpstreamRequest` for an operand that is no upstream request of R1 (an address
  that is not beat-aligned, a beat count outside 1–16, data that is not 16 lanes a beat). Safe. -/
  | notARequest
  /-- Raised by `execControlWrite` for an operand that is no CONTROL write (R5, R7, R11). Safe. -/
  | notAControlWrite
  deriving DecidableEq, Repr

/-! ### Names -/

/-- One of the 8 slots (R21). -/
abbrev SlotId := Fin 8
/-- One of the 8 bands of a frame (R54). -/
abbrev BandId := Fin 8
/-- The index of a Line Store record (R118). -/
abbrev LineIdx := Fin 512
/-- A downstream tag, the number of an Outstanding Table entry (R16). -/
abbrev DownTag := Fin 64
/-- A generation number, counted modulo 256 (R23). -/
abbrev Generation := BitVec 8

/-- Addressed bytes in one canonical form: addresses strictly rising, no byte listed that equals
what an unlisted address reads as (0). Used for the shadow (R172) and the profile areas (R104). -/
abbrev Memory := List Host.Cell

/-- NORMAL or FAST (R76). -/
inductive Mode where
  | normal | fast
  deriving DecidableEq, Repr

/-! ### Committed configuration -/

/-- An ENABLED window descriptor (R21). A DISABLED one is `none`: its fields "take no part". -/
structure Window where
  base : Nat
  pitch : Nat
  width : Nat
  height : Nat
  firstRow : Nat
  tagRow : Nat
  tagOffset : Nat
  writer : BitVec 4
  /-- mark m set: master m is in the reader set (R188) -/
  readers : BitVec 16
  correctedView : Bool
  /-- centre override: a column and an image row -/
  centre : Option (Nat × Nat)
  deriving DecidableEq, Repr

/-- Write-hit policy (R130). -/
inductive WriteHit where
  | invalidate | update
  deriving DecidableEq, Repr

/-- Border policy (R162). -/
inductive Border where
  | edge | fill
  deriving DecidableEq, Repr

/-- Framing target setting (R94). -/
inductive Framing where
  | narrowest
  | atFocus (focus : Nat)
  | fixed (field : Nat)
  deriving DecidableEq, Repr

/-- Profile acceptance policy (R107). -/
inductive Acceptance where
  | auto | hold
  deriving DecidableEq, Repr

/-- A bypass region (R6). -/
structure Region where
  enabled : Bool
  base : Nat
  size : Nat
  deriving DecidableEq, Repr

/-- A focus mark (R79). -/
structure FocusMark where
  enabled : Bool
  value : Nat
  deriving DecidableEq, Repr

/-- The event ring named by a commit (R174, R183). -/
structure Ring where
  base : Nat
  size : Nat
  deriving DecidableEq, Repr

/-- The global settings (R176). -/
structure Settings where
  resolveDeadline : Nat
  tagDeadline : Nat
  latency : Nat
  tolerance : Nat
  writeHit : WriteHit
  border : Border
  fillValue : Nat
  framing : Framing
  acceptance : Acceptance
  modeRequest : Mode
  regions : Vector Region 4
  focusMarks : Vector FocusMark 4
  /-- mark k set: the event kind of code k is disabled (R188) -/
  eventDisable : BitVec 32
  ring : Option Ring
  snapshotAddr : Option Nat
  deriving DecidableEq, Repr

/-! ### The Frame Table and what the other blocks keep per slot -/

/-- Shutter kind (R47). -/
inductive Shutter where
  | rolling | global
  deriving DecidableEq, Repr

/-- The decoded fields of a frame tag (R47). -/
structure FrameTag where
  sequence : BitVec 16
  shutter : Shutter
  exposure : Nat
  lineTime : Nat
  strobeOffset : Int
  deriving DecidableEq, Repr

/-- Resolution kind (R24, R89). -/
inductive ResKind where
  | exact | old | late | lensLost | noSample | noProfile | forced | untagged
  deriving DecidableEq, Repr

/-- A gain list: the gain of zone z, channel c at 4 × z + c, unsigned 2.14 (R24). -/
abbrev GainList := Vector (BitVec 16) 64

/-- What the Band Resolver writes together into a band record (R24, R97). -/
structure BandResult where
  kind : ResKind
  magnification : Nat
  gains : GainList
  deriving DecidableEq, Repr

/-- A band record (R24): WAITING when `result` is `none`, RESOLVED otherwise. -/
structure BandRecord where
  result : Option BandResult
  time : Option Stamp
  deadline : Option Stamp
  deriving DecidableEq, Repr

/-- One of the two profile areas (R104). -/
inductive AreaId where
  | p0 | p1
  deriving DecidableEq, Repr

/-- Slot states (R23). -/
inductive SlotState where
  | free | armed | tagged | resolved | complete
  deriving DecidableEq, Repr

/-- The flags of a frame record (R23). -/
structure FrameFlags where
  truncated : Bool
  short : Bool
  long : Bool
  earlyRead : Bool
  magClamped : Bool
  deriving DecidableEq, Repr

/-- The successor part of a frame record (R25). -/
structure Successor where
  held : Nat
  beats : Nat
  firstIngest : Stamp
  eofSeen : Bool
  deriving DecidableEq, Repr

/-- The pending tag of a frame record (R25). -/
structure PendingTag where
  tag : FrameTag
  decodeStamp : Stamp
  deriving DecidableEq, Repr

/-- A frame record (R23). -/
structure FrameRecord where
  state : SlotState
  generation : Generation
  eofSeen : Bool
  tagSequence : Option (BitVec 16)
  area : Option AreaId
  offsetX : Int
  offsetY : Int
  bands : Vector BandRecord 8
  beats : Nat
  held : Nat
  saturated : Nat
  flags : FrameFlags
  firstIngest : Option Stamp
  /-- the Presented Set: `none` when its valid mark is clear (R40) -/
  presented : Option (Vector Nat 8)
  successor : Option Successor
  pendingTag : Option PendingTag
  /-- the generation has ended under a drain (R193) -/
  ended : Bool
  deriving DecidableEq, Repr

/-- Everything kept per slot: the frame record and descriptors, the Tag Decoder's collection and
marks (R48, R49), the tag deadline (R57) and the Band Resolver's report marks (R99). -/
structure Slot where
  frame : FrameRecord
  committed : Option Window
  /-- the pending descriptor, when one is pending (R38) -/
  pendingDesc : Option (Option Window)
  /-- 64 bytes with their written marks (R49) -/
  collection : Vector Lane 64
  invalidReported : Bool
  tagDeadline : Option Stamp
  reportedLate : Bool
  reportedOld : Bool
  reportedLost : Bool
  deriving DecidableEq, Repr

/-! ### Stamp and Strobe Unit -/

/-- An Exposure Queue entry (R45). -/
structure Strobe where
  stamp : Stamp
  count : BitVec 16
  deriving DecidableEq, Repr

/-- The Stamp Clock, its prescaler, the strobe counter and the Exposure Queue (oldest first). -/
structure Ssu where
  clock : Stamp
  prescaler : Nat
  strobe : BitVec 16
  exposures : List Strobe
  deriving DecidableEq, Repr

/-! ### Lens Link Controller and Band Resolver -/

/-- A stamped lens sample (R83). -/
structure Sample where
  stamp : Stamp
  focus : BitVec 16
  iris : BitVec 8
  focusValid : Bool
  irisValid : Bool
  deriving DecidableEq, Repr

/-- Link states (4.3). -/
inductive LinkState where
  | down | acquiring | ident | ready | holdover
  deriving DecidableEq, Repr

/-- The identity of a lens: lens ID and calibration revision (R67, R102). -/
structure LensIdentity where
  id : BitVec 32
  revision : BitVec 16
  deriving DecidableEq, Repr

/-- The Lens Link Controller (R82). The mode request is a global setting. -/
structure Llc where
  link : LinkState
  expected : Option (BitVec 8)
  lastGood : Option (BitVec 8)
  run : Nat
  acquire : Nat
  attempts : Nat
  /-- the outstanding identity attempt, with its reply count (R68) -/
  outstanding : Option Nat
  identified : Option LensIdentity
  deadline : Option Stamp
  linkMode : Mode
  modeTarget : Mode
  focusRef : Option (BitVec 16)
  deriving DecidableEq, Repr

/-- The Band Resolver (R83, R85, R86); the history is oldest first. -/
structure Br where
  history : List Sample
  lastKnown : Option Sample
  newestFocus : Option (BitVec 16)
  newestIris : Option (BitVec 8)
  deriving DecidableEq, Repr

/-! ### Profile Unit -/

/-- Profile area states (6.2). -/
inductive AreaState where
  | free | loading | active | retiring
  deriving DecidableEq, Repr

/-- A profile area (R104); byte i of block b is at 16 × b + i of `bytes`. -/
structure Area where
  state : AreaState
  matchMark : Bool
  refs : Nat
  received : Vector Bool 532
  bytes : Memory
  deriving DecidableEq, Repr

/-- An entry of the Block Request List (R110); SENT when `sent`, UNSENT otherwise. -/
structure BlockRequest where
  block : Nat
  sent : Bool
  periods : Nat
  timeouts : Nat
  deriving DecidableEq, Repr

/-- The held load: pending when `area` is `none`, in progress in that area otherwise (R109, R110). -/
structure Load where
  target : LensIdentity
  area : Option AreaId
  requests : List BlockRequest
  next : Nat
  known : Option Nat
  /-- block requests sent for the load, re-requests included (R116) -/
  sentCount : Nat
  deriving DecidableEq, Repr

/-- The Profile Unit. -/
structure Pu where
  p0 : Area
  p1 : Area
  load : Option Load
  deriving DecidableEq, Repr

/-! ### Line Store -/

/-- What names a line in every state but INVALID (R118). -/
structure LineTag where
  line : Nat
  slot : SlotId
  generation : Generation
  deriving DecidableEq, Repr

/-- A part of a fill (R132). -/
inductive FillPartKind where
  | single | critical | wrap
  deriving DecidableEq, Repr

/-- A Line Store record, each state with the fields R118 keeps in it. The data of a HELD or CASTING
record is 256 lanes: a lane is `some` exactly where the byte-valid mask is set. -/
inductive LineRec where
  | invalid
  /-- parts outstanding, and the parts that have faulted (the fill fault mark is set when any has) -/
  | filling (tag : LineTag) (data : List Byte) (parts : Nat) (faulted : List FillPartKind)
  | clean (tag : LineTag) (data : List Byte)
  | held (tag : LineTag) (band : Option BandId) (lanes : List Lane) (demand : Bool)
  | casting (tag : LineTag) (band : Option BandId) (lanes : List Lane) (demand : Bool)
  deriving DecidableEq, Repr

/-- The three kinds of claim (7.2). A need names its read's entry, slot, generation and first beat. -/
inductive ClaimKind where
  | ingest
  | forward
  | need (read : Nat) (slot : SlotId) (generation : Generation) (firstBeat : Nat)
  deriving DecidableEq, Repr

/-- A claim on the index of its line address. `cleared`: awaiting grant (R120); `updated`: it has
updated a CLEAN record at its line address (R122, R130). -/
structure Claim where
  line : Nat
  kind : ClaimKind
  cleared : Bool
  updated : Bool
  deriving DecidableEq, Repr

/-- The Line Store. The Claim Lists are kept as one list in placing order: the Claim List of an index
is the sublist of the claims on that index. -/
structure Ls where
  lines : Vector LineRec 512
  claims : List Claim
  /-- the invalidate sweep is running (R136) -/
  sweeping : Bool
  deriving DecidableEq, Repr

/-! ### Memory Path Unit -/

/-- The class of an upstream request, with the slot of a window class (R5, R8). -/
inductive Cls where
  | pass
  | control
  | tag (slot : SlotId)
  | ingest (slot : SlotId)
  | egress (slot : SlotId)
  | foreign (slot : SlotId)
  deriving DecidableEq, Repr

/-- How the Frame Table would account an INGEST write (R121). -/
inductive FtAnswer where
  | resolved (generation : Generation) (band : BandId)
  | waiting (generation : Generation) (band : BandId)
  | pendingBand (generation : Generation)
  | noGeneration
  | refused
  deriving DecidableEq, Repr

/-- What a presented request waits for. -/
inductive Phase where
  /-- the end of the invalidate sweep (R10, R13) -/
  | sweep
  /-- its claims (R10, R13) -/
  | claims
  /-- an arbiter grant: it is the candidate of class 3 (R18) -/
  | offered
  /-- a place in the Egress Queue (R14) -/
  | queue
  deriving DecidableEq, Repr

/-- The request in the Intake Stage (R3). -/
structure Presented where
  req : UpRequest
  cls : Cls
  /-- the window descriptor it was classified under (R153) -/
  window : Option Window
  /-- a descriptor has applied to its slot since the presentation (R27, R49) -/
  stale : Bool
  phase : Phase
  /-- the answer of the Frame Table at the last evaluation of its INGEST claim (R121) -/
  answer : Option FtAnswer
  deriving DecidableEq, Repr

/-- The class 3 candidate: the request as it will go downstream (R149). -/
structure Forward where
  kind : ReqKind
  clamped : Nat
  deriving DecidableEq, Repr

/-- A class 2 candidate: one part of a fill (R132). -/
structure FillPart where
  line : Nat
  firstBeat : Nat
  beats : Nat
  kind : FillPartKind
  deriving DecidableEq, Repr

/-- A class 5 candidate: an event record write, or one half (0 or 1) of a snapshot (R183, R185). -/
inductive ReportWrite where
  | event
  | snapshot (half : Fin 2)
  deriving DecidableEq, Repr

/-- The origin recorded in a BUSY Outstanding Table entry (R16), with what its completion needs. -/
inductive Origin where
  /-- `updated`: line addresses of the CLEAN records it updated (R125, R130); `stale`: a descriptor
  has applied to its slot since its presentation (R49) -/
  | upstream (req : UpRequest) (cls : Cls) (updated : List Nat) (stale : Bool)
  | fill (part : FillPart)
  | castout (line : LineIdx)
  | event (position : Nat)
  | snapshot (half : Fin 2)
  deriving DecidableEq, Repr

/-- The Memory Path Unit. -/
structure Mpu where
  /-- requests that have arrived at the port and are not presented, in arrival order (1.2, R4) -/
  port : List UpRequest
  intake : Option Presented
  class1 : List LineIdx
  class2 : List FillPart
  class3 : Option Forward
  class5 : List ReportWrite
  starvation : Nat
  outstanding : Vector (Option Origin) 64
  deriving DecidableEq, Repr

/-! ### Egress Resampler -/

/-- Where a read takes its magnifications from (R156). -/
inductive MagSource where
  | current | presented | identity
  deriving DecidableEq, Repr

/-- A need of an egress read: SERVED with the bytes it took (address, byte), or PLACED (R154). -/
structure Need where
  line : Nat
  firstBeat : Nat
  taken : Option (List Host.Cell)
  deriving DecidableEq, Repr

/-- States of an Egress Queue entry; a READY entry keeps its computed beats (R154, R163). -/
inductive ReadState where
  | gathering
  | ready (data : List Byte)
  | failed
  deriving DecidableEq, Repr

/-- An Egress Queue entry (R154). -/
structure EgressEntry where
  /-- the model's name for the entry (log entry 29) -/
  id : Nat
  master : BitVec 4
  tag : BitVec 5
  addr : BitVec 40
  beats : Nat
  slot : SlotId
  generation : Generation
  window : Window
  source : MagSource
  k : Nat
  border : Border
  fillValue : Nat
  needs : List Need
  state : ReadState
  deriving DecidableEq, Repr

/-- The Egress Queue, head first. -/
structure Er where
  queue : List EgressEntry
  nextId : Nat
  deriving DecidableEq, Repr

/-! ### Control and Reporting Unit -/

/-- LINK_STATE reasons (R73). -/
inductive LinkReason where
  | firstFrame | acquired | identified | identFail | mismatch | loss | recovered | detach | restart
  deriving DecidableEq, Repr

/-- PROFILE_FAILED reasons (R114). -/
inductive LoadReason where
  | checksum | format | timeout | link | superseded
  deriving DecidableEq, Repr

/-- The first failing check of a FORMAT failure (R116). -/
inductive FormatCheck where
  | headerIdentity | headerCounts | headerBlockCount | breathing | focusKnots | irisKnots
  deriving DecidableEq, Repr

/-- TAG_INVALID reasons and the first field out of range (R48, R190). -/
inductive TagFault where
  | marker | checksum | shutterKind | exposureDuration | lineTime | strobeOffset
  deriving DecidableEq, Repr

/-- COMMIT_REJECTED reasons, in the order of R174. -/
inductive CommitFault where
  | setting | ring | snapshot | geometry | pitch | tagPlacement | readerSet | overlap
  deriving DecidableEq, Repr

/-- COMMAND_REFUSED reasons (R177, R185). -/
inductive RefuseReason where
  | draining | bypassEntry | unknown | noAddress
  deriving DecidableEq, Repr

/-- The 21 event kinds with their payloads (R190). -/
inductive Event where
  | frameDone (sequence : Option (BitVec 16)) (flags : FrameFlags) (area : Option AreaId)
      (beats saturated : Nat) (kinds : Vector (Option ResKind) 8)
  | tagMissing (firstIngest : Option Stamp) (beats : Nat) (eofSeen : Bool)
  | tagInvalid (fault : TagFault) (sequence : BitVec 16) (stamp : Stamp)
  | strobeMissing (sequence : BitVec 16) (newest : Option (BitVec 16)) (decodeStamp start : Stamp)
  | bandLate (kind : ResKind) (band : BandId) (time deadline : Option Stamp) (source : Option Stamp)
  | outOfHistory (kind : ResKind) (band : BandId) (time deadline : Option Stamp) (source : Option Stamp)
  | linkState (left entered : LinkState) (reason : LinkReason) (run : Nat)
      (lastGood : Option (BitVec 8)) (checkByte : Option Byte)
  | lensIdent (identity : LensIdentity)
  | profileLoaded (area : AreaId) (old : Option (AreaId × AreaState × Nat)) (identity : LensIdentity)
      (blocks n nf ni requests : Nat)
  | profileFailed (reason : LoadReason) (area : Option AreaId) (target : Option LensIdentity)
      (check : Option FormatCheck) (known : Option Nat) (received : Nat) (block : Nat)
  | modeChanged (old new target : Mode) (sequence : Option (BitVec 8))
  | modeDeferred (noProfile load linkNotReady : Bool) (link : LinkState)
  | focusMark (index : Fin 4) (up : Bool) (value : Nat) (p n : BitVec 16) (stamp : Stamp)
  | commitApplied (applied pending withdrawn : List SlotId)
  | commitRejected (reason : CommitFault) (slot : Option SlotId)
  | commandRefused (value : Nat) (reason : RefuseReason) (snapshot : Bool)
  | writebackFault (addr : Nat) (band : Option BandId) (marked : Nat) (demanded : Bool)
  | fillFault (addr : Nat) (parts : List FillPartKind) (failed : Nat)
  | illegalSpan (addr : BitVec 40) (master : BitVec 4) (tag : BitVec 5) (beats : Nat)
  | snapshotDone (addr : Nat) (fault : Bool)
  | drainDone (accepted : Stamp) (cancelled : Bool) (generations castouts faulted reads : Nat)
      (loadAborted : Bool)
  deriving DecidableEq, Repr

/-- An event record as it is born and queued (10.7, R182). -/
structure EventRecord where
  event : Event
  overflow : Bool
  slot : Option (SlotId × Generation)
  stamp : Stamp
  deriving DecidableEq, Repr

/-- Ring states (R183). -/
inductive RingState where
  | none | set | broken
  deriving DecidableEq, Repr

/-- A snapshot in flight: its address, the 512 bytes captured, completions taken, fault (R185). -/
structure Snapshot where
  addr : Nat
  bytes : List Byte
  completed : Nat
  fault : Bool
  deriving DecidableEq, Repr

/-- A drain in progress: what DRAIN_DONE will report (R194), and the Outstanding Table entries that
were BUSY when step 3 began and are not yet freed (R179). -/
structure Drain where
  accepted : Stamp
  cancelled : Bool
  generations : Nat
  castouts : Nat
  faulted : Nat
  reads : Nat
  loadAborted : Bool
  waitFor : List DownTag
  deriving DecidableEq, Repr

/-- The procedure in progress (R177, R181). -/
inductive Procedure where
  | none
  | drain (d : Drain)
  | bypassEntry (waitFor : List DownTag)
  deriving DecidableEq, Repr

/-- The Control and Reporting Unit, with the global settings in force. -/
structure Cru where
  shadow : Memory
  settings : Settings
  ringState : RingState
  produce : Nat
  /-- the record write in flight: whether the ring was set again or made NONE since its grant -/
  recordWrite : Option Bool
  events : List EventRecord
  overflow : Bool
  snapshot : Option Snapshot
  snapshotRepeat : Bool
  proc : Procedure
  deriving DecidableEq, Repr

/-! ### Pins and ports -/

/-- Pins and strap samples. `true` is High. -/
structure Pins where
  resetN : Bool
  bypass : Bool
  ctlbase : BitVec 8
  refsel : BitVec 2
  attnN : Bool
  deriving DecidableEq, Repr

/-- An upstream completion (R1). -/
structure UpCompletion where
  master : BitVec 4
  tag : BitVec 5
  status : Status
  data : List Byte
  deriving DecidableEq, Repr

/-- A downstream request (R2). -/
structure DownRequest where
  tag : DownTag
  addr : Nat
  beats : Nat
  kind : ReqKind
  deriving DecidableEq, Repr

/-- A part frame (R62). -/
inductive PartFrame where
  | poll (sequence : BitVec 8)
  | identReq (sequence : BitVec 8)
  | blockReq (sequence : BitVec 8) (block : Nat)
  | modeReq (sequence : BitVec 8) (mode : Mode)
  deriving DecidableEq, Repr

/-- What the part has put out at its ports, oldest first: the model's record (log entry 6). -/
structure Ports where
  ump : List UpCompletion
  dmp : List DownRequest
  lml : List PartFrame
  deriving DecidableEq, Repr

end Sys2Proof.Machine

namespace Sys2Proof.Machine

/-- The state of the part and the queue of the commands that are waiting, first in, first out. -/
structure State where
  pending : List Instr
  pins : Pins
  ports : Ports
  mpu : Mpu
  slots : Vector Slot 8
  ssu : Ssu
  llc : Llc
  br : Br
  pu : Pu
  ls : Ls
  er : Er
  cru : Cru
  /-- the counter of free values (log entry 3) -/
  free : Nat
  deriving DecidableEq, Repr

/-! ### The values after pin reset -/

/-- R41: a band record that is WAITING with band time absent; the magnification and the gain list of a WAITING
record have no value and are not kept (log entry 49). -/
def BandRecord.waiting : BandRecord := ⟨none, none, none⟩

/-- No flag set. -/
def FrameFlags.clear : FrameFlags := ⟨false, false, false, false, false⟩

/-- R41: a FREE frame record of the given generation number, everything else absent, 0 or clear; the 8
magnifications of a Presented Set whose valid mark is clear have no value and are not kept (log entry 50). -/
def FrameRecord.blank (g : Generation) : FrameRecord :=
  { state := .free, generation := g, eofSeen := false, tagSequence := none, area := none
    offsetX := 0, offsetY := 0, bands := Vector.replicate 8 .waiting, beats := 0, held := 0
    saturated := 0, flags := .clear, firstIngest := none, presented := none, successor := none
    pendingTag := none, ended := false }

/-- No written mark of a tag collection set (R49); a byte whose mark is clear is not kept (log entry 38). -/
def emptyCollection : Vector Lane 64 := Vector.replicate 64 none

/-- R41, R59, R99: a slot after pin reset. -/
def Slot.reset : Slot :=
  { frame := .blank 0, committed := none, pendingDesc := none, collection := emptyCollection
    invalidReported := false, tagDeadline := none, reportedLate := false, reportedOld := false
    reportedLost := false }

/-- R176: the global settings after pin reset. -/
def Settings.reset : Settings :=
  { resolveDeadline := 8000, tagDeadline := 4000, latency := 0, tolerance := 0
    writeHit := .invalidate, border := .edge, fillValue := 0, framing := .narrowest
    acceptance := .auto, modeRequest := .normal, regions := Vector.replicate 4 ⟨false, 0, 0⟩
    focusMarks := Vector.replicate 4 ⟨false, 0⟩, eventDisable := 0, ring := none
    snapshotAddr := none }

/-- R43, R59: the Stamp and Strobe Unit after pin reset. -/
def Ssu.reset : Ssu := { clock := 0, prescaler := 0, strobe := 0, exposures := [] }

/-- R82: the Lens Link Controller after pin reset. -/
def Llc.reset : Llc :=
  { link := .down, expected := none, lastGood := none, run := 0, acquire := 0, attempts := 0
    outstanding := none, identified := none, deadline := none, linkMode := .normal
    modeTarget := .normal, focusRef := none }

/-- R101: the Band Resolver after pin reset. -/
def Br.reset : Br := { history := [], lastKnown := none, newestFocus := none, newestIris := none }

/-- R104: a profile area after pin reset. Its bytes are read by nothing until they are received; the
model lets them read 0 (log entry 10). -/
def Area.reset : Area :=
  { state := .free, matchMark := false, refs := 0, received := Vector.replicate 532 false, bytes := [] }

/-- R117: the Profile Unit after pin reset. -/
def Pu.reset : Pu := { p0 := .reset, p1 := .reset, load := none }

/-- R135, R136: every record INVALID, no claim; the sweep runs from the release of the pin. -/
def Ls.reset (sweeping : Bool) : Ls :=
  { lines := Vector.replicate 512 .invalid, claims := [], sweeping := sweeping }

/-- R20: the Memory Path after pin reset; what waits at the upstream port is the fabric's. -/
def Mpu.reset (port : List UpRequest) : Mpu :=
  { port := port, intake := none, class1 := [], class2 := [], class3 := none, class5 := []
    starvation := 0, outstanding := Vector.replicate 64 none }

/-- R172, R176, R182–R185: the Control and Reporting Unit after pin reset. -/
def Cru.reset : Cru :=
  { shadow := [], settings := .reset, ringState := .none, produce := 0, recordWrite := none
    events := [], overflow := false, snapshot := none, snapshotRepeat := false, proc := .none }

/-- The part right after a pin reset: RESET_N has just gone High with BYPASS Low and straps that read
0 (log entry 5); the invalidate sweep is running. -/
def State.reset : State :=
  { pending := []
    pins := { resetN := true, bypass := false, ctlbase := 0, refsel := 0, attnN := true }
    ports := { ump := [], dmp := [], lml := [] }
    mpu := .reset [], slots := Vector.replicate 8 .reset, ssu := .reset, llc := .reset, br := .reset
    pu := .reset, ls := .reset true, er := { queue := [], nextId := 0 }, cru := .reset, free := 0 }

end Sys2Proof.Machine
end

