-- ==== Sys2Proof/Machine/Ops.lean ====
section
/-! DEFINITION. The named operations over the state that every block shares: stamps, bytes, addressed
memory, slots, events, free values. -/

namespace Sys2Proof.Machine

/-! ### Stamps (R44) -/

/-- The difference of two stamps, read as a signed 32-bit number. -/
def stampDiff (a b : Stamp) : Int := (a - b).toInt

/-- `a` is later than `b`. -/
def later (a b : Stamp) : Bool := 0 < stampDiff a b

/-- `a` is at or before `b`. -/
def atOrBefore (a b : Stamp) : Bool := stampDiff a b ≤ 0

/-- The clock has reached a deadline: it is later than or equal to it. -/
def reached (clock deadline : Stamp) : Bool := 0 ≤ stampDiff clock deadline

/-- The sum of a stamp and a duration, modulo 2^32. -/
def stampAdd (a : Stamp) (n : Int) : Stamp := a + BitVec.ofInt 32 n

/-- A deadline that may be absent has been reached. -/
def due (clock : Stamp) : Option Stamp → Bool
  | none => false
  | some d => reached clock d

/-! ### Rounding -/

/-- `num / den` rounded to the nearest integer, a value exactly half way to the larger. -/
def roundHalfUp (num : Int) (den : Nat) : Int := (2 * num + den) / (2 * den : Int)

/-! ### Bytes in order (R187) -/

/-- The n bytes of a number, least significant first. -/
def leBytes : Nat → Nat → List Byte
  | 0, _ => []
  | n + 1, v => BitVec.ofNat 8 v :: leBytes n (v / 256)

/-- A count written into n bytes: the largest value the field holds when it does not fit (R187). -/
def leCount (n v : Nat) : List Byte := leBytes n (min v (256 ^ n - 1))

/-- n bytes of value 0. -/
def zeros (n : Nat) : List Byte := List.replicate n 0

/-- A format of `size` bytes from its fields at rising offsets; every other byte is 0 (R187). -/
def layoutFrom (size : Nat) : Nat → List (Nat × List Byte) → List Byte
  | pos, [] => zeros (size - pos)
  | pos, (off, bs) :: rest => zeros (off - pos) ++ bs ++ layoutFrom size (off + bs.length) rest

/-- A format of `size` bytes from its fields at rising offsets. -/
def layout (size : Nat) (fields : List (Nat × List Byte)) : List Byte := layoutFrom size 0 fields

/-- The number in n bytes from offset `off`, least significant byte first. -/
def readLE (get : Nat → Byte) : Nat → Nat → Nat
  | _, 0 => 0
  | off, n + 1 => (get off).toNat + 256 * readLE get (off + 1) n

/-- The byte at a position of a list; positions beyond it are not read by any rule. -/
def byteAt (bs : List Byte) (i : Nat) : Byte := bs.getD i 0

/-- A 16-bit field read as two's complement. -/
def signed16 (v : Nat) : Int := (BitVec.ofNat 16 v).toInt

/-- A 32-bit field read as two's complement. -/
def signed32 (v : Nat) : Int := (BitVec.ofNat 32 v).toInt

/-- Mark i of a byte of marks (R187). -/
def markOf (b : Byte) (i : Nat) : Bool := b.getLsbD i

/-- A byte of marks from its marks, mark 0 first. -/
def marksByte : List Bool → Nat
  | [] => 0
  | m :: rest => (if m then 1 else 0) + 2 * marksByte rest

/-! ### Addressed memory in canonical form -/

/-- A byte of memory; a byte nothing has written reads 0 (R172; log entry 10 for profile areas). -/
def Memory.read (m : Memory) (a : Nat) : Byte :=
  match m with
  | [] => 0
  | (k, v) :: rest => if k = a then v else Memory.read rest a

/-- Write one byte and keep the canonical form. -/
def Memory.write (m : Memory) (a : Nat) (b : Byte) : Memory :=
  match m with
  | [] => if b = 0 then [] else [(a, b)]
  | (k, v) :: rest =>
    if a < k then (if b = 0 then (k, v) :: rest else (a, b) :: (k, v) :: rest)
    else if a = k then (if b = 0 then rest else (a, b) :: rest)
    else (k, v) :: Memory.write rest a b

/-- Write the enabled lanes of a run of lanes from an address on. -/
def Memory.writeLanes (m : Memory) : Nat → List Lane → Memory
  | _, [] => m
  | a, none :: rest => Memory.writeLanes m (a + 1) rest
  | a, some b :: rest => Memory.writeLanes (m.write a b) (a + 1) rest

/-- The canonical form: addresses strictly rising, no byte listed that an unlisted address reads as. -/
abbrev Memory.wf (m : Memory) : Prop :=
  m.Pairwise (fun x y => x.1 < y.1) ∧ ∀ c ∈ m, c.2 ≠ 0

/-- The number in n bytes of memory from an address. -/
def Memory.number (m : Memory) (a n : Nat) : Nat := readLE m.read a n

/-! ### Tables -/

/-- Replace one entry of a table. -/
def put {α : Type} {n : Nat} (v : Vector α n) (i : Fin n) (x : α) : Vector α n := v.set i.val x i.isLt

/-- Apply an operation to every entry of a table. -/
def mapTable {α β : Type} {n : Nat} (v : Vector α n) (f : α → β) : Vector β n :=
  ⟨(v.toList.map f).toArray, by simp⟩

/-- The index of a line address: its value modulo 512 (R119). -/
def indexOf (line : Nat) : LineIdx := Fin.ofNat 512 line

/-- All slots, lowest first. -/
def allSlots : List SlotId := [0, 1, 2, 3, 4, 5, 6, 7]

/-- All bands, from band 0 upward. -/
def allBands : List BandId := [0, 1, 2, 3, 4, 5, 6, 7]

/-- All Line Store indices, lowest first. -/
def allLines : List LineIdx := List.finRange 512

/-- All downstream tags, lowest first. -/
def allTags : List DownTag := List.finRange 64

/-! ### Parts of the state -/

/-- The Stamp Clock (R43). -/
def State.clock (s : State) : Stamp := s.ssu.clock

/-- A slot. -/
def State.slot (s : State) (i : SlotId) : Slot := s.slots[i]

/-- A slot's frame record. -/
def State.frame (s : State) (i : SlotId) : FrameRecord := (s.slot i).frame

/-- Change a slot. -/
def State.modSlot (s : State) (i : SlotId) (f : Slot → Slot) : State :=
  { s with slots := put s.slots i (f (s.slot i)) }

/-- Change a slot's frame record. -/
def State.modFrame (s : State) (i : SlotId) (f : FrameRecord → FrameRecord) : State :=
  s.modSlot i fun sl => { sl with frame := f sl.frame }

/-- A Line Store record. -/
def State.line (s : State) (i : LineIdx) : LineRec := s.ls.lines[i]

/-- Replace a Line Store record. -/
def State.setLine (s : State) (i : LineIdx) (r : LineRec) : State :=
  { s with ls := { s.ls with lines := put s.ls.lines i r } }

/-- A generation is closed when its end-of-frame mark is yes or its TRUNCATED flag is set (R23). -/
def FrameRecord.closed (r : FrameRecord) : Bool := r.eofSeen || r.flags.truncated

/-- All 8 bands are RESOLVED. -/
def FrameRecord.allResolved (r : FrameRecord) : Bool := r.bands.toList.all fun b => b.result.isSome

/-- A drain or a bypass entry sequence is in progress (R4, R177). -/
def State.inProcedure (s : State) : Bool := s.cru.proc ≠ .none

/-- Every request is PASS and no CONTROL write is snooped: BYPASS is High and the entry sequence has
finished (R5, R9, R172). -/
def State.rawPass (s : State) : Bool := s.pins.bypass && s.cru.proc == .none

/-- Change the drain in progress, if one is. -/
def State.modDrain (s : State) (f : Drain → Drain) : State :=
  match s.cru.proc with
  | .drain d => { s with cru := { s.cru with proc := .drain (f d) } }
  | _ => s

/-! ### Free values (log entries 3 and 4) -/

/-- A run of n fresh free bytes. -/
def freeBytes (from_ n : Nat) : List Byte := (List.range n).map fun i => Config.freeByte (from_ + i)

/-- Insert by a key, before the first entry whose key is larger. -/
def insertBy {α : Type} (key : α → Nat) (x : α) : List α → List α
  | [] => [x]
  | y :: ys => if key x < key y then x :: y :: ys else y :: insertBy key x ys

/-- Sort by a key. -/
def sortBy {α : Type} (key : α → Nat) : List α → List α
  | [] => []
  | x :: xs => insertBy key x (sortBy key xs)

/-- The slots that meet a condition, in a free order when there are several (R88). -/
def State.slotOrder (s : State) (p : SlotId → Bool) : List SlotId × State :=
  match allSlots.filter p with
  | [] => ([], s)
  | [i] => ([i], s)
  | l => (sortBy (Config.orderKey s.free) l, { s with free := s.free + 1 })

/-- Apply an operation to each slot that meets a condition, in a free order. -/
def State.forSlots (s : State) (p : SlotId → Bool) (f : State → SlotId → State) : State :=
  (s.slotOrder p).1.foldl f (s.slotOrder p).2

/-! ### Events (R182) -/

/-- The code of an event's kind (R190). -/
def Event.code : Event → Nat
  | .frameDone _ _ _ _ _ _ => 1
  | .tagMissing _ _ _ => 2
  | .tagInvalid _ _ _ => 3
  | .strobeMissing _ _ _ _ => 4
  | .bandLate _ _ _ _ _ => 5
  | .outOfHistory _ _ _ _ _ => 6
  | .linkState _ _ _ _ _ _ => 7
  | .lensIdent _ => 8
  | .profileLoaded _ _ _ _ _ _ _ _ => 9
  | .profileFailed _ _ _ _ _ _ _ => 10
  | .modeChanged _ _ _ _ => 11
  | .modeDeferred _ _ _ _ => 12
  | .focusMark _ _ _ _ _ _ => 13
  | .commitApplied _ _ _ => 14
  | .commitRejected _ _ => 15
  | .commandRefused _ _ _ => 16
  | .writebackFault _ _ _ _ => 17
  | .fillFault _ _ _ => 18
  | .illegalSpan _ _ _ _ => 19
  | .snapshotDone _ _ => 20
  | .drainDone _ _ _ _ _ _ _ => 21

/-- The event kind is enabled by the event enables in force (R182, R188). -/
def State.eventEnabled (s : State) (e : Event) : Bool := !s.cru.settings.eventDisable.getLsbD e.code

/-- An event is raised at the Stamp Clock's value, for a slot's generation or for none: it joins the
Event Queue, is discarded, or is lost with the overflow mark set (R182). -/
def State.raiseFor (s : State) (slot : Option (SlotId × Generation)) (e : Event) : State :=
  if s.eventEnabled e then
    if s.cru.events.length < 16 then
      { s with cru := { s.cru with
          events := s.cru.events ++ [⟨e, s.cru.overflow, slot, s.clock⟩], overflow := false } }
    else { s with cru := { s.cru with overflow := true } }
  else s

/-- Raise an event whose slot and generation are absent. -/
def State.raise (s : State) (e : Event) : State := s.raiseFor none e

/-- Raise an event for a slot's current generation. -/
def State.raiseSlot (s : State) (i : SlotId) (e : Event) : State :=
  s.raiseFor (some (i, (s.frame i).generation)) e

/-! ### Ports -/

/-- Return an upstream completion (R15). -/
def State.complete (s : State) (c : UpCompletion) : State :=
  { s with ports := { s.ports with ump := s.ports.ump ++ [c] } }

/-- Send a part frame (R62). -/
def State.sendPart (s : State) (p : PartFrame) : State :=
  { s with ports := { s.ports with lml := s.ports.lml ++ [p] } }

end Sys2Proof.Machine
end

