-- ==== Sys2Proof/Machine/Operands.lean ====
section
/-! DEFINITION. The operand forms of the commands: requests and the lines they touch, window
geometry, frame tags, lens frames and part frames, the control block, calibration profiles. -/

namespace Sys2Proof

/-! ### Requests (R1) -/

/-- The address of the request's first byte. -/
def UpRequest.first (r : UpRequest) : Nat := r.addr.toNat

/-- The address of the request's last byte. -/
def UpRequest.last (r : UpRequest) : Nat := r.addr.toNat + 16 * r.beats - 1

/-- The request crosses a 256-byte boundary. -/
def UpRequest.crosses (r : UpRequest) : Bool := r.first / 256 ≠ r.last / 256

/-- The line addresses the request touches, in address order. -/
def UpRequest.linesTouched (r : UpRequest) : List Nat :=
  if r.crosses then [r.first / 256, r.last / 256] else [r.first / 256]

/-- The request is a WRITE. -/
def UpRequest.isWrite (r : UpRequest) : Bool :=
  match r.kind with
  | .read => false
  | .write _ => true

/-- The lanes of a WRITE; a READ has none. -/
def ReqKind.lanes : ReqKind → List Lane
  | .read => []
  | .write lanes => lanes

end Sys2Proof

namespace Sys2Proof.Machine

/-- The 256 lanes of a line that a run of lanes from an address puts into it. -/
def linePart (addr : Nat) (lanes : List Lane) (line : Nat) : List Lane :=
  let pad := List.replicate 256 none
  if line * 256 ≤ addr then (List.replicate (addr - line * 256) none ++ lanes ++ pad).take 256
  else (lanes.drop (line * 256 - addr) ++ pad).take 256

/-- Lay the enabled lanes of `new` over the lanes of `old` (R124). -/
def mergeLanes (old new : List Lane) : List Lane :=
  List.zipWith (fun o n => if n.isSome then n else o) old new

/-- Lay the enabled lanes of `new` over bytes (R122, R130). -/
def mergeBytes (old : List Byte) (new : List Lane) : List Byte :=
  List.zipWith (fun o (n : Lane) => n.getD o) old new

/-- The 16 × n lanes with no byte-enable set. -/
def noLanes (n : Nat) : List Lane := List.replicate n none

/-! ### Window geometry (R22, R54) -/

/-- The size of the extent in bytes. -/
def Window.extent (w : Window) : Nat := w.pitch * (w.firstRow + w.height)

/-- A byte address lies in the extent. -/
def Window.holds (w : Window) (a : Nat) : Bool := w.base ≤ a && a < w.base + w.extent

/-- The row of a byte address of the extent. -/
def Window.rowOf (w : Window) (a : Nat) : Nat := (a - w.base) / w.pitch

/-- The byte within its row. -/
def Window.byteInRow (w : Window) (a : Nat) : Nat := (a - w.base) % w.pitch

/-- A row is an image row. -/
def Window.isImageRow (w : Window) (row : Nat) : Bool :=
  w.firstRow ≤ row && row < w.firstRow + w.height

/-- The first image row of band b, and one past the last of band b - 1 (R54). -/
def bandStart (height b : Nat) : Nat := b * height / 8

/-- The band of an image row (R54). -/
def bandOfRow (height y : Nat) : BandId :=
  (allBands.find? fun b => y < bandStart height (b.val + 1)).getD 7

/-- The mid row of a band: the floor of the mean of its first and last image rows (R54). -/
def midRow (height : Nat) (b : BandId) : Nat :=
  (bandStart height b.val + (bandStart height (b.val + 1) - 1)) / 2

/-- The band of a line of the window: the band of its row (R22). -/
def Window.bandOfLine (w : Window) (line : Nat) : BandId :=
  bandOfRow w.height (w.rowOf (line * 256) - w.firstRow)

/-- The address of the last byte of the last image row (R28). -/
def Window.lastImageByte (w : Window) : Nat :=
  w.base + w.pitch * (w.firstRow + w.height - 1) + 2 * w.width - 1

/-- The address of the tag's first byte (R22, R49). -/
def Window.tagStart (w : Window) : Nat := w.base + w.tagRow * w.pitch + w.tagOffset

/-- A master is in the reader set. -/
def Window.reads (w : Window) (master : BitVec 4) : Bool := w.readers.getLsbD master.toNat

/-- Two byte ranges share a byte (log entry 15). -/
def overlaps (base1 size1 base2 size2 : Nat) : Bool :=
  base1 < base2 + size2 && base2 < base1 + size1 && 0 < size1 && 0 < size2

/-! ### The frame tag (R47, R48, R189) -/

/-- The checksum sum: 16-bit little-endian words, modulo 65536. -/
def wordSum : List Byte → BitVec 16
  | lo :: hi :: rest => (hi ++ lo : BitVec 16) + wordSum rest
  | _ => 0

/-- The sequence word of a tag. -/
def tagSequenceWord (bs : List Byte) : BitVec 16 := BitVec.ofNat 16 (readLE (byteAt bs) 4 2)

/-- A decode attempt on 64 tag bytes: the first check that fails, or the decoded fields (R48). -/
def decodeTag (bs : List Byte) : Except TagFault FrameTag :=
  let shutter := readLE (byteAt bs) 6 2
  let exposure := readLE (byteAt bs) 8 4
  let lineTime := readLE (byteAt bs) 12 4
  let strobeOffset := signed32 (readLE (byteAt bs) 16 4)
  if readLE (byteAt bs) 0 4 ≠ 0xB6C0F7A1 then .error .marker
  else if wordSum bs ≠ 0 then .error .checksum
  else if 1 < shutter then .error .shutterKind
  else if ¬(1 ≤ exposure ∧ exposure ≤ 500000) then .error .exposureDuration
  else if ¬(1000 ≤ lineTime ∧ lineTime ≤ 100000) then .error .lineTime
  else if ¬(-100000 ≤ strobeOffset ∧ strobeOffset ≤ 100000) then .error .strobeOffset
  else .ok { sequence := tagSequenceWord bs, shutter := if shutter = 0 then .rolling else .global
             exposure := exposure, lineTime := lineTime, strobeOffset := strobeOffset }

/-! ### Lens frames and part frames (R60–R62, R192) -/

/-- One bit of the CRC-16, generator polynomial 0x1021. -/
def crcBit (c : BitVec 16) : BitVec 16 := if c.msb then (c <<< 1) ^^^ 0x1021 else c <<< 1

/-- One byte of the CRC-16, most significant bit first. -/
def crcByte (c : BitVec 16) (b : Byte) : BitVec 16 :=
  let c := c ^^^ (b ++ (0 : BitVec 8) : BitVec 16)
  crcBit (crcBit (crcBit (crcBit (crcBit (crcBit (crcBit (crcBit c)))))))

/-- The CRC-16 of a run of bytes; the register starts at 0xFFFF (R192). -/
def crc16 (bs : List Byte) : BitVec 16 := bs.foldl crcByte 0xFFFF

/-- A sample as a lens frame carries it (R61). -/
structure RawSample where
  focus : BitVec 16
  iris : BitVec 8
  focusValid : Bool
  irisValid : Bool
  deriving DecidableEq, Repr

/-- The fields of a well-formed lens frame (R60). -/
structure LensFrame where
  kind : Mode
  sequence : BitVec 8
  checkByte : Byte
  samples : List RawSample
  payload : Option (Nat × List Byte)
  reply : Option LensIdentity
  deriving DecidableEq, Repr

/-- The sample at an offset of a lens frame. -/
def rawSampleAt (bs : List Byte) (off : Nat) : RawSample :=
  { focus := BitVec.ofNat 16 (readLE (byteAt bs) off 2), iris := byteAt bs (off + 2)
    focusValid := markOf (byteAt bs (off + 3)) 0, irisValid := markOf (byteAt bs (off + 3)) 1 }

/-- The lens frame in a run of bytes, or `none` when the frame is damaged (R60, R192). The check made
first is the CRC. -/
def parseLensFrame (bs : List Byte) : Option LensFrame :=
  let n := bs.length
  let header := byteAt bs 0
  let fast := markOf header 0
  let hasPayload := markOf header 1
  let hasReply := markOf header 2
  let samples := if fast then 4 else 1
  let atPayload := 3 + 4 * samples
  let atReply := atPayload + (if hasPayload then 18 else 0)
  let size := atReply + (if hasReply then 6 else 0) + 2
  let reply : LensIdentity :=
    ⟨BitVec.ofNat 32 (readLE (byteAt bs) atReply 4), BitVec.ofNat 16 (readLE (byteAt bs) (atReply + 4) 2)⟩
  if n < 2 then none
  else if crc16 (bs.take (n - 2)) ≠ BitVec.ofNat 16 (readLE (byteAt bs) (n - 2) 2) then none
  else if n ≠ size then none
  else if fast && hasPayload then none
  else if hasReply && byteAt bs 2 ≠ reply.id.setWidth 8 then none
  else some
    { kind := if fast then .fast else .normal, sequence := byteAt bs 1, checkByte := byteAt bs 2
      samples := (List.range samples).map fun i => rawSampleAt bs (3 + 4 * i)
      payload := if hasPayload then
          some (readLE (byteAt bs) atPayload 2, (bs.drop (atPayload + 2)).take 16) else none
      reply := if hasReply then some reply else none }

/-- Close a frame with its CRC, low byte first (R192). -/
def withCrc (bs : List Byte) : List Byte := bs ++ leBytes 2 (crc16 bs).toNat

/-- The code of a mode (R190). -/
def Mode.code : Mode → Nat
  | .normal => 0
  | .fast => 1

/-- The 6 bytes of a part frame (R192). -/
def PartFrame.bytes : PartFrame → List Byte
  | .poll q => withCrc ([1, q] ++ leBytes 2 0)
  | .identReq q => withCrc ([2, q] ++ leBytes 2 0)
  | .blockReq q b => withCrc ([3, q] ++ leBytes 2 b)
  | .modeReq q m => withCrc ([4, q] ++ leBytes 2 m.code)

/-! ### The control block (R188) -/

/-- The header words' offsets in the control area. -/
def commitOffset : Nat := 0x000
/-- Consumed index. -/
def consumedOffset : Nat := 0x004
/-- Snapshot request. -/
def snapshotOffset : Nat := 0x008
/-- Command word. -/
def commandOffset : Nat := 0x00C

/-- A handed-over write covers at least one byte of the 4-byte word at an offset (R173). -/
def coversAt (w : ControlBytes) (off : Nat) : Bool :=
  (List.range 4).any fun i =>
    w.offset ≤ off + i && ((w.lanes.getD (off + i - w.offset) none).isSome)

/-- The bypass region at index i (log entry 20). -/
def shadowRegion (m : Memory) (i : Nat) : Region :=
  { enabled := markOf (m.read (0x080 + 32 * i)) 0
    base := m.number (0x080 + 32 * i + 8) 5, size := m.number (0x080 + 32 * i + 16) 8 }

/-- The focus mark at index i. -/
def shadowMark (m : Memory) (i : Nat) : FocusMark :=
  { enabled := markOf (m.read (0x100 + 4 * i)) 0, value := m.number (0x100 + 4 * i + 2) 2 }

/-- The ring the shadow names: a size of 0 names none. -/
def shadowRing (m : Memory) : Option Ring :=
  if m.number 0x068 2 = 0 then none else some ⟨m.number 0x060 5, m.number 0x068 2⟩

/-- The snapshot address the shadow holds. -/
def shadowSnapshot (m : Memory) : Option Nat :=
  if markOf (m.read 0x078) 0 then some (m.number 0x070 5) else none

/-- The global settings the shadow holds, its codes taken to name values (checked by
`settingsInRange`). -/
def shadowSettings (m : Memory) : Settings :=
  { resolveDeadline := m.number 0x040 4, tagDeadline := m.number 0x044 4
    latency := m.number 0x048 2, tolerance := m.number 0x04A 2
    writeHit := if m.read 0x04C = 0 then .invalidate else .update
    border := if m.read 0x04D = 0 then .edge else .fill
    fillValue := m.number 0x04E 2
    framing := if m.read 0x050 = 0 then .narrowest
      else if m.read 0x050 = 1 then .atFocus (m.number 0x054 2) else .fixed (m.number 0x058 4)
    acceptance := if m.read 0x051 = 0 then .auto else .hold
    modeRequest := if m.read 0x052 = 0 then .normal else .fast
    regions := #v[shadowRegion m 0, shadowRegion m 1, shadowRegion m 2, shadowRegion m 3]
    focusMarks := #v[shadowMark m 0, shadowMark m 1, shadowMark m 2, shadowMark m 3]
    eventDisable := BitVec.ofNat 32 (m.number 0x05C 4) &&& 0x003FFFFE
    ring := shadowRing m
    snapshotAddr := shadowSnapshot m }

/-- An enabled bypass region is within its range (R176). -/
def Region.inRange (r : Region) : Bool :=
  !r.enabled || (r.base % 256 == 0 && r.size % 256 == 0 && 256 ≤ r.size &&
    (r.base + r.size < 2 ^ 40 || (r.base + r.size == 2 ^ 40 && Config.regionMayEndAtTop)))

/-- A number lies from lo to hi. -/
def within (lo hi v : Nat) : Bool := lo ≤ v && v ≤ hi

/-- Order 1 of R174: every global setting is within its range and every code names a value (R176). -/
def settingsInRange (m : Memory) : Bool :=
  within 100 50000 (m.number 0x040 4) && within 100 50000 (m.number 0x044 4) &&
  within 0 1023 (m.number 0x048 2) && within 0 4095 (m.number 0x04A 2) &&
  within 0 1 (m.read 0x04C).toNat && within 0 1 (m.read 0x04D).toNat &&
  within 0 2 (m.read 0x050).toNat && within 0 1 (m.read 0x051).toNat &&
  within 0 1 (m.read 0x052).toNat &&
  (m.read 0x050 != 2 || within 32768 131072 (m.number 0x058 4)) &&
  (shadowRegion m 0).inRange && (shadowRegion m 1).inRange &&
  (shadowRegion m 2).inRange && (shadowRegion m 3).inRange

/-- The window descriptor the shadow holds for a slot; a DISABLED one is `none` (R188). Byte 0 of the
base address is reserved, so the base taken is a multiple of 256. -/
def shadowWindow (m : Memory) (slot : SlotId) : Option Window :=
  let o := 0x200 + 64 * slot.val
  let marks := m.read o
  if markOf marks 0 then
    some { base := 256 * m.number (o + 9) 4, pitch := m.number (o + 16) 4
           width := m.number (o + 20) 2, height := m.number (o + 22) 2
           firstRow := (m.read (o + 2)).toNat, tagRow := (m.read (o + 3)).toNat
           tagOffset := m.number (o + 24) 2, writer := (m.read (o + 1)).setWidth 4
           readers := BitVec.ofNat 16 (m.number (o + 4) 2), correctedView := markOf marks 1
           centre := if markOf marks 2 then some (m.number (o + 26) 2, m.number (o + 28) 2) else none }
  else none

/-- Order 4 of R174: width, height, image first row and centre override (R22). -/
def Window.geometryOk (w : Window) : Bool :=
  within 512 8192 w.width && w.width % 2 == 0 && within 256 6144 w.height && w.height % 2 == 0 &&
  within 1 15 w.firstRow &&
  (match w.centre with
   | none => true
   | some (c, r) => c < w.width && r < w.height)

/-- Order 5 of R174. -/
def Window.pitchOk (w : Window) : Bool := w.pitch % 256 == 0 && within (2 * w.width) 65536 w.pitch

/-- Order 6 of R174. -/
def Window.tagPlacementOk (w : Window) : Bool :=
  within 0 14 w.tagRow && w.tagRow < w.firstRow && w.tagOffset % 16 == 0 && w.tagOffset + 64 ≤ w.pitch

/-- Order 7 of R174. -/
def Window.readerSetOk (w : Window) : Bool := !w.reads w.writer

/-! ### Calibration profiles (R102, R103, R189) -/

/-- A 16-bit word at byte i of a block. -/
def Area.word (a : Area) (block i : Nat) : Nat := a.bytes.number (16 * block + i) 2

/-- The identity in the header. -/
def Area.identity (a : Area) : LensIdentity :=
  ⟨BitVec.ofNat 32 (a.bytes.number 0 4), BitVec.ofNat 16 (a.bytes.number 4 2)⟩

/-- Breathing knot count n. -/
def Area.breathingCount (a : Area) : Nat := (a.bytes.read 6).toNat
/-- Vignetting focus knot count nf. -/
def Area.focusCount (a : Area) : Nat := (a.bytes.read 7).toNat
/-- Vignetting iris knot count ni. -/
def Area.irisCount (a : Area) : Nat := (a.bytes.read 8).toNat
/-- The header's block count. -/
def Area.blockCount (a : Area) : Nat := a.word 0 10

/-- 4 + ceil(n ÷ 2) + 8 × nf × ni (R102). -/
def Area.expectedBlocks (a : Area) : Nat :=
  4 + (a.breathingCount + 1) / 2 + 8 * a.focusCount * a.irisCount

/-- The optical centre offset in block 1. -/
def Area.offset (a : Area) : Int × Int := (signed16 (a.word 1 0), signed16 (a.word 1 2))

/-- The breathing curve: knots of focus and field size. -/
def Area.breathing (a : Area) : List (Nat × Nat) :=
  (List.range a.breathingCount).map fun i =>
    (a.word (4 + i / 2) (8 * (i % 2)), a.bytes.number (16 * (4 + i / 2) + 8 * (i % 2) + 4) 4)

/-- The vignetting focus knots. -/
def Area.focusKnots (a : Area) : List Nat := (List.range a.focusCount).map fun i => a.word 2 (2 * i)

/-- The vignetting iris knots. -/
def Area.irisKnots (a : Area) : List Nat := (List.range a.irisCount).map fun i => a.word 3 (2 * i)

/-- The gain of zone z, channel c in surface (j, k) (R103). -/
def Area.gain (a : Area) (j k z c : Nat) : Nat :=
  a.word (4 + (a.breathingCount + 1) / 2 + 8 * (j * a.irisCount + k) + z / 2) (8 * (z % 2) + 2 * c)

/-- Every knot is above the one before it. -/
def ascending : List Nat → Bool
  | x :: y :: rest => x < y && ascending (y :: rest)
  | _ => true

/-- The checksum sum of blocks 0 to n - 1 (R103). -/
def Area.checksum (a : Area) (blocks : Nat) : BitVec 16 :=
  (List.range (8 * blocks)).foldl (fun acc i => acc + BitVec.ofNat 16 (a.bytes.number (2 * i) 2)) 0

/-- The header checks made when block 0 arrives (R111): the first that fails. -/
def Area.headerFault (a : Area) (target : LensIdentity) : Option FormatCheck :=
  if a.identity ≠ target then some .headerIdentity
  else if !(within 4 32 a.breathingCount && within 1 8 a.focusCount && within 1 8 a.irisCount) then
    some .headerCounts
  else if a.blockCount ≠ a.expectedBlocks then some .headerBlockCount
  else none

/-- The checks of R113 in their order: the reason, and the failing check of a FORMAT failure. -/
def Area.validationFault (a : Area) (blocks : Nat) : Option (LoadReason × Option FormatCheck) :=
  if a.checksum blocks ≠ 0 then some (.checksum, none)
  else if !(ascending (a.breathing.map Prod.fst) && a.breathing.all fun k => within 16384 262144 k.2) then
    some (.format, some .breathing)
  else if !ascending a.focusKnots then some (.format, some .focusKnots)
  else if !(ascending a.irisKnots && a.irisKnots.all fun k => k ≤ 255) then some (.format, some .irisKnots)
  else none

end Sys2Proof.Machine
end

