-- ==== Sys2Proof/Machine/Flags.lean ====
section
/-! DEFINITION. What the part reports: the consumed index in force and ATTN_N, the codes, the 32 bytes
of an event record and the 512 bytes of a Status Snapshot. -/

namespace Sys2Proof.Machine

/-! ### The ring and ATTN_N (R183, R184) -/

/-- The number of records of the ring in force; 1 when there is none. -/
def State.ringSize (s : State) : Nat :=
  match s.cru.settings.ring with
  | none => 1
  | some r => r.size

/-- The consumed index in force C. -/
def State.consumed (s : State) : Nat :=
  if s.cru.ringState = .none then 0 else s.cru.shadow.number consumedOffset 4 % s.ringSize

/-- ATTN_N as the ring drives it: Low exactly when P differs from C or the ring is BROKEN. -/
def State.attnLevel (s : State) : Bool :=
  s.cru.produce == s.consumed && s.cru.ringState != .broken

/-! ### Codes (R190) -/

def ResKind.code : ResKind → Nat
  | .exact => 1 | .old => 2 | .late => 3 | .lensLost => 4
  | .noSample => 5 | .noProfile => 6 | .forced => 7 | .untagged => 8

/-- The kind of a band that may be WAITING. -/
def kindCode : Option ResKind → Nat
  | none => 0
  | some k => k.code

def areaCode : Option AreaId → Nat
  | none => 0
  | some .p0 => 1
  | some .p1 => 2

def AreaState.code : AreaState → Nat
  | .free => 0 | .loading => 1 | .active => 2 | .retiring => 3

def LinkState.code : LinkState → Nat
  | .down => 1 | .acquiring => 2 | .ident => 3 | .ready => 4 | .holdover => 5

def LinkReason.code : LinkReason → Nat
  | .firstFrame => 1 | .acquired => 2 | .identified => 3 | .identFail => 4 | .mismatch => 5
  | .loss => 6 | .recovered => 7 | .detach => 8 | .restart => 9

def LoadReason.code : LoadReason → Nat
  | .checksum => 1 | .format => 2 | .timeout => 3 | .link => 4 | .superseded => 5

def checkCode : Option FormatCheck → Nat
  | none => 0
  | some .headerIdentity => 1
  | some .headerCounts => 2
  | some .headerBlockCount => 3
  | some .breathing => 4
  | some .focusKnots => 5
  | some .irisKnots => 6

def SlotState.code : SlotState → Nat
  | .free => 0 | .armed => 1 | .tagged => 2 | .resolved => 3 | .complete => 4

/-- Reason and field of TAG_INVALID. -/
def TagFault.codes : TagFault → Nat × Nat
  | .marker => (1, 0) | .checksum => (2, 0) | .shutterKind => (3, 1) | .exposureDuration => (3, 2)
  | .lineTime => (3, 3) | .strobeOffset => (3, 4)

def CommitFault.code : CommitFault → Nat
  | .setting => 1 | .ring => 2 | .snapshot => 3 | .geometry => 4 | .pitch => 5 | .tagPlacement => 6
  | .readerSet => 7 | .overlap => 8

def RefuseReason.code : RefuseReason → Nat
  | .draining => 1 | .bypassEntry => 2 | .unknown => 3 | .noAddress => 4

/-- Parts faulted of FILL_FAULT. -/
def partsCode (parts : List FillPartKind) : Nat :=
  if .single ∈ parts then 1
  else if .critical ∈ parts then (if .wrap ∈ parts then 4 else 2)
  else 3

/-- 1 for set, 0 for clear. -/
def bit (b : Bool) : Nat := if b then 1 else 0

/-- A stamp's 4 bytes. -/
def stampBytes (t : Stamp) : List Byte := leBytes 4 t.toNat

/-- The bytes of a stamp that may be absent. -/
def stampBytes? : Option Stamp → List Byte
  | none => zeros 4
  | some t => stampBytes t

/-- A slot set, mark s for slot s. -/
def slotSet (l : List SlotId) : Nat := marksByte (allSlots.map fun i => l.contains i)

/-! ### Event records (R190) -/

/-- The payload of BAND_LATE and OUT_OF_HISTORY. -/
def bandPayload (kind : ResKind) (band : BandId) (time deadline source : Option Stamp) :
    List (Nat × List Byte) :=
  [(0, leBytes 1 kind.code), (1, leBytes 1 band.val), (2, leBytes 1 (bit source.isSome)),
   (4, stampBytes? time), (8, stampBytes? deadline), (12, stampBytes? source)]

/-- The payload fields of an event at their offsets. -/
def Event.fields : Event → List (Nat × List Byte)
  | .frameDone sequence flags area beats saturated kinds =>
    [(0, leBytes 2 (sequence.getD 0).toNat),
     (2, leBytes 1 (marksByte [flags.truncated, flags.short, flags.long, flags.earlyRead,
        flags.magClamped, sequence.isSome])),
     (3, leBytes 1 (areaCode area)), (4, leBytes 4 beats), (8, leCount 4 saturated),
     (12, kinds.toList.flatMap fun k => leBytes 1 (kindCode k))]
  | .tagMissing first beats eof =>
    [(0, stampBytes? first), (4, leBytes 4 beats), (8, leBytes 1 (bit eof))]
  | .tagInvalid fault sequence stamp =>
    [(0, leBytes 1 fault.codes.1), (1, leBytes 1 fault.codes.2), (2, leBytes 2 sequence.toNat),
     (4, stampBytes stamp)]
  | .strobeMissing sequence newest decode start =>
    [(0, leBytes 2 sequence.toNat), (2, leBytes 2 (newest.getD 0).toNat),
     (4, leBytes 1 (bit newest.isSome)), (8, stampBytes decode), (12, stampBytes start)]
  | .bandLate kind band time deadline source => bandPayload kind band time deadline source
  | .outOfHistory kind band time deadline source => bandPayload kind band time deadline source
  | .linkState left entered reason run lastGood check =>
    [(0, leBytes 1 left.code), (1, leBytes 1 entered.code), (2, leBytes 1 reason.code),
     (3, leCount 1 run), (4, leBytes 1 (lastGood.getD 0).toNat), (5, leBytes 1 (bit lastGood.isSome)),
     (6, leBytes 1 (check.getD 0).toNat)]
  | .lensIdent identity => [(0, leBytes 4 identity.id.toNat), (4, leBytes 2 identity.revision.toNat)]
  | .profileLoaded area old identity blocks n nf ni requests =>
    [(0, leBytes 1 (areaCode (some area))), (1, leBytes 1 (areaCode (old.map Prod.fst))),
     (2, leBytes 1 (match old with | none => 0 | some (_, st, _) => st.code)),
     (3, leCount 1 (match old with | none => 0 | some (_, _, refs) => refs)),
     (4, leBytes 4 identity.id.toNat), (8, leBytes 2 identity.revision.toNat),
     (10, leBytes 2 blocks), (12, leBytes 1 n), (13, leBytes 1 nf), (14, leBytes 1 ni),
     (16, leCount 2 requests)]
  | .profileFailed reason area target check known received block =>
    [(0, leBytes 1 reason.code), (1, leBytes 1 (areaCode area)), (2, leBytes 1 (bit target.isSome)),
     (3, leBytes 1 (checkCode check)),
     (4, leBytes 4 (match target with | none => 0 | some t => t.id.toNat)),
     (8, leBytes 2 (match target with | none => 0 | some t => t.revision.toNat)),
     (10, leBytes 2 (known.getD 0)), (12, leCount 2 received), (14, leBytes 2 block)]
  | .modeChanged old new target sequence =>
    [(0, leBytes 1 old.code), (1, leBytes 1 new.code), (2, leBytes 1 target.code),
     (3, leBytes 1 (sequence.getD 0).toNat)]
  | .modeDeferred noProfile load notReady link =>
    [(0, leBytes 1 (marksByte [noProfile, load, notReady])), (1, leBytes 1 link.code)]
  | .focusMark index up value p n stamp =>
    [(0, leBytes 1 index.val), (1, leBytes 1 (if up then 1 else 2)), (2, leBytes 2 value),
     (4, leBytes 2 p.toNat), (6, leBytes 2 n.toNat), (8, stampBytes stamp)]
  | .commitApplied applied pending withdrawn =>
    [(0, leBytes 1 (slotSet applied)), (1, leBytes 1 (slotSet pending)),
     (2, leBytes 1 (slotSet withdrawn))]
  | .commitRejected reason slot =>
    [(0, leBytes 1 reason.code),
     (1, leBytes 1 (match slot with | none => 0xFF | some i => i.val))]
  | .commandRefused value reason snapshot =>
    [(0, leBytes 4 value), (4, leBytes 1 reason.code), (5, leBytes 1 (bit snapshot))]
  | .writebackFault addr band marked demanded =>
    [(0, leBytes 8 addr), (8, leBytes 1 (match band with | none => 0 | some b => b.val)),
     (10, leBytes 2 marked), (12, leBytes 1 (bit demanded))]
  | .fillFault addr parts failed =>
    [(0, leBytes 8 addr), (8, leBytes 1 (partsCode parts)), (9, leCount 1 failed)]
  | .illegalSpan addr master tag beats =>
    [(0, leBytes 8 addr.toNat), (8, leBytes 1 master.toNat), (9, leBytes 1 tag.toNat),
     (10, leBytes 1 beats)]
  | .snapshotDone addr fault => [(0, leBytes 8 addr), (8, leBytes 1 (bit fault))]
  | .drainDone accepted cancelled generations castouts faulted reads loadAborted =>
    [(0, stampBytes accepted), (4, leBytes 1 (bit cancelled)), (5, leCount 1 generations),
     (6, leCount 2 castouts), (8, leCount 2 faulted), (10, leCount 1 reads),
     (11, leBytes 1 (bit loadAborted))]

/-- The 32 bytes of an event record (R190). -/
def EventRecord.bytes (r : EventRecord) : List Byte :=
  layout 32
    [(0, leBytes 1 r.event.code), (1, leBytes 1 (marksByte [r.overflow, r.slot.isSome])),
     (2, leBytes 1 (match r.slot with | none => 0 | some (i, _) => i.val)),
     (3, leBytes 1 (match r.slot with | none => 0 | some (_, g) => g.toNat)),
     (4, stampBytes r.stamp), (12, layout 20 r.event.fields)]

/-! ### The Status Snapshot (R191) -/

/-- A sample in the layout of the newest sample; an absent one is 8 bytes of 0. -/
def sampleBytes : Option Sample → List Byte
  | none => zeros 8
  | some x => stampBytes x.stamp ++ leBytes 2 x.focus.toNat ++ leBytes 1 x.iris.toNat ++
      leBytes 1 (marksByte [x.focusValid, x.irisValid, true])

/-- The 24 bytes of a slot; for a FREE slot all but the generation is 0. -/
def Slot.snapshotBytes (sl : Slot) : List Byte :=
  let f := sl.frame
  if f.state = .free then layout 24 [(1, leBytes 1 f.generation.toNat)]
  else layout 24
    [(0, leBytes 1 f.state.code), (1, leBytes 1 f.generation.toNat),
     (2, leBytes 1 (marksByte [f.tagSequence.isSome, f.successor.isSome, f.pendingTag.isSome,
        sl.pendingDesc.isSome])),
     (4, leBytes 2 (f.tagSequence.getD 0).toNat), (6, leBytes 2 f.held),
     (8, f.bands.toList.flatMap fun b => leBytes 1 (kindCode (b.result.map BandResult.kind)))]

/-- The number of records in a state. -/
def State.countLines (s : State) (p : LineRec → Bool) : Nat := s.ls.lines.toList.countP p

def LineRec.isInvalid : LineRec → Bool
  | .invalid => true
  | _ => false
def LineRec.isFilling : LineRec → Bool
  | .filling _ _ _ _ => true
  | _ => false
def LineRec.isClean : LineRec → Bool
  | .clean _ _ => true
  | _ => false
def LineRec.isHeld : LineRec → Bool
  | .held _ _ _ _ => true
  | _ => false
def LineRec.isCasting : LineRec → Bool
  | .casting _ _ _ _ => true
  | _ => false
/-- HELD with its demand mark set. -/
def LineRec.isDemanded : LineRec → Bool
  | .held _ _ _ demand => demand
  | _ => false

/-- The number of BUSY entries of the Outstanding Table. -/
def State.busyCount (s : State) : Nat := s.mpu.outstanding.toList.countP Option.isSome

/-- The ring state's code. -/
def RingState.code : RingState → Nat
  | .none => 0 | .set => 1 | .broken => 2

/-- The procedure in progress at 0x129. -/
def Procedure.code : Procedure → Nat
  | .none => 0
  | .drain _ => 1
  | .bypassEntry _ => 2

/-- The match mark: only an ACTIVE area carries it. -/
def State.matchMark (s : State) : Bool := s.pu.p0.matchMark || s.pu.p1.matchMark

/-- The number of blocks received of the load in progress. -/
def State.blocksReceived (s : State) (ld : Load) : Nat :=
  match ld.area with
  | none => 0
  | some .p0 => s.pu.p0.received.toList.countP id
  | some .p1 => s.pu.p1.received.toList.countP id

/-- The load held and its progress, from 0x015 on. -/
def State.loadFields (s : State) : List (Nat × List Byte) :=
  match s.pu.load with
  | none => []
  | some ld =>
    [(0x015, leBytes 1 (if ld.area.isSome then 2 else 1)), (0x016, leBytes 1 (areaCode ld.area)),
     (0x018, leBytes 2 (ld.known.getD 0)), (0x01A, leBytes 2 (s.blocksReceived ld)),
     (0x01C, leBytes 1 ld.requests.length)]

/-- The 512 bytes captured at the start of a snapshot (R185, R191); the claims waiting are all the claims
placed and not withdrawn or ended, those that await their grant too (log entry 47). -/
def State.snapshotBytes (s : State) : List Byte :=
  layout 512 (
    [(0x000, leBytes 1 s.llc.link.code), (0x001, leBytes 1 s.llc.linkMode.code),
     (0x002, leBytes 1 s.llc.modeTarget.code), (0x003, leBytes 1 s.cru.settings.modeRequest.code),
     (0x004, leCount 1 s.llc.run), (0x005, leBytes 1 (bit s.llc.identified.isSome)),
     (0x008, match s.llc.identified with
       | none => zeros 6
       | some l => leBytes 4 l.id.toNat ++ leBytes 2 l.revision.toNat),
     (0x010, leBytes 1 s.pu.p0.state.code), (0x011, leBytes 1 s.pu.p1.state.code),
     (0x012, leBytes 1 (bit s.matchMark)), (0x013, leBytes 1 s.pu.p0.refs),
     (0x014, leBytes 1 s.pu.p1.refs)] ++ s.loadFields ++
    [(0x020, sampleBytes s.br.history.getLast?), (0x028, leBytes 2 s.br.history.length),
     (0x030, sampleBytes s.br.lastKnown), (0x038, leBytes 1 s.ssu.exposures.length),
     (0x03A, leBytes 2 s.ssu.strobe.toNat),
     (0x040, s.slots.toList.flatMap Slot.snapshotBytes),
     (0x100, leBytes 2 (s.countLines LineRec.isInvalid) ++ leBytes 2 (s.countLines LineRec.isFilling) ++
       leBytes 2 (s.countLines LineRec.isClean) ++ leBytes 2 (s.countLines LineRec.isHeld) ++
       leBytes 2 (s.countLines LineRec.isCasting)),
     (0x10A, leBytes 2 (s.countLines LineRec.isDemanded)), (0x10C, leCount 2 s.ls.claims.length),
     (0x110, leBytes 1 s.er.queue.length), (0x111, leBytes 1 s.busyCount),
     (0x120, leBytes 1 s.cru.ringState.code), (0x122, leBytes 2 s.cru.produce),
     (0x124, leBytes 2 s.consumed), (0x126, leBytes 1 s.cru.events.length),
     (0x127, leBytes 1 (bit s.cru.overflow)), (0x128, leBytes 1 (bit s.pins.bypass)),
     (0x129, leBytes 1 s.cru.proc.code)])

end Sys2Proof.Machine
end

