-- ==== Sys2Proof/Machine/Mode.lean ====
section
/-! DEFINITION. The mode target of the Lens Link Controller (R76, R78). -/

namespace Sys2Proof.Machine

/-- A profile area. -/
def State.area (s : State) : AreaId → Area
  | .p0 => s.pu.p0
  | .p1 => s.pu.p1

/-- Change a profile area. -/
def State.modArea (s : State) (a : AreaId) (f : Area → Area) : State :=
  match a with
  | .p0 => { s with pu := { s.pu with p0 := f s.pu.p0 } }
  | .p1 => { s with pu := { s.pu with p1 := f s.pu.p1 } }

/-- The area in a state, P0 before P1. -/
def State.areaIn (s : State) (st : AreaState) : Option AreaId :=
  if s.pu.p0.state = st then some .p0 else if s.pu.p1.state = st then some .p1 else none

/-- The ACTIVE area that carries the match mark (R105, R106). -/
def State.matchedArea (s : State) : Option AreaId :=
  match s.areaIn .active with
  | some a => if (s.area a).matchMark then some a else none
  | none => none

/-- The link condition of R76: READY, or HOLDOVER with the mode target already FAST. -/
def State.fastLink (s : State) : Bool :=
  s.llc.link == .ready || (s.llc.link == .holdover && s.llc.modeTarget == .fast)

/-- The mode target as R76 gives it. -/
def State.modeTargetNow (s : State) : Mode :=
  if s.cru.settings.modeRequest = .fast ∧ s.matchedArea.isSome ∧ s.pu.load.isNone ∧ s.fastLink then .fast
  else .normal

/-- MODE_DEFERRED with the conditions of R76 that fail (R78). -/
def State.deferredEvent (s : State) : Event :=
  .modeDeferred s.matchedArea.isNone s.pu.load.isSome (!s.fastLink) s.llc.link

/-- Evaluate the mode target (R76). `requested`: an accepted commit has just changed the mode request
from NORMAL to FAST. MODE_DEFERRED is raised at the two moments of R78. -/
def State.evalMode (s : State) (requested : Bool) : State :=
  let target := s.modeTargetNow
  let event := s.deferredEvent
  let fell := s.llc.modeTarget == .fast && target == .normal
  let t := { s with llc := { s.llc with modeTarget := target } }
  if s.cru.settings.modeRequest = .fast ∧ target = .normal ∧ (fell ∨ requested) then t.raise event else t

end Sys2Proof.Machine
end

