-- ==== Sys2Proof/Machine/Profile.lean ====
section
/-! DEFINITION. The Profile Unit: triggers, starts, block requests and replies, validation, failure,
capture and release of the profile areas (R102–R117). -/

namespace Sys2Proof.Machine

/-- Replace the held load. -/
def State.setLoad (s : State) (l : Option Load) : State := { s with pu := { s.pu with load := l } }

/-- A drain is in progress. -/
def State.inDrain (s : State) : Bool :=
  match s.cru.proc with
  | .drain _ => true
  | _ => false

/-- A pending load for a target (R109). -/
def Load.pendingFor (target : LensIdentity) : Load :=
  { target := target, area := none, requests := [], next := 0, known := none, sentCount := 0 }

/-- No block received. -/
def noBlocks : Vector Bool 532 := Vector.replicate 532 false

/-- A load starts in an area (R109). -/
def State.startLoad (s : State) (ld : Load) (a : AreaId) : State :=
  ((s.modArea a fun x => { x with state := .loading, received := noBlocks }).setLoad
    (some { Load.pendingFor ld.target with area := some a })).evalMode false

/-- A pending load starts in a FREE area, P0 first, if there is one (R109). -/
def State.startPending (s : State) : State :=
  match s.pu.load with
  | none => s
  | some ld =>
    match ld.area, s.areaIn .free with
    | none, some a => s.startLoad ld a
    | _, _ => s

/-- A load is triggered with a target (R109). -/
def State.triggerLoad (s : State) (target : LensIdentity) : State :=
  ((s.setLoad (some (.pendingFor target))).evalMode false).startPending

/-- The held load ends in failure or abort (R114). `block`: the block that timed out, else 0. -/
def State.failLoad (s : State) (reason : LoadReason) (check : Option FormatCheck) (block : Nat) : State :=
  match s.pu.load with
  | none => s
  | some ld =>
    let received := s.blocksReceived ld
    let s := match ld.area with
      | none => s
      | some a => s.modArea a fun x => { x with state := .free }
    ((s.setLoad none).raise
      (.profileFailed reason ld.area (some ld.target) check ld.known received block)).evalMode false

/-- A held load is superseded by a new trigger (R115); the new load starts at once when an area is FREE
(log entry 41). -/
def State.supersedeLoad (s : State) (target : LensIdentity) : State :=
  (s.failLoad .superseded none 0).triggerLoad target

/-- RELOAD_PROFILE as the Profile Unit takes it (R108). -/
def State.reload (s : State) : State :=
  match s.llc.identified with
  | none => s.raise (.profileFailed .link none none none none 0 0)
  | some l => if s.pu.load.isNone then s.triggerLoad l else s.supersedeLoad l

/-- The match mark of the ACTIVE area is set or cleared by an accepted reply (R105). -/
def State.markMatch (s : State) (reply : LensIdentity) : State :=
  match s.areaIn .active with
  | none => s
  | some a => (s.modArea a fun x => { x with matchMark := x.identity == reply }).evalMode false

/-- The Profile Unit takes an accepted identity reply (R107). -/
def State.takeIdentity (s : State) (reply : LensIdentity) : State :=
  let s := s.markMatch reply
  let wanted := s.cru.settings.acceptance == .auto && s.matchedArea.isNone
  match s.pu.load with
  | none => if wanted then s.triggerLoad reply else s
  | some ld =>
    if ld.target = reply then s
    else if wanted then s.supersedeLoad reply
    else s.failLoad .link none 0

/-- The load succeeds: the LOADING area becomes ACTIVE, the old one RETIRING or FREE (R113). -/
def State.activate (s : State) (ld : Load) (a : AreaId) : State :=
  let old := s.areaIn .active
  let retire (x : Area) : Area :=
    { x with state := if 0 < x.refs then .retiring else .free, matchMark := false }
  let s := match old with
    | none => s
    | some o => s.modArea o retire
  let s := s.modArea a fun x => { x with state := .active, matchMark := true }
  let new := s.area a
  let left := old.map fun o => (o, (s.area o).state, (s.area o).refs)
  ((s.setLoad none).raise (.profileLoaded a left new.identity new.blockCount new.breathingCount
    new.focusCount new.irisCount ld.sentCount)).evalMode false

/-- The profile is validated (R113). -/
def State.validate (s : State) (ld : Load) (a : AreaId) (blocks : Nat) : State :=
  match (s.area a).validationFault blocks with
  | some (reason, check) => s.failLoad reason check 0
  | none => s.activate ld a

/-- Store the 16 bytes of a block and set its received mark (R111). -/
def Area.store (a : Area) (block : Nat) (data : List Byte) : Area :=
  { a with bytes := a.bytes.writeLanes (16 * block) (data.map some)
           received := a.received.setIfInBounds block true }

/-- Every block below a count has been received. -/
def Area.hasAll (a : Area) (blocks : Nat) : Bool := (a.received.toList.take blocks).all id

/-- The check of R111 step 4: when the last block has been received, the profile is validated. -/
def State.checkComplete (s : State) (a : AreaId) : State :=
  match s.pu.load with
  | none => s
  | some ld =>
    match ld.known with
    | none => s
    | some n => if ld.requests.isEmpty && (s.area a).hasAll n then s.validate ld a n else s

/-- A block reply is taken (R111). -/
def State.blockReply (s : State) (block : Nat) (data : List Byte) : State :=
  match s.pu.load with
  | none => s
  | some ld =>
    match ld.area with
    | none => s
    | some a =>
      if ld.requests.any (fun r => r.block == block) then
        let s := s.modArea a fun x => x.store block data
        let ld := { ld with requests := ld.requests.filter fun r => r.block != block }
        let s := s.setLoad (some ld)
        if block = 0 then
          match (s.area a).headerFault ld.target with
          | some check => s.failLoad .format (some check) 0
          | none =>
            (s.setLoad (some { ld with known := some (s.area a).blockCount, next := 1 })).checkComplete a
        else s.checkComplete a
      else s

/-- A period event raises the period count of every SENT entry (R112). -/
def BlockRequest.age (r : BlockRequest) : BlockRequest :=
  if r.sent then { r with periods := r.periods + 1 } else r

/-- An entry that has timed out (R112). -/
def BlockRequest.timedOut (r : BlockRequest) : Bool := r.sent && 8 ≤ r.periods

/-- The Profile Unit counts a period event (R112). The period count of an entry that has timed out is set back to 0
here and again when it is sent, where alone R110 gives it (log entry 52). -/
def State.loadPeriod (s : State) : State :=
  match s.pu.load with
  | none => s
  | some ld =>
    let aged := ld.requests.map BlockRequest.age
    let again (r : BlockRequest) : BlockRequest :=
      { r with sent := false, periods := 0, timeouts := r.timeouts + 1 }
    match aged.find? fun r => r.timedOut && r.timeouts == 3 with
    | some r => (s.setLoad (some { ld with requests := aged })).failLoad .timeout none r.block
    | none =>
      s.setLoad (some { ld with
        requests := aged.filter (fun r => !r.timedOut) ++ (aged.filter BlockRequest.timedOut).map again })

/-- Mark the entry of a block SENT with its period count at 0 (R110). -/
def markSent (block : Nat) (l : List BlockRequest) : List BlockRequest :=
  l.map fun r => if r.block = block then { r with sent := true, periods := 0 } else r

/-- The block request the Profile Unit offers, with the load once it has been sent (R110). -/
def Load.offer (ld : Load) : Option (Nat × Load) :=
  if ld.area.isNone then none
  else
    let fresh (b : Nat) : BlockRequest := { block := b, sent := true, periods := 0, timeouts := 0 }
    match ld.requests.find? fun r => !r.sent with
    | some r =>
      some (r.block, { ld with requests := markSent r.block ld.requests, sentCount := ld.sentCount + 1 })
    | none =>
      match ld.known with
      | none =>
        if ld.requests.isEmpty && ld.next == 0 then
          some (0, { ld with requests := [fresh 0], sentCount := ld.sentCount + 1 })
        else none
      | some n =>
        if ld.requests.length < 4 ∧ ld.next < n then
          some (ld.next, { ld with requests := ld.requests ++ [fresh ld.next], next := ld.next + 1
                                   sentCount := ld.sentCount + 1 })
        else none

/-! ### Capture and release (R106) -/

/-- A generation entering TAGGED captures the matched ACTIVE area. -/
def State.capture (s : State) (i : SlotId) : State :=
  match s.matchedArea with
  | none => s.modFrame i fun f => { f with area := none, offsetX := 0, offsetY := 0 }
  | some a =>
    let o := (s.area a).offset
    (s.modArea a fun x => { x with refs := x.refs + 1 }).modFrame i fun f =>
      { f with area := some a, offsetX := o.1, offsetY := o.2 }

/-- A reference on an area is released; a RETIRING area whose count falls to 0 becomes FREE, and a
pending load starts in it unless a drain is in progress (R106, R109). -/
def State.releaseArea (s : State) : Option AreaId → State
  | none => s
  | some a =>
    let s := s.modArea a fun x => { x with refs := x.refs - 1 }
    if (s.area a).state = .retiring ∧ (s.area a).refs = 0 then
      let s := s.modArea a fun x => { x with state := .free }
      if s.inDrain then s else s.startPending
    else s

/-! ### Drain (R117) -/

/-- Drain step 3: a load in progress is aborted, a pending load is kept. -/
def State.abortForDrain (s : State) : State :=
  match s.pu.load with
  | none => s
  | some ld =>
    if ld.area.isSome then
      (s.failLoad .superseded none 0).modDrain fun d => { d with loadAborted := true }
    else s

/-- The Profile Unit's actions at DRAIN_DONE (R117); the five conditions alone decide whether a load is
triggered (log entry 42). -/
def State.resumeLoads (s : State) (aborted : Bool) : State :=
  match s.pu.load with
  | some ld =>
    if ld.area.isSome then s
    else if s.llc.identified = some ld.target then s.startPending
    else s.failLoad .link none 0
  | none =>
    match s.llc.identified with
    | some l =>
      if s.cru.settings.acceptance = .auto ∧ aborted ∧ s.matchedArea.isNone then s.triggerLoad l else s
    | none => s

end Sys2Proof.Machine
end

