-- ==== Sys2Proof/Machine/Lines.lean ====
section
/-! DEFINITION. Castout candidates, demands and the changes other blocks make to the line records
(R38, R126, R127). -/

namespace Sys2Proof.Machine

/-- The result of a band of a generation, when the generation is the slot's current one and the band is
RESOLVED. -/
def State.bandResultOf (s : State) (slot : SlotId) (g : Generation) (b : BandId) : Option BandResult :=
  let f := s.frame slot
  if f.generation = g then (f.bands[b]).result else none

/-- A HELD line whose band is RESOLVED in its generation is a castout candidate (R126). -/
def State.isCandidate (s : State) (r : LineRec) : Bool :=
  match r with
  | .held tag (some b) _ _ => (s.bandResultOf tag.slot tag.generation b).isSome
  | _ => false

/-- A class 4 candidate: a castout candidate whose demand mark is clear (R126). -/
def State.isBackground (s : State) (i : LineIdx) : Bool :=
  s.isCandidate (s.line i) && !(s.line i).isDemanded

/-- Join the tail of class 1 (R18, R127); lines demanded by the needs of one read join in the placing
order of the needs (log entry 43). -/
def State.joinClass1 (s : State) (i : LineIdx) : State :=
  { s with mpu := { s.mpu with class1 := s.mpu.class1 ++ [i] } }

/-- The castout of a HELD record is demanded (R127). -/
def State.demand (s : State) (i : LineIdx) : State :=
  match s.line i with
  | .held tag band lanes false =>
    let t := s.setLine i (.held tag band lanes true)
    if s.isCandidate (s.line i) then t.joinClass1 i else t
  | _ => s

/-- A demanded HELD line of a slot, generation and band. -/
def LineRec.demandedFor (r : LineRec) (slot : SlotId) (g : Generation) (b : BandId) : Bool :=
  match r with
  | .held tag (some c) _ true => tag.slot == slot && tag.generation == g && c == b
  | _ => false

/-- The demanded lines of a band that has been resolved join class 1, lowest index first (R18, R126, R127). The hand-on
of each band is a moment of its own: the bands of one generation from band 0 upward (R98), and, where one event resolves
bands of several slots, slot after slot, which is the model's choice (log entry 59). -/
def State.joinDemanded (s : State) (slot : SlotId) (g : Generation) (b : BandId) : State :=
  let joining := allLines.filter fun i =>
    (s.line i).demandedFor slot g b && !s.mpu.class1.contains i
  { s with mpu := { s.mpu with class1 := s.mpu.class1 ++ joining } }

/-- Change every line record. -/
def State.mapLines (s : State) (f : LineRec → LineRec) : State :=
  { s with ls := { s.ls with lines := mapTable s.ls.lines f } }

/-- A pending HELD line of a generation takes the band of its row. -/
def LineRec.takeBand (w : Window) (slot : SlotId) (g : Generation) (r : LineRec) : LineRec :=
  match r with
  | .held tag none lanes demand =>
    if tag.slot = slot ∧ tag.generation = g then .held tag (some (w.bandOfLine tag.line)) lanes demand
    else r
  | _ => r

/-- The pending HELD lines of a slot's current generation take the band of their row (R31, R126). -/
def State.linesTakeBand (s : State) (slot : SlotId) : State :=
  match (s.slot slot).committed with
  | none => s
  | some w => s.mapLines (LineRec.takeBand w slot (s.frame slot).generation)

/-- A descriptor applied to a slot makes the slot's CLEAN records INVALID, and those in the new extent. -/
def LineRec.dropClean (slot : SlotId) (w : Option Window) (r : LineRec) : LineRec :=
  match r with
  | .clean tag _ =>
    if tag.slot = slot then .invalid
    else match w with
      | none => r
      | some w => if w.holds (tag.line * 256) then .invalid else r
  | _ => r

/-- A record becomes INVALID if it is CLEAN at a line address (R125). -/
def State.dropUpdated (s : State) (line : Nat) : State :=
  match s.line (indexOf line) with
  | .clean tag _ => if tag.line = line then s.setLine (indexOf line) .invalid else s
  | _ => s

end Sys2Proof.Machine
end

