-- ==== Sys2Proof/Machine/Resolve.lean ====
section
/-! DEFINITION. The Band Resolver: choosing the lens state of a band, turning it into a magnification
and a gain list, writing and handing on the result (R83–R101). -/

namespace Sys2Proof.Machine

/-! ### The source of a resolution (R89–R92) -/

/-- The sample or samples whose focus and iris a resolution uses. `pair` also holds the band time. -/
inductive Source where
  | absent
  | one (x : Sample)
  | pair (a b : Sample) (t : Stamp)
  deriving DecidableEq, Repr

/-- What reaches a WAITING band (R88, R89). -/
inductive BandEvent where
  | attempt
  | expiry
  | linkDown
  /-- truncation, full successor, drain step 2 or bypass entry on a TAGGED generation -/
  | forced
  /-- tag deadline expiry, full successor, drain step 2 or bypass entry on an ARMED generation -/
  | untagged
  deriving DecidableEq, Repr

/-- The source that is one sample, if there is one. -/
def Source.ofOption : Option Sample → Source
  | none => .absent
  | some x => .one x

/-- The stamp of the source sample (R99). -/
def Source.stamp : Source → Option Stamp
  | .one x => some x.stamp
  | _ => none

/-- The lower and upper samples of a band time (R89, R90). A sample exactly 2^31 µs from the band time counts as
at or before it and as at or after it (log entry 51). -/
def bracket (history : List Sample) (t : Stamp) : Option (Sample × Sample) :=
  match (history.filter fun x => atOrBefore x.stamp t).getLast?,
      history.find? fun x => atOrBefore t x.stamp with
  | some a, some b => some (a, b)
  | _, _ => none

/-- The newest sample, or the last-known record when the history is empty (R89). -/
def Br.latest (br : Br) : Option Sample :=
  match br.history.getLast? with
  | some x => some x
  | none => br.lastKnown

/-- The captured area of a slot's generation is usable (R87). -/
def State.usableArea (s : State) (slot : SlotId) : Option AreaId :=
  match (s.frame slot).area with
  | none => none
  | some a => if s.llc.identified = some (s.area a).identity then some a else none

/-- The rows of R89 for an attempt or an expiry on a band with a usable profile that the history
settles. -/
def settle (history : List Sample) (t : Stamp) : Option (ResKind × Source) :=
  match bracket history t, history.head? with
  | some (a, b), _ => some (.exact, .pair a b t)
  | none, some oldest => if later oldest.stamp t then some (.old, .one oldest) else none
  | none, none => none

/-- The kind and source that an event gives a WAITING band, or `none` when the band stays WAITING
(R89). -/
def State.choose (s : State) (slot : SlotId) (time : Option Stamp) (e : BandEvent) :
    Option (ResKind × Source) :=
  match e with
  | .linkDown => some (.lensLost, .ofOption s.br.lastKnown)
  | .forced => some (.forced, .ofOption s.br.latest)
  | .untagged => some (.untagged, .ofOption s.br.latest)
  | .attempt =>
    if (s.usableArea slot).isNone then some (.noProfile, .absent)
    else time.bind (settle s.br.history)
  | .expiry =>
    if (s.usableArea slot).isNone then some (.noProfile, .absent)
    else match time.bind (settle s.br.history), s.br.history.getLast?, s.br.lastKnown with
      | some r, _, _ => some r
      | none, some newest, _ => some (.late, .one newest)
      | none, none, some x => some (.lensLost, .one x)
      | none, none, none => some (.noSample, .absent)

/-- The focus interpolated between two samples (R90). When the lower sample is later than the upper one, or 2^31 µs
from it, the focus is a free value that lies between the two (log entry 55). -/
def interpolateFocus (a b : Sample) (t : Stamp) : Nat :=
  if a.stamp = b.stamp then a.focus.toNat
  else if stampDiff b.stamp a.stamp ≤ 0 then
    let low := min a.focus.toNat b.focus.toNat
    let high := max a.focus.toNat b.focus.toNat
    low + Config.crossedFocus a.stamp b.stamp t a.focus b.focus % (high - low + 1)
  else (a.focus.toNat + roundHalfUp ((b.focus.toNat - a.focus.toNat : Int) * stampDiff t a.stamp)
    (stampDiff b.stamp a.stamp).toNat).toNat

/-- The focus used (R90–R92). -/
def Source.focus (newest : Option (BitVec 16)) : Source → Option Nat
  | .absent => none
  | .one x => if x.focusValid then some x.focus.toNat else newest.map BitVec.toNat
  | .pair a b t =>
    match a.focusValid, b.focusValid with
    | true, true => some (interpolateFocus a b t)
    | true, false => some a.focus.toNat
    | false, true => some b.focus.toNat
    | false, false => newest.map BitVec.toNat

/-- The iris used (R90–R92). -/
def Source.iris (newest : Option (BitVec 8)) : Source → Option Nat
  | .absent => none
  | .one x => if x.irisValid then some x.iris.toNat else newest.map BitVec.toNat
  | .pair a _ _ => if a.irisValid then some a.iris.toNat else newest.map BitVec.toNat

/-! ### From lens state to correction (R93–R96) -/

/-- The field size at a focus (R93). -/
def fieldAt : List (Nat × Nat) → Nat → Nat
  | [], _ => 0
  | [k], _ => k.2
  | k :: l :: rest, f =>
    if f ≤ k.1 then k.2
    else if f < l.1 then
      (k.2 + roundHalfUp ((l.2 - k.2 : Int) * (f - k.1 : Int)) (l.1 - k.1)).toNat
    else fieldAt (l :: rest) f

/-- The smallest field of the knots. -/
def smallestField : List (Nat × Nat) → Nat
  | [] => 0
  | [k] => k.2
  | k :: rest => min k.2 (smallestField rest)

/-- The framing target T (R94). -/
def framingTarget (setting : Framing) (knots : List (Nat × Nat)) : Nat :=
  match setting with
  | .narrowest => smallestField knots
  | .atFocus f => fieldAt knots f
  | .fixed field => field

/-- The magnification before the clamp (R95). -/
def rawMagnification (field target : Nat) : Nat := (roundHalfUp (field * 65536 : Nat) target).toNat

/-- The clamp of R95. -/
def clampMagnification (m : Nat) : Nat := max 52429 (min 81920 m)

/-- The pair of knot indices and the weight num / den of a value (R96). -/
def knotPair : Nat → List Nat → Nat → Nat × Nat × Nat × Nat
  | i, x :: y :: rest, v =>
    if v ≤ x then (i, i, 0, 1)
    else if v < y then (i, i + 1, v - x, y - x)
    else knotPair (i + 1) (y :: rest) v
  | i, _, _ => (i, i, 0, 1)

/-- One blended gain (R96). -/
def Area.blend (a : Area) (f s : Nat × Nat × Nat × Nat) (z c : Nat) : Nat :=
  let (j, j', nf, df) := f
  let (k, k', ns, ds) := s
  (roundHalfUp ((df - nf) * (ds - ns) * a.gain j k z c + nf * (ds - ns) * a.gain j' k z c +
    (df - nf) * ns * a.gain j k' z c + nf * ns * a.gain j' k' z c : Nat) (df * ds)).toNat

/-- 64 gains of 1.0 (R87, R151). -/
def identityGains : GainList := Vector.replicate 64 16384

/-- The gain list of a focus and an iris (R96). -/
def Area.gainsAt (a : Area) (focus iris : Nat) : GainList :=
  let f := knotPair 0 a.focusKnots focus
  let s := knotPair 0 a.irisKnots iris
  ⟨((List.range 64).map fun n => BitVec.ofNat 16 (a.blend f s (n / 4) (n % 4))).toArray, by simp⟩

/-- The identity result under a kind (R87). -/
def identityResult (kind : ResKind) : BandResult := ⟨kind, 65536, identityGains⟩

/-- The result of a band, and whether its magnification was clamped (R89, R92, R95). -/
def State.bandResult (s : State) (slot : SlotId) (kind : ResKind) (src : Source) : BandResult × Bool :=
  match s.usableArea slot, src.focus s.br.newestFocus with
  | some a, some focus =>
    let area := s.area a
    let m := rawMagnification (fieldAt area.breathing focus)
      (framingTarget s.cru.settings.framing area.breathing)
    let gains := match src.iris s.br.newestIris with
      | none => identityGains
      | some iris => area.gainsAt focus iris
    (⟨kind, clampMagnification m, gains⟩, decide (clampMagnification m ≠ m))
  | _, _ => (identityResult kind, false)

/-! ### Writing and handing on (R97–R99) -/

/-- BAND_LATE or OUT_OF_HISTORY when the kind's report mark is clear (R99). -/
def Slot.report (sl : Slot) (kind : ResKind) (b : BandId) (source : Option Stamp) : Option Event :=
  let band := sl.frame.bands[b]
  match kind with
  | .late => if sl.reportedLate then none else some (.bandLate kind b band.time band.deadline source)
  | .old => if sl.reportedOld then none else some (.outOfHistory kind b band.time band.deadline source)
  | .lensLost =>
    if sl.reportedLost then none else some (.outOfHistory kind b band.time band.deadline source)
  | _ => none

/-- Write a band's result into its record, with MAG_CLAMPED and the report mark (R97, R98, R99). -/
def Slot.writeResult (sl : Slot) (b : BandId) (r : BandResult) (clamped : Bool) : Slot :=
  let f := sl.frame
  { sl with
    frame := { f with bands := put f.bands b { f.bands[b] with result := some r }
                      flags := { f.flags with magClamped := f.flags.magClamped || clamped } }
    reportedLate := sl.reportedLate || r.kind == .late
    reportedOld := sl.reportedOld || r.kind == .old
    reportedLost := sl.reportedLost || r.kind == .lensLost }

/-- A bypass entry sequence is in progress. -/
def State.inBypassEntry (s : State) : Bool :=
  match s.cru.proc with
  | .bypassEntry _ => true
  | _ => false

/-- A TAGGED generation with all 8 bands RESOLVED enters RESOLVED and releases its profile reference
(R33). In the bypass entry sequence one without end-of-frame has TRUNCATED set (R42). -/
def State.enterResolved (s : State) (slot : SlotId) : State :=
  let area := (s.frame slot).area
  let truncate := s.inBypassEntry
  (s.modFrame slot fun f =>
    { f with state := .resolved
             flags := { f.flags with truncated := f.flags.truncated || (truncate && !f.eofSeen) } }).releaseArea
    area

/-- Raise an event if there is one. -/
def State.raiseIf (s : State) (at_ : Option (SlotId × Generation)) : Option Event → State
  | none => s
  | some e => s.raiseFor at_ e

/-- Write a band's result and hand it on (R98). `complete` is the completion test of the slot. -/
def State.writeBand (s : State) (complete : SlotId → State → State) (slot : SlotId) (b : BandId)
    (kind : ResKind) (src : Source) : State :=
  let g := (s.frame slot).generation
  let r := s.bandResult slot kind src
  let event := (s.slot slot).report kind b src.stamp
  let s := s.modSlot slot fun sl => sl.writeResult b r.1 r.2
  let s := if (s.frame slot).allResolved then complete slot (s.enterResolved slot) else s
  (s.joinDemanded slot g b).raiseIf (some (slot, g)) event

/-- An event reaches a band of a generation: it is resolved if it is WAITING and the event settles it. -/
def State.takeBand (s : State) (complete : SlotId → State → State) (e : BandEvent) (slot : SlotId)
    (g : Generation) (b : BandId) : State :=
  let f := s.frame slot
  if f.state = .tagged ∧ f.generation = g ∧ (f.bands[b]).result = none then
    match s.choose slot (f.bands[b]).time e with
    | none => s
    | some (kind, src) => s.writeBand complete slot b kind src
  else s

/-- An event reaches the WAITING bands of a slot's TAGGED generation, from band 0 upward. A generation
that begins at the slot within the event is not reached by it (log entry 40). -/
def State.takeBands (s : State) (complete : SlotId → State → State) (e : BandEvent) (slot : SlotId) :
    State :=
  let g := (s.frame slot).generation
  allBands.foldl (fun s b => s.takeBand complete e slot g b) s

/-- The slots whose generation is TAGGED. -/
def State.isTagged (s : State) (slot : SlotId) : Bool := (s.frame slot).state == .tagged

/-- An event reaches every WAITING band of every TAGGED generation (R88), slot after slot in a free order (log entry 4);
the demanded lines of each slot's bands join class 1 before those of the next slot (log entry 59). -/
def State.takeAllBands (s : State) (complete : SlotId → State → State) (e : BandEvent) : State :=
  s.forSlots s.isTagged fun s slot => s.takeBands complete e slot

/-- An expiry reaches a band whose resolve deadline the Stamp Clock has reached (R56, R89). -/
def State.expireBand (s : State) (complete : SlotId → State → State) (slot : SlotId) (g : Generation)
    (b : BandId) : State :=
  if due s.clock ((s.frame slot).bands[b]).deadline then s.takeBand complete .expiry slot g b else s

end Sys2Proof.Machine
end

