-- ==== Sys2Proof/Machine/Frame.lean ====
section
/-! DEFINITION. The Frame Table: generations, tags, completion, successors, descriptors (R23–R42) and
what the Stamp and Strobe Unit gives a tagged generation (R52–R58). -/

namespace Sys2Proof.Machine

/-! ### Exposure start and band times (R52–R56) -/

/-- The entries after the one whose strobe count is `c`, with that entry (R52). -/
def matchStrobe (c : BitVec 16) : List Strobe → Option (Strobe × List Strobe)
  | [] => none
  | e :: rest => if e.count = c then some (e, rest) else matchStrobe c rest

/-- The estimated exposure start (R53). -/
def estimatedStart (tag : FrameTag) (decodeStamp : Stamp) (height : Nat) : Stamp :=
  stampAdd decodeStamp (-((tag.lineTime * height / 1000 + tag.exposure : Nat) : Int))

/-- The band time of a band (R55). -/
def bandTime (tag : FrameTag) (start : Stamp) (height : Nat) (b : BandId) : Stamp :=
  let half := tag.exposure / 2
  match tag.shutter with
  | .rolling => stampAdd start ((tag.lineTime * midRow height b / 1000 + half : Nat) : Int)
  | .global => stampAdd start (half : Int)

/-- The exposure start of a tag being applied; a match empties the queue up to its entry, no match
raises STROBE_MISSING (R52, R53). -/
def State.exposureStart (s : State) (slot : SlotId) (tag : FrameTag) (decodeStamp : Stamp)
    (height : Nat) : Stamp × State :=
  match matchStrobe tag.sequence s.ssu.exposures with
  | some (e, rest) =>
    (stampAdd e.stamp tag.strobeOffset, { s with ssu := { s.ssu with exposures := rest } })
  | none =>
    let start := estimatedStart tag decodeStamp height
    (start, s.raiseSlot slot (.strobeMissing tag.sequence (s.ssu.exposures.getLast?.map Strobe.count)
      decodeStamp start))

/-- Set the 8 band times and resolve deadlines of a record. -/
def FrameRecord.withTimes (f : FrameRecord) (time deadline : BandId → Stamp) : FrameRecord :=
  let at_ (b : BandId) : BandRecord :=
    { result := none, time := some (time b), deadline := some (deadline b) }
  { f with bands := #v[at_ 0, at_ 1, at_ 2, at_ 3, at_ 4, at_ 5, at_ 6, at_ 7] }

/-- The height of a slot's committed window; 0 for a slot that has none. -/
def State.heightOf (s : State) (slot : SlotId) : Nat :=
  match (s.slot slot).committed with
  | none => 0
  | some w => w.height

/-- A tag is applied to the current generation, which enters TAGGED (R31, R52–R56). -/
def State.applyTag (s : State) (complete : SlotId → State → State) (slot : SlotId) (tag : FrameTag)
    (decodeStamp : Stamp) : State :=
  let height := s.heightOf slot
  let s := s.modSlot slot fun sl =>
    { sl with tagDeadline := none
              frame := { sl.frame with state := .tagged, tagSequence := some tag.sequence } }
  let r := s.exposureStart slot tag decodeStamp height
  let time := bandTime tag r.1 height
  let s := r.2.modFrame slot fun f =>
    f.withTimes time fun b => stampAdd (time b) r.2.cru.settings.resolveDeadline
  let s := (s.capture slot).linesTakeBand slot
  let g := (s.frame slot).generation
  let s := s.takeBands complete .attempt slot
  allBands.foldl (fun s b => s.expireBand complete slot g b) s

/-- A generation enters TAGGED without a tag and resolves all 8 bands UNTAGGED; `missing` raises
TAG_MISSING (R29, R32, R41, R42, R58). -/
def State.enterUntagged (s : State) (complete : SlotId → State → State) (slot : SlotId) (stamp : Stamp)
    (missing : Bool) : State :=
  let s := s.modSlot slot fun sl =>
    { sl with tagDeadline := none
              frame := { sl.frame with state := .tagged }.withTimes (fun _ => stamp) (fun _ => stamp) }
  let f := s.frame slot
  let s := if missing then s.raiseSlot slot (.tagMissing f.firstIngest f.beats f.eofSeen) else s
  ((s.capture slot).linesTakeBand slot).takeBands complete .untagged slot

/-! ### New generations (R26) -/

/-- The record at a new generation, taken over from the successor when there is one (R23, R26). -/
def FrameRecord.begin (f : FrameRecord) : FrameRecord :=
  let fresh := { FrameRecord.blank (f.generation + 1) with state := .armed, presented := f.presented }
  match f.successor with
  | none => fresh
  | some n =>
    { fresh with held := n.held, beats := n.beats, firstIngest := some n.firstIngest, eofSeen := n.eofSeen }

/-- A new generation begins in a slot (R26); its report marks, invalid-reported mark and tag deadline
are cleared (R48, R57, R99). -/
def Slot.begin (sl : Slot) : Slot :=
  { sl with frame := sl.frame.begin, invalidReported := false, tagDeadline := none
            reportedLate := false, reportedOld := false, reportedLost := false }

/-- A new generation begins in a slot. -/
def State.beginGen (s : State) (slot : SlotId) : State := s.modSlot slot Slot.begin

/-- The tag deadline of an ARMED generation with a first-ingest stamp is set (R57). -/
def State.setTagDeadline (s : State) (slot : SlotId) : State :=
  let duration := s.cru.settings.tagDeadline
  s.modSlot slot fun sl =>
    { sl with tagDeadline := sl.frame.firstIngest.map fun t => stampAdd t duration }

/-- A tag deadline that has been reached expires (R32, R58). -/
def State.expireTag (s : State) (complete : SlotId → State → State) (slot : SlotId) : State :=
  match (s.slot slot).tagDeadline with
  | some d =>
    if reached s.clock d ∧ (s.frame slot).state = .armed then s.enterUntagged complete slot d true else s
  | none => s

/-! ### Descriptors (R38, R39) -/

/-- A request or an Outstanding Table entry of a window class of a slot. -/
def Cls.ofSlot (c : Cls) (slot : SlotId) : Bool :=
  match c with
  | .tag i => i == slot
  | .ingest i => i == slot
  | _ => false

/-- Mark an entry in flight whose slot has had a descriptor applied (R49). -/
def Origin.markStale (slot : SlotId) (o : Option Origin) : Option Origin :=
  match o with
  | some (.upstream req cls updated stale) => some (.upstream req cls updated (stale || cls.ofSlot slot))
  | _ => o

/-- Mark the presented request when a descriptor has applied to its slot (R27, R49). -/
def Presented.markStale (slot : SlotId) (p : Presented) : Presented :=
  { p with stale := p.stale || p.cls.ofSlot slot }

/-- The record becomes FREE: its generation number, band results, band times and every other field stay
until the next generation begins (R26, R38, R56, R97, log entry 26). -/
def FrameRecord.freed (f : FrameRecord) : FrameRecord := { f with state := .free }

/-- A descriptor applies to a slot (R38, R51, R57). -/
def State.applyDescriptor (s : State) (slot : SlotId) (d : Option Window) : State :=
  let s := s.modSlot slot fun sl =>
    { sl with committed := d, pendingDesc := none, collection := emptyCollection, tagDeadline := none
              frame := { sl.frame with presented := none } }
  let s := { s with mpu := { s.mpu with
    intake := s.mpu.intake.map (Presented.markStale slot)
    outstanding := mapTable s.mpu.outstanding (Origin.markStale slot) } }
  let s := s.mapLines (LineRec.dropClean slot d)
  match d with
  | some _ => s.beginGen slot
  | none => s.modFrame slot FrameRecord.freed

/-- A pending descriptor applies, with a COMMIT_APPLIED of its own (R175). -/
def State.applyPending (s : State) (slot : SlotId) : State :=
  match (s.slot slot).pendingDesc with
  | none => s
  | some d => (s.applyDescriptor slot d).raise (.commitApplied [slot] [] [])

/-- The record is one at which a changed descriptor applies at once (R38). -/
def FrameRecord.appliesAtOnce (f : FrameRecord) : Bool :=
  match f.state with
  | .free => true
  | .complete => true
  | .armed => f.held == 0 && f.successor.isNone
  | _ => false

/-! ### Completion (R35, R41, R42) -/

/-- The expected beat count (R35). -/
def Window.expectedBeats (w : Window) : Nat := w.height * w.width * 2 / 16

/-- The 8 magnifications of a record with all bands RESOLVED; 65536 for a WAITING band. -/
def FrameRecord.magnifications (f : FrameRecord) : Vector Nat 8 :=
  mapTable f.bands fun b => match b.result with
    | none => 65536
    | some r => r.magnification

/-- SHORT and LONG of a completing generation (R35). -/
def FrameRecord.judgeBeats (f : FrameRecord) (expected tolerance : Nat) : FrameFlags :=
  { f.flags with short := f.flags.short || decide (f.beats + tolerance < expected)
                 long := f.flags.long || decide (expected + tolerance < f.beats) }

/-- FRAME_DONE of a record (R36). -/
def FrameRecord.doneEvent (f : FrameRecord) : Event :=
  .frameDone f.tagSequence f.flags f.area f.beats f.saturated
    (mapTable f.bands fun b => b.result.map BandResult.kind)

/-- The record enters COMPLETE: Presented Set, flags, state (R35 steps 1 and 2). -/
def State.markComplete (s : State) (slot : SlotId) : State :=
  let expected := match (s.slot slot).committed with
    | none => 0
    | some w => w.expectedBeats
  let drop := s.inBypassEntry
  s.modFrame slot fun f =>
    { f with state := .complete, presented := some f.magnifications
             flags := f.judgeBeats expected s.cru.settings.tolerance
             pendingTag := if drop then none else f.pendingTag }

/-- What follows FRAME_DONE: the successor and the pending tag become current, or else a pending
descriptor applies (R35 steps 4 and 5, R42, R57). -/
def State.afterComplete (s : State) (complete : SlotId → State → State) (slot : SlotId) : State :=
  let f := s.frame slot
  match f.pendingTag, f.successor with
  | some t, _ => (s.beginGen slot).applyTag complete slot t.tag t.decodeStamp
  | none, some _ =>
    if s.inBypassEntry then (s.beginGen slot).enterUntagged complete slot s.clock false
    else ((s.beginGen slot).setTagDeadline slot).expireTag complete slot
  | none, none => s.applyPending slot

/-- A generation completes (R35). -/
def State.completeGen (s : State) (complete : SlotId → State → State) (slot : SlotId) : State :=
  let s := s.markComplete slot
  (s.raiseSlot slot (s.frame slot).doneEvent).afterComplete complete slot

/-- A generation ends under drain without completing; a successor becomes current and is resolved
UNTAGGED (R41 step 3, R193). -/
def State.endGen (s : State) (complete : SlotId → State → State) (slot : SlotId) : State :=
  let s := s.modDrain fun d => { d with generations := d.generations + 1 }
  match (s.frame slot).successor with
  | none => s.modFrame slot fun f => { f with ended := true }
  | some _ => (s.beginGen slot).enterUntagged complete slot s.clock false

/-- The completion test of a slot (R35, R37, R41): the first argument bounds how many generations can
follow one another at once (a successor and its own pending tag: at most two). -/
def State.tryComplete : Nat → SlotId → State → State
  | 0, _, s => s
  | n + 1, slot, s =>
    let f := s.frame slot
    if f.state = .resolved ∧ f.held = 0 ∧ f.ended = false then
      if s.inDrain then s.endGen (State.tryComplete n) slot
      else if f.closed then s.completeGen (State.tryComplete n) slot
      else s
    else s

/-- The completion test, bounded far above what a step can need. -/
def State.testComplete (slot : SlotId) (s : State) : State := s.tryComplete 4 slot

/-! ### Tags (R30, R34, R39) -/

/-- A truncation: the bands resolve FORCED, the tag becomes the pending tag unless a descriptor is
pending, and the completion is tested (R34, log entry 13). -/
def State.truncate (s : State) (slot : SlotId) (t : PendingTag) : State :=
  let s := s.modFrame slot fun f => { f with flags := { f.flags with truncated := true } }
  let s := s.takeBands (fun _ s => s) .forced slot
  let s := if (s.slot slot).pendingDesc.isSome then s
    else s.modFrame slot fun f => { f with pendingTag := some t }
  s.testComplete slot

/-- The frame record takes a decoded tag by its state (R30, R39). A tag for an ARMED record that is
already closed is applied, with a descriptor pending too (log entry 37). -/
def State.takeTag (s : State) (slot : SlotId) (t : PendingTag) : State :=
  let f := s.frame slot
  match f.state with
  | .free => s
  | .armed => s.applyTag State.testComplete slot t.tag t.decodeStamp
  | .complete => (s.beginGen slot).applyTag State.testComplete slot t.tag t.decodeStamp
  | .tagged | .resolved =>
    if f.closed then
      if (s.slot slot).pendingDesc.isSome then s
      else s.modFrame slot fun f => { f with pendingTag := some t }
    else s.truncate slot t

/-! ### Accounting (R27–R29) -/

/-- The Frame Table's answer to an INGEST claim (R121). -/
def State.ftAnswer (s : State) (slot : SlotId) (stale : Bool) (band : BandId) : FtAnswer :=
  let f := s.frame slot
  if stale then .noGeneration
  else match f.state with
  | .free => .noGeneration
  | .complete => .pendingBand (f.generation + 1)
  | st =>
    if f.closed then
      match f.successor with
      | some n => if n.eofSeen then .refused else .pendingBand (f.generation + 1)
      | none =>
        if (s.slot slot).pendingDesc.isSome then .noGeneration else .pendingBand (f.generation + 1)
    else if st = .armed then .pendingBand f.generation
    else match (f.bands[band]).result with
      | some _ => .resolved f.generation band
      | none => .waiting f.generation band

/-- The largest ingest beat count (R23). -/
def maxBeats : Nat := 16777215

/-- Beats added to a count that stops at its maximum. -/
def addBeats (a b : Nat) : Nat := min maxBeats (a + b)

/-- A write is accounted to the current generation (R27, R28). -/
def FrameRecord.accountCurrent (f : FrameRecord) (beats : Nat) (eof : Bool) (clock : Stamp) : FrameRecord :=
  { f with beats := addBeats f.beats beats, firstIngest := some (f.firstIngest.getD clock)
           eofSeen := f.eofSeen || eof }

/-- A write is accounted to the successor, opened when absent (R27–R29). -/
def FrameRecord.accountSuccessor (f : FrameRecord) (beats : Nat) (eof : Bool) (clock : Stamp) :
    FrameRecord :=
  let n := f.successor.getD { held := 0, beats := 0, firstIngest := clock, eofSeen := false }
  { f with successor := some { n with beats := addBeats n.beats beats, eofSeen := n.eofSeen || eof } }

/-- A write is accounted to a slot's current generation; the first one of an ARMED generation sets its
tag deadline (R57), and end-of-frame can complete a RESOLVED one (R28). -/
def State.accountOpen (s : State) (slot : SlotId) (beats : Nat) (eof : Bool) : State :=
  let starts := (s.frame slot).state == .armed && (s.frame slot).firstIngest.isNone
  let s := s.modFrame slot fun f => f.accountCurrent beats eof s.clock
  let s := if starts then s.setTagDeadline slot else s
  s.testComplete slot

/-- The Frame Table accounts a write at its taking, by the slot's state (R27). `counted`: the write is
accounted to some generation. -/
def State.account (s : State) (slot : SlotId) (beats : Nat) (eof counted : Bool) : State :=
  if counted then
    let f := s.frame slot
    if f.state = .complete then (s.beginGen slot).accountOpen slot beats eof
    else if f.closed then s.modFrame slot fun f => f.accountSuccessor beats eof s.clock
    else s.accountOpen slot beats eof
  else s

/-- A full successor forces the current generation to resolve (R29). -/
def State.forceFull (s : State) (slot : SlotId) : State :=
  match (s.frame slot).state with
  | .tagged => s.takeBands State.testComplete .forced slot
  | .armed => s.enterUntagged State.testComplete slot s.clock true
  | _ => s

/-- A line enters HELD for a slot and generation: the matching count rises by one (R37). -/
def FrameRecord.lineHeld (f : FrameRecord) (g : Generation) : FrameRecord :=
  if f.generation = g then { f with held := f.held + 1 }
  else { f with successor := f.successor.map fun n => { n with held := n.held + 1 } }

/-- A castout of a line of a generation completes: the matching count falls by one (R37). -/
def FrameRecord.lineGone (f : FrameRecord) (g : Generation) : FrameRecord :=
  if f.generation = g then { f with held := f.held - 1 }
  else { f with successor := f.successor.map fun n => { n with held := n.held - 1 } }

/-- The saturated sample count rises, stopping at its maximum (R146). -/
def FrameRecord.addSaturated (f : FrameRecord) (n : Nat) : FrameRecord :=
  { f with saturated := min 4294967295 (f.saturated + n) }

end Sys2Proof.Machine
end

