-- ==== Sys2Proof/Machine/Tags.lean ====
section
/-! DEFINITION. The Tag Decoder: collecting the bytes of handed-over TAG writes and the decode attempt
(R48–R51). -/

namespace Sys2Proof.Machine

/-- The byte that a write of lanes from an address puts at a position of the tag, if any. -/
def tagLane (w : Window) (addr : Nat) (lanes : List Lane) (k : Nat) : Lane :=
  if addr ≤ w.tagStart + k then lanes.getD (w.tagStart + k - addr) none else none

/-- The bytes of a handed-over write that lie in the tag, at their places (R49). -/
def tagLanes (w : Window) (addr : Nat) (lanes : List Lane) : List Lane :=
  (List.range 64).map (tagLane w addr lanes)

/-- Copy bytes into a collection and set their marks (R49). -/
def collect (c : Vector Lane 64) (new : List Lane) : Vector Lane 64 :=
  ⟨((List.range 64).map fun k =>
    let n := new.getD k none
    if n.isSome then n else c.toList.getD k none).toArray, by simp⟩

/-- All 64 marks are set. -/
def collected (c : Vector Lane 64) : Bool := c.toList.all Option.isSome

/-- The 64 bytes of a full collection. -/
def collectionBytes (c : Vector Lane 64) : List Byte := c.toList.map fun l => l.getD 0

/-- Clear a slot's 64 marks (R50, R51). -/
def State.clearCollection (s : State) (slot : SlotId) : State :=
  s.modSlot slot fun sl => { sl with collection := emptyCollection }

/-- A decode attempt (R48, R50); during a drain or a bypass entry sequence a decoded tag is discarded
(R178, R181). -/
def State.decodeAttempt (s : State) (slot : SlotId) : State :=
  let bytes := collectionBytes (s.slot slot).collection
  match decodeTag bytes with
  | .error fault =>
    if (s.slot slot).invalidReported then s
    else (s.modSlot slot fun sl => { sl with invalidReported := true }).raiseSlot slot
      (.tagInvalid fault (tagSequenceWord bytes) s.clock)
  | .ok tag =>
    let s := if s.inProcedure then s else s.takeTag slot ⟨tag, s.clock⟩
    s.clearCollection slot

/-- A TAG write is handed over (R12, R49, R50). -/
def State.tagHandover (s : State) (slot : SlotId) (addr : Nat) (lanes : List Lane) (stale : Bool) :
    State :=
  match (s.slot slot).committed with
  | none => s
  | some w =>
    let new := tagLanes w addr lanes
    if !stale && new.any Option.isSome then
      let s := s.modSlot slot fun sl => { sl with collection := collect sl.collection new }
      if collected (s.slot slot).collection then s.decodeAttempt slot else s
    else s

end Sys2Proof.Machine
end

