-- ==== Sys2Proof/Machine/Gain.lean ====
section
/-! DEFINITION. The Gain Unit: placing a sample, its zone position, its gain and its gained value
(R140–R151). -/

namespace Sys2Proof.Machine

/-- What the Gain Unit reads besides the bytes: the geometry, the optical centre and the gain list. -/
structure GainSetting where
  window : Window
  centre : Int × Int
  gains : GainList
  deriving DecidableEq, Repr

/-- The optical centre of a gaining (R143). -/
def Window.opticalCentre (w : Window) (offsetX offsetY : Int) : Int × Int :=
  match w.centre with
  | none => ((w.width / 2 : Nat) + offsetX, (w.height / 2 : Nat) + offsetY)
  | some (c, r) => (c, r)

/-- The test of R144 for a zone position q. -/
def zoneFits (w : Window) (dist2 q : Nat) : Bool :=
  q * q * (w.width * w.width + w.height * w.height) ≤ 4 * 3840 * 3840 * dist2

/-- The bits of a zone position, largest first. -/
def zoneBits : List Nat := [2048, 1024, 512, 256, 128, 64, 32, 16, 8, 4, 2, 1]

/-- The zone position: the largest q from 0 to 3840 that fits, found bit by bit (R144). -/
def zonePosition (w : Window) (dist2 : Nat) : Nat :=
  zoneBits.foldl (fun q b => if q + b ≤ 3840 ∧ zoneFits w dist2 (q + b) then q + b else q) 0

/-- The squared distance of a sample from a centre. -/
def distance2 (centre : Int × Int) (x y : Nat) : Nat :=
  (((x : Int) - centre.1) * ((x : Int) - centre.1) + ((y : Int) - centre.2) * ((y : Int) - centre.2)).toNat

/-- The gain of zone z, channel c of a list. -/
def zoneGain (gains : GainList) (z c : Nat) : Nat := (gains.toList.getD (4 * z + c) 0).toNat

/-- The gain of a channel at a zone position (R145). -/
def gainAt (gains : GainList) (q c : Nat) : Nat :=
  let z := q / 256
  let f := q % 256
  let g := zoneGain gains z c
  if 15 ≤ z then zoneGain gains 15 c
  else (g + roundHalfUp ((zoneGain gains (z + 1) c - g : Int) * f) 256).toNat

/-- The product of a sample and a gain, rounded, before the limit (R146). -/
def gainProduct (s g : Nat) : Nat := (2 * s * g + 16384) / 32768

/-- The channel of a sample (R142). -/
def channelOf (x y : Nat) : Nat := 2 * (y % 2) + x % 2

/-- The gained value of a sample and whether it was clamped (R142–R146). -/
def GainSetting.sample (u : GainSetting) (x y s : Nat) : Nat × Bool :=
  let q := zonePosition u.window (distance2 u.centre x y)
  let v := gainProduct s (gainAt u.gains q (channelOf x y))
  if 65535 < v then (65535, true) else (v, false)

/-- What one use of the Gain Unit gives back. -/
structure Gained where
  lanes : List Lane
  clamped : Nat
  /-- some sample had only one of its bytes (R148) -/
  raw : Bool
  deriving DecidableEq, Repr

/-- Gain a pair of byte lanes: the sample at column x of image row y. A padding sample is returned as
it is (R141), and a sample with one byte is left ungained (R147, R148, log entry 22). -/
def GainSetting.pair (u : GainSetting) (x y : Nat) (lo hi : Lane) : Gained :=
  if u.window.width ≤ x then ⟨[lo, hi], 0, false⟩
  else match lo, hi with
  | some l, some h =>
    let r := u.sample x y (l.toNat + 256 * h.toNat)
    ⟨(leBytes 2 r.1).map some, if r.2 then 1 else 0, false⟩
  | none, none => ⟨[none, none], 0, false⟩
  | _, _ => ⟨[lo, hi], 0, true⟩

/-- Gain lanes that begin at column x of image row y. -/
def GainSetting.lanes (u : GainSetting) (y : Nat) : Nat → List Lane → Gained
  | x, lo :: hi :: rest =>
    let p := u.pair x y lo hi
    let r := GainSetting.lanes u y (x + 1) rest
    ⟨p.lanes ++ r.lanes, p.clamped + r.clamped, p.raw || r.raw⟩
  | _, rest => ⟨rest, 0, false⟩

/-- Gain lanes that begin at a byte address of an image row (R142). -/
def GainSetting.gain (u : GainSetting) (addr : Nat) (lanes : List Lane) : Gained :=
  u.lanes (u.window.rowOf addr - u.window.firstRow) (u.window.byteInRow addr / 2) lanes

/-- The Gain Unit's setting for a slot, generation and band (R140, R143). -/
def State.gainSetting (s : State) (slot : SlotId) (g : Generation) (b : BandId) : Option GainSetting :=
  match (s.slot slot).committed, s.bandResultOf slot g b with
  | some w, some r =>
    some { window := w, centre := w.opticalCentre (s.frame slot).offsetX (s.frame slot).offsetY
           gains := r.gains }
  | _, _ => none

end Sys2Proof.Machine
end

