-- ==== Sys2Proof/Machine/Resample.lean ====
section
/-! DEFINITION. The arithmetic of the Egress Resampler: magnifications, source positions, neighbours,
needs and output samples (R156–R165). -/

namespace Sys2Proof.Machine

/-! ### Magnification (R156, R158) -/

/-- The magnification source of a read and its 8 band magnifications (R156). -/
def FrameRecord.magSource (f : FrameRecord) : MagSource × Vector Nat 8 :=
  match f.state, f.presented with
  | .free, _ => (.identity, Vector.replicate 8 65536)
  | .resolved, _ => (.current, f.magnifications)
  | .complete, _ => (.current, f.magnifications)
  | _, some p => (.presented, p)
  | _, none => (.identity, Vector.replicate 8 65536)

/-- The magnification of an image row, from the bands' mid rows and magnifications (R158). -/
def magnificationFrom (y : Nat) : List (Nat × Nat) → Nat
  | [] => 65536
  | [m] => m.2
  | m :: n :: rest =>
    if y ≤ m.1 then m.2
    else if y < n.1 then (m.2 + roundHalfUp ((n.2 - m.2 : Int) * (y - m.1 : Int)) (n.1 - m.1)).toNat
    else magnificationFrom y (n :: rest)

/-- The read's magnification k for image row y (R158). -/
def magnificationAt (height y : Nat) (mags : Vector Nat 8) : Nat :=
  magnificationFrom y (allBands.map fun b => (midRow height b, mags[b]))

/-! ### Source position and neighbours (R159–R162) -/

/-- The resampling centre (R159). -/
def Window.resamplingCentre (w : Window) : Nat × Nat :=
  match w.centre with
  | none => (w.width / 2, w.height / 2)
  | some c => c

/-- A source coordinate in 1/256 sample (R160). -/
def source256 (centre v k : Nat) : Int :=
  256 * centre + roundHalfUp (((v : Int) - centre) * 16777216) k

/-- The largest whole number of a parity whose 256-fold is at most a source coordinate (R161). -/
def lowerNeighbour (src : Int) (parity : Nat) : Int := parity + 2 * ((src - 256 * parity) / 512)

/-- A coordinate of a neighbour with its weight out of 512. -/
abbrev Weighted := Int × Nat

/-- The needed neighbour coordinates along one axis (R161). -/
def neighbours (src : Int) (parity : Nat) : List Weighted :=
  let a := lowerNeighbour src parity
  let w := (src - 256 * a).toNat
  if w = 0 then [(a, 512)] else [(a, 512 - w), (a + 2, w)]

/-- Where the value of a needed neighbour comes from. -/
inductive SampleSource where
  /-- the two bytes at an address of the window -/
  | stored (addr : Nat)
  /-- the fill value -/
  | constant (value : Nat)
  deriving DecidableEq, Repr

/-- A coordinate clamped into 0 … size − 1, keeping its parity (R162). -/
def clampCoordinate (v : Int) (size parity : Nat) : Nat :=
  if v < 0 then parity else if (size : Int) ≤ v then size - 2 + parity else v.toNat

/-- A coordinate lies in 0 … size − 1. -/
def insideRange (v : Int) (size : Nat) : Bool := 0 ≤ v && v < size

/-- The address of the sample at a column of an image row (R164). -/
def Window.sampleAddr (w : Window) (col row : Nat) : Nat :=
  w.base + (w.firstRow + row) * w.pitch + 2 * col

/-- The source of a needed neighbour (R162). -/
def Window.neighbourSource (w : Window) (border : Border) (fill : Nat) (px py : Nat) (col row : Int) :
    SampleSource :=
  if insideRange col w.width && insideRange row w.height then .stored (w.sampleAddr col.toNat row.toNat)
  else match border with
  | .edge => .stored (w.sampleAddr (clampCoordinate col w.width px) (clampCoordinate row w.height py))
  | .fill => .constant fill

/-- The fixed quantities of a read: what its samples are computed from (R155). -/
structure ReadSetting where
  window : Window
  k : Nat
  border : Border
  fillValue : Nat
  deriving DecidableEq, Repr

/-- The needed neighbours of the output sample at column x of image row y, with their weights out of
262144 (R161, R162). -/
def ReadSetting.neighboursOf (u : ReadSetting) (x y : Nat) : List (SampleSource × Nat) :=
  let c := u.window.resamplingCentre
  let xs := neighbours (source256 c.1 x u.k) (x % 2)
  let ys := neighbours (source256 c.2 y u.k) (y % 2)
  ys.flatMap fun r => xs.map fun q =>
    (u.window.neighbourSource u.border u.fillValue (x % 2) (y % 2) q.1 r.1, q.2 * r.2)

/-- The image row of a read. -/
def Window.readRow (w : Window) (addr : Nat) : Nat := w.rowOf addr - w.firstRow

/-- The columns of a read, in order. -/
def Window.readColumns (w : Window) (addr beats : Nat) : List Nat :=
  (List.range (8 * beats)).map fun n => w.byteInRow addr / 2 + n

/-- The neighbours of every output sample of a read; none for a padding column (R163). -/
def ReadSetting.samples (u : ReadSetting) (addr beats : Nat) : List (List (SampleSource × Nat)) :=
  (u.window.readColumns addr beats).map fun x =>
    if x < u.window.width then u.neighboursOf x (u.window.readRow addr) else []

/-- The addresses of the stored neighbours of a read. -/
def ReadSetting.addresses (u : ReadSetting) (addr beats : Nat) : List Nat :=
  (u.samples addr beats).flatMap fun ns => ns.filterMap fun n =>
    match n.1 with
    | .stored a => some a
    | .constant _ => none

/-! ### Needs (R164, R165) -/

/-- Add the line of a byte address to a need list kept in rising order of line, with the lowest beat. -/
def addNeed (line beat : Nat) : List (Nat × Nat) → List (Nat × Nat)
  | [] => [(line, beat)]
  | n :: rest =>
    if line < n.1 then (line, beat) :: n :: rest
    else if line = n.1 then (line, min beat n.2) :: rest
    else n :: addNeed line beat rest

/-- The need list of a read: lines with their first beats (R164). -/
def ReadSetting.needs (u : ReadSetting) (addr beats : Nat) : List (Nat × Nat) :=
  (u.addresses addr beats).foldl (fun l a => addNeed (a / 256) (a % 256 / 16) l) []

/-- The bytes of a line that hold a needed neighbour of a read (R165). -/
def ReadSetting.taken (u : ReadSetting) (addr beats line : Nat) (data : List Byte) : List Host.Cell :=
  (((u.addresses addr beats).filter fun a => a / 256 == line).eraseDups.flatMap fun a => [a, a + 1]).map
    fun a => (a, byteAt data (a - 256 * line))

/-! ### Output samples (R163) -/

/-- The byte taken at an address. -/
def takenByte (cells : List Host.Cell) (a : Nat) : Byte :=
  match cells.find? fun c => c.1 == a with
  | some c => c.2
  | none => 0

/-- The value of a neighbour. -/
def SampleSource.value (cells : List Host.Cell) : SampleSource → Nat
  | .stored a => (takenByte cells a).toNat + 256 * (takenByte cells (a + 1)).toNat
  | .constant v => v

/-- The weighted sum of an output sample, rounded (R163). -/
def blend (cells : List Host.Cell) (ns : List (SampleSource × Nat)) : Nat :=
  (2 * (ns.foldl (fun acc n => acc + n.2 * n.1.value cells) 0) + 262144) / 524288

/-- The computed beats of a read (R163). -/
def ReadSetting.beats (u : ReadSetting) (addr beats : Nat) (cells : List Host.Cell) : List Byte :=
  (u.samples addr beats).flatMap fun ns => leBytes 2 (blend cells ns)

end Sys2Proof.Machine
end

