-- ==== Sys2Proof/Machine/LineStore.lean ====
section
/-! DEFINITION. The Line Store: claims and their evaluation, posted and written-through writes, needs
and fills, castouts, withdrawals (R118–R139). -/

namespace Sys2Proof.Machine

/-! ### Claim Lists (R120) -/

/-- A claim is on an index. -/
def Claim.on (c : Claim) (i : LineIdx) : Bool := indexOf c.line == i

/-- The head of an index's Claim List. -/
def State.headClaim (s : State) (i : LineIdx) : Option Claim := s.ls.claims.find? fun c => c.on i

/-- Replace the claims. -/
def State.setClaims (s : State) (l : List Claim) : State := { s with ls := { s.ls with claims := l } }

/-- The head claim of an index leaves its list. -/
def State.popClaim (s : State) (i : LineIdx) : State := s.setClaims (s.ls.claims.eraseP fun c => c.on i)

/-- Change the first claim on an index. -/
def modFirst (i : LineIdx) (f : Claim → Claim) : List Claim → List Claim
  | [] => []
  | c :: rest => if c.on i then f c :: rest else c :: modFirst i f rest

/-- The head claim of an index is cleared to go downstream: it awaits its grant. -/
def State.clearClaim (s : State) (i : LineIdx) (updated : Bool) : State :=
  s.setClaims (modFirst i (fun c => { c with cleared := true, updated := updated }) s.ls.claims)

/-- A claim joins the tail of its index's list. -/
def State.addClaim (s : State) (line : Nat) (kind : ClaimKind) : State :=
  s.setClaims (s.ls.claims ++ [⟨line, kind, false, false⟩])

/-- The claim comes from the Intake Stage. -/
def Claim.ofIntake (c : Claim) : Bool :=
  match c.kind with
  | .need _ _ _ _ => false
  | _ => true

/-- The claim is a need of a read. -/
def Claim.ofRead (c : Claim) (read : Nat) : Bool :=
  match c.kind with
  | .need r _ _ _ => r == read
  | _ => false

/-- The line a record names. -/
def LineRec.tag? : LineRec → Option LineTag
  | .invalid => none
  | .filling tag _ _ _ => some tag
  | .clean tag _ => some tag
  | .held tag _ _ _ => some tag
  | .casting tag _ _ _ => some tag

/-- The record holds a line address. -/
def LineRec.isAt (r : LineRec) (line : Nat) : Bool := r.tag?.any fun t => t.line == line

/-! ### The Intake Stage as the claims see it -/

/-- Change the presented request. -/
def State.modIntake (s : State) (f : Presented → Presented) : State :=
  { s with mpu := { s.mpu with intake := s.mpu.intake.map f } }

/-- The presented request asks for its grant in class 3 (R18). -/
def State.offer (s : State) (f : Forward) : State :=
  ({ s with mpu := { s.mpu with class3 := some f } }).modIntake fun p => { p with phase := .offered }

/-- A forwarded request with every claim served or cleared asks for its grant (R10). -/
def State.offerIfCleared (s : State) : State :=
  match s.mpu.intake with
  | none => s
  | some p =>
    if s.ls.claims.all fun c => !c.ofIntake || c.cleared then s.offer ⟨p.req.kind, 0⟩ else s

/-- The presented request has been taken: the Intake Stage is empty and class 3 with it (R3). -/
def State.emptyIntake (s : State) : State :=
  { s with mpu := { s.mpu with intake := none, class3 := none } }

/-! ### Egress needs and fills (R131, R132, R165) -/

/-- The setting a read was fixed with. -/
def EgressEntry.setting (e : EgressEntry) : ReadSetting := ⟨e.window, e.k, e.border, e.fillValue⟩

/-- The bytes an entry's needs have taken. -/
def EgressEntry.cells (e : EgressEntry) : List Host.Cell := e.needs.flatMap fun n => n.taken.getD []

/-- The beats of an entry, computed (R163). -/
def EgressEntry.compute (e : EgressEntry) : List Byte := e.setting.beats e.addr.toNat e.beats e.cells

/-- An entry whose needs are all SERVED becomes READY (R165). -/
def EgressEntry.readyIfServed (e : EgressEntry) : EgressEntry :=
  if e.needs.all fun n => n.taken.isSome then { e with state := .ready e.compute } else e

/-- A need of an entry is SERVED from the data of its line (R165). -/
def EgressEntry.serve (e : EgressEntry) (line : Nat) (data : List Byte) : EgressEntry :=
  let cells := e.setting.taken e.addr.toNat e.beats line data
  let needs := e.needs.map fun n => if n.line = line then { n with taken := some cells } else n
  { e with needs := needs }.readyIfServed

/-- An entry becomes FAILED; bytes already taken are discarded (R167) and no need stays SERVED (log entry
44). -/
def EgressEntry.fail (e : EgressEntry) : EgressEntry :=
  { e with state := .failed, needs := e.needs.map fun n => { n with taken := none } }

/-- Change the entry of a read. -/
def State.modRead (s : State) (read : Nat) (f : EgressEntry → EgressEntry) : State :=
  { s with er := { s.er with queue := s.er.queue.map fun e => if e.id = read then f e else e } }

/-- The parts of a fill (R132). -/
def fillParts (line firstBeat : Nat) : List FillPart :=
  if firstBeat = 0 then [⟨line, 0, 16, .single⟩]
  else [⟨line, firstBeat, 16 - firstBeat, .critical⟩, ⟨line, 0, firstBeat, .wrap⟩]

/-- A fill of a line starts (R132); the data of the record is undefined: free bytes (log entry 3). -/
def State.startFill (s : State) (i : LineIdx) (line : Nat) (slot : SlotId) (g : Generation)
    (firstBeat : Nat) : State :=
  let parts := fillParts line firstBeat
  let s := s.setLine i (.filling ⟨line, slot, g⟩ (freeBytes s.free 256) parts.length [])
  { s with free := s.free + 256, mpu := { s.mpu with class2 := s.mpu.class2 ++ parts } }

/-- A need is evaluated (R131); `true` when it has been served. -/
def State.evalNeed (s : State) (i : LineIdx) (line read : Nat) (slot : SlotId) (g : Generation)
    (firstBeat : Nat) : State × Bool :=
  match s.line i with
  | .clean tag data =>
    if tag.line = line then ((s.popClaim i).modRead read fun e => e.serve line data, true)
    else (s.startFill i line slot g firstBeat, false)
  | .invalid => (s.startFill i line slot g firstBeat, false)
  | .held _ _ _ _ => (s.demand i, false)
  | .filling _ _ _ _ => (s, false)
  | .casting _ _ _ _ => (s, false)

/-! ### Forwarding claims (R129, R130) -/

/-- The forwarding claim of a READ is evaluated (R129). -/
def State.evalForwardRead (s : State) (i : LineIdx) (line : Nat) : State × Bool :=
  if (s.line i).isAt line && (s.line i).isHeld then (s.demand i, false)
  else if (s.line i).isAt line && (s.line i).isCasting then (s, false)
  else ((s.popClaim i).offerIfCleared, true)

/-- The forwarding claim of a WRITE is evaluated (R130). -/
def State.evalForwardWrite (s : State) (i : LineIdx) (line addr : Nat) (lanes : List Lane) : State :=
  if (s.line i).isAt line then
    match s.line i with
    | .held _ _ _ _ => s.demand i
    | .casting _ _ _ _ => s
    | .filling _ _ _ _ => s
    | .clean tag data =>
      match s.cru.settings.writeHit with
      | .invalidate => ((s.setLine i .invalid).clearClaim i false).offerIfCleared
      | .update =>
        ((s.setLine i (.clean tag (mergeBytes data (linePart addr lanes line)))).clearClaim i
          true).offerIfCleared
    | .invalid => (s.clearClaim i false).offerIfCleared
  else (s.clearClaim i false).offerIfCleared

/-- A forwarding claim is evaluated. -/
def State.evalForward (s : State) (i : LineIdx) (line : Nat) : State × Bool :=
  match s.mpu.intake with
  | none => (s, false)
  | some p =>
    match p.req.kind with
    | .read => s.evalForwardRead i line
    | .write lanes => (s.evalForwardWrite i line p.req.first lanes, false)

/-! ### INGEST claims (R121–R124) -/

/-- The request holds the last byte of the last image row (R28). -/
def marksEndOfFrame (w : Window) (r : UpRequest) : Bool :=
  r.first ≤ w.lastImageByte && w.lastImageByte ≤ r.last

/-- The presented INGEST write is taken by a merge: it is accounted, completed OKAY and leaves the
Intake Stage and the list (R13, R124). -/
def State.takePosted (s : State) (i : LineIdx) (p : Presented) (slot : SlotId) (w : Window) : State :=
  let s := s.account slot p.req.beats (marksEndOfFrame w p.req) true
  ((s.complete ⟨p.req.master, p.req.tag, .okay, []⟩).emptyIntake).popClaim i

/-- The lanes of the presented write on its line. -/
def Presented.lanesOn (p : Presented) (line : Nat) : List Lane :=
  linePart p.req.first p.req.kind.lanes line

/-- A write is merged into a HELD record (R124). -/
def State.postMerge (s : State) (i : LineIdx) (p : Presented) (slot : SlotId) (w : Window)
    (tag : LineTag) (band : Option BandId) (lanes : List Lane) (demand : Bool) : State :=
  (s.takePosted i p slot w).setLine i (.held tag band (mergeLanes lanes (p.lanesOn tag.line)) demand)

/-- A write makes a record HELD from INVALID or CLEAN (R123). -/
def State.postNew (s : State) (i : LineIdx) (p : Presented) (slot : SlotId) (w : Window) (line : Nat)
    (g : Generation) (band : Option BandId) : State :=
  ((s.takePosted i p slot w).setLine i (.held ⟨line, slot, g⟩ band (p.lanesOn line) false)).modFrame slot
    fun f => f.lineHeld g

/-- The write as the Gain Unit leaves it; a write of no generation keeps its bytes (R121, R149, R151, log entry 35). -/
def State.gainWrite (s : State) (p : Presented) (slot : SlotId) (named : Option (Generation × BandId)) :
    Gained :=
  let lanes := p.req.kind.lanes
  match named with
  | none => ⟨lanes, 0, false⟩
  | some (g, b) =>
    match s.gainSetting slot g b with
    | none => ⟨lanes, 0, false⟩
    | some u => u.gain p.req.first lanes

/-- The claim is cleared: the gained write asks for its grant (R122, R149). -/
def State.writeThrough (s : State) (i : LineIdx) (u : Gained) (updated : Bool) : State :=
  (s.clearClaim i updated).offer ⟨.write u.lanes, u.clamped⟩

/-- A resolved write, or a write of no generation, is evaluated (R122, R148, log entry 36). -/
def State.resolvedWrite (s : State) (i : LineIdx) (line : Nat) (p : Presented) (slot : SlotId)
    (w : Window) (named : Option (Generation × BandId)) : State × Bool :=
  let u := s.gainWrite p slot named
  let owns (tag : LineTag) : Bool := tag.slot == slot && some tag.generation == named.map Prod.fst
  if (s.line i).isAt line then
    match s.line i with
    | .held tag band lanes demand =>
      if owns tag then (s.postMerge i p slot w tag band lanes demand, true) else (s.demand i, false)
    | .filling _ _ _ _ => (s, false)
    | .casting _ _ _ _ => (s, false)
    | .clean tag data =>
      if owns tag && !u.raw then
        ((s.setLine i (.clean tag (mergeBytes data (linePart p.req.first u.lanes line)))).writeThrough i u
          true, false)
      else ((s.setLine i .invalid).writeThrough i u false, false)
    | .invalid => (s.writeThrough i u false, false)
  else (s.writeThrough i u false, false)

/-- An unresolved write is evaluated (R123). -/
def State.unresolvedWrite (s : State) (i : LineIdx) (line : Nat) (p : Presented) (slot : SlotId)
    (w : Window) (g : Generation) (band : Option BandId) : State × Bool :=
  match s.line i with
  | .invalid => (s.postNew i p slot w line g band, true)
  | .clean _ _ => (s.postNew i p slot w line g band, true)
  | .held tag b lanes demand =>
    if tag.line = line ∧ tag.slot = slot ∧ tag.generation = g then
      (s.postMerge i p slot w tag b lanes demand, true)
    else (s.demand i, false)
  | .filling _ _ _ _ => (s, false)
  | .casting _ _ _ _ => (s, false)

/-- An INGEST claim is evaluated: the Frame Table is asked first (R121). -/
def State.evalIngest (s : State) (i : LineIdx) (line : Nat) : State × Bool :=
  match s.mpu.intake with
  | none => (s, false)
  | some p =>
    match p.cls, p.window with
    | .ingest slot, some w =>
      let answer := s.ftAnswer slot p.stale (w.bandOfLine line)
      let s := s.modIntake fun p => { p with answer := some answer }
      match answer with
      | .refused => (s.forceFull slot, false)
      | .noGeneration => s.resolvedWrite i line p slot w none
      | .resolved g b => s.resolvedWrite i line p slot w (some (g, b))
      | .waiting g b => s.unresolvedWrite i line p slot w g (some b)
      | .pendingBand g => s.unresolvedWrite i line p slot w g none
    | _, _ => (s, false)

/-! ### Evaluating heads (R120) -/

/-- A claim at the head of its list is evaluated; `true` when it has been served and has left. -/
def State.evalClaim (s : State) (i : LineIdx) (c : Claim) : State × Bool :=
  match c.kind with
  | .ingest => s.evalIngest i c.line
  | .forward => s.evalForward i c.line
  | .need read slot g firstBeat => s.evalNeed i c.line read slot g firstBeat

/-- Evaluate the head of an index's Claim List, and each next claim as the one before it is served. -/
def State.evalHead : Nat → LineIdx → State → State
  | 0, _, s => s
  | n + 1, i, s =>
    match s.headClaim i with
    | none => s
    | some c =>
      if c.cleared then s
      else
        let r := s.evalClaim i c
        if r.2 then State.evalHead n i r.1 else r.1

/-- Evaluate the head of an index's Claim List. -/
def State.evalIndex (s : State) (i : LineIdx) : State := s.evalHead (s.ls.claims.length + 1) i

/-- Evaluate the heads of the indices of some claims, in the order of the claims (log entries 45 and 56). -/
def State.evalIndices (s : State) (l : List Claim) : State :=
  l.foldl (fun s c => s.evalIndex (indexOf c.line)) s

/-- An INGEST claim whose answer has changed is evaluated afresh: refused before, or awaiting its grant
(R120, R121). The first argument bounds the changes of one step. -/
def State.settleIntake : Nat → State → State
  | 0, s => s
  | n + 1, s =>
    match s.mpu.intake with
    | none => s
    | some p =>
      match p.cls, p.window, p.answer with
      | .ingest slot, some w, some old =>
        let line := p.req.first / 256
        if s.ftAnswer slot p.stale (w.bandOfLine line) = old then s
        else if p.phase = .offered then
          let s := match s.headClaim (indexOf line) with
            | some c => if c.updated then s.dropUpdated line else s
            | none => s
          let s := s.setClaims (modFirst (indexOf line)
            (fun c => { c with cleared := false, updated := false }) s.ls.claims)
          let s := ({ s with mpu := { s.mpu with class3 := none } }).modIntake fun p =>
            { p with phase := .claims }
          State.settleIntake n (s.evalIndex (indexOf line))
        else if old = .refused then State.settleIntake n (s.evalIndex (indexOf line))
        else s
      | _, _, _ => s

/-! ### Withdrawal (R133) -/

/-- The Intake Stage's claims are withdrawn together; the heads they free are evaluated from the lower line to the
upper (R133, log entry 56). -/
def State.withdrawIntake (s : State) : State :=
  let mine := s.ls.claims.filter Claim.ofIntake
  let s := s.setClaims (s.ls.claims.filter fun c => !c.ofIntake)
  let s := mine.foldl (fun s c => if c.updated then s.dropUpdated c.line else s) s
  s.evalIndices mine

/-- The needs of a read still PLACED are withdrawn; the freed heads are evaluated in the placing order of
the withdrawn claims (log entry 45). -/
def State.withdrawRead (s : State) (read : Nat) : State :=
  let mine := s.ls.claims.filter fun c => c.ofRead read
  (s.setClaims (s.ls.claims.filter fun c => !c.ofRead read)).evalIndices mine

/-- The claim is a need of one of some reads. -/
def Claim.ofReads (c : Claim) (reads : List Nat) : Bool := reads.any c.ofRead

/-- Some reads become FAILED together: their needs still PLACED are all withdrawn before any head is
evaluated, in the placing order of the withdrawn claims (R167, R168, log entry 45). -/
def State.failReads (s : State) (reads : List Nat) : State :=
  let mine := s.ls.claims.filter fun c => c.ofReads reads
  let s := reads.foldl (fun s read => s.modRead read EgressEntry.fail) s
  (s.setClaims (s.ls.claims.filter fun c => !c.ofReads reads)).evalIndices mine

/-- The reads with a need for a line address in the Claim Lists, in placing order. -/
def State.readsWaiting (s : State) (line : Nat) : List Nat :=
  s.ls.claims.filterMap fun c => match c.kind with
    | .need read _ _ _ => if c.line = line then some read else none
    | _ => none

/-! ### Fill completions (R132, R139) -/

/-- Lay the bytes of a completed part over the data of its record (log entry 27). -/
def overlay (data : List Byte) (off n : Nat) (bytes : List Byte) : List Byte :=
  (List.range 256).map fun p =>
    if off ≤ p ∧ p < off + n then bytes.getD (p - off) (byteAt data p) else byteAt data p

/-- A fill ends with its fault mark set: the record becomes INVALID, FILL_FAULT is raised once, each
need for the line is failed and the rest is evaluated, this index's head last (R132, R167, log entry 58). -/
def State.failFill (s : State) (i : LineIdx) (tag : LineTag) (faulted : List FillPartKind) : State :=
  let reads := s.readsWaiting tag.line
  let s := s.setLine i .invalid
  let s := s.raiseFor (some (tag.slot, tag.generation)) (.fillFault (tag.line * 256) faulted reads.length)
  let s := s.setClaims (s.ls.claims.filter fun c => !(c.line == tag.line && !c.ofIntake))
  (s.failReads reads).evalIndex i

/-- The completion of a fill part (R132): its beats are stored whatever its status, and a FAULT marks the part too. -/
def State.fillDone (s : State) (part : FillPart) (status : Status) (bytes : List Byte) : State :=
  let i := indexOf part.line
  match s.line i with
  | .filling tag data parts faulted =>
    let data := overlay data (16 * part.firstBeat) (16 * part.beats) bytes
    let faulted := if status = .okay then faulted else faulted ++ [part.kind]
    if 1 < parts then s.setLine i (.filling tag data (parts - 1) faulted)
    else if faulted.isEmpty then (s.setLine i (.clean tag data)).evalIndex i
    else s.failFill i tag faulted
  | _ => s

/-! ### Castouts (R128, R139, R168) -/

/-- The record enters CASTING with its bytes gained, and the clamped count is added (R128, R150). -/
def State.startCastout (s : State) (i : LineIdx) (tag : LineTag) (b : BandId) (lanes : List Lane)
    (demand : Bool) : State × List Lane :=
  let u : Gained := match s.gainSetting tag.slot tag.generation b with
    | none => ⟨lanes, 0, false⟩
    | some u => u.gain (tag.line * 256) lanes
  ((s.setLine i (.casting tag (some b) u.lanes demand)).modFrame tag.slot fun f =>
    f.addSaturated u.clamped, u.lanes)

/-- The number of bytes marked in a mask. -/
def maskCount (lanes : List Lane) : Nat := lanes.countP Option.isSome

/-- The record after a castout completes OKAY (R128). -/
def castoutLeaves (tag : LineTag) (lanes : List Lane) : LineRec :=
  if lanes.all Option.isSome then .clean tag (lanes.map fun l => l.getD 0) else .invalid

/-- The completion of a castout (R128, R168, R194). At a FAULT the count falls and the completion test is made before
the waiting reads become FAILED, and this index's head is evaluated last (log entry 58). -/
def State.castoutDone (s : State) (i : LineIdx) (status : Status) : State :=
  match s.line i with
  | .casting tag band lanes demand =>
    let failed := decide (status = .fault)
    let s := s.modDrain fun d =>
      { d with castouts := d.castouts + 1, faulted := d.faulted + bit failed }
    let s := s.setLine i (if failed then .invalid else castoutLeaves tag lanes)
    let s := if failed then
        s.raiseFor (some (tag.slot, tag.generation))
          (.writebackFault (tag.line * 256) band (maskCount lanes) demand)
      else s
    let s := (s.modFrame tag.slot fun f => f.lineGone tag.generation).testComplete tag.slot
    let s := if failed then s.failReads (s.readsWaiting tag.line) else s
    s.evalIndex i
  | _ => s

end Sys2Proof.Machine
end

