-- ==== Sys2Proof/Machine/Egress.lean ====
section
/-! DEFINITION. The Egress Queue: entry, answers and the emptying of the queue (R154–R170). -/

namespace Sys2Proof.Machine

/-- EARLY_READ is set on an ARMED, TAGGED or RESOLVED generation (R157). -/
def FrameRecord.readEarly (f : FrameRecord) : FrameRecord :=
  match f.state with
  | .armed | .tagged | .resolved => { f with flags := { f.flags with earlyRead := true } }
  | _ => f

/-- The entry of a read with everything fixed (R155). -/
def State.fixRead (s : State) (r : UpRequest) (slot : SlotId) (w : Window) : EgressEntry :=
  let f := s.frame slot
  let mag := f.magSource
  let settings := s.cru.settings
  let u : ReadSetting :=
    ⟨w, magnificationAt w.height (w.readRow r.first) mag.2, settings.border, settings.fillValue⟩
  let needs := (u.needs r.first r.beats).map fun n => Need.mk n.1 n.2 none
  EgressEntry.readyIfServed
    { id := s.er.nextId, master := r.master, tag := r.tag, addr := r.addr, beats := r.beats
      slot := slot, generation := f.generation, window := w, source := mag.1, k := u.k
      border := u.border, fillValue := u.fillValue, needs := needs, state := .gathering }

/-- A need is placed and, when it is the head of its list, evaluated (R120, R164). -/
def State.placeNeed (s : State) (e : EgressEntry) (n : Need) : State :=
  (s.addClaim n.line (.need e.id e.slot e.generation n.firstBeat)).evalIndex (indexOf n.line)

/-- A presented EGRESS read can enter the Egress Queue (R14). -/
def State.canEnterQueue (s : State) : Bool :=
  match s.mpu.intake with
  | none => false
  | some p => p.phase == .queue && s.er.queue.length < 16

/-- A read enters the queue and places its needs in increasing order of line address (R14, R155, R164,
log entry 43). -/
def State.enterQueue (s : State) (p : Presented) (slot : SlotId) (w : Window) : State :=
  let e := s.fixRead p.req slot w
  let s := (s.modFrame slot FrameRecord.readEarly).emptyIntake
  let s := { s with er := { queue := s.er.queue ++ [e], nextId := s.er.nextId + 1 } }
  e.needs.foldl (fun s n => s.placeNeed e n) s

/-- The head of the queue leaves it. -/
def State.popRead (s : State) : State := { s with er := { s.er with queue := s.er.queue.drop 1 } }

/-- The completion of a computed entry. -/
def EgressEntry.okay (e : EgressEntry) (data : List Byte) : UpCompletion := ⟨e.master, e.tag, .okay, data⟩

/-- The completion of a failed or abandoned entry: beat count beats of value 0. -/
def EgressEntry.fault (e : EgressEntry) : UpCompletion := ⟨e.master, e.tag, .fault, zeros (16 * e.beats)⟩

/-- READY and FAILED entries at the head are answered, one after the other (R166). -/
def State.answerReads : Nat → State → State
  | 0, s => s
  | n + 1, s =>
    match s.er.queue with
    | [] => s
    | e :: _ =>
      match e.state with
      | .gathering => s
      | .ready data => State.answerReads n (s.popRead.complete (e.okay data))
      | .failed => State.answerReads n (s.popRead.complete e.fault)

/-- The queue is taken from head to tail: READY entries are answered OKAY, FAILED ones FAULT, GATHERING
ones are abandoned (R170, log entry 34). -/
def State.emptyQueue : Nat → State → State
  | 0, s => s
  | n + 1, s =>
    match s.er.queue with
    | [] => s
    | e :: _ =>
      match e.state with
      | .ready data => State.emptyQueue n (s.popRead.complete (e.okay data))
      | .failed => State.emptyQueue n (s.popRead.complete e.fault)
      | .gathering =>
        let s := (s.popRead.modDrain fun d => { d with reads := d.reads + 1 }).withdrawRead e.id
        State.emptyQueue n (s.complete e.fault)

end Sys2Proof.Machine
end

