-- ==== Sys2Proof/Machine/Settle.lean ====
section
/-! DEFINITION. What follows at the end of a command that changes more than one block: claims whose
Frame Table answer has changed, answers of the Egress Queue, the offer of the next event record and
ATTN_N (log entry 9). -/

namespace Sys2Proof.Machine

/-- The four conditions under which the head of the Event Queue is offered to class 5 (R183). -/
def State.recordOffered (s : State) : Bool :=
  s.cru.ringState == .set && s.cru.recordWrite.isNone && !s.cru.events.isEmpty &&
    (s.cru.produce + 1) % s.ringSize != s.consumed

/-- Class 5 with the event record write joined or withdrawn as its conditions stand (R18, R183). -/
def State.class5Now (s : State) : List ReportWrite :=
  if s.recordOffered then
    if s.mpu.class5.contains .event then s.mpu.class5 else s.mpu.class5 ++ [.event]
  else s.mpu.class5.filter fun w => w != .event

/-- Class 5, the starvation count and ATTN_N follow the state of the reporting (R19, R183, R184). -/
def State.refreshReports (s : State) : State :=
  let class5 := s.class5Now
  { s with
    mpu := { s.mpu with class5 := class5
                        starvation := if class5.isEmpty then 0 else s.mpu.starvation }
    pins := { s.pins with attnN := s.attnLevel } }

/-- The end of a command. -/
def State.finish (s : State) : State := ((s.settleIntake 8).answerReads 16).refreshReports

end Sys2Proof.Machine
end

