-- ==== Sys2Proof/Machine/Path.lean ====
section
/-! DEFINITION. The Memory Path Unit: classification, presentation, the arbiter, the Outstanding Table
and the return of completions (R3–R20). -/

namespace Sys2Proof.Machine

/-! ### Classification (R5–R8) -/

/-- An address lies in an enabled bypass region (R6). -/
def Region.holds (r : Region) (a : Nat) : Bool := r.enabled && r.base ≤ a && a < r.base + r.size

/-- The control area's base: the CTLBASE strap × 16 MiB (R20). -/
def State.controlBase (s : State) : Nat := s.pins.ctlbase.toNat * 16777216

/-- An address lies in the control area. -/
def State.inControl (s : State) (a : Nat) : Bool := s.controlBase ≤ a && a < s.controlBase + 4096

/-- The enabled committed window whose extent holds an address, with its slot. -/
def State.windowAt (s : State) (a : Nat) : Option (SlotId × Window) :=
  allSlots.findSome? fun i =>
    match (s.slot i).committed with
    | none => none
    | some w => if w.holds a then some (i, w) else none

/-- The class of a request in a window's extent (R8). -/
def Window.classify (w : Window) (slot : SlotId) (r : UpRequest) : Cls :=
  let row := w.rowOf r.first
  match r.kind with
  | .write _ =>
    if r.master = w.writer ∧ w.isImageRow row then .ingest slot
    else if r.master = w.writer ∧ row = w.tagRow then .tag slot
    else .foreign slot
  | .read =>
    if w.reads r.master ∧ w.correctedView ∧ w.isImageRow row then .egress slot else .foreign slot

/-- The class of a request against committed state, with the window it was classified under (R5). -/
def State.classify (s : State) (r : UpRequest) : Cls × Option Window :=
  if r.crosses then (.pass, none)
  else if s.rawPass then (.pass, none)
  else if s.cru.settings.regions.toList.any fun g => g.holds r.first then (.pass, none)
  else if s.inControl r.first then (.control, none)
  else match s.windowAt r.first with
    | some (i, w) => (w.classify i r, some w)
    | none => (.pass, none)

/-- A crossing request touches the control area or the extent of an enabled window (R7). -/
def State.touchesArea (s : State) (r : UpRequest) : Bool :=
  overlaps r.first (16 * r.beats) s.controlBase 4096 ||
    allSlots.any fun i =>
      match (s.slot i).committed with
      | none => false
      | some w => overlaps r.first (16 * r.beats) w.base w.extent

/-- ILLEGAL_SPAN at the taking of a request (R7, log entry 14). -/
def State.reportSpan (s : State) (r : UpRequest) : State :=
  if r.crosses && s.touchesArea r then s.raise (.illegalSpan r.addr r.master r.tag r.beats) else s

/-! ### Presentation (R3, R4, R10, R13, R14) -/

/-- A request can be presented. -/
def State.canPresent (s : State) : Bool :=
  s.pins.resetN && s.mpu.intake.isNone && s.cru.proc == .none

/-- Set what the presented request waits for. -/
def State.setPhase (s : State) (ph : Phase) : State := s.modIntake fun p => { p with phase := ph }

/-- The presented request places its forwarding claims and has each evaluated, in address order (R10, R120);
the castouts that the check of one crossing request demands join class 1 in that order too (log entry 48). -/
def State.placeForward (s : State) (r : UpRequest) : State :=
  let lines := r.linesTouched
  let s := s.setPhase .claims
  let s := lines.foldl (fun s l => s.addClaim l .forward) s
  lines.foldl (fun s l => s.evalIndex (indexOf l)) s

/-- The presented request is handed to the block that serves its class (R3, R10, R13, R14). -/
def State.startPresented (s : State) (p : Presented) : State :=
  match p.cls with
  | .pass => if s.ls.sweeping then s.offer ⟨p.req.kind, 0⟩ else s.placeForward p.req
  | .foreign _ => if s.ls.sweeping then s.setPhase .sweep else s.placeForward p.req
  | .control => s.offer ⟨p.req.kind, 0⟩
  | .tag _ => s.offer ⟨p.req.kind, 0⟩
  | .ingest _ =>
    if s.ls.sweeping then s.setPhase .sweep
    else
      let line := p.req.first / 256
      ((s.setPhase .claims).addClaim line .ingest).evalIndex (indexOf line)
  | .egress _ => if s.ls.sweeping then s.setPhase .sweep else s.setPhase .queue

/-- The request at the head of the upstream port is presented (R3). -/
def State.presentHead (s : State) : State :=
  match s.mpu.port with
  | [] => s
  | r :: rest =>
    let c := s.classify r
    let p : Presented :=
      { req := r, cls := c.1, window := c.2, stale := false, phase := .sweep, answer := none }
    ({ s with mpu := { s.mpu with port := rest, intake := some p } }).startPresented p

/-- A presentation is cancelled: the request goes back to the head of the port and its claims are
withdrawn, the lower line's first (R4, log entry 56). -/
def State.cancelPresented (s : State) : State :=
  match s.mpu.intake with
  | none => s
  | some p =>
    ({ s with mpu := { s.mpu with port := p.req :: s.mpu.port, intake := none
                                  class3 := none } }).withdrawIntake

/-! ### The arbiter (R18, R19) -/

/-- What the arbiter grants. -/
inductive Grant where
  | castout (line : LineIdx)
  | fill (part : FillPart)
  | forward (f : Forward)
  | report (w : ReportWrite)
  deriving DecidableEq, Repr

/-- The first waiting candidate of classes 1 to 4. -/
def State.firstOfFour (s : State) : Option Grant :=
  match s.mpu.class1, s.mpu.class2, s.mpu.class3, allLines.find? s.isBackground with
  | i :: _, _, _, _ => some (.castout i)
  | [], part :: _, _, _ => some (.fill part)
  | [], [], some f, _ => some (.forward f)
  | [], [], none, some i => some (.castout i)
  | [], [], none, none => none

/-- The candidate the next grant goes to (R18, R19). -/
def State.nextGrant (s : State) : Option Grant :=
  match s.mpu.class5, s.firstOfFour with
  | w :: _, some g => if s.mpu.starvation = 64 then some (.report w) else some g
  | w :: _, none => some (.report w)
  | [], g => g

/-- The lowest-numbered FREE entry of the Outstanding Table (R16). -/
def State.freeTag (s : State) : Option DownTag :=
  allTags.find? fun t => (s.mpu.outstanding[t]).isNone

/-- The starvation count after a grant to classes 1 to 4 (R19). -/
def State.countStarvation (s : State) : State :=
  { s with mpu := { s.mpu with starvation :=
    if s.mpu.class5.isEmpty then 0 else min 64 (s.mpu.starvation + 1) } }

/-- A downstream request is issued under a tag and recorded with its origin (R2, R16). -/
def State.issue (s : State) (t : DownTag) (o : Origin) (addr beats : Nat) (kind : ReqKind) : State :=
  { s with
    mpu := { s.mpu with outstanding := put s.mpu.outstanding t (some o) }
    ports := { s.ports with dmp := s.ports.dmp ++ [⟨t, addr, beats, kind⟩] } }

/-- The entry a tag names becomes FREE at its completion (R16); a procedure that waited for it no longer
does (R179). -/
def State.freeEntry (s : State) (t : DownTag) : State :=
  let proc := match s.cru.proc with
    | .none => Procedure.none
    | .drain d => .drain { d with waitFor := d.waitFor.erase t }
    | .bypassEntry l => .bypassEntry (l.erase t)
  { s with mpu := { s.mpu with outstanding := put s.mpu.outstanding t none }
           cru := { s.cru with proc := proc } }

/-- The accounting at the grant of a written-through INGEST write; the clamped count is added first
(R13, R27, R149). -/
def State.accountGranted (s : State) (p : Presented) (f : Forward) : State :=
  match p.cls, p.window, p.answer with
  | .ingest slot, some w, some answer =>
    let s := match answer with
      | .resolved g _ =>
        if (s.frame slot).generation = g then s.modFrame slot fun r => r.addSaturated f.clamped else s
      | _ => s
    s.account slot p.req.beats (marksEndOfFrame w p.req) (decide (answer ≠ .noGeneration))
  | _, _, _ => s

/-- The grant of the forwarded request: it is issued and taken (R3, R10, R13, R16). Its claims leave together, and
the heads they free are evaluated from the lower line to the upper, after the accounting (log entry 56). -/
def State.grantForward (s : State) (t : DownTag) (f : Forward) : State :=
  match s.mpu.intake with
  | none => s
  | some p =>
    let mine := s.ls.claims.filter Claim.ofIntake
    let updated := (mine.filter Claim.updated).map Claim.line
    let s := s.countStarvation.issue t (.upstream p.req p.cls updated p.stale) p.req.first p.req.beats f.kind
    let s := s.emptyIntake.setClaims (s.ls.claims.filter fun c => !c.ofIntake)
    let s := (s.accountGranted p f).reportSpan p.req
    (s.evalIndices mine).finish

/-- The grant of a castout (R128). -/
def State.grantCastout (s : State) (t : DownTag) (i : LineIdx) : State :=
  match s.line i with
  | .held tag (some b) lanes demand =>
    let s := s.countStarvation
    let s := { s with mpu := { s.mpu with class1 := s.mpu.class1.erase i } }
    let r := s.startCastout i tag b lanes demand
    r.1.issue t (.castout i) (tag.line * 256) 16 (.write r.2)
  | _ => s

/-- The grant of a fill part (R132). -/
def State.grantFill (s : State) (t : DownTag) (part : FillPart) : State :=
  let s := s.countStarvation
  ({ s with mpu := { s.mpu with class2 := s.mpu.class2.drop 1 } }).issue t (.fill part)
    (part.line * 256 + 16 * part.firstBeat) part.beats .read

/-- A grant to class 5 takes the candidate from it and sets the starvation count to 0 (R19). -/
def State.takeReport (s : State) : State :=
  { s with mpu := { s.mpu with class5 := s.mpu.class5.drop 1, starvation := 0 } }

/-- Where the ring's next record is written (R183). -/
def State.recordAddr (s : State) : Nat :=
  match s.cru.settings.ring with
  | none => 0
  | some r => r.base + 32 * s.cru.produce

/-- The 32 bytes of the head of the Event Queue. -/
def State.headRecord (s : State) : List Byte :=
  match s.cru.events with
  | [] => zeros 32
  | e :: _ => e.bytes

/-- The grant of an event record write (R183, R190). -/
def State.grantRecord (s : State) (t : DownTag) : State :=
  let s := { s.takeReport with cru := { s.cru with recordWrite := some false } }
  s.issue t (.event s.cru.produce) s.recordAddr 2 (.write (s.headRecord.map some))

/-- The grant of one half of a snapshot (R185, R191). -/
def State.grantSnapshot (s : State) (t : DownTag) (half : Fin 2) : State :=
  match s.cru.snapshot with
  | none => s
  | some n =>
    s.takeReport.issue t (.snapshot half) (n.addr + 256 * half.val) 16
      (.write (((n.bytes.drop (256 * half.val)).take 256).map some))

/-! ### The return of forwarded completions (R10–R12, R17, R125) -/

/-- A FAULT makes the CLEAN records that the write updated INVALID (R125, R130). -/
def State.dropIfFault (s : State) (status : Status) (updated : List Nat) : State :=
  match status with
  | .okay => s
  | .fault => updated.foldl State.dropUpdated s

/-- The upstream completion of a forwarded request: the downstream completion unchanged (R10). -/
def answerTo (r : UpRequest) (status : Status) (data : List Byte) : UpCompletion :=
  ⟨r.master, r.tag, status, match r.kind with
    | .read => data
    | .write _ => []⟩

end Sys2Proof.Machine
end

