-- ==== Sys2Proof/Machine/Link.lean ====
section
/-! DEFINITION. The Lens Link Controller and the admission of samples: periods, link states, taking a
good frame, the answering part frame (R60–R86). -/

namespace Sys2Proof.Machine

/-- Change the Lens Link Controller. -/
def State.modLlc (s : State) (f : Llc → Llc) : State := { s with llc := f s.llc }

/-- A change of link state with its LINK_STATE event; the mode target is evaluated (R73, R76). `run`:
the run count it reports (log entry 16). -/
def State.changeLink (s : State) (entered : LinkState) (reason : LinkReason) (run : Nat)
    (check : Option Byte) : State :=
  ((s.modLlc fun l => { l with link := entered }).raise
    (.linkState s.llc.link entered reason run s.llc.lastGood check)).evalMode false

/-! ### Samples (R75, R79, R84, R86) -/

/-- The samples of a frame, stamped from its arrival stamp and the latency compensation (R75). -/
def LensFrame.stamped (f : LensFrame) (arrival : Stamp) (latency : Nat) : List Sample :=
  f.samples.zipIdx.map fun (x, i) =>
    let back : Nat := latency + (f.samples.length - 1 - i) * 64
    { stamp := stampAdd arrival (-(back : Int)), focus := x.focus, iris := x.iris
      focusValid := x.focusValid, irisValid := x.irisValid }

/-- The FOCUS_MARK event of one mark, if the sample crosses it (R79). -/
def FocusMark.crossing (m : FocusMark) (index : Fin 4) (p : BitVec 16) (x : Sample) : Option Event :=
  if m.enabled ∧ p.toNat < m.value ∧ m.value ≤ x.focus.toNat then
    some (.focusMark index true m.value p x.focus x.stamp)
  else if m.enabled ∧ m.value < p.toNat ∧ x.focus.toNat ≤ m.value then
    some (.focusMark index false m.value p x.focus x.stamp)
  else none

/-- The focus mark test of a sample that has entered the history (R79). -/
def State.testMarks (s : State) (x : Sample) : State :=
  if x.focusValid then
    let t := match s.llc.focusRef with
      | none => s
      | some p => [(0 : Fin 4), 1, 2, 3].foldl (fun t i =>
          t.raiseIf none (FocusMark.crossing s.cru.settings.focusMarks[i] i p x)) s
    t.modLlc fun l => { l with focusRef := some x.focus }
  else s

/-- The newest valid focus and iris take a sample's valid fields (R86). -/
def Br.takeValid (br : Br) (x : Sample) : Br :=
  { br with newestFocus := if x.focusValid then some x.focus else br.newestFocus
            newestIris := if x.irisValid then some x.iris else br.newestIris }

/-- A sample is admitted to the history (R84 step 1). -/
def Br.admits (br : Br) (x : Sample) : Bool :=
  match br.history.getLast? with
  | none => true
  | some newest => later x.stamp newest.stamp

/-- The history with a sample as its newest entry (R84 steps 2 and 3). -/
def Br.push (br : Br) (x : Sample) : Br :=
  { br with history := (if br.history.length < 256 then br.history else br.history.drop 1) ++ [x] }

/-- The Band Resolver takes a sample (R84). -/
def State.takeSample (s : State) (x : Sample) : State :=
  if s.br.admits x then
    let s := ({ s with br := s.br.push x }).testMarks x
    ({ s with br := s.br.takeValid x }).takeAllBands State.testComplete .attempt
  else s

/-! ### Link mode (R77) -/

/-- The link mode takes the kind of a good frame that differs from it (R77). -/
def State.checkMode (s : State) (f : LensFrame) : State :=
  if f.kind = s.llc.linkMode then s
  else (s.modLlc fun l => { l with linkMode := f.kind }).raise
    (.modeChanged s.llc.linkMode f.kind s.llc.modeTarget (some f.sequence))

/-! ### Entry to DOWN (R72, R85) -/

/-- The newest sample becomes the last-known record and the history is emptied (R85). -/
def Br.lose (br : Br) : Br := { br with history := [], lastKnown := br.latest }

/-- The link mode falls to NORMAL at an entry to DOWN; there is no frame, so the event's frame sequence
is absent (R72, R77, R187, log entry 18). -/
def State.dropMode (s : State) : State :=
  if s.llc.linkMode = .fast then
    (s.modLlc fun l => { l with linkMode := .normal }).raise
      (.modeChanged .fast .normal s.llc.modeTarget none)
  else s

/-- The link enters DOWN (R72). -/
def State.enterDown (s : State) (reason : LinkReason) (run : Nat) : State :=
  let left := s.llc.link
  let s := s.modLlc fun l =>
    { l with link := .down, expected := none, deadline := none, run := 0, acquire := 0, attempts := 0
             outstanding := none }
  let s := (s.raise (.linkState left .down reason run s.llc.lastGood none)).dropMode
  let s := ({ s with br := s.br.lose }).takeAllBands State.testComplete .linkDown
  let s := s.modLlc fun l => { l with focusRef := none }
  (s.failLoad .link none 0).evalMode false

/-! ### Periods (R63, R64, R68, R71) -/

/-- A bad or missing period raises the run count (R64, R66, R71), and the change of link state it makes comes before
the period is delivered as a period event (log entry 57). -/
def State.badPeriod (s : State) : State :=
  let run := s.llc.run + 1
  let s := s.modLlc fun l =>
    { l with run := run, acquire := if l.link = .acquiring then 0 else l.acquire }
  if run = 64 then s.enterDown .detach run
  else if s.llc.link = .ready ∧ run = 4 then s.changeLink .holdover .loss run none
  else s

/-- A period event counts against the outstanding identity attempt (R68). -/
def State.identPeriod (s : State) : State :=
  match s.llc.outstanding with
  | none => s
  | some n =>
    if n + 1 < 16 then s.modLlc fun l => { l with outstanding := some (n + 1) }
    else
      let s := s.modLlc fun l => { l with outstanding := none }
      if s.llc.attempts < 3 then s
      else (s.modLlc fun l => { l with acquire := 0 }).changeLink .acquiring .identFail s.llc.run none

/-- A period event, good, bad or missing, goes to the identity timeout and then to the Profile Unit, the order in
which R63 names them (R68, R112, log entry 57). -/
def State.periodEvent (s : State) : State := s.identPeriod.loadPeriod

/-! ### Taking a good frame (R65–R71) -/

/-- An identity reply is accepted (R67, R86). -/
def State.acceptReply (s : State) (reply : LensIdentity) : State :=
  let same := s.llc.identified.map LensIdentity.id == some reply.id
  let br := if same then s.br else { s.br with newestFocus := none, newestIris := none }
  let s := { s with llc := { s.llc with identified := some reply }, br := br }
  let s := (s.raise (.lensIdent reply)).takeIdentity reply
  (s.modLlc fun l => { l with run := 0, outstanding := none }).changeLink .ready .identified 0 none

/-- A good frame whose check byte differs from the identified lens (R70). -/
def State.mismatch (s : State) (f : LensFrame) : State :=
  ((s.modLlc fun l => { l with attempts := 0, outstanding := none }).changeLink .ident .mismatch
    s.llc.run (some f.checkByte)).failLoad .link none 0

/-- The check byte matches the identified lens. -/
def LensFrame.checks (f : LensFrame) (identified : Option LensIdentity) : Bool :=
  match identified with
  | none => false
  | some l => f.checkByte == l.id.setWidth 8

/-- A payload is handed to the Profile Unit (R80). -/
def State.takePayload (s : State) : Option (Nat × List Byte) → State
  | none => s
  | some (block, data) => s.blockReply block data

/-- A good frame is taken in READY (R69, R70, log entry 17). -/
def State.takeReady (s : State) (f : LensFrame) : State :=
  if f.checks s.llc.identified then
    let s := (f.stamped s.clock s.cru.settings.latency).foldl State.takeSample s
    (s.takePayload f.payload).checkMode f
  else s.mismatch f

/-- A good frame is taken by the state it arrives in (R65–R71). Where it changes the link state and the
link mode, LINK_STATE and the evaluation of the mode target come first (log entry 39). -/
def State.takeGood (s : State) (f : LensFrame) : State :=
  match s.llc.link with
  | .down =>
    ((s.modLlc fun l => { l with acquire := 1 }).changeLink .acquiring .firstFrame 0 none).checkMode f
  | .acquiring =>
    let s := s.modLlc fun l => { l with acquire := l.acquire + 1 }
    if s.llc.acquire < 8 then s.checkMode f
    else ((s.modLlc fun l => { l with attempts := 0, outstanding := none }).changeLink .ident .acquired
      0 none).checkMode f
  | .ident =>
    match f.reply, s.llc.outstanding with
    | some reply, some _ => (s.acceptReply reply).checkMode f
    | _, _ => s.checkMode f
  | .ready => s.takeReady f
  | .holdover => (s.changeLink .ready .recovered 0 none).takeReady f

/-! ### The answer (R74) -/

/-- The Profile Unit's offer, or POLL (R74 orders 3 and 4). -/
def State.answerReady (s : State) (sequence : BitVec 8) : State :=
  match s.pu.load.bind Load.offer with
  | some (block, ld) => (s.setLoad (some ld)).sendPart (.blockReq sequence block)
  | none => s.sendPart (.poll sequence)

/-- A good frame is answered with one part frame (R74). -/
def State.answerFrame (s : State) (f : LensFrame) : State :=
  if s.llc.link = .ident ∧ s.llc.attempts < 3 ∧ s.llc.outstanding = none then
    (s.modLlc fun l => { l with attempts := l.attempts + 1, outstanding := some 0 }).sendPart
      (.identReq f.sequence)
  else if f.kind ≠ s.llc.modeTarget then s.sendPart (.modeReq f.sequence s.llc.modeTarget)
  else if s.llc.link = .ready ∧ s.llc.linkMode = .normal ∧ s.llc.modeTarget = .normal then
    s.answerReady f.sequence
  else s.sendPart (.poll f.sequence)

/-! ### Arrivals and missing periods -/

/-- Set the period deadline and the expected sequence at the arrival of a frame (R63, R64). -/
def State.arrival (s : State) (expected : Option (BitVec 8)) : State :=
  s.modLlc fun l => { l with deadline := some (stampAdd s.clock 384), expected := expected }

/-- A good frame: its period, its taking, its period event and its answer (R63, R64, R69, log entry 19). A frame of
the other kind that ends the third identity attempt raises MODE_CHANGED before LINK_STATE (R68, R77, log entry 54). -/
def State.goodFrame (s : State) (f : LensFrame) : State :=
  let s := (s.arrival (some (f.sequence + 1))).modLlc fun l =>
    { l with run := 0, lastGood := some f.sequence }
  ((s.takeGood f).periodEvent).answerFrame f

/-- A well-formed frame is judged good (R64). -/
def Llc.judgesGood (l : Llc) (f : LensFrame) : Bool :=
  match l.link with
  | .down => true
  | .holdover => true
  | _ => l.expected == some f.sequence

/-- A lens frame arrives (R63–R65). A bad period changes the link state before it is delivered (log entry 57). -/
def State.lensFrame (s : State) (bytes : List Byte) : State :=
  match parseLensFrame bytes with
  | none =>
    if s.llc.link = .down then s
    else ((s.arrival (s.llc.expected.map (· + 1))).badPeriod).periodEvent
  | some f =>
    if s.llc.judgesGood f then s.goodFrame f
    else ((s.arrival (some (f.sequence + 1))).badPeriod).periodEvent

/-- The period deadline expires with no frame (R63, R64). The missing period changes the link state before it is
delivered (log entry 57). -/
def State.missPeriod (s : State) (d : Stamp) : State :=
  let s := s.modLlc fun l =>
    { l with deadline := some (stampAdd d 256), expected := l.expected.map (· + 1) }
  s.badPeriod.periodEvent

/-- The command is the arrival of a lens frame. -/
def isLensFrame : Instr → Bool
  | .lensFrame _ => true
  | _ => false

/-- A lens frame arrives at the stamp of the period deadline: one waits in the queue while the Stamp Clock
stands at the deadline. The deadline then does not expire at that stamp (R63, log entry 32). -/
def State.frameForestalls (s : State) (d : Stamp) : Bool :=
  s.clock == d && s.pending.any isLensFrame

/-- LINK_RESTART as the Lens Link Controller takes it (R81). -/
def State.restartLink (s : State) : State :=
  if s.llc.link = .down then s else s.enterDown .restart s.llc.run

end Sys2Proof.Machine
end

