-- ==== Sys2Proof/Machine/Drain.lean ====
section
/-! DEFINITION. The two procedures that empty the part of work in flight: the drain and the bypass entry
sequence (R178–R181, R193, R194). -/

namespace Sys2Proof.Machine

/-- Set the procedure in progress. -/
def State.setProc (s : State) (p : Procedure) : State := { s with cru := { s.cru with proc := p } }

/-- The BUSY entries of the Outstanding Table. -/
def State.busyTags (s : State) : List DownTag := allTags.filter fun t => (s.mpu.outstanding[t]).isSome

/-- A slot whose generation step 2 acts on (R41, R193). -/
def State.hasWork (s : State) (slot : SlotId) : Bool :=
  let f := s.frame slot
  match f.state with
  | .tagged | .resolved => true
  | .armed => f.firstIngest.isSome
  | _ => false

/-- Step 2 on a slot (R41, R42, R178): a TAGGED generation resolves FORCED, an ARMED one with a
first-ingest stamp UNTAGGED, and a RESOLVED one is tested. -/
def State.resolveSlot (s : State) (slot : SlotId) : State :=
  match (s.frame slot).state with
  | .tagged => s.takeBands State.testComplete .forced slot
  | .armed => s.enterUntagged State.testComplete slot s.clock false
  | _ => s.testComplete slot

/-- The slot's tag deadline is removed (R57, R178). -/
def Slot.dropTagDeadline (sl : Slot) : Slot := { sl with tagDeadline := none }

/-- Every tag deadline is removed (R178). -/
def State.dropTagDeadlines (s : State) : State := { s with slots := mapTable s.slots Slot.dropTagDeadline }

/-- Steps 1 and 2 (R4, R57, R178): the presentation is cancelled, the generations resolve and the tag
deadlines are removed. The demanded lines of one slot join class 1 before those of the next (log entry 59). -/
def State.emptyPart (s : State) : State :=
  let s := s.cancelPresented
  (s.forSlots s.hasWork State.resolveSlot).dropTagDeadlines

/-! ### The drain -/

/-- A drain accepted now. -/
def State.newDrain (s : State) : Drain :=
  { accepted := s.clock, cancelled := s.mpu.intake.isSome, generations := 0, castouts := 0, faulted := 0
    reads := 0, loadAborted := false, waitFor := [] }

/-- DRAIN_RESTART is accepted: steps 1 and 2 and the start of step 3 (R178, R179). -/
def State.startDrain (s : State) : State :=
  let s := (s.setProc (.drain s.newDrain)).emptyPart
  let s := s.modDrain fun d => { d with waitFor := s.busyTags }
  s.abortForDrain.emptyQueue 17

/-- An entry of the Outstanding Table that holds the procedures (R179). -/
def Origin.holdsDrain (o : Option Origin) : Bool :=
  match o with
  | some (.upstream _ _ _ _) => true
  | some (.fill _) => true
  | some (.castout _) => true
  | _ => false

/-- A record that is HELD, CASTING or FILLING. -/
def LineRec.inWork (r : LineRec) : Bool := r.isHeld || r.isCasting || r.isFilling

/-- The entries the procedure in progress still waits for. -/
def State.waitFor (s : State) : List DownTag :=
  match s.cru.proc with
  | .none => []
  | .drain d => d.waitFor
  | .bypassEntry l => l

/-- The work in flight has ended (R179). -/
def State.workEnded (s : State) : Bool :=
  s.waitFor.isEmpty && s.ls.claims.isEmpty && s.er.queue.isEmpty &&
    !(s.mpu.outstanding.toList.any Origin.holdsDrain) && !(s.ls.lines.toList.any LineRec.inWork)

/-- A slot at drain step 4: an enabled record begins a new generation in ARMED, with no successor, no
Presented Set and no collected bytes (R41, R51, R180). -/
def Slot.rearm (sl : Slot) : Slot :=
  match sl.committed with
  | none => { sl with collection := emptyCollection, invalidReported := false, tagDeadline := none
                      frame := { sl.frame with presented := none, successor := none, pendingTag := none } }
  | some _ =>
    Slot.begin { sl with collection := emptyCollection
                         frame := { sl.frame with presented := none, successor := none } }

/-- Pending descriptors apply at step 4, from slot 0 to slot 7, each with its own COMMIT_APPLIED (R180,
log entry 46). -/
def State.applyAllPending (s : State) : State := allSlots.foldl State.applyPending s

/-- What step 4 clears (R180). -/
def State.clearWork (s : State) : State :=
  { s with slots := mapTable s.slots Slot.rearm
           ssu := { s.ssu with exposures := [] }
           llc := { s.llc with focusRef := none }
           br := { s.br with history := [] }
           ls := { s.ls with lines := mapTable s.ls.lines fun _ => .invalid } }

/-- DRAIN_DONE of a drain (R180, R194). -/
def Drain.doneEvent (d : Drain) : Event :=
  .drainDone d.accepted d.cancelled d.generations d.castouts d.faulted d.reads d.loadAborted

/-! ### The bypass entry sequence (R181) -/

/-- In the bypass entry sequence a RESOLVED generation without end-of-frame is truncated (R42). -/
def FrameRecord.closeForBypass (f : FrameRecord) : FrameRecord :=
  if f.state = .resolved ∧ f.eofSeen = false then { f with flags := { f.flags with truncated := true } }
  else f

/-- The bypass entry sequence starts. -/
def State.startBypassEntry (s : State) : State :=
  let s := s.setProc (.bypassEntry [])
  let s := { s with slots := mapTable s.slots fun sl => { sl with frame := sl.frame.closeForBypass } }
  let s := s.emptyPart
  (s.setProc (.bypassEntry s.busyTags)).emptyQueue 17

/-- The bypass entry sequence ends: the tag collections are cleared (R51, R181). -/
def State.endBypassEntry (s : State) : State :=
  ({ s with slots := mapTable s.slots fun sl => { sl with collection := emptyCollection } }).setProc .none

/-- Drain steps 4 and 5 (R180); with BYPASS High the entry sequence then starts (R181). -/
def State.finishDrain (s : State) (d : Drain) : State :=
  let s := s.clearWork.applyAllPending
  let s := ((s.raise d.doneEvent).setProc .none).resumeLoads d.loadAborted
  if s.pins.bypass then s.startBypassEntry else s

end Sys2Proof.Machine
end

