-- ==== Sys2Proof/Machine/Control.lean ====
section
/-! DEFINITION. The Control and Reporting Unit: the commit, commands, snapshots, record writes and the
handover of CONTROL writes (R172–R185). -/

namespace Sys2Proof.Machine

/-! ### The checks of a commit (R174) -/

/-- Order 2: a ring, when named, has a size and a base it may have. -/
def ringOk : Option Ring → Bool
  | none => true
  | some r => (r.size = 16 ∨ r.size = 32 ∨ r.size = 64 ∨ r.size = 128 ∨ r.size = 256) &&
      r.base % (32 * r.size) == 0

/-- Order 3: a snapshot address, when present, is a multiple of 512. -/
def snapshotOk : Option Nat → Bool
  | none => true
  | some a => a % 512 == 0

/-- The lowest slot whose ENABLED shadow descriptor fails a check. -/
def firstFailing (m : Memory) (ok : Window → Bool) : Option SlotId :=
  allSlots.find? fun i => match shadowWindow m i with
    | none => false
    | some w => !ok w

/-- A range of bytes: base and size. -/
abbrev Range := Nat × Nat

/-- Two ranges share a byte. -/
def Range.meets (a b : Range) : Bool := overlaps a.1 a.2 b.1 b.2

/-- A range shares a byte with a range that may be absent. -/
def Range.meets? (a : Range) (b : Option Range) : Bool :=
  match b with
  | none => false
  | some b => a.meets b

/-- The extent of a descriptor. -/
def extentOf (w : Option Window) : Option Range := w.map fun w => (w.base, w.extent)

/-- The range of the ring the shadow names. -/
def shadowRingRange (m : Memory) : Option Range := (shadowRing m).map fun r => (r.base, 32 * r.size)

/-- The range of the snapshot area the shadow names. -/
def shadowSnapshotRange (m : Memory) : Option Range := (shadowSnapshot m).map fun a => (a, 512)

/-- The control area. -/
def State.controlRange (s : State) : Range := (s.controlBase, 4096)

/-- A slot's committed extent. -/
def State.committedRange (s : State) (i : SlotId) : Option Range := extentOf (s.slot i).committed

/-- A slot's shadow extent takes part in an overlap (R174). -/
def State.shadowOverlaps (s : State) (i : SlotId) : Bool :=
  let m := s.cru.shadow
  match extentOf (shadowWindow m i) with
  | none => false
  | some r =>
    r.meets s.controlRange || r.meets? (shadowRingRange m) || r.meets? (shadowSnapshotRange m) ||
      allSlots.any fun j => j != i &&
        (r.meets? (extentOf (shadowWindow m j)) || r.meets? (s.committedRange j))

/-- A slot's committed extent takes part in an overlap (R174). -/
def State.committedOverlaps (s : State) (i : SlotId) : Bool :=
  let m := s.cru.shadow
  match s.committedRange i with
  | none => false
  | some r =>
    r.meets? (shadowRingRange m) || r.meets? (shadowSnapshotRange m) ||
      allSlots.any fun j => j != i && r.meets? (extentOf (shadowWindow m j))

/-- An overlap in which no window takes part (R174). -/
def State.areaOverlaps (s : State) : Bool :=
  let m := s.cru.shadow
  s.controlRange.meets? (shadowRingRange m) || s.controlRange.meets? (shadowSnapshotRange m) ||
    match shadowRingRange m with
    | none => false
    | some r => r.meets? (shadowSnapshotRange m)

/-- Order 8: the lowest slot whose window takes part in an overlap (log entry 21). -/
def State.overlapFault (s : State) : Option (CommitFault × Option SlotId) :=
  match allSlots.find? fun i => s.shadowOverlaps i || s.committedOverlaps i with
  | some i => some (.overlap, some i)
  | none => if s.areaOverlaps then some (.overlap, none) else none

/-- The first check of R174 that fails, with the first offending slot. -/
def State.commitFault (s : State) : Option (CommitFault × Option SlotId) :=
  let m := s.cru.shadow
  if !settingsInRange m then some (.setting, none)
  else if !ringOk (shadowRing m) then some (.ring, none)
  else if !snapshotOk (shadowSnapshot m) then some (.snapshot, none)
  else match firstFailing m Window.geometryOk, firstFailing m Window.pitchOk,
      firstFailing m Window.tagPlacementOk, firstFailing m Window.readerSetOk with
  | some i, _, _, _ => some (.geometry, some i)
  | none, some i, _, _ => some (.pitch, some i)
  | none, none, some i, _ => some (.tagPlacement, some i)
  | none, none, none, some i => some (.readerSet, some i)
  | none, none, none, none => s.overlapFault

/-! ### The effects of an accepted commit (R175, R183) -/

/-- The ring settings are taken: no change, set afresh, or NONE (R183). -/
def State.takeRing (s : State) (old : Option Ring) : State :=
  match s.cru.settings.ring with
  | none =>
    { s with cru := { s.cru with ringState := .none, produce := 0
                                 recordWrite := s.cru.recordWrite.map fun _ => true } }
  | some r =>
    if s.cru.ringState = .set ∧ old = some r then s
    else
      { s with cru := { s.cru with ringState := .set
                                   produce := s.cru.shadow.number consumedOffset 4 % r.size
                                   recordWrite := s.cru.recordWrite.map fun _ => true } }

/-- What became of a slot's descriptor at a commit (R175). -/
inductive Fate where
  | unchanged | applied | pending | withdrawn
  deriving DecidableEq, Repr

/-- A changed descriptor is offered to the Frame Table, which applies it at once or leaves it pending by the record alone,
whatever procedure is in progress (R38, R39, R174, R175, log entry 53). -/
def State.offerDescriptor (s : State) (slot : SlotId) (d : Option Window) : State × Fate :=
  if (s.frame slot).appliesAtOnce then (s.applyDescriptor slot d, .applied)
  else
    (s.modSlot slot fun sl =>
      { sl with pendingDesc := some d, frame := { sl.frame with pendingTag := none } }, .pending)

/-- A slot's shadow descriptor is compared and offered, or a pending one withdrawn (R175 step 3, log entry 11). -/
def State.commitSlot (s : State) (slot : SlotId) : State × Fate :=
  let d := shadowWindow s.cru.shadow slot
  let sl := s.slot slot
  match sl.pendingDesc with
  | none => if d = sl.committed then (s, .unchanged) else s.offerDescriptor slot d
  | some p =>
    if d = p then (s, .unchanged)
    else if d = sl.committed then
      (s.modSlot slot fun sl => { sl with pendingDesc := none }, .withdrawn)
    else s.offerDescriptor slot d

/-- All slots are compared, slot 0 first; the fates are in slot order. -/
def State.commitSlots (s : State) : State × List (SlotId × Fate) :=
  allSlots.foldl (fun acc i =>
    let r := acc.1.commitSlot i
    (r.1, acc.2 ++ [(i, r.2)])) (s, [])

/-- The slots of a fate. -/
def slotsOf (f : Fate) (l : List (SlotId × Fate)) : List SlotId :=
  (l.filter fun x => x.2 == f).map Prod.fst

/-- An accepted commit (R175). -/
def State.acceptCommit (s : State) : State :=
  let old := s.cru.settings
  let new := shadowSettings s.cru.shadow
  let s := ({ s with cru := { s.cru with settings := new } }).takeRing old.ring
  let r := s.commitSlots
  let s := r.1.raise
    (.commitApplied (slotsOf .applied r.2) (slotsOf .pending r.2) (slotsOf .withdrawn r.2))
  s.evalMode (old.modeRequest == .normal && new.modeRequest == .fast)

/-- A commit (R174, R175). -/
def State.commit (s : State) : State :=
  match s.commitFault with
  | some (reason, slot) => s.raise (.commitRejected reason slot)
  | none => s.acceptCommit

/-! ### Snapshots (R185) -/

/-- The value of the snapshot request word. -/
def State.snapshotWord (s : State) : Nat := s.cru.shadow.number snapshotOffset 4

/-- A snapshot starts: the content is captured and two writes are offered, behind an event record write
that became ready at the same moment (R18, R185, log entry 25). -/
def State.startSnapshot (s : State) : State :=
  match s.cru.settings.snapshotAddr with
  | none => s.raise (.commandRefused s.snapshotWord .noAddress true)
  | some a =>
    let s := s.refreshReports
    { s with
      cru := { s.cru with snapshot := some ⟨a, s.snapshotBytes, 0, false⟩ }
      mpu := { s.mpu with class5 := s.mpu.class5 ++ [.snapshot 0, .snapshot 1] } }

/-- The reason for which a command is refused while a procedure is in progress (R177). -/
def Procedure.refusal : Procedure → Option RefuseReason
  | .none => Option.none
  | .drain _ => some .draining
  | .bypassEntry _ => some .bypassEntry

/-- A write covers the snapshot request word (R185). -/
def State.requestSnapshot (s : State) : State :=
  match s.cru.proc.refusal with
  | some reason => s.raise (.commandRefused s.snapshotWord reason true)
  | none =>
    if s.cru.settings.snapshotAddr.isNone then s.startSnapshot
    else if s.cru.snapshot.isNone then s.startSnapshot
    else { s with cru := { s.cru with snapshotRepeat := true } }

/-- The completion of one snapshot write (R185). -/
def State.snapshotWriteDone (s : State) (status : Status) : State :=
  match s.cru.snapshot with
  | none => s
  | some n =>
    let fault := n.fault || decide (status = .fault)
    if n.completed + 1 < 2 then
      { s with cru := { s.cru with snapshot := some { n with completed := n.completed + 1, fault := fault } } }
    else
      let again := s.cru.snapshotRepeat
      let s := { s with cru := { s.cru with snapshot := none, snapshotRepeat := false } }
      let s := s.raise (.snapshotDone n.addr fault)
      if again then s.startSnapshot else s

/-! ### Record writes (R183, R184) -/

/-- The completion of an event record write (R183). -/
def State.recordWriteDone (s : State) (status : Status) : State :=
  match s.cru.recordWrite with
  | none => s
  | some changed =>
    let s := { s with cru := { s.cru with recordWrite := none, events := s.cru.events.drop 1 } }
    match status, changed with
    | .okay, false => { s with cru := { s.cru with produce := (s.cru.produce + 1) % s.ringSize } }
    | .okay, true => s
    | .fault, false => { s with cru := { s.cru with ringState := .broken, overflow := true } }
    | .fault, true => { s with cru := { s.cru with overflow := true } }

/-! ### Commands (R177) -/

/-- The value of the command word. -/
def State.commandWord (s : State) : Nat := s.cru.shadow.number commandOffset 4

/-- A command that a procedure in progress refuses, or else is carried out (R177). -/
def State.unlessRefused (s : State) (act : State → State) : State :=
  match s.cru.proc.refusal with
  | some reason => s.raise (.commandRefused s.commandWord reason false)
  | none => act s

/-- A write covers the command word (R177). -/
def State.command (s : State) : State :=
  match s.commandWord with
  | 0 => s
  | 1 => s.unlessRefused State.startDrain
  | 2 => s.unlessRefused State.reload
  | 3 => s.unlessRefused State.restartLink
  | v => s.raise (.commandRefused v .unknown false)

/-! ### The handover (R172, R173) -/

/-- The enabled bytes of a write are copied into the shadow (R172). -/
def State.copyShadow (s : State) (w : ControlBytes) : State :=
  { s with cru := { s.cru with shadow := s.cru.shadow.writeLanes w.offset w.lanes } }

/-- Apply an operation when a write covers a header word. -/
def State.whenCovered (s : State) (w : ControlBytes) (off : Nat) (act : State → State) : State :=
  if coversAt w off then act s else s

/-- A CONTROL write is handed over: its bytes are copied and the header words it covers act in the order
of R173, each on the state that the ones before it have left: what follows from a word (log entry 9), such as the
claims that a commit has evaluated afresh (R121), comes before the next word acts. A changed consumed index shows in
the reports at once (R183, R184). -/
def State.handover (s : State) (w : ControlBytes) : State :=
  let s := s.copyShadow w
  let s := s.whenCovered w consumedOffset State.refreshReports
  let s := s.whenCovered w commitOffset fun s => s.commit.finish
  let s := s.whenCovered w commandOffset fun s => s.command.finish
  s.whenCovered w snapshotOffset State.requestSnapshot

/-- CONTROL writes are handed over: the part is not in pin reset and not passing everything raw (R9,
R172, log entry 8). -/
def State.snoops (s : State) : Bool := s.pins.resetN && !s.rawPass

end Sys2Proof.Machine
end

