-- ==== Sys2Proof/Machine/PinCommands.lean ====
section
/-! DEFINITION. The meanings of the pin commands: RESET_N, the invalidate sweep, BYPASS and EXPO. -/

namespace Sys2Proof.Machine

/-- What a meaning answers. -/
abbrev Answer := Host.Outcome State Fault Refusal

/-- Carry out an event when the part is not in pin reset; otherwise nothing changes (R20). -/
def State.whenLive (s : State) (act : State → State) : State := if s.pins.resetN then act s else s

/-- The upstream port with a presented request back at its head (R4). -/
def Mpu.returned (m : Mpu) : List UpRequest :=
  match m.intake with
  | none => m.port
  | some p => p.req :: m.port

/-- The state from the moment RESET_N goes Low: every block at its pin-reset value, the straps sampled
(R15, R20, R41, R59, R82, R101, R117, R135, R171, R182, R184). What waits at the upstream port stays
(log entry 7). -/
def State.inReset (s : State) (ctlbase : BitVec 8) (refsel : BitVec 2) : State :=
  { pending := s.pending
    pins := { resetN := false, bypass := s.pins.bypass, ctlbase := ctlbase, refsel := refsel, attnN := true }
    ports := s.ports, mpu := .reset s.mpu.returned, slots := Vector.replicate 8 .reset, ssu := .reset
    llc := .reset, br := .reset, pu := .reset, ls := .reset false, er := { queue := [], nextId := 0 }
    cru := .reset, free := s.free }

/-- RESET_N_LOW (R20, R43). -/
def execResetNLow (ctlbase : BitVec 8) (refsel : BitVec 2) (s : State) : Answer :=
  .next (s.inReset ctlbase refsel)

/-- RESET_N goes High: the sweep runs (R20, R136). BYPASS High is taken as a rising edge whose entry
sequence "finds nothing in flight and ends at once" (R181), so no procedure is in progress (log entry 30). -/
def State.release (s : State) : State :=
  { s with pins := { s.pins with resetN := true }, ls := { s.ls with sweeping := true } }

/-- RESET_N_HIGH (R20). -/
def execResetNHigh (s : State) : Answer := .next (if s.pins.resetN then s else s.release)

/-- A presented request that waited for the sweep goes on (R10, R13, R14). -/
def State.resumeSwept (s : State) : State :=
  match s.mpu.intake with
  | some p => if p.phase = .sweep then s.startPresented p else s
  | none => s

/-- The invalidate sweep has ended: every record is INVALID (R136, log entry 31). -/
def State.endSweep (s : State) : State :=
  ({ s with ls := { s.ls with lines := mapTable s.ls.lines fun _ => .invalid
                              sweeping := false } }).resumeSwept.finish

/-- INVALIDATE_SWEEP_END (R136). -/
def execInvalidateSweepEnd (s : State) : Answer :=
  .next (s.whenLive fun s => if s.ls.sweeping then s.endSweep else s)

/-- Set the BYPASS level. -/
def State.setBypass (s : State) (level : Bool) : State :=
  { s with pins := { s.pins with bypass := level } }

/-- BYPASS_RISE (R181): a level that is High already does not rise; while a procedure is in progress or
RESET_N is Low only the level changes. -/
def execBypassRise (s : State) : Answer :=
  .next (if s.pins.bypass then s
    else (s.setBypass true).whenLive fun s => if s.inProcedure then s else s.startBypassEntry.finish)

/-- BYPASS_ENTRY_SEQUENCE_END (R181). -/
def execBypassEntrySequenceEnd (s : State) : Answer :=
  .next (if s.inBypassEntry && s.workEnded then s.endBypassEntry else s)

/-- BYPASS_FALL (R9, R181): no block changes state. -/
def execBypassFall (s : State) : Answer := .next (s.setBypass false)

/-- The Exposure Queue with a new edge; a full queue drops its oldest entry (R45, R46). -/
def Ssu.edge (u : Ssu) : Ssu :=
  { u with exposures := (if u.exposures.length < 8 then u.exposures else u.exposures.drop 1) ++
             [⟨u.clock, u.strobe⟩]
           strobe := u.strobe + 1 }

/-- EXPO_EDGE (R45). -/
def execExpoEdge (s : State) : Answer := .next (s.whenLive fun s => { s with ssu := s.ssu.edge })

end Sys2Proof.Machine
end

