-- ==== Sys2Proof/Machine/PathCommands.lean ====
section
/-! DEFINITION. The meanings of the commands of the memory path: requests, grants and completions. -/

namespace Sys2Proof.Machine

/-- A request arrives at the upstream port. -/
def State.arrive (s : State) (r : UpRequest) : State :=
  { s with mpu := { s.mpu with port := s.mpu.port ++ [r] } }

/-- The next request in arrival order is presented, when one can be (R3, R4). -/
def State.present (s : State) : State := if s.canPresent then s.presentHead.finish else s

/-- UPSTREAM_REQUEST (R3): the request arrives, and the next request in arrival order is presented. -/
def execUpstreamRequest (r : UpRequest) (s : State) : Answer :=
  if r.wf then .next (s.arrive r).present else .refused .notARequest

/-- EGRESS_QUEUE_ENTRY (R14, R155). -/
def execEgressQueueEntry (s : State) : Answer :=
  .next (match s.mpu.intake with
    | none => s
    | some p =>
      match p.cls, p.window with
      | .egress slot, some w => if s.canEnterQueue then (s.enterQueue p slot w).finish else s
      | _, _ => s)

/-- FORWARDED_GRANT (R3, R18). -/
def execForwardedGrant (s : State) : Answer :=
  .next (match s.nextGrant, s.freeTag with
    | some (.forward f), some t => s.grantForward t f
    | _, _ => s)

/-- CASTOUT_GRANT (R18, R128). -/
def execCastoutGrant (s : State) : Answer :=
  .next (match s.nextGrant, s.freeTag with
    | some (.castout i), some t => s.grantCastout t i
    | _, _ => s)

/-- FILL_GRANT (R18, R132). -/
def execFillGrant (s : State) : Answer :=
  .next (match s.nextGrant, s.freeTag with
    | some (.fill part), some t => s.grantFill t part
    | _, _ => s)

/-- EVENT_RECORD_WRITE_GRANT (R18, R183). -/
def execEventRecordWriteGrant (s : State) : Answer :=
  .next (match s.nextGrant, s.freeTag with
    | some (.report .event), some t => s.grantRecord t
    | _, _ => s)

/-- SNAPSHOT_WRITE_GRANT (R18, R185). -/
def execSnapshotWriteGrant (s : State) : Answer :=
  .next (match s.nextGrant, s.freeTag with
    | some (.report (.snapshot half)), some t => s.grantSnapshot t half
    | _, _ => s)

/-- The bytes of an OKAY CONTROL or TAG write go to the unit they are for (R11, R12). -/
def State.handOn (s : State) (req : UpRequest) (cls : Cls) (stale : Bool) (status : Status) : State :=
  match status, req.kind, cls with
  | .okay, .write lanes, .control => s.handover ⟨req.first - s.controlBase, lanes⟩
  | .okay, .write lanes, .tag slot => s.tagHandover slot req.first lanes stale
  | _, _, _ => s

/-- UPSTREAM_ORIGIN_COMPLETION (R17). -/
def execUpstreamOriginCompletion (t : DownTag) (status : Status) (data : List Byte) (s : State) : Answer :=
  .next (match s.mpu.outstanding[t] with
    | some (.upstream req cls updated stale) =>
      let s := ((s.freeEntry t).dropIfFault status updated).complete (answerTo req status data)
      (s.handOn req cls stale status).finish
    | _ => s)

/-- CASTOUT_COMPLETION (R17, R128). -/
def execCastoutCompletion (t : DownTag) (status : Status) (s : State) : Answer :=
  .next (match s.mpu.outstanding[t] with
    | some (.castout i) => ((s.freeEntry t).castoutDone i status).finish
    | _ => s)

/-- FILL_COMPLETION (R17, R132). -/
def execFillCompletion (t : DownTag) (status : Status) (data : List Byte) (s : State) : Answer :=
  .next (match s.mpu.outstanding[t] with
    | some (.fill part) => ((s.freeEntry t).fillDone part status data).finish
    | _ => s)

/-- EVENT_RECORD_WRITE_COMPLETION (R17, R183). -/
def execEventRecordWriteCompletion (t : DownTag) (status : Status) (s : State) : Answer :=
  .next (match s.mpu.outstanding[t] with
    | some (.event _) => ((s.freeEntry t).recordWriteDone status).finish
    | _ => s)

/-- SNAPSHOT_WRITE_COMPLETION (R17, R185). -/
def execSnapshotWriteCompletion (t : DownTag) (status : Status) (s : State) : Answer :=
  .next (match s.mpu.outstanding[t] with
    | some (.snapshot _) => ((s.freeEntry t).snapshotWriteDone status).finish
    | _ => s)

/-- STALE_COMPLETION (R17, R20): a completion whose tag names a FREE entry is discarded. -/
def execStaleCompletion (_t : DownTag) (_status : Status) (_data : List Byte) (s : State) : Answer := .next s

end Sys2Proof.Machine
end

