-- ==== Sys2Proof/Machine/ControlCommands.lean ====
section
/-! DEFINITION. The meanings of the handed-over writes to the control area, and of drain step 4. -/

namespace Sys2Proof.Machine

/-- A handed-over write, when CONTROL writes are handed over (R172, R173). -/
def State.handOver (s : State) (w : ControlBytes) : State :=
  if s.snoops then (s.handover w).finish else s

/-- The write of a value to a 4-byte header word. -/
def wordWrite (off value : Nat) : ControlBytes := ⟨off, (leBytes 4 value).map some⟩

/-- CONTROL_WRITE (R172). -/
def execControlWrite (w : ControlBytes) (s : State) : Answer :=
  if w.wf then .next (s.handOver w) else .refused .notAControlWrite

/-- COMMIT (R174, R175). -/
def execCommit (w : WordLanes) (s : State) : Answer := .next (s.handOver ⟨commitOffset, w.toList⟩)

/-- CONSUMED_INDEX (R183). -/
def execConsumedIndex (w : WordLanes) (s : State) : Answer := .next (s.handOver ⟨consumedOffset, w.toList⟩)

/-- SNAPSHOT_REQUEST (R185). -/
def execSnapshotRequest (w : WordLanes) (s : State) : Answer :=
  .next (s.handOver ⟨snapshotOffset, w.toList⟩)

/-- NONE (R177). -/
def execNone (s : State) : Answer := .next (s.handOver (wordWrite commandOffset 0))

/-- DRAIN_RESTART (R177, R178). -/
def execDrainRestart (s : State) : Answer := .next (s.handOver (wordWrite commandOffset 1))

/-- RELOAD_PROFILE (R108, R177). -/
def execReloadProfile (s : State) : Answer := .next (s.handOver (wordWrite commandOffset 2))

/-- LINK_RESTART (R81, R177). -/
def execLinkRestart (s : State) : Answer := .next (s.handOver (wordWrite commandOffset 3))

/-- UNKNOWN_COMMAND (R177). -/
def execUnknownCommand (value : BitVec 32) (s : State) : Answer :=
  .next (s.handOver (wordWrite commandOffset value.toNat))

/-- DRAIN_STEP_4 (R180): it comes about when the work of step 3 has ended. -/
def execDrainStep4 (s : State) : Answer :=
  .next (match s.cru.proc with
    | .drain d => if s.workEnded then (s.finishDrain d).finish else s
    | _ => s)

end Sys2Proof.Machine
end

