-- ==== Sys2Proof/Machine/LinkCommands.lean ====
section
/-! DEFINITION. The meanings of the lens frame and of the three expiries. -/

namespace Sys2Proof.Machine

/-- LENS_FRAME (R60–R75): taken unless RESET_N is Low (R82). -/
def execLensFrame (bytes : List Byte) (s : State) : Answer :=
  .next (s.whenLive fun s => (s.lensFrame bytes).finish)

/-- MISSING_PERIOD (R63): nothing where a lens frame arrives at the deadline's own stamp. -/
def execMissingPeriod (s : State) : Answer :=
  .next (match s.llc.deadline with
    | some d => if reached s.clock d && !s.frameForestalls d then (s.missPeriod d).finish else s
    | none => s)

/-- RESOLVE_DEADLINE_EXPIRY (R56, R89). -/
def execResolveDeadlineExpiry (slot band : Fin 8) (s : State) : Answer :=
  .next (s.whenLive fun s =>
    (s.expireBand State.testComplete slot (s.frame slot).generation band).finish)

/-- TAG_DEADLINE_EXPIRY (R58). -/
def execTagDeadlineExpiry (slot : Fin 8) (s : State) : Answer :=
  .next (s.whenLive fun s => (s.expireTag State.testComplete slot).finish)

end Sys2Proof.Machine
end

