-- ==== Sys2Proof/Machine/Dispatch.lean ====
section
/-! DEFINITION. The dispatch: one arm per command. -/

namespace Sys2Proof.Machine

/-- The effect of a command on everything but the queue. -/
def exec (i : Instr) (s : State) : Host.Outcome State Fault Refusal :=
  match i with
  | .resetNLow ctlbase refsel => Sys2Proof.Machine.execResetNLow ctlbase refsel s
  | .resetNHigh => Sys2Proof.Machine.execResetNHigh s
  | .invalidateSweepEnd => Sys2Proof.Machine.execInvalidateSweepEnd s
  | .bypassRise => Sys2Proof.Machine.execBypassRise s
  | .bypassEntrySequenceEnd => Sys2Proof.Machine.execBypassEntrySequenceEnd s
  | .bypassFall => Sys2Proof.Machine.execBypassFall s
  | .expoEdge => Sys2Proof.Machine.execExpoEdge s
  | .upstreamRequest r => Sys2Proof.Machine.execUpstreamRequest r s
  | .egressQueueEntry => Sys2Proof.Machine.execEgressQueueEntry s
  | .forwardedGrant => Sys2Proof.Machine.execForwardedGrant s
  | .castoutGrant => Sys2Proof.Machine.execCastoutGrant s
  | .fillGrant => Sys2Proof.Machine.execFillGrant s
  | .eventRecordWriteGrant => Sys2Proof.Machine.execEventRecordWriteGrant s
  | .snapshotWriteGrant => Sys2Proof.Machine.execSnapshotWriteGrant s
  | .upstreamOriginCompletion t status data => Sys2Proof.Machine.execUpstreamOriginCompletion t status data s
  | .castoutCompletion t status => Sys2Proof.Machine.execCastoutCompletion t status s
  | .fillCompletion t status data => Sys2Proof.Machine.execFillCompletion t status data s
  | .eventRecordWriteCompletion t status => Sys2Proof.Machine.execEventRecordWriteCompletion t status s
  | .snapshotWriteCompletion t status => Sys2Proof.Machine.execSnapshotWriteCompletion t status s
  | .staleCompletion t status data => Sys2Proof.Machine.execStaleCompletion t status data s
  | .controlWrite w => Sys2Proof.Machine.execControlWrite w s
  | .commit w => Sys2Proof.Machine.execCommit w s
  | .consumedIndex w => Sys2Proof.Machine.execConsumedIndex w s
  | .snapshotRequest w => Sys2Proof.Machine.execSnapshotRequest w s
  | .none => Sys2Proof.Machine.execNone s
  | .drainRestart => Sys2Proof.Machine.execDrainRestart s
  | .reloadProfile => Sys2Proof.Machine.execReloadProfile s
  | .linkRestart => Sys2Proof.Machine.execLinkRestart s
  | .unknownCommand value => Sys2Proof.Machine.execUnknownCommand value s
  | .drainStep4 => Sys2Proof.Machine.execDrainStep4 s
  | .lensFrame bytes => Sys2Proof.Machine.execLensFrame bytes s
  | .missingPeriod => Sys2Proof.Machine.execMissingPeriod s
  | .resolveDeadlineExpiry slot band => Sys2Proof.Machine.execResolveDeadlineExpiry slot band s
  | .tagDeadlineExpiry slot => Sys2Proof.Machine.execTagDeadlineExpiry slot s

end Sys2Proof.Machine
end

