-- ==== Sys2Proof/Machine/Time.lean ====
section
/-! DEFINITION. What the part does by itself when no command waits: an event of its own that is due, or
else one REFCLK cycle (log entries 1, 4 and 23). -/

namespace Sys2Proof.Machine

/-- An event of the part itself: the presentation of a waiting request, the end of a microsecond at
which the period deadline expires, or a command of the table that the part brings about. -/
inductive Due where
  | presentation
  | periodEnd
  | command (c : Instr)
  deriving DecidableEq, Repr

/-- One event, when a condition holds. -/
def dueWhen (p : Bool) (e : Due) : List Due := if p then [e] else []

/-- The prescaler division of a REFSEL value (R43). -/
def division (refsel : BitVec 2) : Nat :=
  match refsel.toNat with
  | 0 => 25
  | 1 => 27
  | 2 => 50
  | _ => 54

/-- One REFCLK cycle: the prescaler counts, and the Stamp Clock advances when it has divided (R43). -/
def Ssu.tick (u : Ssu) (refsel : BitVec 2) : Ssu :=
  if u.prescaler + 1 < division refsel then { u with prescaler := u.prescaler + 1 }
  else { u with prescaler := 0, clock := u.clock + 1 }

/-- The period deadline has been reached. -/
def State.periodDue (s : State) : Bool := due s.clock s.llc.deadline

/-- A slot's tag deadline has been reached. -/
def State.tagDue (s : State) (slot : SlotId) : Bool :=
  (s.frame slot).state == .armed && due s.clock (s.slot slot).tagDeadline

/-- A WAITING band of a TAGGED generation whose resolve deadline has been reached. -/
def State.bandDue (s : State) (slot : SlotId) (b : BandId) : Bool :=
  s.isTagged slot && ((s.frame slot).bands[b]).result.isNone &&
    due s.clock ((s.frame slot).bands[b]).deadline

/-- The lowest band of a slot that is due. -/
def State.firstBandDue (s : State) (slot : SlotId) : Option Due :=
  (allBands.find? (s.bandDue slot)).map fun b => .command (.resolveDeadlineExpiry slot b)

/-- The events of the part itself that are due at once. -/
def State.promptEvents (s : State) : List Due :=
  dueWhen (s.inDrain && s.workEnded) (.command .drainStep4) ++
  dueWhen (s.inBypassEntry && s.workEnded) (.command .bypassEntrySequenceEnd) ++
  dueWhen (s.canPresent && !s.mpu.port.isEmpty) .presentation ++
  dueWhen s.canEnterQueue (.command .egressQueueEntry) ++
  (allSlots.filter s.tagDue).map (fun i => .command (.tagDeadlineExpiry i)) ++
  allSlots.filterMap s.firstBandDue

/-- The next REFCLK cycle is the last of its microsecond (R43). -/
def State.microsecondEnds (s : State) : Bool :=
  division s.pins.refsel ≤ s.ssu.prescaler + 1

/-- The events of the part itself that are due. The period deadline expires in the last REFCLK cycle of
its microsecond, so that a lens frame with the same stamp is taken first (R63, log entry 32). -/
def State.dueEvents (s : State) : List Due :=
  match s.promptEvents with
  | [] => dueWhen (s.periodDue && s.microsecondEnds) .periodEnd
  | e :: rest => e :: rest

/-- One REFCLK cycle of the part. -/
def State.cycle (s : State) : State := { s with ssu := s.ssu.tick s.pins.refsel }

/-- Bring about an event of the part itself. -/
def State.bringAbout (s : State) : Due → Answer
  | .presentation => .next s.present
  | .periodEnd =>
    match exec .missingPeriod s with
    | .next t => .next t.cycle
    | stop => stop
  | .command c => exec c s

/-- A step with no command waiting. -/
def State.idle (s : State) : Answer :=
  if s.pins.resetN then
    match s.dueEvents with
    | [] => .next s.cycle
    | [e] => s.bringAbout e
    | e :: rest =>
      ({ s with free := s.free + 1 }).bringAbout
        ((e :: rest).getD (Config.duePick s.free % (rest.length + 1)) e)
  else .next s

end Sys2Proof.Machine
end

