-- ==== Sys2Proof/Safety.lean ====
section
/-! DEFINITION. What stays true of the part through every step: the sizes of its queues, the canonical
form of its addressed bytes, the line records at their indices, the order of the history, ATTN_N, and
the pin-reset state; and the states that the statements name. -/

namespace Sys2Proof.Machine

/-- A record that is not INVALID is at the index of its line address and holds 256 bytes (R118, R119). -/
def LineRec.okAt (i : LineIdx) : LineRec → Prop
  | .invalid => True
  | .filling tag data _ _ => indexOf tag.line = i ∧ data.length = 256
  | .clean tag data => indexOf tag.line = i ∧ data.length = 256
  | .held tag _ lanes _ => indexOf tag.line = i ∧ lanes.length = 256
  | .casting tag _ lanes _ => indexOf tag.line = i ∧ lanes.length = 256

/-- Every Line Store record is at its index with its 256 bytes (R118, R119). -/
def LinesOk (s : State) : Prop := ∀ i : LineIdx, (s.line i).okAt i

/-- A load holds at most 4 block requests (R110). -/
def Load.short (l : Option Load) : Prop := ∀ ld, l = some ld → ld.requests.length ≤ 4

/-- The queues and counts keep within the sizes the spec gives them. -/
structure Bounded (s : State) : Prop where
  /-- the Exposure Queue (R46) -/
  exposures : s.ssu.exposures.length ≤ 8
  /-- the Lens Sample History (R83) -/
  history : s.br.history.length ≤ 256
  /-- the Event Queue (R182) -/
  events : s.cru.events.length ≤ 16
  /-- the Egress Queue (R154) -/
  queue : s.er.queue.length ≤ 16
  /-- the starvation count (R19) -/
  starvation : s.mpu.starvation ≤ 64
  /-- the Block Request List (R110) -/
  requests : Load.short s.pu.load

/-- The shadow and the bytes of both profile areas are in canonical form. -/
def MemoriesOk (s : State) : Prop :=
  Memory.wf s.cru.shadow ∧ Memory.wf s.pu.p0.bytes ∧ Memory.wf s.pu.p1.bytes

/-- ATTN_N is Low exactly when P differs from C or the ring is BROKEN (R184). -/
def AttnOk (s : State) : Prop := s.pins.attnN = s.attnLevel

/-- The stamps of the history are in strictly increasing order from oldest to newest, each compared with
the one before it (R83, R44). -/
def HistoryOk (s : State) : Prop := s.br.history.IsChain fun a b => later b.stamp a.stamp = true

/-- The model's names of the reads in the Egress Queue are below the next one it gives (log entry 29). -/
def IdsOk (s : State) : Prop := ∀ e ∈ s.er.queue, e.id < s.er.nextId

/-- The class 3 candidate is the presented request's (R18). -/
def PathOk (s : State) : Prop := s.mpu.class3.isSome → s.mpu.intake.isSome

/-- The Exposure Queue holds consecutive strobe counts that end just below the counter (R45, R46). -/
def ExposuresOk (s : State) : Prop :=
  ∀ (i : Nat) (e : Strobe), s.ssu.exposures[i]? = some e →
    e.count + BitVec.ofNat 16 (s.ssu.exposures.length - i) = s.ssu.strobe

/-- Nothing waits at the Intake Stage or in the Egress Queue, and the reports (ATTN_N, the offered record
write, the starvation count) stand as their rules have them. -/
structure Quiet (s : State) : Prop where
  intake : s.mpu.intake = none
  queue : s.er.queue = []
  reports : s.refreshReports = s

/-- While RESET_N is Low the part is in its pin-reset state (R20, R41, R59, R82, R101, R117, R135, R171). -/
def ResetOk (s : State) : Prop :=
  s.pins.resetN = false → s = s.inReset s.pins.ctlbase s.pins.refsel

/-! ### What the statements name -/

/-- The state with a request presented under its class, waiting for what `ph` says, with a class 3 candidate. -/
def presentedAs (s : State) (r : UpRequest) (ph : Phase) (c3 : Option Forward) : State :=
  { s with
    mpu := { s.mpu with
      intake := some { req := r, cls := (s.classify r).1, window := (s.classify r).2, stale := false, phase := ph,
                       answer := none }
      class3 := c3 } }

/-- The starvation count after a grant to classes 1 to 4. -/
def countedStarvation (s : State) : Nat :=
  if s.mpu.class5.isEmpty then 0 else min 64 (s.mpu.starvation + 1)

/-- The shadow after a handed-over write. -/
def shadowAfter (s : State) (offset : Nat) (lanes : List Lane) : State :=
  { s with cru := { s.cru with shadow := s.cru.shadow.writeLanes offset lanes } }

/-- The four lanes of a value written to a header word. -/
def wordLanes (value : Nat) : List Lane := (leBytes 4 value).map some

/-- What the history and the registers become when a sample is taken. -/
def historyTakes (b : Br) (x : Sample) : Br :=
  match b.history.getLast? with
  | some newest =>
    if later x.stamp newest.stamp then
      { b with
        history := (if b.history.length < 256 then b.history else b.history.drop 1) ++ [x]
        newestFocus := if x.focusValid then some x.focus else b.newestFocus
        newestIris := if x.irisValid then some x.iris else b.newestIris }
    else b
  | none =>
    { b with
      history := [x]
      newestFocus := if x.focusValid then some x.focus else b.newestFocus
      newestIris := if x.irisValid then some x.iris else b.newestIris }

/-- How the frame record of a slot takes a tag decoded now, from `s` to `t`, with no drain and no bypass entry
sequence in progress (R30, R31, R34, R39, R52–R56): a FREE record drops it; a closed TAGGED or RESOLVED
generation takes it as its pending tag, unless a descriptor is pending; one that is not closed is truncated;
and an ARMED or COMPLETE one enters TAGGED with it. Where a truncation could complete the generation at once
(no line held) and where an ARMED generation is already closed is left out: what follows then is a generation's
completion. -/
def TagTaken (s t : State) (i : SlotId) (tag : FrameTag) : Prop :=
  let f := s.frame i
  let g := t.frame i
  let later := if (s.slot i).pendingDesc.isSome then f.pendingTag else some ⟨tag, s.clock⟩
  let start := s.exposureStart i tag s.clock (s.heightOf i)
  (f.state = .free → g = f) ∧
  (f.state = .tagged ∨ f.state = .resolved → f.closed = true → g = { f with pendingTag := later }) ∧
  (f.state = .resolved ∨ (f.state = .tagged ∧ ∃ b : BandId, (f.bands[b]).result = none) →
    f.closed = false → f.held ≠ 0 →
    g.state = .resolved ∧ g.generation = f.generation ∧ g.held = f.held ∧ g.flags.truncated = true ∧
    g.pendingTag = later ∧
    ∀ b : BandId, ((g.bands[b]).time = (f.bands[b]).time ∧ (g.bands[b]).deadline = (f.bands[b]).deadline) ∧
      (f.state = .resolved ∨ (f.bands[b]).result.isSome = true → (g.bands[b]).result = (f.bands[b]).result) ∧
      (f.state = .tagged → (f.bands[b]).result = none →
        (g.bands[b]).result.map BandResult.kind = some .forced)) ∧
  ((f.state = .armed ∧ f.closed = false) ∨ (f.state = .complete ∧ f.successor = none) →
    g.generation = (if f.state = .armed then f.generation else f.generation + 1) ∧
    g.tagSequence = some tag.sequence ∧ g.presented = f.presented ∧
    g.state = (if g.allResolved then .resolved else .tagged) ∧ (t.slot i).tagDeadline = none ∧
    t.ssu.exposures = start.2.ssu.exposures ∧
    ∀ b : BandId, (g.bands[b]).time = some (bandTime tag start.1 (s.heightOf i) b) ∧
      (g.bands[b]).deadline =
        some (bandTime tag start.1 (s.heightOf i) b + BitVec.ofNat 32 s.cru.settings.resolveDeadline))

/-- The accounting of an INGEST write that is taken posted, from `s` to `t`: `lines` lines of generation `g` have
newly become HELD (R27, R28, R29, R37, R57). -/
def PostedAccount (s t : State) (i : SlotId) (w : Window) (r : UpRequest) (g : Generation) (lines : Nat) : Prop :=
  let f := s.frame i
  let eof := decide (r.first ≤ w.lastImageByte ∧ w.lastImageByte ≤ r.last)
  let deadline : Stamp := s.ssu.clock + BitVec.ofNat 32 s.cru.settings.tagDeadline
  (∀ j, j ≠ i → t.slot j = s.slot j) ∧
  (f.generation = g → (t.frame i).held = f.held + lines) ∧
  ((f.state = .armed ∨ f.state = .tagged) → f.closed = false →
    t.frame i = { f with
      held := f.held + lines, beats := min 16777215 (f.beats + r.beats)
      firstIngest := some (f.firstIngest.getD s.ssu.clock), eofSeen := f.eofSeen || eof } ∧
    (t.slot i).tagDeadline = (if f.state = .armed ∧ f.firstIngest = none then some deadline
      else (s.slot i).tagDeadline)) ∧
  (f.state ≠ .complete → f.closed = true →
    let n := f.successor.getD { held := 0, beats := 0, firstIngest := s.ssu.clock, eofSeen := false }
    t.slot i = { s.slot i with frame := { f with
      successor := some { held := n.held + lines, beats := min 16777215 (n.beats + r.beats)
                          firstIngest := n.firstIngest, eofSeen := n.eofSeen || eof } } }) ∧
  (f.state = .complete → f.successor = none →
    (t.frame i).state = .armed ∧ (t.frame i).generation = g ∧ (t.frame i).held = lines ∧
    (t.frame i).beats = min 16777215 r.beats ∧ (t.frame i).firstIngest = some s.ssu.clock ∧
    (t.frame i).eofSeen = eof ∧ (t.frame i).presented = f.presented ∧
    (t.frame i).tagSequence = none ∧ (t.slot i).tagDeadline = some deadline)

/-- What class 1 gains when the castout of the record at an index is demanded: the line, when its demand mark was
clear and its band is RESOLVED in its slot's current generation (R126, R127). -/
def joinsClass1 (s : State) (i : LineIdx) : List LineIdx :=
  match s.line i with
  | .held tag (some c) _ false =>
    if (s.frame tag.slot).generation = tag.generation ∧ ((s.frame tag.slot).bands[c]).result.isSome = true then [i]
    else []
  | _ => []

/-- The needs of a read that has just entered the Egress Queue as `e`, all on different indices with no claim
before them, at the Line Store, from `s` to `t`: a CLEAN record at the need's line serves it; an INVALID record, or
a CLEAN one at another line, enters FILLING and its parts join class 2, the part from the first beat on before the
rest; a HELD record has its castout demanded; and a need that is not served waits, the record of a FILLING or
CASTING line as it was (R120, R131, R132, R164, R165). The read is answered when every need has been served and
nothing is before it. -/
def NeedsPlaced (s t : State) (e : EgressEntry) : Prop :=
  let starts (n : Need) : Bool := match s.line (indexOf n.line) with
    | .invalid => true
    | .clean tag _ => tag.line != n.line
    | _ => false
  let parts (n : Need) : List FillPart :=
    if starts n = false then []
    else if n.firstBeat = 0 then [⟨n.line, 0, 16, .single⟩]
    else [⟨n.line, n.firstBeat, 16 - n.firstBeat, .critical⟩, ⟨n.line, 0, n.firstBeat, .wrap⟩]
  let served (n : Need) : Need := match s.line (indexOf n.line) with
    | .clean tag data => if tag.line = n.line then
        { n with taken := some (e.setting.taken e.addr.toNat e.beats n.line data) } else n
    | _ => n
  let needs := e.needs.map served
  let data := e.setting.beats e.addr.toNat e.beats (needs.flatMap fun n => n.taken.getD [])
  t.mpu.class1 = s.mpu.class1 ++ e.needs.flatMap (fun n => joinsClass1 s (indexOf n.line)) ∧
  t.mpu.class2 = s.mpu.class2 ++ e.needs.flatMap parts ∧
  t.ls.claims = (e.needs.filter fun n => (served n).taken.isNone).map (fun n =>
    ⟨n.line, .need e.id e.slot e.generation n.firstBeat, false, false⟩) ∧
  (∀ n ∈ e.needs,
    (starts n = true → ∃ old, old.length = 256 ∧
      t.line (indexOf n.line) = .filling ⟨n.line, e.slot, e.generation⟩ old (parts n).length []) ∧
    (starts n = false → t.line (indexOf n.line) = (match s.line (indexOf n.line) with
      | .held tag b lanes _ => .held tag b lanes true
      | r => r))) ∧
  (∀ j, (∀ n ∈ e.needs, j ≠ indexOf n.line) → t.line j = s.line j) ∧
  (needs.all (fun n => n.taken.isSome) = false →
    t.er.queue = s.er.queue ++ [{ e with needs := needs }] ∧ t.ports.ump = s.ports.ump) ∧
  (needs.all (fun n => n.taken.isSome) = true →
    (s.er.queue = [] → t.er.queue = [] ∧ t.ports.ump = s.ports.ump ++ [⟨e.master, e.tag, .okay, data⟩]) ∧
    (s.er.queue ≠ [] → t.er.queue = s.er.queue ++ [{ e with needs := needs, state := .ready data }] ∧
      t.ports.ump = s.ports.ump))

/-- A byte of the request lies in the control area or in the extent of an enabled committed window (R7). -/
def TouchesPart (s : State) (r : UpRequest) : Prop :=
  ∃ a, r.first ≤ a ∧ a < r.first + 16 * r.beats ∧
    ((s.pins.ctlbase.toNat * 2 ^ 24 ≤ a ∧ a < s.pins.ctlbase.toNat * 2 ^ 24 + 4096) ∨
      ∃ (i : SlotId) (w : Window), (s.slot i).committed = some w ∧ w.base ≤ a ∧
        a < w.base + w.pitch * (w.firstRow + w.height))

/-- The accounting at the grant of the written-through INGEST write `r` of slot `i`, from `s` to `t`: a write of
no generation is not counted; the clamped count is added when the generation of the evaluation is still the slot's
current one, before the write's beats, its first-ingest stamp and its end-of-frame are, so that a write which
completes its generation is counted in FRAME_DONE (R13, R27, R28, R35, R149). -/
def GrantAccounted (s t : State) (i : SlotId) (w : Window) (r : UpRequest) (clamped : Nat) (answer : FtAnswer) :
    Prop :=
  let f := s.frame i
  let eof := decide (r.first ≤ w.lastImageByte ∧ w.lastImageByte ≤ r.last)
  (answer = .noGeneration → t.slots = s.slots) ∧
  (∀ (g : Generation) (b : BandId), answer = .resolved g b → s.cru.proc = .none → f.closed = false →
    let counted := { f with
      beats := min 16777215 (f.beats + r.beats), firstIngest := some (f.firstIngest.getD s.ssu.clock)
      eofSeen := f.eofSeen || eof
      saturated := if f.generation = g then min 4294967295 (f.saturated + clamped) else f.saturated }
    (∀ j, j ≠ i → t.slot j = s.slot j) ∧
    (f.state = .tagged ∨ (f.state = .resolved ∧ (f.held ≠ 0 ∨ eof = false)) →
      t.slot i = { s.slot i with frame := counted }) ∧
    (∀ v, f.state = .resolved → f.held = 0 → f.ended = false → eof = true → f.successor = none →
      f.pendingTag = none → (s.slot i).pendingDesc = none → (s.slot i).committed = some v →
      let expected := v.height * v.width * 2 / 16
      let flags := { f.flags with
        short := f.flags.short || decide (counted.beats + s.cru.settings.tolerance < expected)
        long := f.flags.long || decide (expected + s.cru.settings.tolerance < counted.beats) }
      t.slot i = { s.slot i with frame := { counted with
        state := .complete, presented := some f.magnifications, flags := flags } } ∧
      (s.cru.events.length < 16 → s.cru.settings.eventDisable.getLsbD 1 = false →
        s.cru.events ++ [{
          event := .frameDone f.tagSequence flags f.area counted.beats counted.saturated
            (mapTable f.bands fun b => b.result.map BandResult.kind)
          overflow := s.cru.overflow, slot := some (i, f.generation), stamp := s.clock }] <+: t.cru.events)))

/-- What the bypass entry sequence does at its start to the record of slot `i`, from `s` to `t` (R42, R181): the
generations that drain step 2 acts on are resolved, TRUNCATED set on one without end-of-frame; one with no line
held completes, its pending tag discarded; a successor becomes current then, and is resolved UNTAGGED and completed
in its turn; a pending descriptor applies at a completion that leaves no successor; other records stay. -/
def BypassTaken (s t : State) (i : SlotId) : Prop :=
  let f := s.frame i
  let g := t.frame i
  let waits := f.state = .tagged ∧ ∃ b : BandId, (f.bands[b]).result = none
  let untagged := f.state = .armed ∧ f.firstIngest.isSome = true
  let work := waits ∨ untagged ∨ f.state = .resolved
  let ends := f.held = 0 ∧ f.ended = false
  (t.slot i).tagDeadline = none ∧
  (f.state = .free ∨ f.state = .complete ∨ (f.state = .armed ∧ f.firstIngest = none) → g = f) ∧
  (work → f.held ≠ 0 → g.state = .resolved ∧ g.generation = f.generation ∧ g.held = f.held ∧
    g.flags.truncated = (f.flags.truncated || !f.eofSeen) ∧ g.presented = f.presented ∧
    g.successor = f.successor) ∧
  (waits → f.held ≠ 0 ∨ (ends ∧ f.successor = none ∧ (s.slot i).pendingDesc = none) → ∀ b : BandId,
    (g.bands[b]).time = (f.bands[b]).time ∧ (g.bands[b]).deadline = (f.bands[b]).deadline ∧
    ((f.bands[b]).result.isSome = true → (g.bands[b]).result = (f.bands[b]).result) ∧
    ((f.bands[b]).result = none → (g.bands[b]).result.map BandResult.kind = some .forced)) ∧
  (untagged → f.held ≠ 0 ∨ (ends ∧ f.successor = none ∧ (s.slot i).pendingDesc = none) → ∀ b : BandId,
    (g.bands[b]).time = some s.clock ∧ (g.bands[b]).deadline = some s.clock ∧
    (g.bands[b]).result.map BandResult.kind = some .untagged) ∧
  (f.state = .resolved → f.held ≠ 0 ∨ (ends ∧ f.successor = none ∧ (s.slot i).pendingDesc = none) →
    g.bands = f.bands) ∧
  (work → ends → f.successor = none → (s.slot i).pendingDesc = none →
    g.state = .complete ∧ g.generation = f.generation ∧ g.pendingTag = none ∧
    g.flags.truncated = (f.flags.truncated || !f.eofSeen) ∧
    g.presented = some (mapTable g.bands fun b => match b.result with
      | none => 65536
      | some r => r.magnification)) ∧
  (∀ d, work → ends → f.successor = none → (s.slot i).pendingDesc = some d →
    (t.slot i).committed = d ∧ (t.slot i).pendingDesc = none ∧ g.presented = none ∧
    (d = none → g.state = .free ∧ g.generation = f.generation) ∧
    (d.isSome = true → g.state = .armed ∧ g.generation = f.generation + 1)) ∧
  (∀ n, work → ends → f.successor = some n →
    (n.held ≠ 0 → g.state = .resolved ∧ g.held = n.held) ∧
    (n.held = 0 → (s.slot i).pendingDesc = none → g.state = .complete ∧ g.held = 0) ∧
    (n.held ≠ 0 ∨ (s.slot i).pendingDesc = none →
      g.generation = f.generation + 1 ∧ g.successor = none ∧ g.pendingTag = none ∧ g.presented.isSome = true ∧
      g.beats = n.beats ∧ g.eofSeen = n.eofSeen ∧ g.flags.truncated = !n.eofSeen ∧
      ∀ b : BandId, (g.bands[b]).result.map BandResult.kind = some .untagged))

/-- The row of R89 that an expiry on a WAITING band of slot `i` with the band time `time` meets: its kind and its
source. A sample is at or before the band time when its stamp minus the band time, read as R44 reads it, is negative
or 0, and at or after it when the band time minus its stamp is (log entry 51). The history is oldest first. -/
def ExpiryRow (s : State) (i : SlotId) (time : Stamp) (kind : ResKind) (src : Source) : Prop :=
  let usable := ∃ a, (s.frame i).area = some a ∧ s.llc.identified = some (s.area a).identity
  let low (x : Sample) : Prop := (x.stamp - time).toInt ≤ 0
  let high (x : Sample) : Prop := (time - x.stamp).toInt ≤ 0
  let around := (∃ x ∈ s.br.history, low x) ∧ ∃ x ∈ s.br.history, high x
  (¬ usable → kind = .noProfile ∧ src = .absent) ∧
  (usable → around → kind = .exact ∧ ∃ x y, src = .pair x y time ∧
    (∃ l r, s.br.history = l ++ x :: r ∧ low x ∧ ∀ z ∈ r, ¬ low z) ∧
    ∃ l r, s.br.history = l ++ y :: r ∧ high y ∧ ∀ z ∈ l, ¬ high z) ∧
  (∀ oldest newest, usable → ¬ around → s.br.history.head? = some oldest →
    s.br.history.getLast? = some newest →
    (0 < (oldest.stamp - time).toInt → kind = .old ∧ src = .one oldest) ∧
    ((oldest.stamp - time).toInt ≤ 0 → kind = .late ∧ src = .one newest)) ∧
  (∀ x, usable → s.br.history = [] → s.br.lastKnown = some x → kind = .lensLost ∧ src = .one x) ∧
  (usable → s.br.history = [] → s.br.lastKnown = none → kind = .noSample ∧ src = .absent)

/-- The result of a band of slot `i` by its kind and its source: the identity result with no usable profile, no
source or no valid focus (R87, R89, R92), else the magnification of the focus used (R90, R91, R92, R95). Two samples
whose order R90's formula does not fit give some focus between theirs (log entry 55). -/
def ResultFrom (s : State) (i : SlotId) (kind : ResKind) (src : Source) (r : BandResult) : Prop :=
  let usable (a : AreaId) := (s.frame i).area = some a ∧ s.llc.identified = some (s.area a).identity
  let identity : BandResult := ⟨kind, 65536, Vector.replicate 64 16384⟩
  let magnified (focus : Nat) : Prop := ∀ a, usable a → r.kind = kind ∧
    r.magnification = max 52429 (min 81920 (roundHalfUp (fieldAt (s.area a).breathing focus * 65536 : Nat)
      (framingTarget s.cru.settings.framing (s.area a).breathing)).toNat)
  let fallback : Prop := (∀ f, s.br.newestFocus = some f → magnified f.toNat) ∧
    (s.br.newestFocus = none → r = identity)
  ((∀ a, ¬ usable a) ∨ src = .absent → r = identity) ∧
  (∀ x, src = .one x → (x.focusValid = true → magnified x.focus.toNat) ∧ (x.focusValid = false → fallback)) ∧
  (∀ x y time, src = .pair x y time →
    (x.focusValid = true → y.focusValid = false → magnified x.focus.toNat) ∧
    (x.focusValid = false → y.focusValid = true → magnified y.focus.toNat) ∧
    (x.focusValid = false → y.focusValid = false → fallback) ∧
    (x.focusValid = true → y.focusValid = true →
      (x.stamp = y.stamp → magnified x.focus.toNat) ∧
      (∀ focus : Nat,
        let step := (y.stamp - x.stamp).toInt
        let offset := (time - x.stamp).toInt
        let exact := x.focus.toNat * step + ((y.focus.toNat : Int) - x.focus.toNat) * offset
        0 ≤ offset → offset ≤ step → 0 < step →
        2 * exact - step < 2 * step * focus → 2 * step * focus ≤ 2 * exact + step → magnified focus) ∧
      (x.stamp ≠ y.stamp → (y.stamp - x.stamp).toInt ≤ 0 → ∃ focus, magnified focus ∧
        min x.focus.toNat y.focus.toNat ≤ focus ∧ focus ≤ max x.focus.toNat y.focus.toNat)))

/-! ### The lens link (R63–R76, R107–R116) -/

/-- An event with no slot is raised from `s` to `t`, when the kind with the number `bit` is enabled and the Event Queue
has room for `room` records (R182). -/
def Raised (s t : State) (bit room : Nat) (e : Event) : Prop :=
  s.cru.settings.eventDisable.getLsbD bit = false → s.cru.events.length + room ≤ 16 →
    ∃ x ∈ t.cru.events.drop s.cru.events.length, x.event = e ∧ x.slot = none ∧ x.stamp = s.clock

/-- The period of the good frame `f` from `s` to `t` (R63, R64). -/
def GoodPeriod (s t : State) (f : LensFrame) : Prop :=
  t.llc.run = 0 ∧ t.llc.expected = some (f.sequence + 1) ∧ t.llc.lastGood = some f.sequence ∧
  t.llc.deadline = some (s.ssu.clock + 384)

/-- The part frame that answers the good frame `f` by the orders 2 to 4 of R74: MODE_REQ when its kind differs from the
mode target; in READY and NORMAL a BLOCK_REQ for a block whose entry is now SENT with a period count of 0, if the
Profile Unit offers one; else POLL. -/
def PartSent (s t : State) (f : LensFrame) : Prop :=
  let mode := t.llc.modeTarget
  let sent (x : PartFrame) : Prop := t.ports.lml = s.ports.lml ++ [x]
  let asks := t.llc.link = .ready ∧ t.llc.linkMode = .normal ∧ mode = .normal ∧ t.pu.load.isSome = true
  (f.kind ≠ mode → sent (.modeReq f.sequence mode)) ∧
  (f.kind = mode → ¬ asks → sent (.poll f.sequence)) ∧
  (f.kind = mode → asks → sent (.poll f.sequence) ∨ ∃ ld r, t.pu.load = some ld ∧ ld.area.isSome = true ∧
    r ∈ ld.requests ∧ r.sent = true ∧ r.periods = 0 ∧ sent (.blockReq f.sequence r.block))

/-- An identity reply is accepted in IDENT with the good frame `f`, from `s` to `t`: the identified lens, LENS_IDENT
first, the match mark of the ACTIVE area, the load that the reply triggers, keeps, supersedes or aborts, and READY with
LINK_STATE (R67, R73, R86, R105, R107). The samples and the payload of `f` are discarded. -/
def ReplyTaken (s t : State) (f : LensFrame) (reply : LensIdentity) : Prop :=
  let same := ∃ l, s.llc.identified = some l ∧ l.id = reply.id
  let wanted := s.cru.settings.acceptance = .auto ∧
    ∀ a, s.areaIn .active = some a → (s.area a).identity ≠ reply
  let failed (ld : Load) (reason : LoadReason) : Event :=
    .profileFailed reason ld.area (some ld.target) none ld.known (s.blocksReceived ld) 0
  t.llc.link = .ready ∧ t.llc.identified = some reply ∧ t.llc.outstanding = none ∧ t.llc.linkMode = f.kind ∧
  t.br.history = s.br.history ∧ t.br.lastKnown = s.br.lastKnown ∧
  (same → t.br = s.br) ∧ (¬ same → t.br.newestFocus = none ∧ t.br.newestIris = none) ∧
  (s.cru.events.length < 16 → s.cru.settings.eventDisable.getLsbD 8 = false →
    s.cru.events ++ [⟨.lensIdent reply, s.cru.overflow, none, s.clock⟩] <+: t.cru.events) ∧
  Raised s t 7 4 (.linkState .ident .ready .identified 0 (some f.sequence) none) ∧
  (∀ a, s.areaIn .active = some a → (t.area a).matchMark = decide ((s.area a).identity = reply)) ∧
  (∀ ld, s.pu.load = some ld → ld.target = reply → ld.requests = [] →
    ∃ x, t.pu.load = some x ∧ x.target = reply) ∧
  ((∀ ld, s.pu.load = some ld → ld.target ≠ reply) →
    (wanted → ∃ x, t.pu.load = some x ∧ x.target = reply) ∧ (¬ wanted → t.pu.load = none)) ∧
  (∀ ld, s.pu.load = some ld → ld.target ≠ reply →
    (wanted → Raised s t 10 3 (failed ld .superseded)) ∧ (¬ wanted → Raised s t 10 3 (failed ld .link)))

/-- The header checks of R111 on the bytes of an area, for a load with a target: the first that fails. -/
def HeaderCheck (m : Memory) (target : LensIdentity) (answer : Option FormatCheck) : Prop :=
  let named : LensIdentity := ⟨BitVec.ofNat 32 (m.number 0 4), BitVec.ofNat 16 (m.number 4 2)⟩
  let n := m.number 6 1
  let nf := m.number 7 1
  let ni := m.number 8 1
  let counts := (4 ≤ n ∧ n ≤ 32) ∧ (1 ≤ nf ∧ nf ≤ 8) ∧ (1 ≤ ni ∧ ni ≤ 8)
  let blocks := m.number 10 2 = 4 + (n + 1) / 2 + 8 * nf * ni
  (named ≠ target → answer = some .headerIdentity) ∧
  (named = target → (¬ counts → answer = some .headerCounts) ∧
    (counts → (¬ blocks → answer = some .headerBlockCount) ∧ (blocks → answer = none)))

/-- The checks of R113 on the bytes of an area with a block count: the reason of the first that fails, and for FORMAT
the check. -/
def ProfileCheck (m : Memory) (blocks : Nat) (answer : Option (LoadReason × Option FormatCheck)) : Prop :=
  let n := m.number 6 1
  let nf := m.number 7 1
  let ni := m.number 8 1
  let focus (i : Nat) := m.number (64 + 8 * i) 2
  let field (i : Nat) := m.number (64 + 8 * i + 4) 4
  let vf (i : Nat) := m.number (32 + 2 * i) 2
  let vi (i : Nat) := m.number (48 + 2 * i) 2
  let sums := ((List.range (8 * blocks)).map fun i => m.number (2 * i) 2).sum % 65536 = 0
  let breathing := (∀ i, i < n - 1 → focus i < focus (i + 1)) ∧ ∀ i, i < n → 16384 ≤ field i ∧ field i ≤ 262144
  let focuses := ∀ i, i < nf - 1 → vf i < vf (i + 1)
  let irises := (∀ i, i < ni - 1 → vi i < vi (i + 1)) ∧ ∀ i, i < ni → vi i ≤ 255
  (¬ sums → answer = some (.checksum, none)) ∧
  (sums → (¬ breathing → answer = some (.format, some .breathing)) ∧
    (breathing → (¬ focuses → answer = some (.format, some .focusKnots)) ∧
      (focuses → (¬ irises → answer = some (.format, some .irisKnots)) ∧ (irises → answer = none))))

/-- The block reply of the good frame `f` is taken by the load `ld` in progress in area `a`, from `s` to `t`: one with no
entry in the Block Request List is ignored; else its entry leaves the list, its bytes and its mark are stored, block 0
has its header checked and gives the known block count, and with every block received and the list empty the profile is
validated: it becomes ACTIVE with the match mark and the old one RETIRING or FREE, or the load fails and its area is
FREE (R111, R113, R114, R116). A failed load leaves the state of the other area; a RETIRING one, which R104 never puts
beside a LOADING one, may become FREE, because a sample of `f` can resolve the last generation that refers to it (R106).
The events are stated for a frame of one sample and no TAGGED generation. -/
def BlockTaken (s t : State) (f : LensFrame) (ld : Load) (a : AreaId) (block : Nat) (data : List Byte) : Prop :=
  let o : AreaId := if a = .p0 then .p1 else .p0
  let old := s.area a
  let new := t.area a
  let wanted := ∃ r ∈ ld.requests, r.block = block
  let rest := ld.requests.filter fun r => r.block != block
  let m := old.bytes.writeLanes (16 * block) (data.map some)
  let known := if block = 0 then some (m.number 10 2) else ld.known
  let passed := block ≠ 0 ∨ HeaderCheck m ld.target none
  let complete (n : Nat) : Prop := known = some n ∧ rest = [] ∧ ∀ k : Fin 532, k.val < n → new.received[k] = true
  let tells (bit : Nat) (e : Event) : Prop :=
    f.samples.length ≤ 1 → (∀ i, (s.frame i).state ≠ .tagged) → Raised s t bit 7 e
  let failed (reason : LoadReason) (check : Option FormatCheck) (known : Option Nat) : Prop :=
    t.pu.load = none ∧ new.state = .free ∧
    ((s.area o).state ≠ .retiring → (t.area o).state = (s.area o).state) ∧
    ((s.area o).state = .retiring → (t.area o).state = .retiring ∨ (t.area o).state = .free) ∧
    tells 10 (.profileFailed reason (some a) (some ld.target) check known (new.received.toList.countP id) 0)
  (t.area o).bytes = (s.area o).bytes ∧
  (¬ wanted → new.bytes = old.bytes ∧ new.received = old.received) ∧
  (wanted → new.bytes = m ∧ (∀ k : Fin 532, new.received[k] = (old.received[k] || decide (k.val = block))) ∧
    (∀ check, block = 0 → HeaderCheck m ld.target (some check) → failed .format (some check) ld.known) ∧
    (∀ n reason check, passed → complete n → ProfileCheck m n (some (reason, check)) →
      failed reason check known) ∧
    (∀ n, passed → complete n → ProfileCheck m n none →
      t.pu.load = none ∧ new.state = .active ∧ new.matchMark = true ∧
      ((s.area o).state = .active → (t.area o).matchMark = false ∧
        (t.area o).state = (if 0 < (t.area o).refs then .retiring else .free)) ∧
      tells 9 (.profileLoaded a
        (if (s.area o).state = .active then
          some (o, if 0 < (s.area o).refs then .retiring else .free, (s.area o).refs) else none)
        new.identity (m.number 10 2) (m.number 6 1) (m.number 7 1) (m.number 8 1) ld.sentCount)) ∧
    (passed → (∀ n, ¬ complete n) → (∀ r ∈ rest, r.sent = true → r.periods + 1 < 8) →
      ∃ x, t.pu.load = some x ∧ x.area = some a ∧ x.target = ld.target ∧ x.known = known ∧
        rest.map BlockRequest.block <+: x.requests.map BlockRequest.block))

/-- A period is delivered to the Profile Unit, from `s` to `t`, with a load in progress: every SENT entry's period count
rises; one that reaches 8 moves to the tail UNSENT with its timeout count raised, or ends the load when it was the
fourth timeout (R112). An UNSENT entry's period count is 0 (log entry 52). -/
def PeriodDelivered (s t : State) : Prop :=
  ∀ ld, s.pu.load = some ld → ld.area.isSome = true →
    let late (r : BlockRequest) : Bool := r.sent && decide (8 ≤ r.periods + 1)
    ((∃ r ∈ ld.requests, late r = true ∧ r.timeouts = 3) → t.pu.load = none) ∧
    ((∀ r ∈ ld.requests, late r = true → r.timeouts ≠ 3) → t.pu.load = some { ld with
      requests := (ld.requests.filter fun r => !late r).map (fun r =>
          if r.sent = true then { r with periods := r.periods + 1 } else r) ++
        (ld.requests.filter late).map fun r => { r with sent := false, periods := 0, timeouts := r.timeouts + 1 } })

/-- A bad or missing period is counted from `s` to `t`, with the period deadline and the expected sequence it leaves: the
run count rises, ACQUIRING loses its acquire count, READY becomes HOLDOVER at 4 and any state DOWN at 64; an outstanding
identity attempt counts the period, fails at 16, and the third failure takes the link to ACQUIRING; nothing of a frame
is taken and no part frame is sent (R63, R64, R66, R68, R71, R72, R112). -/
def BadPeriodCounted (s t : State) (deadline : Stamp) (expected : Option (BitVec 8)) : Prop :=
  let run := s.llc.run + 1
  let fails := ∃ n, s.llc.outstanding = some n ∧ 16 ≤ n + 1 ∧ 3 ≤ s.llc.attempts
  let lost := s.llc.link = .ready ∧ run = 4
  t.ports.lml = s.ports.lml ∧ t.llc.identified = s.llc.identified ∧
  (run < 64 →
    t.llc.deadline = some deadline ∧ t.llc.run = run ∧ t.llc.expected = expected ∧ t.br = s.br ∧
    t.llc.linkMode = s.llc.linkMode ∧ t.llc.lastGood = s.llc.lastGood ∧ t.llc.attempts = s.llc.attempts ∧
    (s.llc.outstanding = none → t.llc.outstanding = none) ∧
    (∀ n, s.llc.outstanding = some n → t.llc.outstanding = (if n + 1 < 16 then some (n + 1) else none)) ∧
    (fails → t.llc.link = .acquiring ∧ t.llc.acquire = 0 ∧ (s.llc.link = .ident →
      Raised s t 7 1 (.linkState .ident .acquiring .identFail run s.llc.lastGood none))) ∧
    (¬ fails →
      t.llc.acquire = (if s.llc.link = .acquiring then 0 else s.llc.acquire) ∧
      (lost → t.llc.link = .holdover ∧
        Raised s t 7 1 (.linkState .ready .holdover .loss 4 s.llc.lastGood none)) ∧
      (¬ lost → t.llc.link = s.llc.link)) ∧
    PeriodDelivered s t) ∧
  (run = 64 → t.llc.link = .down ∧ t.llc.deadline = none ∧ t.llc.expected = none ∧ t.llc.run = 0 ∧
    t.llc.outstanding = none ∧ t.br.history = [] ∧ (s.mpu.intake = none → s.er.queue = [] → t.pu.load = none) ∧
    (s.cru.events.length < 16 → s.cru.settings.eventDisable.getLsbD 7 = false →
      s.cru.events ++ [⟨.linkState s.llc.link .down .detach 64 s.llc.lastGood none, s.cru.overflow, none, s.clock⟩] <+:
        t.cru.events))

/-! ### The checks of a commit (R174) -/

/-- Two ranges of bytes, each a base and a size, share a byte; the numbers do not wrap (log entry 15). -/
def Shares (a b : Nat × Nat) : Prop := ∃ x, a.1 ≤ x ∧ x < a.1 + a.2 ∧ b.1 ≤ x ∧ x < b.1 + b.2

/-- Order 1: every global setting of the shadow is within its range and every code names a value (R176, R188). A
region whose end is 2^40 may pass or fail (log entry 24). -/
def SettingsFit (m : Memory) : Prop :=
  (100 ≤ m.number 0x040 4 ∧ m.number 0x040 4 ≤ 50000) ∧ (100 ≤ m.number 0x044 4 ∧ m.number 0x044 4 ≤ 50000) ∧
  m.number 0x048 2 ≤ 1023 ∧ m.number 0x04A 2 ≤ 4095 ∧ (m.read 0x04C).toNat ≤ 1 ∧ (m.read 0x04D).toNat ≤ 1 ∧
  (m.read 0x050).toNat ≤ 2 ∧ (m.read 0x051).toNat ≤ 1 ∧ (m.read 0x052).toNat ≤ 1 ∧
  ((m.read 0x050).toNat = 2 → 32768 ≤ m.number 0x058 4 ∧ m.number 0x058 4 ≤ 131072) ∧
  ∀ k : Fin 4, let region := shadowRegion m k
    region.enabled = true → region.base % 256 = 0 ∧ region.size % 256 = 0 ∧ 256 ≤ region.size ∧
      (region.base + region.size < 2 ^ 40 ∨
        (region.base + region.size = 2 ^ 40 ∧ Config.regionMayEndAtTop = true))

/-- Order 2: a ring, when named, has a size and a base it may have. -/
def RingFits (m : Memory) : Prop :=
  ∀ ring, shadowRing m = some ring → ring.size ∈ [16, 32, 64, 128, 256] ∧ ring.base % (32 * ring.size) = 0

/-- Order 3: a snapshot address, when present, is a multiple of 512. -/
def SnapshotFits (m : Memory) : Prop := ∀ a, shadowSnapshot m = some a → a % 512 = 0

/-- Orders 4 to 7: the limits of R22 on a descriptor, by the reason of the check. -/
def Window.meetsCheck (w : Window) : CommitFault → Prop
  | .geometry => (512 ≤ w.width ∧ w.width ≤ 8192 ∧ w.width % 2 = 0) ∧
      (256 ≤ w.height ∧ w.height ≤ 6144 ∧ w.height % 2 = 0) ∧ (1 ≤ w.firstRow ∧ w.firstRow ≤ 15) ∧
      ∀ c, w.centre = some c → c.1 ≤ w.width - 1 ∧ c.2 ≤ w.height - 1
  | .pitch => w.pitch % 256 = 0 ∧ 2 * w.width ≤ w.pitch ∧ w.pitch ≤ 65536
  | .tagPlacement => w.tagRow ≤ 14 ∧ w.tagRow < w.firstRow ∧ w.tagOffset % 16 = 0 ∧ w.tagOffset + 64 ≤ w.pitch
  | .readerSet => w.readers.getLsbD w.writer.toNat = false
  | _ => True

/-- Order 8 for a slot: its shadow extent, or its committed extent, is one side of an overlap that R174 lists (log
entry 21). -/
def TakesPart (s : State) (m : Memory) (i : SlotId) : Prop :=
  let extent (w : Window) : Nat × Nat := (w.base, w.pitch * (w.firstRow + w.height))
  let ring (x : Nat × Nat) : Prop := ∃ r, shadowRing m = some r ∧ Shares x (r.base, 32 * r.size)
  let snapshot (x : Nat × Nat) : Prop := ∃ a, shadowSnapshot m = some a ∧ Shares x (a, 512)
  (∃ w, shadowWindow m i = some w ∧
    (Shares (extent w) (s.pins.ctlbase.toNat * 2 ^ 24, 4096) ∨ ring (extent w) ∨ snapshot (extent w) ∨
      ∃ (j : SlotId) (v : Window), j ≠ i ∧ (shadowWindow m j = some v ∨ (s.slot j).committed = some v) ∧
        Shares (extent w) (extent v))) ∨
  ∃ w, (s.slot i).committed = some w ∧
    (ring (extent w) ∨ snapshot (extent w) ∨
      ∃ (j : SlotId) (v : Window), j ≠ i ∧ shadowWindow m j = some v ∧ Shares (extent w) (extent v))

/-- Order 8 with no window: the ring, the snapshot area and the control area among themselves. -/
def AreasOverlap (s : State) (m : Memory) : Prop :=
  let control : Nat × Nat := (s.pins.ctlbase.toNat * 2 ^ 24, 4096)
  (∃ r, shadowRing m = some r ∧ Shares (r.base, 32 * r.size) control) ∨
  (∃ a, shadowSnapshot m = some a ∧ Shares (a, 512) control) ∨
  ∃ r a, shadowRing m = some r ∧ shadowSnapshot m = some a ∧ Shares (r.base, 32 * r.size) (a, 512)

/-- The table of R174 on a shadow `m`: `answer` is the reason of the first check that fails with the first
offending slot, or `none` when every check passes. -/
def CommitTable (s : State) (m : Memory) (answer : Option (CommitFault × Option SlotId)) : Prop :=
  let fails (reason : CommitFault) (i : SlotId) : Prop :=
    ∃ w, shadowWindow m i = some w ∧ ¬ w.meetsCheck reason
  let lowest (reason : CommitFault) (bad : SlotId → Prop) : Prop :=
    ∀ i, bad i → (∀ j, j < i → ¬ bad j) → answer = some (reason, some i)
  (¬ SettingsFit m → answer = some (.setting, none)) ∧
  (SettingsFit m → (¬ RingFits m → answer = some (.ring, none)) ∧
    (RingFits m → (¬ SnapshotFits m → answer = some (.snapshot, none)) ∧
      (SnapshotFits m → lowest .geometry (fails .geometry) ∧
        ((∀ i, ¬ fails .geometry i) → lowest .pitch (fails .pitch) ∧
          ((∀ i, ¬ fails .pitch i) → lowest .tagPlacement (fails .tagPlacement) ∧
            ((∀ i, ¬ fails .tagPlacement i) → lowest .readerSet (fails .readerSet) ∧
              ((∀ i, ¬ fails .readerSet i) → lowest .overlap (TakesPart s m) ∧
                ((∀ i, ¬ TakesPart s m i) →
                  (AreasOverlap s m → answer = some (.overlap, none)) ∧
                  (¬ AreasOverlap s m → answer = none)))))))))

end Sys2Proof.Machine
end

