-- ==== Sys2Proof/Certificates/Slice0/Obligations.lean ====
section
/-! DEFINITION. The statements for the provers, one definition each, in the order of OBLIGATIONS.json: the
step, the frames, the invariants of every step, the commands of each family, and the functions that the rules
give as tables. -/

section

open Sys2Proof Sys2Proof.Machine

/-! ### The step -/

/-- A step with a command waiting is that command's effect on the state with the queue's rest. -/
def Obligations.StepRunsFrontCommand : Prop :=
  ∀ (c : Instr) (rest : List Instr) (s : State), s.pending = c :: rest →
    step s = exec c { s with pending := rest }

/-- Every command whose operands are ones the spec gives it answers a next state, and leaves the queue alone;
only an ill-formed request or CONTROL write is refused (log entry 2). -/
def Obligations.EveryCommandCompletes : Prop :=
  ∀ (c : Instr) (s : State),
    (c.wf = true → ∃ t, exec c s = .next t ∧ t.pending = s.pending) ∧
    (∀ r, c = .upstreamRequest r → r.wf = false → exec c s = .refused .notARequest) ∧
    (∀ w, c = .controlWrite w → w.wf = false → exec c s = .refused .notAControlWrite)

/-- With no command waiting and nothing due, a step is one REFCLK cycle, and the Stamp Clock advances once in
as many cycles as the prescaler divides by. That a step with an empty queue is a REFCLK cycle is the model's
choice (log entry 1). -/
def Obligations.IdleCycleCountsMicroseconds : Prop :=
  ∀ (s : State) (d : Nat), s.pending = [] → s.pins.resetN = true → s.dueEvents = [] →
    (s.pins.refsel, d) ∈ [((0 : BitVec 2), 25), (1, 27), (2, 50), (3, 54)] →
    step s = .next { s with
      ssu := { s.ssu with
        prescaler := if s.ssu.prescaler + 1 < d then s.ssu.prescaler + 1 else 0
        clock := if s.ssu.prescaler + 1 < d then s.ssu.clock else s.ssu.clock + 1 } }

/-! ### What a command leaves unchanged -/

/-- The clock, the strobe counter, the Exposure Queue and the pins: which commands may change them. -/
def Obligations.ClockAndPinFrame : Prop :=
  ∀ (c : Instr) (s t : State), exec c s = .next t →
    (match c with
      | .resetNLow _ _ => True
      | _ => t.ssu.clock = s.ssu.clock ∧ t.ssu.prescaler = s.ssu.prescaler ∧
          t.pins.ctlbase = s.pins.ctlbase ∧ t.pins.refsel = s.pins.refsel) ∧
    (match c with
      | .resetNLow _ _ | .expoEdge => True
      | _ => t.ssu.strobe = s.ssu.strobe ∧ t.ssu.exposures <:+ s.ssu.exposures) ∧
    (match c with
      | .resetNLow _ _ | .resetNHigh => True
      | _ => t.pins.resetN = s.pins.resetN) ∧
    (match c with
      | .bypassRise | .bypassFall => True
      | _ => t.pins.bypass = s.pins.bypass)

/-- The shadow, the committed settings, the ring, the record write in flight, the snapshot and the Event
Queue: which commands may change them. -/
def Obligations.ControlAreaFrame : Prop :=
  ∀ (c : Instr) (s t : State), exec c s = .next t →
    (match c with
      | .resetNLow _ _ | .upstreamOriginCompletion _ _ _ | .controlWrite _ | .commit _ | .consumedIndex _
      | .snapshotRequest _ | .none | .drainRestart | .reloadProfile | .linkRestart | .unknownCommand _ => True
      | _ => t.cru.shadow = s.cru.shadow ∧ t.cru.settings = s.cru.settings ∧
          (match c with
            | .eventRecordWriteCompletion _ _ => True
            | _ => t.cru.ringState = s.cru.ringState ∧ t.cru.produce = s.cru.produce ∧
                (match c with
                  | .eventRecordWriteGrant => True
                  | _ => t.cru.recordWrite = s.cru.recordWrite)) ∧
          (match c with
            | .snapshotWriteCompletion _ _ => True
            | _ => t.cru.snapshot = s.cru.snapshot ∧ t.cru.snapshotRepeat = s.cru.snapshotRepeat)) ∧
    (match c with
      | .resetNLow _ _ | .eventRecordWriteCompletion _ _ => True
      | _ => s.cru.events <+: t.cru.events)

/-- The link, the history and the bytes of the profile areas: which commands may change them. The mode target
is left out: it follows the loads and the areas (R76). -/
def Obligations.LinkFrame : Prop :=
  ∀ (c : Instr) (s t : State), exec c s = .next t →
    (match c with
      | .resetNLow _ _ | .upstreamOriginCompletion _ _ _ | .controlWrite _ | .commit _ | .consumedIndex _
      | .snapshotRequest _ | .none | .drainRestart | .reloadProfile | .linkRestart | .unknownCommand _
      | .lensFrame _ | .missingPeriod => True
      | .drainStep4 =>
        t.llc = { s.llc with modeTarget := t.llc.modeTarget, focusRef := t.llc.focusRef }
      | _ => t.llc = { s.llc with modeTarget := t.llc.modeTarget } ∧ t.br = s.br) ∧
    (match c with
      | .resetNLow _ _ | .lensFrame _ => True
      | _ => t.pu.p0.bytes = s.pu.p0.bytes ∧ t.pu.p1.bytes = s.pu.p1.bytes)

/-- The ports and the Outstanding Table: only a grant issues a downstream request, only a grant and a completion
change which entries are BUSY, only a lens frame is answered with a part frame, and no command takes back an
upstream completion. -/
def Obligations.PortFrame : Prop :=
  ∀ (c : Instr) (s t : State), exec c s = .next t →
    s.ports.ump <+: t.ports.ump ∧
    (match c with
      | .forwardedGrant | .castoutGrant | .fillGrant | .eventRecordWriteGrant | .snapshotWriteGrant => True
      | _ => t.ports.dmp = s.ports.dmp) ∧
    (match c with
      | .lensFrame _ => True
      | _ => t.ports.lml = s.ports.lml) ∧
    (match c with
      | .resetNLow _ _ | .forwardedGrant | .castoutGrant | .fillGrant | .eventRecordWriteGrant
      | .snapshotWriteGrant | .upstreamOriginCompletion _ _ _ | .castoutCompletion _ _ | .fillCompletion _ _ _
      | .eventRecordWriteCompletion _ _ | .snapshotWriteCompletion _ _ => True
      | _ => ∀ e : DownTag, (t.mpu.outstanding[e]).isSome = (s.mpu.outstanding[e]).isSome)

/-! ### What every step keeps -/

/-- ATTN_N stays Low exactly when P differs from C or the ring is BROKEN. -/
def Obligations.AttnFollowsRing : Prop :=
  ∀ s t : State, AttnOk s → step s = .next t → AttnOk t

/-- The Exposure Queue, the history, the Event Queue, the Egress Queue, the starvation count and the Block
Request List stay within their sizes, a class 3 candidate stays the presented request's, and the reads of the
Egress Queue keep names below the next one (the names are the model's, log entry 29). -/
def Obligations.QueuesStayBounded : Prop :=
  ∀ s t : State, step s = .next t → (Bounded s → Bounded t) ∧ (PathOk s → PathOk t) ∧ (IdsOk s → IdsOk t)

/-- The shadow and the bytes of the profile areas keep their canonical form. -/
def Obligations.MemoriesStayCanonical : Prop :=
  ∀ s t : State, MemoriesOk s → step s = .next t → MemoriesOk t

/-- Every Line Store record stays at the index of its line address, with 256 bytes. -/
def Obligations.LinesStayAtTheirIndex : Prop :=
  ∀ s t : State, LinesOk s → step s = .next t → LinesOk t

/-- The stamps of the Lens Sample History stay in strictly increasing order. -/
def Obligations.HistoryStaysIncreasing : Prop :=
  ∀ s t : State, HistoryOk s → step s = .next t → HistoryOk t

/-- The Exposure Queue keeps consecutive strobe counts that end just below the strobe counter. -/
def Obligations.ExposuresStayConsecutive : Prop :=
  ∀ s t : State, ExposuresOk s → step s = .next t → ExposuresOk t

/-- While RESET_N is Low, whatever is commanded, every block stays at its pin-reset values. -/
def Obligations.PinResetHolds : Prop :=
  ∀ s t : State, ResetOk s → step s = .next t → ResetOk t

/-- The invariants hold right after reset. -/
def Obligations.InvariantsHoldAtReset : Prop :=
  AttnOk State.reset ∧ Bounded State.reset ∧ MemoriesOk State.reset ∧ LinesOk State.reset ∧
    HistoryOk State.reset ∧ ExposuresOk State.reset ∧ PathOk State.reset ∧ ResetOk State.reset ∧
    IdsOk State.reset ∧ Quiet State.reset

/-! ### The pins -/

/-- RESET_N Low takes every block to its pin-reset values and gives a presented request back to the port;
RESET_N High starts the sweep, and from State.reset the two together give State.reset again. That the presented
request goes back to the port is the model's choice (log entry 7), and so is that a rise of a High pin changes
nothing (log entry 2). That RESET_N High with BYPASS High too leaves only the sweep, the bypass entry sequence
starting and ending in the same step, is the model's reading of the spec (log entry 30). -/
def Obligations.PinReset : Prop :=
  ∀ (c : BitVec 8) (r : BitVec 2) (s : State),
    (∃ t, exec (.resetNLow c r) s = .next t ∧
      t.pending = s.pending ∧ t.ports = s.ports ∧
      t.pins = { resetN := false, bypass := s.pins.bypass, ctlbase := c, refsel := r, attnN := true } ∧
      t.mpu.intake = none ∧ t.mpu.class1 = [] ∧ t.mpu.class2 = [] ∧ t.mpu.class3 = none ∧ t.mpu.class5 = [] ∧
      t.mpu.starvation = 0 ∧ (∀ e : DownTag, t.mpu.outstanding[e] = none) ∧
      t.mpu.port = (match s.mpu.intake with
        | none => s.mpu.port
        | some p => p.req :: s.mpu.port) ∧
      (∀ i : SlotId, (t.frame i).state = .free ∧ (t.frame i).generation = 0 ∧ (t.frame i).presented = none ∧
        (t.frame i).successor = none ∧ (t.frame i).pendingTag = none ∧ (t.frame i).tagSequence = none ∧
        (t.frame i).beats = 0 ∧ (t.frame i).held = 0 ∧ (t.frame i).saturated = 0 ∧
        (∀ b : BandId, ((t.frame i).bands[b]).result = none ∧ ((t.frame i).bands[b]).time = none) ∧
        (t.slot i).committed = none ∧ (t.slot i).pendingDesc = none ∧ (t.slot i).tagDeadline = none ∧
        (t.slot i).invalidReported = false ∧ (∀ k : Fin 64, (t.slot i).collection[k] = none)) ∧
      t.ssu = { clock := 0, prescaler := 0, strobe := 0, exposures := [] } ∧
      t.llc = { link := .down, expected := none, lastGood := none, run := 0, acquire := 0, attempts := 0
                outstanding := none, identified := none, deadline := none, linkMode := .normal
                modeTarget := .normal, focusRef := none } ∧
      t.br = { history := [], lastKnown := none, newestFocus := none, newestIris := none } ∧
      t.pu.load = none ∧ (∀ a : AreaId, (t.area a).state = .free ∧ (t.area a).matchMark = false ∧
        (t.area a).refs = 0) ∧
      (∀ i : LineIdx, t.line i = .invalid) ∧ t.ls.claims = [] ∧ t.er.queue = [] ∧
      (∀ a, t.cru.shadow.read a = 0) ∧ t.cru.settings = Settings.reset ∧ t.cru.ringState = .none ∧
      t.cru.produce = 0 ∧ t.cru.recordWrite = none ∧ t.cru.events = [] ∧ t.cru.overflow = false ∧
      t.cru.snapshot = none ∧ t.cru.snapshotRepeat = false ∧ t.cru.proc = .none) ∧
    (s.pins.resetN = false → exec .resetNHigh s = .next { s with
      pins := { s.pins with resetN := true }
      ls := { s.ls with sweeping := true } }) ∧
    (s.pins.resetN = true → exec .resetNHigh s = .next s) ∧
    (∃ t, exec (.resetNLow 0 0) State.reset = .next t ∧ exec .resetNHigh t = .next State.reset)

/-- The end of the invalidate sweep leaves every record INVALID and the sweep over. That it changes nothing with no
sweep running is the model's choice (log entry 2). -/
def Obligations.SweepEndInvalidatesRecords : Prop :=
  ∀ s : State,
    (s.pins.resetN = true → s.ls.sweeping = true → Quiet s → exec .invalidateSweepEnd s = .next { s with
      ls := { s.ls with
        lines := Vector.replicate 512 .invalid
        sweeping := false } }) ∧
    (s.pins.resetN = true → s.ls.sweeping = true →
      ∃ t, exec .invalidateSweepEnd s = .next t ∧ t.ls.sweeping = false) ∧
    (s.pins.resetN = false ∨ s.ls.sweeping = false → exec .invalidateSweepEnd s = .next s)

/-- A rising edge of BYPASS starts the bypass entry sequence: the presentation is cancelled, the Egress Queue
is emptied, and the sequence waits for the entries that are BUSY. Each generation with work is resolved and, once
it holds no line, completed, with FRAME_DONE (stated with no load held and for a slot that alone has work and no
successor). A High level does not rise (log entry 2), and
during pin reset or a procedure only the level changes. -/
def Obligations.BypassRiseStartsEntry : Prop :=
  ∀ s : State,
    (s.pins.bypass = false → s.pins.resetN = true → s.cru.proc = .none → s.er.queue.length ≤ 16 →
      ∃ t, exec .bypassRise s = .next t ∧ t.pins.bypass = true ∧ t.mpu.intake = none ∧ t.er.queue = [] ∧
        (∃ l, t.cru.proc = .bypassEntry l ∧
          ∀ e : DownTag, e ∈ l ↔ (s.mpu.outstanding[e]).isSome = true) ∧
        t.mpu.port = (match s.mpu.intake with
          | none => s.mpu.port
          | some p => p.req :: s.mpu.port) ∧
        (∀ i : SlotId, BypassTaken s t i) ∧
        (∀ i : SlotId, let f := s.frame i
          let g := t.frame i
          let work (x : FrameRecord) : Prop := (x.state = .tagged ∧ ∃ b : BandId, (x.bands[b]).result = none) ∨
            (x.state = .armed ∧ x.firstIngest.isSome = true) ∨ x.state = .resolved
          work f → f.held = 0 → f.ended = false → f.successor = none → (s.slot i).pendingDesc = none →
          (∀ j, j ≠ i → (s.frame j).state ≠ .tagged ∧ ¬ work (s.frame j)) → s.pu.load = none →
          s.cru.events.length < 16 → s.cru.settings.eventDisable.getLsbD 1 = false →
          s.cru.events ++ [{
            event := .frameDone g.tagSequence g.flags g.area g.beats g.saturated
              (mapTable g.bands fun b => b.result.map BandResult.kind)
            overflow := s.cru.overflow, slot := some (i, f.generation), stamp := s.clock }] <+: t.cru.events)) ∧
    (s.pins.bypass = false → (s.pins.resetN = false ∨ s.cru.proc ≠ .none) →
      exec .bypassRise s = .next { s with pins := { s.pins with bypass := true } }) ∧
    (s.pins.bypass = true → exec .bypassRise s = .next s)

/-- The bypass entry sequence ends when its work has ended: the tag collections are cleared and nothing else
changes. A falling edge of BYPASS changes the level alone. An end that has not come changes nothing (log entry 2). -/
def Obligations.BypassEntryEndAndFall : Prop :=
  ∀ s : State,
    (∀ l, s.cru.proc = .bypassEntry l → s.workEnded = true →
      ∃ t, exec .bypassEntrySequenceEnd s = .next t ∧ t = { s with
          slots := t.slots
          cru := { s.cru with proc := .none } } ∧
        ∀ i : SlotId, t.slot i = { s.slot i with collection := Vector.replicate 64 none }) ∧
    (s.workEnded = false → exec .bypassEntrySequenceEnd s = .next s) ∧
    exec .bypassFall s = .next { s with pins := { s.pins with bypass := false } }

/-- A rising edge of EXPO while RESET_N is High appends an entry with the Stamp Clock and the strobe count,
removes the oldest of eight, and advances the counter by one, wrapping; while RESET_N is Low it changes
nothing. The counter is 0 after pin reset, and neither a drain nor the BYPASS pin changes it. -/
def Obligations.ExposureEdge : Prop :=
  ∀ s : State,
    (s.pins.resetN = true → exec .expoEdge s = .next { s with
      ssu := { s.ssu with
        exposures := (if s.ssu.exposures.length < 8 then s.ssu.exposures else s.ssu.exposures.drop 1) ++
          [{ stamp := s.ssu.clock, count := s.ssu.strobe }]
        strobe := BitVec.ofNat 16 ((s.ssu.strobe.toNat + 1) % 65536) } }) ∧
    (s.pins.resetN = false → exec .expoEdge s = .next s) ∧
    (∀ c r t, exec (.resetNLow c r) s = .next t → t.ssu.strobe = 0) ∧
    (∀ c t, c ∈ [Instr.drainRestart, .drainStep4, .bypassRise, .bypassEntrySequenceEnd, .bypassFall] →
      exec c s = .next t → t.ssu.strobe = s.ssu.strobe)

/-! ### The memory path: requests -/

/-- A presented request is given the first class whose condition it meets. -/
def Obligations.ClassificationOrder : Prop :=
  ∀ (s : State) (r : UpRequest),
    let region := s.cru.settings.regions.toList.any fun g =>
      g.enabled && g.base ≤ r.first && r.first < g.base + g.size
    let control := decide (s.pins.ctlbase.toNat * 2 ^ 24 ≤ r.first ∧
      r.first ≤ s.pins.ctlbase.toNat * 2 ^ 24 + 4095)
    (r.crosses = true → s.classify r = (.pass, none)) ∧
    (r.crosses = false → s.rawPass = true → s.classify r = (.pass, none)) ∧
    (r.crosses = false → s.rawPass = false → region = true → s.classify r = (.pass, none)) ∧
    (r.crosses = false → s.rawPass = false → region = false → control = true →
      s.classify r = (.control, none)) ∧
    (r.crosses = false → s.rawPass = false → region = false → control = false →
      ∀ (i : SlotId) (w : Window), s.windowAt r.first = some (i, w) →
        s.classify r = (
          if r.isWrite = true ∧ r.master = w.writer ∧ w.isImageRow (w.rowOf r.first) = true then .ingest i
          else if r.isWrite = true ∧ r.master = w.writer ∧ w.rowOf r.first = w.tagRow then .tag i
          else if r.isWrite = false ∧ w.reads r.master = true ∧ w.correctedView = true ∧
            w.isImageRow (w.rowOf r.first) = true then .egress i
          else .foreign i, some w)) ∧
    (r.crosses = false → s.rawPass = false → region = false → control = false →
      s.windowAt r.first = none → s.classify r = (.pass, none))

/-- A request that arrives while presentation is withheld or the Intake Stage is occupied waits at the port; one
that can be presented is classified and handed on: CONTROL, TAG and, during the sweep, PASS ask for their grant
at once, FOREIGN, INGEST and EGRESS wait for the end of the sweep, and EGRESS for a place in the queue. The queue
of the port is the model's (log entry 7). -/
def Obligations.RequestHandedOn : Prop :=
  ∀ (r : UpRequest) (s : State), r.wf = true →
    (s.canPresent = false → exec (.upstreamRequest r) s = .next { s with
      mpu := { s.mpu with port := s.mpu.port ++ [r] } }) ∧
    (s.canPresent = true → s.mpu.port = [] → Quiet s →
      (((s.classify r).1 = .control ∨ (∃ i, (s.classify r).1 = .tag i) ∨
          ((s.classify r).1 = .pass ∧ s.ls.sweeping = true)) →
        exec (.upstreamRequest r) s = .next (presentedAs s r .offered (some ⟨r.kind, 0⟩))) ∧
      (s.ls.sweeping = true → ((∃ i, (s.classify r).1 = .foreign i) ∨ (∃ i, (s.classify r).1 = .ingest i) ∨
          (∃ i, (s.classify r).1 = .egress i)) →
        exec (.upstreamRequest r) s = .next (presentedAs s r .sweep s.mpu.class3)) ∧
      (s.ls.sweeping = false → (∃ i, (s.classify r).1 = .egress i) →
        exec (.upstreamRequest r) s = .next (presentedAs s r .queue s.mpu.class3)))

/-- The forwarding check of a PASS or FOREIGN request after the sweep: with no record of its lines in the Line
Store it asks for its grant; a record HELD at its line has its castout demanded and the request waits; a CLEAN
record at its line lets it ask for its grant, a read changing nothing, and a write making the record INVALID or
merging its bytes into it, by the write-hit policy. -/
def Obligations.ForwardingCheck : Prop :=
  ∀ (r : UpRequest) (s : State), r.wf = true → s.canPresent = true → s.mpu.port = [] → Quiet s →
    s.ls.sweeping = false → s.ls.claims = [] →
    ((s.classify r).1 = .pass ∨ ∃ i, (s.classify r).1 = .foreign i) →
    ((∀ l ∈ r.linesTouched, (s.line (indexOf l)).isAt l = false) →
      exec (.upstreamRequest r) s = .next { presentedAs s r .offered (some ⟨r.kind, 0⟩) with
        ls := { s.ls with
          claims := (if r.isWrite then r.linesTouched.map fun l => ⟨l, .forward, true, false⟩ else []) } }) ∧
    (r.crosses = false → ∀ tag band lanes, s.line (indexOf (r.first / 256)) = .held tag band lanes false →
      tag.line = r.first / 256 →
      ∃ t, exec (.upstreamRequest r) s = .next t ∧
        t.line (indexOf (r.first / 256)) = .held tag band lanes true ∧
        (∀ j, j ≠ indexOf (r.first / 256) → t.line j = s.line j) ∧
        t.mpu.intake = some { req := r, cls := (s.classify r).1, window := (s.classify r).2, stale := false
                              phase := .claims, answer := none } ∧
        t.ls.claims = [⟨r.first / 256, .forward, false, false⟩]) ∧
    (r.crosses = false → ∀ tag data, s.line (indexOf (r.first / 256)) = .clean tag data →
      tag.line = r.first / 256 →
      (r.kind = .read → exec (.upstreamRequest r) s = .next (presentedAs s r .offered (some ⟨.read, 0⟩))) ∧
      (∀ lanes, r.kind = .write lanes → s.cru.settings.writeHit = .invalidate →
        exec (.upstreamRequest r) s = .next { presentedAs s r .offered (some ⟨.write lanes, 0⟩) with
          ls := { s.ls with
            lines := put s.ls.lines (indexOf (r.first / 256)) .invalid
            claims := [⟨r.first / 256, .forward, true, false⟩] } }) ∧
      (∀ lanes, r.kind = .write lanes → s.cru.settings.writeHit = .update →
        exec (.upstreamRequest r) s = .next { presentedAs s r .offered (some ⟨.write lanes, 0⟩) with
          ls := { s.ls with
            lines := put s.ls.lines (indexOf (r.first / 256))
              (.clean tag (mergeBytes data (linePart r.first lanes (r.first / 256))))
            claims := [⟨r.first / 256, .forward, true, true⟩] } }))

/-- An INGEST write whose band is WAITING or pending, at each record it can meet. INVALID or CLEAN: the record becomes
HELD with the write's bytes and mask alone. HELD at the write's line for its own slot and generation: the write's
enabled bytes are laid over the record's. Both ways the write is completed OKAY at once and accounted: the held line
count (a newly held line alone raises it), the ingest beat count, the first-ingest stamp and the end-of-frame mark
of its generation, be it the current one, the successor of a closed one or the new one after COMPLETE, and the tag
deadline that the first write of an ARMED generation sets. HELD for another line, slot or generation: that record's
castout is demanded, and the write waits. FILLING or CASTING: the write waits. -/
def Obligations.IngestWritePosted : Prop :=
  ∀ (r : UpRequest) (s : State) (slot : SlotId) (w : Window) (g : Generation) (band : Option BandId),
    r.wf = true → s.canPresent = true → s.mpu.port = [] → Quiet s → s.ls.sweeping = false →
    s.ls.claims = [] → s.classify r = (.ingest slot, some w) →
    let answer : FtAnswer := match band with
      | some b => .waiting g b
      | none => .pendingBand g
    s.ftAnswer slot false (w.bandOfLine (r.first / 256)) = answer →
    ((s.frame slot).state = .resolved → (s.frame slot).allResolved = true) →
    let line := r.first / 256
    let i := indexOf line
    let lanes := linePart r.first r.kind.lanes line
    let posted (t : State) : Prop :=
      t.mpu.intake = none ∧ t.mpu.class3 = none ∧ t.ls.claims = [] ∧
      t.ports.ump = s.ports.ump ++ [⟨r.master, r.tag, .okay, []⟩] ∧ ∀ j, j ≠ i → t.line j = s.line j
    let waiting : Option Presented := some
      { req := r, cls := .ingest slot, window := some w, stale := false, phase := .claims, answer := some answer }
    let claim : Claim := ⟨line, .ingest, false, false⟩
    ((s.line i = .invalid ∨ ∃ tag data, s.line i = .clean tag data) →
      ∃ t, exec (.upstreamRequest r) s = .next t ∧ posted t ∧
        t.line i = .held ⟨line, slot, g⟩ band lanes false ∧ PostedAccount s t slot w r g 1) ∧
    (∀ b old demand, s.line i = .held ⟨line, slot, g⟩ b old demand →
      ∃ t merged, exec (.upstreamRequest r) s = .next t ∧ posted t ∧
        t.line i = .held ⟨line, slot, g⟩ b merged demand ∧
        (old.length = 256 → merged.length = 256 ∧ ∀ k, k < 256 → merged.getD k none =
          if (lanes.getD k none).isSome = true then lanes.getD k none else old.getD k none) ∧
        PostedAccount s t slot w r g 0) ∧
    (∀ tag b old demand, s.line i = .held tag b old demand → tag ≠ ⟨line, slot, g⟩ →
      exec (.upstreamRequest r) s = .next { s with
        mpu := { s.mpu with intake := waiting, class1 := s.mpu.class1 ++ joinsClass1 s i }
        ls := { s.ls with lines := put s.ls.lines i (.held tag b old true), claims := [claim] } }) ∧
    ((s.line i).isFilling = true ∨ (s.line i).isCasting = true →
      exec (.upstreamRequest r) s = .next { s with
        mpu := { s.mpu with intake := waiting }, ls := { s.ls with claims := [claim] } })

/-- An INGEST write whose band is RESOLVED, or of no generation, at each record it can meet. It is gained with the band's
gain list, or goes on as it is with no generation (log entry 35), and asks for its grant in class 3, the request keeping
its bytes as written: with no record at its line that record stays; a CLEAN one at its line of its own slot and
generation takes the gained bytes, or becomes INVALID when the write carries raw bytes, a sample inside the image of
which one byte is enabled (padding columns apart, log entry 22); and a CLEAN one of another generation becomes INVALID.
A record HELD at its line: of its own generation, the write is merged, completed OKAY and accounted; of another, the
castout is demanded and the write waits. FILLING or CASTING at its line: the write waits. -/
def Obligations.IngestWriteGained : Prop :=
  ∀ (r : UpRequest) (s : State) (slot : SlotId) (w : Window) (named : Option (Generation × BandId)) (out : Gained),
    r.wf = true → r.isWrite = true → s.canPresent = true → s.mpu.port = [] → Quiet s →
    s.ls.sweeping = false → s.ls.claims = [] → s.classify r = (.ingest slot, some w) →
    let line := r.first / 256
    let i := indexOf line
    let answer : FtAnswer := match named with
      | some (g, b) => .resolved g b
      | none => .noGeneration
    s.ftAnswer slot false (w.bandOfLine line) = answer →
    (named = none → out = ⟨r.kind.lanes, 0, false⟩) →
    (∀ g b, named = some (g, b) → ∃ u, s.gainSetting slot g b = some u ∧ out = u.gain r.first r.kind.lanes) →
    let presented (phase : Phase) : Option Presented := some
      { req := r, cls := .ingest slot, window := some w, stale := false, phase := phase, answer := some answer }
    let goesOn (lines : Vector LineRec 512) (updated : Bool) : State := { s with
      mpu := { s.mpu with intake := presented .offered, class3 := some ⟨.write out.lanes, out.clamped⟩ }
      ls := { s.ls with lines := lines, claims := [⟨line, .ingest, true, updated⟩] } }
    let own (tag : LineTag) : Prop := tag.slot = slot ∧ named.map Prod.fst = some tag.generation
    (named.isSome = true → (out.raw = true ↔ ∃ k, k < 8 * r.beats ∧ w.byteInRow r.first / 2 + k < w.width ∧
      (r.kind.lanes.getD (2 * k) none).isSome ≠ (r.kind.lanes.getD (2 * k + 1) none).isSome)) ∧
    ((s.line i).isAt line = false → exec (.upstreamRequest r) s = .next (goesOn s.ls.lines false)) ∧
    (∀ tag data, s.line i = .clean tag data → tag.line = line →
      (own tag → out.raw = false → exec (.upstreamRequest r) s =
        .next (goesOn (put s.ls.lines i (.clean tag (mergeBytes data (linePart r.first out.lanes line)))) true)) ∧
      (¬ own tag ∨ out.raw = true → exec (.upstreamRequest r) s = .next (goesOn (put s.ls.lines i .invalid) false))) ∧
    (∀ tag band old demand, s.line i = .held tag band old demand → tag.line = line →
      (own tag → (s.frame slot).held ≠ 0 → ∃ t merged, exec (.upstreamRequest r) s = .next t ∧
        t.mpu.intake = none ∧ t.mpu.class3 = none ∧ t.ls.claims = [] ∧
        t.ports.ump = s.ports.ump ++ [⟨r.master, r.tag, .okay, []⟩] ∧ (∀ j, j ≠ i → t.line j = s.line j) ∧
        t.line i = .held tag band merged demand ∧
        (old.length = 256 → merged.length = 256 ∧ ∀ k, k < 256 → merged.getD k none =
          (let lanes := linePart r.first r.kind.lanes line
           if (lanes.getD k none).isSome = true then lanes.getD k none else old.getD k none)) ∧
        (∀ j, j ≠ slot → t.slot j = s.slot j) ∧
        t.slot slot = { s.slot slot with frame := { s.frame slot with
          beats := min 16777215 ((s.frame slot).beats + r.beats)
          firstIngest := some ((s.frame slot).firstIngest.getD s.ssu.clock)
          eofSeen := (s.frame slot).eofSeen || decide (r.first ≤ w.lastImageByte ∧ w.lastImageByte ≤ r.last) } }) ∧
      (¬ own tag → exec (.upstreamRequest r) s = .next { s with
        mpu := { s.mpu with intake := presented .claims, class1 := s.mpu.class1 ++ joinsClass1 s i }
        ls := { s.ls with lines := put s.ls.lines i (.held tag band old true)
                          claims := [⟨line, .ingest, false, false⟩] } })) ∧
    ((s.line i).isAt line = true → (s.line i).isFilling = true ∨ (s.line i).isCasting = true →
      exec (.upstreamRequest r) s = .next { s with
        mpu := { s.mpu with intake := presented .claims }
        ls := { s.ls with claims := [⟨line, .ingest, false, false⟩] } })

/-- A presented EGRESS read enters the Egress Queue when a place is free: the Intake Stage is empty, EARLY_READ
is set on an ARMED, TAGGED or RESOLVED generation, and the read is the queue's tail with its quantities and its
need list fixed from the records of that moment, or, when the queue is empty after the entry, it has been
answered OKAY with its beats computed, and no read is lost. A read that needs no line is answered at once when
nothing is before it. The needs of a read, on different indices with no claim before them, are placed at the Line
Store in their order: a CLEAN record at the line serves its need, an INVALID one or a CLEAN one at another line
enters FILLING with its parts in class 2, a HELD one has its castout demanded, and what is not served waits; that the
demands join class 1 in the order of the needs is the model's choice (log entry 43), and so are the names of the reads
(log entry 29). With no place free the event cannot come about and changes nothing (log entry 2). -/
def Obligations.EgressReadEnters : Prop :=
  ∀ (s : State) (p : Presented) (slot : SlotId) (w : Window),
    s.mpu.intake = some p → p.cls = .egress slot → p.window = some w → p.phase = .queue →
    let fixed := s.fixRead p.req slot w
    (s.er.queue.length < 16 →
      ∃ t, exec .egressQueueEntry s = .next t ∧ t.mpu.intake = none ∧
        t.frame slot = { s.frame slot with
          flags := { (s.frame slot).flags with
            earlyRead := (s.frame slot).flags.earlyRead ||
              decide ((s.frame slot).state = .armed ∨ (s.frame slot).state = .tagged ∨
                (s.frame slot).state = .resolved) } } ∧
        (∀ j, j ≠ slot → t.slot j = s.slot j) ∧
        t.er.queue.length + t.ports.ump.length = s.er.queue.length + 1 + s.ports.ump.length ∧
        (t.er.queue = [] → ∃ cells, t.ports.ump.getLast? = some ⟨p.req.master, p.req.tag, .okay,
          fixed.setting.beats p.req.addr.toNat p.req.beats cells⟩) ∧
        (fixed.needs = [] → s.er.queue = [] → t.er.queue = [] ∧ t.ports.ump = s.ports.ump ++
          [⟨p.req.master, p.req.tag, .okay, fixed.setting.beats p.req.addr.toNat p.req.beats []⟩]) ∧
        (∀ e rest, fixed.needs = [] → s.er.queue = e :: rest → e.state = .gathering →
          t.er.queue = s.er.queue ++ [fixed] ∧ t.ports.ump = s.ports.ump) ∧
        (IdsOk s → s.ls.claims = [] → (∀ x, s.er.queue.head? = some x → x.state = .gathering) →
          (fixed.needs.map fun n => indexOf n.line).Nodup → NeedsPlaced s t fixed) ∧
        (t.er.queue ≠ [] → ∃ e, t.er.queue.getLast? = some e ∧ e.id = fixed.id ∧
          e.needs.map (fun n => (n.line, n.firstBeat)) = fixed.setting.needs p.req.first p.req.beats ∧ e.master = p.req.master ∧ e.tag = p.req.tag ∧
          e.addr = p.req.addr ∧ e.beats = p.req.beats ∧ e.slot = slot ∧
          e.generation = (s.frame slot).generation ∧ e.window = w ∧ e.source = (s.frame slot).magSource.1 ∧
          e.k = magnificationAt w.height (w.readRow p.req.first) (s.frame slot).magSource.2 ∧
          e.border = s.cru.settings.border ∧ e.fillValue = s.cru.settings.fillValue)) ∧
    (16 ≤ s.er.queue.length → exec .egressQueueEntry s = .next s)

/-! ### The memory path: grants -/

/-- The next grant: class 5 when the starvation count is 64, else the first waiting candidate of classes 1 to 4,
else class 5; and it takes the lowest-numbered FREE entry. -/
def Obligations.ArbiterOrder : Prop :=
  ∀ s : State,
    (∀ w rest, s.mpu.class5 = w :: rest → s.mpu.starvation = 64 → s.nextGrant = some (.report w)) ∧
    ((s.mpu.class5 = [] ∨ s.mpu.starvation ≠ 64) →
      (∀ i rest, s.mpu.class1 = i :: rest → s.nextGrant = some (.castout i)) ∧
      (∀ x rest, s.mpu.class1 = [] → s.mpu.class2 = x :: rest → s.nextGrant = some (.fill x)) ∧
      (∀ f, s.mpu.class1 = [] → s.mpu.class2 = [] → s.mpu.class3 = some f →
        s.nextGrant = some (.forward f)) ∧
      (∀ i : LineIdx, s.mpu.class1 = [] → s.mpu.class2 = [] → s.mpu.class3 = none →
        s.isBackground i = true → (∀ j : LineIdx, j < i → s.isBackground j = false) →
        s.nextGrant = some (.castout i))) ∧
    (s.mpu.class1 = [] → s.mpu.class2 = [] → s.mpu.class3 = none →
      (∀ i : LineIdx, s.isBackground i = false) →
      s.nextGrant = s.mpu.class5.head?.map .report) ∧
    (∀ e : DownTag, s.freeTag = some e ↔
      s.mpu.outstanding[e] = none ∧ ∀ f : DownTag, f < e → (s.mpu.outstanding[f]).isSome = true)

/-- The grant of the forwarded request: it is issued downstream with its address and beat count under the new
entry's tag, which becomes BUSY, and it is taken. The entry records the origin UPSTREAM: the request with its master
and upstream tag, its class, the lines of the CLEAN records it has updated, and, but for an INGEST write, the stale
mark of its presentation. A written-through INGEST write is accounted, its clamped count with it. A crossing request
raises ILLEGAL_SPAN exactly when one of its bytes lies in the control area or in the extent of an enabled committed
window; that this is decided at the grant is the model's reading (log entry 14), and addresses do not wrap (log
entry 15). -/
def Obligations.ForwardedGrantIssues : Prop :=
  ∀ (s : State) (p : Presented) (f : Forward) (e : DownTag),
    s.nextGrant = some (.forward f) → s.freeTag = some e → s.mpu.intake = some p →
    ∃ t, exec .forwardedGrant s = .next t ∧ t.mpu.intake = none ∧ t.mpu.class3 = none ∧
      t.ports.dmp = s.ports.dmp ++ [⟨e, p.req.first, p.req.beats, f.kind⟩] ∧
      (∀ x : DownTag, (t.mpu.outstanding[x]).isSome =
        ((s.mpu.outstanding[x]).isSome || decide (x = e))) ∧
      (let updated := (s.ls.claims.filter fun c => c.updated && (match c.kind with
        | .need _ _ _ _ => false
        | _ => true)).map Claim.line
       ∃ stale, t.mpu.outstanding[e] = some (.upstream p.req p.cls updated stale) ∧
        ((∀ i, p.cls ≠ .ingest i) → stale = p.stale)) ∧
      (∀ i w answer, p.cls = .ingest i → p.window = some w → p.answer = some answer → p.req.crosses = false →
        GrantAccounted s t i w p.req f.clamped answer) ∧
      ((∀ i, p.cls ≠ .ingest i) → t.slots = s.slots ∧
        (p.req.crosses = false ∨ ¬ TouchesPart s p.req → t.cru.events = s.cru.events) ∧
        (p.req.crosses = true → TouchesPart s p.req → s.cru.events.length < 16 →
          s.cru.settings.eventDisable.getLsbD 19 = false → t.cru.events = s.cru.events ++ [{
            event := .illegalSpan p.req.addr p.req.master p.req.tag p.req.beats
            overflow := s.cru.overflow, slot := none, stamp := s.clock }]))

/-- The grant of a castout: the record enters CASTING with its bytes gained by its band's gain list, a write of
16 beats is issued whose enables are the mask, and the clamped count is added. -/
def Obligations.CastoutGrantIssues : Prop :=
  ∀ (s : State) (i : LineIdx) (tag : LineTag) (b : BandId) (lanes : List Lane) (demand : Bool)
    (u : GainSetting) (e : DownTag),
    s.nextGrant = some (.castout i) → s.freeTag = some e → s.line i = .held tag (some b) lanes demand →
    s.gainSetting tag.slot tag.generation b = some u →
    exec .castoutGrant s = .next { s with
      mpu := { s.mpu with
        class1 := s.mpu.class1.erase i
        starvation := countedStarvation s
        outstanding := put s.mpu.outstanding e (some (.castout i)) }
      ls := { s.ls with
        lines := put s.ls.lines i (.casting tag (some b) (u.gain (tag.line * 256) lanes).lanes demand) }
      slots := put s.slots tag.slot { s.slot tag.slot with
        frame := { s.frame tag.slot with
          saturated := min 4294967295 ((s.frame tag.slot).saturated +
            (u.gain (tag.line * 256) lanes).clamped) } }
      ports := { s.ports with
        dmp := s.ports.dmp ++ [⟨e, tag.line * 256, 16, .write (u.gain (tag.line * 256) lanes).lanes⟩] } }

/-- The grant of a fill part: a read of its beats of the line is issued and recorded with origin FILL. -/
def Obligations.FillGrantIssues : Prop :=
  ∀ (s : State) (x : FillPart) (e : DownTag),
    s.nextGrant = some (.fill x) → s.freeTag = some e →
    exec .fillGrant s = .next { s with
      mpu := { s.mpu with
        class2 := s.mpu.class2.drop 1
        starvation := countedStarvation s
        outstanding := put s.mpu.outstanding e (some (.fill x)) }
      ports := { s.ports with
        dmp := s.ports.dmp ++ [⟨e, x.line * 256 + 16 * x.firstBeat, x.beats, .read⟩] } }

/-- The grants of class 5: the head of the Event Queue is written at ring base + 32 × P, and a half of the
captured snapshot at its address; the starvation count becomes 0. -/
def Obligations.ReportGrantsIssue : Prop :=
  ∀ (s : State) (e : DownTag), s.freeTag = some e →
    (∀ (ring : Ring) (head : EventRecord) (rest : List EventRecord),
      s.nextGrant = some (.report .event) → s.cru.settings.ring = some ring → s.cru.events = head :: rest →
      exec .eventRecordWriteGrant s = .next { s with
        mpu := { s.mpu with
          class5 := s.mpu.class5.drop 1
          starvation := 0
          outstanding := put s.mpu.outstanding e (some (.event s.cru.produce)) }
        cru := { s.cru with recordWrite := some false }
        ports := { s.ports with
          dmp := s.ports.dmp ++ [⟨e, ring.base + 32 * s.cru.produce, 2, .write (head.bytes.map some)⟩] } }) ∧
    (∀ (half : Fin 2) (n : Snapshot),
      s.nextGrant = some (.report (.snapshot half)) → s.cru.snapshot = some n →
      exec .snapshotWriteGrant s = .next { s with
        mpu := { s.mpu with
          class5 := s.mpu.class5.drop 1
          starvation := 0
          outstanding := put s.mpu.outstanding e (some (.snapshot half)) }
        ports := { s.ports with
          dmp := s.ports.dmp ++ [⟨e, n.addr + 256 * half.val, 16,
            .write (((n.bytes.drop (256 * half.val)).take 256).map some)⟩] } })

/-! ### The memory path: completions -/

/-- The completion of a forwarded request frees its entry and is returned upstream unchanged; an OKAY CONTROL
write's enabled bytes are copied into the shadow, and nothing else changes the shadow or the settings. An OKAY
TAG write whose slot has had no descriptor applied since has its enabled bytes that lie in the tag collected;
when all 64 are there the tag is decoded: a tag that fails a check keeps the marks and raises TAG_INVALID once in
a generation, and one that passes clears the marks and is taken by the frame record, or discarded during a drain
or a bypass entry sequence. A FAULT and a stale write change no slot. Stated for the slots with nothing at the
Intake Stage. -/
def Obligations.ForwardedCompletionReturned : Prop :=
  ∀ (s : State) (e : DownTag) (st : Status) (data : List Byte) (r : UpRequest) (c : Cls) (u : List Nat)
    (stale : Bool), s.mpu.outstanding[e] = some (.upstream r c u stale) →
    ∃ t, exec (.upstreamOriginCompletion e st data) s = .next t ∧
      s.ports.ump ++ [⟨r.master, r.tag, st, if r.isWrite then [] else data⟩] <+: t.ports.ump ∧
      (∀ x : DownTag, (t.mpu.outstanding[x]).isSome =
        ((s.mpu.outstanding[x]).isSome && decide (x ≠ e))) ∧
      (∀ lanes, st = .okay → c = .control → r.kind = .write lanes →
        t.cru.shadow = s.cru.shadow.writeLanes (r.first - s.controlBase) lanes) ∧
      (st = .fault ∨ c ≠ .control ∨ r.kind = .read →
        t.cru.shadow = s.cru.shadow ∧ t.cru.settings = s.cru.settings) ∧
      (∀ i : SlotId, c = .tag i → s.mpu.intake = none →
        let sl := s.slot i
        (∀ j, j ≠ i → t.slot j = s.slot j) ∧
        (st = .fault ∨ r.kind = .read ∨ stale = true ∨ sl.committed = none → t.slots = s.slots) ∧
        ∀ (lanes : List Lane) (w : Window), st = .okay → r.kind = .write lanes → stale = false →
          sl.committed = some w →
          let new (k : Fin 64) : Lane :=
            if r.first ≤ w.tagStart + k.val then lanes.getD (w.tagStart + k.val - r.first) none else none
          let got (k : Fin 64) : Lane := if (new k).isSome then new k else sl.collection[k]
          let bytes := (List.finRange 64).map fun k => (got k).getD 0
          ((∀ k, new k = none) → t.slots = s.slots) ∧
          ((∃ k, got k = none) → t.slot i = { sl with collection := (t.slot i).collection } ∧
            ∀ k : Fin 64, (t.slot i).collection[k] = got k) ∧
          ((∃ k, (new k).isSome = true) → (∀ k, (got k).isSome = true) →
            (∀ fault, decodeTag bytes = .error fault →
              t.slot i = { sl with collection := (t.slot i).collection, invalidReported := true } ∧
              (∀ k : Fin 64, (t.slot i).collection[k] = got k) ∧
              (sl.invalidReported = true → t.cru.events = s.cru.events) ∧
              (sl.invalidReported = false → s.cru.events.length < 16 →
                s.cru.settings.eventDisable.getLsbD 3 = false → t.cru.events = s.cru.events ++ [{
                  event := .tagInvalid fault (tagSequenceWord bytes) s.clock, overflow := s.cru.overflow
                  slot := some (i, sl.frame.generation), stamp := s.clock }])) ∧
            ∀ tag, decodeTag bytes = .ok tag →
              (t.slot i).collection = Vector.replicate 64 none ∧
              (s.cru.proc ≠ .none → t.slot i = { sl with collection := Vector.replicate 64 none }) ∧
              (s.cru.proc = .none → TagTaken s t i tag)))

/-- A completion whose tag names a FREE entry is discarded, under whatever row of the table it comes. The first
clause holds for a BUSY entry too: that a STALE_COMPLETION which names one changes nothing is the model's choice
(log entry 2). -/
def Obligations.FreeTagCompletionDiscarded : Prop :=
  ∀ (s : State) (e : DownTag) (st : Status) (data : List Byte),
    exec (.staleCompletion e st data) s = .next s ∧
    (s.mpu.outstanding[e] = none →
      exec (.upstreamOriginCompletion e st data) s = .next s ∧ exec (.castoutCompletion e st) s = .next s ∧
      exec (.fillCompletion e st data) s = .next s ∧ exec (.eventRecordWriteCompletion e st) s = .next s ∧
      exec (.snapshotWriteCompletion e st) s = .next s)

/-- The completion of a castout of a line that is not its generation's last: a full mask leaves the record CLEAN
with the gained bytes, a partial mask or a FAULT leaves it INVALID, the held line count falls by one, and a FAULT
raises WRITEBACK_FAULT. During a drain the completion is counted, with its fault; and the generation whose last
line it was ends, counted, without FRAME_DONE. -/
def Obligations.CastoutCompletes : Prop :=
  ∀ (s : State) (e : DownTag) (st : Status) (i : LineIdx) (tag : LineTag) (band : Option BandId)
    (lanes : List Lane) (demand : Bool), s.mpu.outstanding[e] = some (.castout i) →
    s.line i = .casting tag band lanes demand →
    (∃ t, exec (.castoutCompletion e st) s = .next t ∧
      ∀ x : DownTag, (t.mpu.outstanding[x]).isSome = ((s.mpu.outstanding[x]).isSome && decide (x ≠ e))) ∧
    (s.mpu.intake = none → s.er.queue = [] → s.ls.claims = [] →
      (s.frame tag.slot).generation = tag.generation → 1 < (s.frame tag.slot).held →
      ∃ t, exec (.castoutCompletion e st) s = .next t ∧
        t.line i = (if st = .okay ∧ lanes.all Option.isSome = true then
          .clean tag (lanes.map fun l => l.getD 0) else .invalid) ∧
        (∀ j, j ≠ i → t.line j = s.line j) ∧
        t.frame tag.slot = { s.frame tag.slot with held := (s.frame tag.slot).held - 1 } ∧
        (∀ j, j ≠ tag.slot → t.slot j = s.slot j) ∧
        (st = .fault → s.cru.events.length < 16 → s.cru.settings.eventDisable.getLsbD 17 = false →
          t.cru.events = s.cru.events ++ [{
            event := .writebackFault (tag.line * 256) band (lanes.countP Option.isSome) demand
            overflow := s.cru.overflow, slot := some (tag.slot, tag.generation), stamp := s.clock }]) ∧
        (st = .okay → t.cru.events = s.cru.events) ∧
        (∀ d, s.cru.proc = .drain d → t.cru.proc = .drain { d with
          castouts := d.castouts + 1, faulted := d.faulted + (if st = .fault then 1 else 0)
          waitFor := d.waitFor.erase e })) ∧
    (∀ d, s.cru.proc = .drain d → s.mpu.intake = none → s.er.queue = [] → s.ls.claims = [] →
      (s.frame tag.slot).generation = tag.generation → (s.frame tag.slot).held = 1 →
      (s.frame tag.slot).state = .resolved → (s.frame tag.slot).ended = false →
      (s.frame tag.slot).successor = none →
      ∃ t, exec (.castoutCompletion e st) s = .next t ∧
        t.frame tag.slot = { s.frame tag.slot with held := 0, ended := true } ∧
        t.cru.proc = .drain { d with
          generations := d.generations + 1, castouts := d.castouts + 1
          faulted := d.faulted + (if st = .fault then 1 else 0), waitFor := d.waitFor.erase e } ∧
        (st = .okay → t.cru.events = s.cru.events))

/-- A RESOLVED, closed generation whose last held line's castout completes enters COMPLETE: the Presented Set
takes its magnifications, SHORT and LONG are judged, and FRAME_DONE is raised. -/
def Obligations.GenerationCompletes : Prop :=
  ∀ (s : State) (e : DownTag) (i : LineIdx) (tag : LineTag) (band : Option BandId) (lanes : List Lane)
    (demand : Bool) (w : Window), s.mpu.outstanding[e] = some (.castout i) →
    s.line i = .casting tag band lanes demand → s.mpu.intake = none → s.er.queue = [] → s.ls.claims = [] →
    s.cru.proc = .none → (s.slot tag.slot).committed = some w → (s.slot tag.slot).pendingDesc = none →
    (s.frame tag.slot).generation = tag.generation → (s.frame tag.slot).held = 1 →
    (s.frame tag.slot).state = .resolved → (s.frame tag.slot).closed = true →
    (s.frame tag.slot).ended = false → (s.frame tag.slot).successor = none →
    (s.frame tag.slot).pendingTag = none → s.cru.events.length < 16 →
    s.cru.settings.eventDisable.getLsbD 1 = false →
    let expected := w.height * w.width * 2 / 16
    let beats := (s.frame tag.slot).beats
    let tolerance := s.cru.settings.tolerance
    ∃ t, exec (.castoutCompletion e .okay) s = .next t ∧
      t.frame tag.slot = { s.frame tag.slot with
        state := .complete
        held := 0
        presented := some (s.frame tag.slot).magnifications
        flags := { (s.frame tag.slot).flags with
          short := (s.frame tag.slot).flags.short || decide (beats + tolerance < expected)
          long := (s.frame tag.slot).flags.long || decide (expected + tolerance < beats) } } ∧
      ∃ r, t.cru.events = s.cru.events ++ [r] ∧ r.slot = some (tag.slot, tag.generation) ∧
        r.stamp = s.clock ∧ r.event = .frameDone (s.frame tag.slot).tagSequence (t.frame tag.slot).flags
          (s.frame tag.slot).area beats (s.frame tag.slot).saturated
          (mapTable (s.frame tag.slot).bands fun b => b.result.map BandResult.kind)

/-- The completion of a fill part stores its beats, OKAY or FAULT: while a part is outstanding the record stays FILLING;
at the last one it becomes CLEAN with the data, or, when a part has faulted, INVALID with FILL_FAULT raised once. A read
whose need waits on the fill has the need served at a CLEAN record, and is answered OKAY when it was its last; at a fault
the read is answered FAULT with zeros, and FILL_FAULT counts it. What data of another length than 16 bytes a beat leave
in the record is the model's reading, not the spec's (log entry 27). -/
def Obligations.FillCompletes : Prop :=
  ∀ (s : State) (e : DownTag) (st : Status) (data : List Byte) (x : FillPart) (tag : LineTag) (old : List Byte)
    (parts : Nat) (faulted : List FillPartKind), s.mpu.outstanding[e] = some (.fill x) →
    s.line (indexOf x.line) = .filling tag old parts faulted → s.mpu.intake = none →
    let new := overlay old (16 * x.firstBeat) (16 * x.beats) data
    let marks := if st = .okay then faulted else faulted ++ [x.kind]
    (s.er.queue = [] → s.ls.claims = [] → ∃ t, exec (.fillCompletion e st data) s = .next t ∧
      t.line (indexOf x.line) = (if 1 < parts then .filling tag new (parts - 1) marks
        else if marks = [] then .clean tag new else .invalid) ∧
      (∀ j, j ≠ indexOf x.line → t.line j = s.line j) ∧
      t.slots = s.slots ∧
      (∀ y : DownTag, (t.mpu.outstanding[y]).isSome = ((s.mpu.outstanding[y]).isSome && decide (y ≠ e))) ∧
      ((1 < parts ∨ marks = []) → t.cru.events = s.cru.events) ∧
      (parts ≤ 1 → marks ≠ [] → s.cru.events.length < 16 → s.cru.settings.eventDisable.getLsbD 18 = false →
        t.cru.events = s.cru.events ++ [{
          event := .fillFault (tag.line * 256) marks 0, overflow := s.cru.overflow
          slot := some (tag.slot, tag.generation), stamp := s.clock }])) ∧
    (∀ (r : EgressEntry) (i : SlotId) (g : Generation) (beat : Nat),
      s.er.queue = [r] → r.state = .gathering → tag.line = x.line →
      s.ls.claims = [⟨x.line, .need r.id i g beat, false, false⟩] →
      let cells := r.setting.taken r.addr.toNat r.beats x.line new
      let needs := r.needs.map fun n => if n.line = x.line then { n with taken := some cells } else n
      ∃ t, exec (.fillCompletion e st data) s = .next t ∧ t.slots = s.slots ∧
        (1 < parts → t.line (indexOf x.line) = .filling tag new (parts - 1) marks ∧ t.er = s.er ∧
          t.ls.claims = s.ls.claims ∧ t.ports.ump = s.ports.ump) ∧
        (parts ≤ 1 → marks = [] → t.line (indexOf x.line) = .clean tag new ∧ t.ls.claims = [] ∧
          (needs.all (fun n => n.taken.isSome) = true → t.er.queue = [] ∧ t.ports.ump = s.ports.ump ++
            [⟨r.master, r.tag, .okay, r.setting.beats r.addr.toNat r.beats
              (needs.flatMap fun n => n.taken.getD [])⟩]) ∧
          (needs.all (fun n => n.taken.isSome) = false → t.er.queue = [{ r with needs := needs }] ∧
            t.ports.ump = s.ports.ump)) ∧
        (parts ≤ 1 → marks ≠ [] → t.line (indexOf x.line) = .invalid ∧ t.ls.claims = [] ∧ t.er.queue = [] ∧
          t.ports.ump = s.ports.ump ++ [⟨r.master, r.tag, .fault, zeros (16 * r.beats)⟩] ∧
          (s.cru.events.length < 16 → s.cru.settings.eventDisable.getLsbD 18 = false →
            t.cru.events = s.cru.events ++ [{
              event := .fillFault (tag.line * 256) marks 1, overflow := s.cru.overflow
              slot := some (tag.slot, tag.generation), stamp := s.clock }])))

/-- The completion of an event record write: the record leaves the queue; an OKAY one advances P unless the ring
was set again or made NONE, a FAULT sets the overflow mark and, unless the ring was, makes it BROKEN. ATTN_N
follows. -/
def Obligations.RecordWriteCompletes : Prop :=
  ∀ (s : State) (e : DownTag) (st : Status) (position : Nat) (changed : Bool),
    s.mpu.outstanding[e] = some (.event position) → s.cru.recordWrite = some changed →
    s.mpu.intake = none → s.er.queue = [] →
    ∃ t, exec (.eventRecordWriteCompletion e st) s = .next t ∧
      t.cru.recordWrite = none ∧ t.cru.events = s.cru.events.drop 1 ∧
      t.cru.produce = (if st = .okay ∧ changed = false then (s.cru.produce + 1) % s.ringSize
        else s.cru.produce) ∧
      t.cru.ringState = (if st = .fault ∧ changed = false then .broken else s.cru.ringState) ∧
      t.cru.overflow = (s.cru.overflow || decide (st = .fault)) ∧
      t.pins.attnN = (t.cru.produce == t.consumed && t.cru.ringState != .broken) ∧
      t.cru.shadow = s.cru.shadow ∧ t.slots = s.slots ∧ t.ls = s.ls ∧ t.llc = s.llc ∧
      (∀ x : DownTag, (t.mpu.outstanding[x]).isSome = ((s.mpu.outstanding[x]).isSome && decide (x ≠ e)))

/-- The completion of a snapshot write: after the first the snapshot stays in flight; after the second
SNAPSHOT_DONE is raised with the address and the fault flag, and a repeated request starts a new snapshot. -/
def Obligations.SnapshotWriteCompletes : Prop :=
  ∀ (s : State) (e : DownTag) (st : Status) (half : Fin 2) (n : Snapshot),
    s.mpu.outstanding[e] = some (.snapshot half) → s.cru.snapshot = some n → s.mpu.intake = none →
    s.er.queue = [] →
    let fault := n.fault || decide (st = .fault)
    ∃ t, exec (.snapshotWriteCompletion e st) s = .next t ∧
      (∀ x : DownTag, (t.mpu.outstanding[x]).isSome = ((s.mpu.outstanding[x]).isSome && decide (x ≠ e))) ∧
      (n.completed = 0 → t.cru.snapshot = some { n with completed := 1, fault := fault } ∧
        t.cru.events = s.cru.events) ∧
      (1 ≤ n.completed → s.cru.events.length < 16 → s.cru.settings.eventDisable.getLsbD 20 = false →
        s.cru.events ++ [{ event := .snapshotDone n.addr fault, overflow := s.cru.overflow, slot := none
                           stamp := s.clock }] <+: t.cru.events) ∧
      (1 ≤ n.completed → s.cru.snapshotRepeat = false → t.cru.snapshot = none) ∧
      (1 ≤ n.completed → s.cru.snapshotRepeat = true → t.cru.snapshotRepeat = false ∧
        match s.cru.settings.snapshotAddr with
        | none => t.cru.snapshot = none
        | some a => ∃ bytes, t.cru.snapshot = some ⟨a, bytes, 0, false⟩)

/-! ### The control area -/

/-- A handed-over CONTROL write copies its enabled bytes into the shadow; beyond the header words it does nothing
else. While CONTROL writes are not handed over it changes nothing. -/
def Obligations.ControlWriteCopiesBytes : Prop :=
  ∀ (w : ControlBytes) (s : State), w.wf = true →
    (s.snoops = true → ∃ t, exec (.controlWrite w) s = .next t ∧
      t.cru.shadow = s.cru.shadow.writeLanes w.offset w.lanes) ∧
    (s.snoops = true → 16 ≤ w.offset → Quiet s → MemoriesOk s →
      exec (.controlWrite w) s = .next (shadowAfter s w.offset w.lanes)) ∧
    (s.snoops = false → exec (.controlWrite w) s = .next s)

/-- The checks of a commit are made in the order of the spec's table on the shadow with the write's bytes: settings,
ring, snapshot address, geometry, pitch, tag placement, reader set and overlaps, the lowest failing slot named; and a
commit that fails one raises COMMIT_REJECTED with the reason and the first offending slot, and changes nothing else
but the shadow. That addresses do not wrap (log entry 15), that a slot with its committed extent takes part in an
overlap (log entry 21) and that a region ending at 2^40 may pass or fail (log entry 24) are the model's. -/
def Obligations.CommitRejected : Prop :=
  ∀ (w : WordLanes) (s : State), coversWord w = true → s.snoops = true → s.mpu.intake = none →
    s.er.queue = [] →
    let verdict := (shadowAfter s 0 w.toList).commitFault
    CommitTable s (s.cru.shadow.writeLanes 0 w.toList) verdict ∧
    ∀ (reason : CommitFault) (slot : Option SlotId), verdict = some (reason, slot) →
      exec (.commit w) s = .next (((shadowAfter s 0 w.toList).raise (.commitRejected reason slot)).refreshReports)

/-- An accepted commit takes the shadow's global settings, sets the ring or makes it NONE, and applies each
changed descriptor at once to a slot that is FREE, COMPLETE, or ARMED with no held line and no successor, and
leaves it pending for any other slot. A slot that takes a DISABLED one becomes FREE and keeps its generation and
its bands, one that takes an ENABLED one begins a new ARMED generation, and both lose the Presented Set, the
collected tag bytes and the tag deadline. A slot whose descriptor does not change keeps all it has. With one
pending, the new one is compared with that: an equal one changes nothing, the committed one withdraws it, and any
other replaces it. COMMIT_APPLIED lists the slots by what became of their descriptors. That a FREE record keeps its
other fields too (log entry 26), and what counts as changed and that a slot with an equal pending descriptor stands in no
set (log entry 11), are the model's, and so is the reading that R186 leaves this as it is during a drain before step 4
(log entry 53). -/
def Obligations.CommitAccepted : Prop :=
  ∀ (w : WordLanes) (s : State), coversWord w = true → s.snoops = true → s.mpu.intake = none →
    s.er.queue = [] → (shadowAfter s 0 w.toList).commitFault = none →
    let m := s.cru.shadow.writeLanes 0 w.toList
    ∃ t, exec (.commit w) s = .next t ∧ t.cru.shadow = m ∧ t.cru.settings = shadowSettings m ∧
      (shadowRing m = none → t.cru.ringState = .none ∧ t.cru.produce = 0) ∧
      (∀ ring, shadowRing m = some ring → t.cru.ringState = .set ∧
        t.cru.produce = (if s.cru.ringState = .set ∧ s.cru.settings.ring = some ring then s.cru.produce
          else m.number 4 4 % ring.size)) ∧
      (∀ i : SlotId, (s.frame i).appliesAtOnce = true ↔
        ((s.frame i).state = .free ∨ (s.frame i).state = .complete ∨
          ((s.frame i).state = .armed ∧ (s.frame i).held = 0 ∧ (s.frame i).successor = none))) ∧
      (let changed (i : SlotId) : Bool := match (s.slot i).pendingDesc with
        | none => decide (shadowWindow m i ≠ (s.slot i).committed)
        | some p => decide (shadowWindow m i ≠ p ∧ shadowWindow m i ≠ (s.slot i).committed)
       let withdrawn (i : SlotId) : Bool := match (s.slot i).pendingDesc with
        | none => false
        | some p => decide (shadowWindow m i ≠ p ∧ shadowWindow m i = (s.slot i).committed)
       (∀ i : SlotId, (s.slot i).pendingDesc.isSome = true →
        (changed i = false → withdrawn i = false → t.slot i = s.slot i) ∧
        (withdrawn i = true → t.slot i = { s.slot i with pendingDesc := none }) ∧
        (changed i = true → (s.frame i).appliesAtOnce = false → t.slot i = { s.slot i with
          pendingDesc := some (shadowWindow m i), frame := { s.frame i with pendingTag := none } }) ∧
        (changed i = true → (s.frame i).appliesAtOnce = true →
          (t.slot i).committed = shadowWindow m i ∧ (t.slot i).pendingDesc = none)) ∧
       (s.cru.events.length < 16 → (shadowSettings m).eventDisable.getLsbD 14 = false →
        s.cru.events ++ [{
          event := .commitApplied
            (allSlots.filter fun i => changed i && (s.frame i).appliesAtOnce)
            (allSlots.filter fun i => changed i && !(s.frame i).appliesAtOnce) (allSlots.filter withdrawn)
          overflow := s.cru.overflow, slot := none, stamp := s.clock }] <+: t.cru.events)) ∧
      (∀ i : SlotId, (s.slot i).pendingDesc = none →
        ((s.frame i).appliesAtOnce = true → (t.slot i).committed = shadowWindow m i) ∧
        ((s.frame i).appliesAtOnce = false → (t.slot i).committed = (s.slot i).committed ∧
          (t.slot i).pendingDesc =
            (if shadowWindow m i = (s.slot i).committed then none else some (shadowWindow m i))) ∧
        (shadowWindow m i = (s.slot i).committed → t.slot i = s.slot i) ∧
        ((s.frame i).appliesAtOnce = true → shadowWindow m i ≠ (s.slot i).committed →
          (t.slot i).collection = Vector.replicate 64 none ∧ (t.slot i).tagDeadline = none ∧
          (t.frame i).presented = none ∧
          (shadowWindow m i = none → t.frame i = { s.frame i with state := .free, presented := none }) ∧
          ((shadowWindow m i).isSome = true →
            (t.frame i).state = .armed ∧ (t.frame i).generation = (s.frame i).generation + 1)))

/-- A handed-over consumed index word changes C, and ATTN_N with it, and nothing of the ring. -/
def Obligations.ConsumedIndexTaken : Prop :=
  ∀ (w : WordLanes) (s : State), s.snoops = true → s.mpu.intake = none → s.er.queue = [] →
    exec (.consumedIndex w) s = .next (shadowAfter s 4 w.toList).refreshReports ∧
    ∀ t, exec (.consumedIndex w) s = .next t →
      t.cru.produce = s.cru.produce ∧ t.cru.ringState = s.cru.ringState ∧
      (s.cru.ringState = .none → t.pins.attnN = (s.cru.produce == 0)) ∧
      (∀ ring, s.cru.settings.ring = some ring → s.cru.ringState = .set →
        t.pins.attnN = (s.cru.produce == (s.cru.shadow.writeLanes 4 w.toList).number 4 4 % ring.size)) ∧
      (s.cru.ringState = .broken → t.pins.attnN = false)

/-- A snapshot request is refused during a procedure or without an address; with no snapshot in flight it
captures the content and offers two writes, and with one it sets the repeat mark. -/
def Obligations.SnapshotRequestTaken : Prop :=
  ∀ (w : WordLanes) (s : State), coversWord w = true → s.snoops = true → s.mpu.intake = none →
    s.er.queue = [] →
    let m := shadowAfter s 8 w.toList
    let value := m.cru.shadow.number 8 4
    (∀ d, s.cru.proc = .drain d → exec (.snapshotRequest w) s =
      .next (m.raise (.commandRefused value .draining true)).refreshReports) ∧
    (∀ l, s.cru.proc = .bypassEntry l → exec (.snapshotRequest w) s =
      .next (m.raise (.commandRefused value .bypassEntry true)).refreshReports) ∧
    (s.cru.proc = .none → s.cru.settings.snapshotAddr = none → exec (.snapshotRequest w) s =
      .next (m.raise (.commandRefused value .noAddress true)).refreshReports) ∧
    (∀ a, s.cru.proc = .none → s.cru.settings.snapshotAddr = some a → s.cru.snapshot = none →
      ∃ t, exec (.snapshotRequest w) s = .next t ∧
        t.cru.snapshot = some ⟨a, m.refreshReports.snapshotBytes, 0, false⟩ ∧
        (∃ before, t.mpu.class5 = before ++ [.snapshot 0, .snapshot 1]) ∧ t.cru.events = s.cru.events) ∧
    (∀ a n, s.cru.proc = .none → s.cru.settings.snapshotAddr = some a → s.cru.snapshot = some n →
      exec (.snapshotRequest w) s = .next ({ m with
        cru := { m.cru with snapshotRepeat := true } }).refreshReports)

/-- The value NONE has no effect, and a value that names no command is refused with UNKNOWN. -/
def Obligations.NoneAndUnknownCommand : Prop :=
  ∀ s : State, s.snoops = true → MemoriesOk s → Quiet s →
    exec .none s = .next (shadowAfter s 12 (wordLanes 0)) ∧
    ∀ v : BitVec 32, 3 < v.toNat → exec (.unknownCommand v) s =
      .next ((shadowAfter s 12 (wordLanes v.toNat)).raise (.commandRefused v.toNat .unknown false)).refreshReports

/-- During a drain or a bypass entry sequence the commands DRAIN_RESTART, RELOAD_PROFILE and LINK_RESTART are
refused with COMMAND_REFUSED and have no other effect. -/
def Obligations.CommandsRefusedInProcedure : Prop :=
  ∀ (s : State) (reason : RefuseReason), s.snoops = true → MemoriesOk s → s.mpu.intake = none →
    s.er.queue = [] →
    ((∃ d, s.cru.proc = .drain d) ∧ reason = .draining ∨
      (∃ l, s.cru.proc = .bypassEntry l) ∧ reason = .bypassEntry) →
    exec .drainRestart s = .next
      ((shadowAfter s 12 (wordLanes 1)).raise (.commandRefused 1 reason false)).refreshReports ∧
    exec .reloadProfile s = .next
      ((shadowAfter s 12 (wordLanes 2)).raise (.commandRefused 2 reason false)).refreshReports ∧
    exec .linkRestart s = .next
      ((shadowAfter s 12 (wordLanes 3)).raise (.commandRefused 3 reason false)).refreshReports

/-- DRAIN_RESTART, accepted, starts the drain: presentation is withheld and cancelled, the Egress Queue is
emptied, no load is in progress, no tag deadline runs, and step 3 waits for the entries that are BUSY. Step 2
resolves the generations: the WAITING bands of a TAGGED one FORCED, all 8 of an ARMED one with a first-ingest
stamp UNTAGGED, without TAG_MISSING; a RESOLVED generation with no line held ends, and its successor is resolved
UNTAGGED in its turn; a slot with no work keeps its record. The counts for DRAIN_DONE begin: no castout yet, the
generations that end at step 2, the GATHERING reads abandoned (stated with nothing presented and every claim at a
record that is HELD, CASTING or FILLING), and whether a load in progress was aborted. -/
def Obligations.DrainStarts : Prop :=
  ∀ s : State, s.snoops = true → MemoriesOk s → s.cru.proc = .none → s.er.queue.length ≤ 16 →
    ∃ t, exec .drainRestart s = .next t ∧
      (∃ d, t.cru.proc = .drain d ∧ d.accepted = s.clock ∧ d.cancelled = s.mpu.intake.isSome ∧
        (∀ e : DownTag, e ∈ d.waitFor ↔ (s.mpu.outstanding[e]).isSome = true) ∧
        d.castouts = 0 ∧ d.faulted = 0 ∧ (d.loadAborted = true ↔ ∃ ld, s.pu.load = some ld ∧ ld.area.isSome = true) ∧
        d.generations = (allSlots.map fun i =>
          let f := s.frame i
          let work := (f.state = .tagged ∧ ∃ b : BandId, (f.bands[b]).result = none) ∨
            (f.state = .armed ∧ f.firstIngest.isSome = true) ∨ f.state = .resolved
          if work ∧ f.held = 0 ∧ f.ended = false then
            (match f.successor with
              | none => 1
              | some n => if n.held = 0 then 2 else 1)
          else 0).sum ∧
        (s.mpu.intake = none → (∀ c ∈ s.ls.claims, (s.line (indexOf c.line)).inWork = true) →
          d.reads = s.er.queue.countP fun x => x.state == .gathering)) ∧
      t.mpu.intake = none ∧ t.er.queue = [] ∧
      t.mpu.port = (match s.mpu.intake with
        | none => s.mpu.port
        | some p => p.req :: s.mpu.port) ∧
      t.cru.settings = s.cru.settings ∧ t.br = s.br ∧
      (∀ ld, t.pu.load = some ld → ld.area = none) ∧
      (∀ x ∈ t.cru.events.drop s.cru.events.length, ∀ a b c, x.event ≠ .tagMissing a b c) ∧
      ∀ i : SlotId, (t.slot i).tagDeadline = none ∧
        (let f := s.frame i
         let g := t.frame i
         let waits := f.state = .tagged ∧ ∃ b : BandId, (f.bands[b]).result = none
         let untagged := f.state = .armed ∧ f.firstIngest.isSome = true
         let work := waits ∨ untagged ∨ f.state = .resolved
         let stays := f.successor = none ∨ f.held ≠ 0
         (work → stays → g.state = .resolved ∧ g.generation = f.generation ∧ g.held = f.held ∧
           g.ended = (f.ended || decide (f.held = 0))) ∧
         (waits → stays → ∀ b : BandId,
           (g.bands[b]).time = (f.bands[b]).time ∧ (g.bands[b]).deadline = (f.bands[b]).deadline ∧
           ((f.bands[b]).result.isSome = true → (g.bands[b]).result = (f.bands[b]).result) ∧
           ((f.bands[b]).result = none → (g.bands[b]).result.map BandResult.kind = some .forced)) ∧
         (untagged → stays → ∀ b : BandId, (g.bands[b]).time = some s.clock ∧
           (g.bands[b]).deadline = some s.clock ∧ (g.bands[b]).result.map BandResult.kind = some .untagged) ∧
         (f.state = .resolved → stays → g.bands = f.bands) ∧
         (∀ n, work → f.held = 0 → f.ended = false → f.successor = some n →
           g.state = .resolved ∧ g.generation = f.generation + 1 ∧ g.held = n.held ∧ g.successor = none ∧
           g.pendingTag = none ∧ ∀ b : BandId, (g.bands[b]).result.map BandResult.kind = some .untagged) ∧
         (f.state = .free ∨ f.state = .complete ∨ (f.state = .armed ∧ f.firstIngest = none) → g = f))

/-- RELOAD_PROFILE, accepted: with no identified lens PROFILE_FAILED is raised with the reason LINK and nothing
else changes; with one, a load with that lens as its target is held. It starts at once in P0, or else in P1, when
that area is FREE or held by the load in progress that it supersedes, and is pending when neither is; a
superseded load raises PROFILE_FAILED with the reason SUPERSEDED. -/
def Obligations.ReloadTaken : Prop :=
  ∀ s : State, s.snoops = true → MemoriesOk s → s.cru.proc = .none → s.mpu.intake = none →
    s.er.queue = [] →
    (s.llc.identified = none → exec .reloadProfile s = .next
      ((shadowAfter s 12 (wordLanes 2)).raise (.profileFailed .link none none none none 0 0)).refreshReports) ∧
    (∀ l, s.llc.identified = some l →
      ∃ t ld, exec .reloadProfile s = .next t ∧ t.pu.load = some ld ∧ ld.target = l ∧ ld.requests = [] ∧
        ld.known = none ∧
        (s.pu.load = none → s.pu.p0.state = .free → ld.area = some .p0 ∧ t.pu.p0.state = .loading) ∧
        (s.pu.load = none → s.pu.p0.state ≠ .free → s.pu.p1.state ≠ .free → ld.area = none) ∧
        (let holds (a : AreaId) : Prop := ∃ old, s.pu.load = some old ∧ old.area = some a
         let begun (x : Area) : Area := { x with state := .loading, received := Vector.replicate 532 false }
         s.pu.load = none ∨ holds .p0 ∨ holds .p1 →
           (s.pu.p0.state = .free ∨ holds .p0 → ld.area = some .p0 ∧ t.pu.p0 = begun s.pu.p0 ∧
             (holds .p1 → t.pu.p1 = { s.pu.p1 with state := .free }) ∧ (¬ holds .p1 → t.pu.p1 = s.pu.p1)) ∧
           (¬ (s.pu.p0.state = .free ∨ holds .p0) → s.pu.p1.state = .free ∨ holds .p1 →
             ld.area = some .p1 ∧ t.pu.p1 = begun s.pu.p1 ∧ t.pu.p0 = s.pu.p0) ∧
           (¬ (s.pu.p0.state = .free ∨ holds .p0) → ¬ (s.pu.p1.state = .free ∨ holds .p1) →
             ld.area = none ∧ t.pu.p0 = s.pu.p0 ∧ t.pu.p1 = s.pu.p1)) ∧
        (∀ old, s.pu.load = some old → old.area = none → s.pu.p0.state ≠ .free → s.pu.p1.state ≠ .free →
          ld.area = none) ∧
        (∀ old, s.pu.load = some old → s.cru.events.length < 16 →
          s.cru.settings.eventDisable.getLsbD 10 = false →
          s.cru.events ++ [{
            event := .profileFailed .superseded old.area (some old.target) none old.known
              (s.blocksReceived old) 0
            overflow := s.cru.overflow, slot := none, stamp := s.clock }] <+: t.cru.events) ∧
        t.llc.modeTarget = .normal)

/-- LINK_RESTART, accepted: a link that is not DOWN enters DOWN with all that an entry to DOWN does, keeping the
identified lens: LINK_STATE is raised with RESTART and, from FAST, MODE_CHANGED after it, and the WAITING bands of
TAGGED generations resolve LENS_LOST; a link that is DOWN stays as it is. The model's readings, not the spec's: the
run count and the last good frame that LINK_STATE reports at RESTART, LINK_STATE before MODE_CHANGED, and the mode
target that MODE_CHANGED carries, which is evaluated last (log entry 16); MODE_CHANGED carries no frame sequence
(log entry 18). -/
def Obligations.LinkRestartTaken : Prop :=
  ∀ s : State, s.snoops = true → MemoriesOk s → s.cru.proc = .none →
    (s.llc.link = .down → Quiet s → exec .linkRestart s = .next (shadowAfter s 12 (wordLanes 3))) ∧
    (s.llc.link ≠ .down → ∃ t, exec .linkRestart s = .next t ∧
      t.llc = { s.llc with
        link := .down, expected := none, run := 0, acquire := 0, attempts := 0, outstanding := none
        deadline := none, linkMode := .normal, modeTarget := .normal, focusRef := none } ∧
      t.br.history = [] ∧
      t.br.lastKnown = (match s.br.history.getLast? with
        | some x => some x
        | none => s.br.lastKnown) ∧
      t.br.newestFocus = s.br.newestFocus ∧ t.br.newestIris = s.br.newestIris ∧
      (s.mpu.intake = none → s.er.queue = [] → t.pu.load = none) ∧
      (let changed : Event := .linkState s.llc.link .down .restart s.llc.run s.llc.lastGood none
       let dropped : Event := .modeChanged .fast .normal s.llc.modeTarget none
       (s.cru.events.length < 16 → s.cru.settings.eventDisable.getLsbD 7 = false →
         s.cru.events ++ [⟨changed, s.cru.overflow, none, s.clock⟩] <+: t.cru.events) ∧
       (s.llc.linkMode = .fast → s.cru.events.length < 15 →
         s.cru.settings.eventDisable.getLsbD 7 = false → s.cru.settings.eventDisable.getLsbD 11 = false →
         s.cru.events ++ [⟨changed, s.cru.overflow, none, s.clock⟩, ⟨dropped, false, none, s.clock⟩] <+:
           t.cru.events)) ∧
      (s.mpu.intake = none → ∀ i : SlotId,
        ((s.frame i).state ≠ .tagged → t.frame i = s.frame i) ∧
        ((s.frame i).state = .tagged → (∃ b : BandId, ((s.frame i).bands[b]).result = none) →
          (s.frame i).closed = false ∨ (s.frame i).held ≠ 0 →
          (t.frame i).state = .resolved ∧ (t.frame i).generation = (s.frame i).generation ∧
          (t.frame i).held = (s.frame i).held ∧
          ∀ b : BandId,
            ((t.frame i).bands[b]).time = ((s.frame i).bands[b]).time ∧
            ((t.frame i).bands[b]).deadline = ((s.frame i).bands[b]).deadline ∧
            (((s.frame i).bands[b]).result.isSome = true →
              ((t.frame i).bands[b]).result = ((s.frame i).bands[b]).result) ∧
            (((s.frame i).bands[b]).result = none →
              ((t.frame i).bands[b]).result.map BandResult.kind = some .lensLost))))

/-- Drain steps 4 and 5, when the work of step 3 has ended: the history, the Exposure Queue and the tag
collections are empty, every record is INVALID, each enabled slot whose descriptor stays begins a new ARMED
generation, and the drain is over; the configuration, the ring and the rest of the link are kept. Each pending
descriptor applies with a COMMIT_APPLIED of its own, from slot 0 to slot 7 (the order is the model's choice, log entry
46), and DRAIN_DONE follows with the stamp of its acceptance and the counts of its work. -/
def Obligations.DrainEnds : Prop :=
  ∀ (s : State) (d : Drain), s.cru.proc = .drain d → s.workEnded = true → s.pins.bypass = false →
    s.mpu.intake = none →
    ∃ t, exec .drainStep4 s = .next t ∧ t.cru.proc = .none ∧ t.br = { s.br with history := [] } ∧
      t.ssu = { s.ssu with exposures := [] } ∧ t.llc.focusRef = none ∧
      (∀ i : LineIdx, t.line i = .invalid) ∧
      (∀ i : SlotId, (t.slot i).collection = Vector.replicate 64 none ∧ (t.slot i).invalidReported = false ∧
        (t.slot i).pendingDesc = none ∧ (t.frame i).presented = none ∧
        ((s.slot i).pendingDesc = none → (t.slot i).committed = (s.slot i).committed ∧
          ((s.slot i).committed.isSome = true → (t.frame i).state = .armed ∧
            (t.frame i).generation = (s.frame i).generation + 1))) ∧
      t.cru.shadow = s.cru.shadow ∧ t.cru.settings = s.cru.settings ∧ t.cru.ringState = s.cru.ringState ∧
      t.cru.produce = s.cru.produce ∧ s.cru.events <+: t.cru.events ∧
      t.llc = { s.llc with modeTarget := t.llc.modeTarget, focusRef := none } ∧
      (∀ (i : SlotId) (x : Option Window), (s.slot i).pendingDesc = some x → (t.slot i).committed = x ∧
        (x.isSome = true → (t.frame i).state = .armed) ∧ (x = none → (t.frame i).state = .free)) ∧
      (let applied := allSlots.filter fun i => (s.slot i).pendingDesc.isSome
       let raised : List Event := (if s.cru.settings.eventDisable.getLsbD 14 = false then
          applied.map fun i => .commitApplied [i] [] [] else []) ++
        [.drainDone d.accepted d.cancelled d.generations d.castouts d.faulted d.reads d.loadAborted]
       s.cru.settings.eventDisable.getLsbD 21 = false → s.cru.events.length + raised.length ≤ 16 →
        s.cru.events ++ raised.zipIdx.map (fun (e, k) =>
          { event := e, overflow := s.cru.overflow && k == 0, slot := none, stamp := s.clock }) <+: t.cru.events)

/-! ### The lens link -/

/-- The frames of a link that is not yet READY. In DOWN a damaged frame changes nothing, and the first well-formed frame
takes the link to ACQUIRING, sets the expected sequence and the period deadline, and is answered. In ACQUIRING a good
frame raises the acquire count, and the eighth takes the link to IDENT and is answered with IDENT_REQ. In IDENT a good
frame with a reply to the outstanding attempt identifies the lens: LENS_IDENT, the match mark, the load it triggers,
keeps, supersedes or aborts, and READY. Any other good frame counts against the attempt: IDENT_REQ asks again when none
is outstanding, and the third attempt's sixteenth period takes the link back to ACQUIRING. The model's readings
and choices, not the spec's: the run count of 0 and the frame taken that LINK_STATE reports (log entry 16); the answer
IDENT_REQ to the very frame at which an attempt fails (log entry 19); and, at a frame of the other kind, LINK_STATE, and
at a reply LENS_IDENT, before MODE_CHANGED (log entry 39), on which rest the ACQUIRED clause with room for one record
and LENS_IDENT as the first record. -/
def Obligations.FirstLensFrame : Prop :=
  ∀ (s : State) (bytes : List Byte), s.pins.resetN = true →
    (s.llc.link = .down → parseLensFrame bytes = none → Quiet s → exec (.lensFrame bytes) s = .next s) ∧
    ∀ f, parseLensFrame bytes = some f →
      (s.llc.link = .down → s.llc.outstanding = none →
        ∃ t, exec (.lensFrame bytes) s = .next t ∧ t.llc.link = .acquiring ∧ t.llc.acquire = 1 ∧
          t.llc.run = 0 ∧ t.llc.expected = some (f.sequence + 1) ∧
          t.llc.deadline = some (s.ssu.clock + 384) ∧ t.llc.linkMode = f.kind ∧ t.br = s.br ∧
          t.ports.lml = s.ports.lml ++
            [if f.kind = .fast then .modeReq f.sequence .normal else .poll f.sequence]) ∧
      (s.llc.link = .acquiring → s.llc.expected = some f.sequence → s.llc.outstanding = none →
        s.llc.modeTarget = .normal → s.llc.acquire < 8 →
        ∃ t, exec (.lensFrame bytes) s = .next t ∧ GoodPeriod s t f ∧ t.br = s.br ∧
          t.llc.identified = s.llc.identified ∧ t.llc.linkMode = f.kind ∧
          (s.llc.acquire < 7 → t.llc.link = .acquiring ∧ t.llc.acquire = s.llc.acquire + 1 ∧
            t.ports.lml = s.ports.lml ++
              [if f.kind = .fast then .modeReq f.sequence .normal else .poll f.sequence] ∧
            (f.kind ≠ s.llc.linkMode →
              Raised s t 11 1 (.modeChanged s.llc.linkMode f.kind .normal (some f.sequence)))) ∧
          (s.llc.acquire = 7 → t.llc.link = .ident ∧ t.llc.attempts = 1 ∧ t.llc.outstanding = some 0 ∧
            t.ports.lml = s.ports.lml ++ [.identReq f.sequence] ∧
            Raised s t 7 1 (.linkState .acquiring .ident .acquired 0 (some f.sequence) none))) ∧
      (s.llc.link = .ident → s.llc.expected = some f.sequence →
        (∀ reply n, f.reply = some reply → s.llc.outstanding = some n →
          ∃ t, exec (.lensFrame bytes) s = .next t ∧ GoodPeriod s t f ∧ ReplyTaken s t f reply ∧
            (s.mpu.intake = none → PartSent s t f)) ∧
        (f.reply = none ∨ s.llc.outstanding = none →
          ∃ t, exec (.lensFrame bytes) s = .next t ∧ GoodPeriod s t f ∧ t.br = s.br ∧
            t.llc.identified = s.llc.identified ∧ t.llc.linkMode = f.kind ∧
            ((∀ n, s.llc.outstanding = some n → 16 ≤ n + 1) → s.llc.attempts < 3 →
              t.llc.link = .ident ∧ t.llc.attempts = s.llc.attempts + 1 ∧ t.llc.outstanding = some 0 ∧
              t.ports.lml = s.ports.lml ++ [.identReq f.sequence]) ∧
            (∀ n, s.llc.outstanding = some n → n + 1 < 16 →
              t.llc.link = .ident ∧ t.llc.attempts = s.llc.attempts ∧ t.llc.outstanding = some (n + 1) ∧
              (s.mpu.intake = none → PartSent s t f)) ∧
            (∀ n, s.llc.outstanding = some n → 16 ≤ n + 1 → 3 ≤ s.llc.attempts →
              t.llc.link = .acquiring ∧ t.llc.acquire = 0 ∧ t.llc.outstanding = none ∧
              Raised s t 7 2 (.linkState .ident .acquiring .identFail 0 (some f.sequence) none) ∧
              (s.mpu.intake = none → PartSent s t f))))

/-- The good frames of a link in READY or HOLDOVER, where HOLDOVER becomes READY first with LINK_STATE. With the
identified lens's check byte the samples, stamped back from the arrival, are taken one after the other: each that is
later than the newest enters the history; the link mode takes the frame's kind; a block reply is stored, its header
checked, and the profile validated and put in force, or failed, when its last block has come; and the frame is answered.
With another check byte the link goes to IDENT with LINK_STATE (MISMATCH) and IDENT_REQ, the samples and the payload are
discarded, and a load is aborted with the reason LINK. A failed load leaves the state of the other area, but for a
RETIRING one, which may become FREE: R104 never puts it beside a LOADING one. The run count and the last good frame in LINK_STATE are the
model's reading (log entry 16), and so is that a frame that makes a MISMATCH leaves the link mode (log entry 17). -/
def Obligations.ReadyFrameFeedsHistory : Prop :=
  ∀ (s : State) (bytes : List Byte) (f : LensFrame) (l : LensIdentity), s.pins.resetN = true →
    parseLensFrame bytes = some f → (s.llc.link = .ready ∧ s.llc.expected = some f.sequence) ∨ s.llc.link = .holdover →
    s.llc.identified = some l → s.llc.outstanding = none →
    (f.checkByte = l.id.setWidth 8 →
      ∃ t, exec (.lensFrame bytes) s = .next t ∧ t.llc.link = .ready ∧ GoodPeriod s t f ∧ t.llc.linkMode = f.kind ∧
        t.llc.identified = some l ∧
        t.br = (f.samples.zipIdx.map fun (x, i) =>
          { stamp := s.ssu.clock -
              BitVec.ofNat 32 (s.cru.settings.latency + (f.samples.length - 1 - i) * 64)
            focus := x.focus, iris := x.iris, focusValid := x.focusValid
            irisValid := x.irisValid : Sample }).foldl historyTakes s.br ∧
        (s.llc.link = .holdover → Raised s t 7 1 (.linkState .holdover .ready .recovered 0 (some f.sequence) none)) ∧
        (s.mpu.intake = none → PartSent s t f) ∧
        (f.payload = none → ∀ a, (t.area a).bytes = (s.area a).bytes) ∧
        (∀ block data ld a, f.payload = some (block, data) → s.pu.load = some ld → ld.area = some a →
          (s.area a).state = .loading → BlockTaken s t f ld a block data)) ∧
    (f.checkByte ≠ l.id.setWidth 8 →
      ∃ t, exec (.lensFrame bytes) s = .next t ∧ GoodPeriod s t f ∧ t.llc.link = .ident ∧ t.llc.attempts = 1 ∧
        t.llc.outstanding = some 0 ∧ t.llc.identified = some l ∧ t.llc.linkMode = s.llc.linkMode ∧
        t.llc.modeTarget = .normal ∧ t.br = s.br ∧ t.pu.load = none ∧
        (∀ a, (t.area a).bytes = (s.area a).bytes ∧ (t.area a).matchMark = (s.area a).matchMark) ∧
        t.ports.lml = s.ports.lml ++ [.identReq f.sequence] ∧
        (s.llc.link = .holdover → Raised s t 7 1 (.linkState .holdover .ready .recovered 0 (some f.sequence) none)) ∧
        Raised s t 7 3 (.linkState .ready .ident .mismatch 0 (some f.sequence) (some f.checkByte)) ∧
        ∀ ld, s.pu.load = some ld →
          (∀ a, ld.area = some a → (t.area a).state = .free) ∧
          Raised s t 10 6 (.profileFailed .link ld.area (some ld.target) none ld.known (s.blocksReceived ld) 0))

/-- Missing and bad periods. When the period deadline has been reached a missing period is counted and the deadline
moves on by 256; outside DOWN a damaged frame, or a well-formed one with a sequence gap in ACQUIRING, IDENT or READY,
counts a bad period and sets the deadline from its arrival. Either way the run count rises, READY becomes HOLDOVER at a
run of 4 and any state DOWN at 64, the identity attempt and the block requests count the period, and the third attempt
that fails takes the link to ACQUIRING. With the Stamp Clock at the deadline and a lens frame waiting, whose arrival
stamp it is, the deadline does not expire; that a frame waiting in the queue is the one that arrives at that stamp is
the model's reading (log entry 32). The model's readings and choices too, not the spec's: the run count and the last good
frame that LINK_STATE reports, and LINK_STATE before every other event at the entry to DOWN, on which the DETACH clause
rests (log entry 16); the change of link state before the delivery of the period, identity timeout first, on which rest
the LOSS, DETACH and IDENT_FAIL clauses with room for one record beside a block's fourth timeout (log entry 57); and the
period count of an UNSENT block request (log entry 52). Before the deadline is reached the event cannot come about and
nothing happens (log entry 2). -/
def Obligations.MissingPeriodCounted : Prop :=
  ∀ s : State,
    (∀ d, s.llc.deadline = some d → reached s.ssu.clock d = true →
      (s.ssu.clock ≠ d ∨ ∀ bytes, Instr.lensFrame bytes ∉ s.pending) →
      ∃ t, exec .missingPeriod s = .next t ∧
        BadPeriodCounted s t (d + 256) (s.llc.expected.map (fun q => q + 1))) ∧
    (∀ bytes, s.pins.resetN = true → s.llc.link ≠ .down → parseLensFrame bytes = none →
      ∃ t, exec (.lensFrame bytes) s = .next t ∧
        BadPeriodCounted s t (s.ssu.clock + 384) (s.llc.expected.map (fun q => q + 1))) ∧
    (∀ bytes f, s.pins.resetN = true → s.llc.link ∈ [LinkState.acquiring, .ident, .ready] →
      parseLensFrame bytes = some f → s.llc.expected ≠ some f.sequence →
      ∃ t, exec (.lensFrame bytes) s = .next t ∧
        BadPeriodCounted s t (s.ssu.clock + 384) (some (f.sequence + 1))) ∧
    (∀ bytes, s.llc.deadline = some s.ssu.clock → Instr.lensFrame bytes ∈ s.pending →
      exec .missingPeriod s = .next s) ∧
    ((∀ d, s.llc.deadline = some d → reached s.ssu.clock d = false) → exec .missingPeriod s = .next s)

/-- The expiry of a resolve deadline resolves a WAITING band of a TAGGED generation by what the Band Resolver
chooses at an expiry, which is the first row of the spec's table whose condition holds: NO_PROFILE with no usable
profile, EXACT with a sample on either side of the band time, OLD before the oldest sample, LATE with a history,
LENS_LOST with a last-known record, else NO_SAMPLE. A sample exactly 2^31 µs away counts on both sides (the model's
choice, log entry 51), and two samples in the wrong order give a focus between theirs (log entry 55). The result is
the identity with no source or no focus, else the clamped magnification of the
focus. LATE raises BAND_LATE, OLD and LENS_LOST OUT_OF_HISTORY, each kind once in a generation. A band that is
RESOLVED, a generation that is not TAGGED and a deadline not reached change nothing (log entry 2). Stated for a
generation with another band WAITING. -/
def Obligations.BandDeadlineExpires : Prop :=
  ∀ (s : State) (i : SlotId) (b : BandId), s.pins.resetN = true → Quiet s →
    ((s.frame i).state ≠ .tagged ∨ ((s.frame i).bands[b]).result.isSome = true ∨
        due s.ssu.clock ((s.frame i).bands[b]).deadline = false →
      exec (.resolveDeadlineExpiry i b) s = .next s) ∧
    ((s.frame i).state = .tagged → ((s.frame i).bands[b]).result = none →
      due s.ssu.clock ((s.frame i).bands[b]).deadline = true →
      (∃ c, c ≠ b ∧ ((s.frame i).bands[c]).result = none) →
      ∃ t kind src, exec (.resolveDeadlineExpiry i b) s = .next t ∧
        s.choose i ((s.frame i).bands[b]).time .expiry = some (kind, src) ∧
        ((t.frame i).bands[b]).result = some (s.bandResult i kind src).1 ∧
        ((t.frame i).bands[b]).time = ((s.frame i).bands[b]).time ∧
        (∀ c, c ≠ b → (t.frame i).bands[c] = (s.frame i).bands[c]) ∧ (t.frame i).state = .tagged ∧
        (t.frame i).generation = (s.frame i).generation ∧ (∀ j, j ≠ i → t.slot j = s.slot j) ∧ t.ls = s.ls ∧
        (∀ time, ((s.frame i).bands[b]).time = some time → ExpiryRow s i time kind src) ∧
        (∀ r, ((t.frame i).bands[b]).result = some r → ResultFrom s i kind src r) ∧
        (let band := (s.frame i).bands[b]
         let source := match src with
           | .one x => some x.stamp
           | _ => none
         let record (e : Event) : EventRecord :=
           { event := e, overflow := s.cru.overflow, slot := some (i, (s.frame i).generation), stamp := s.clock }
         (kind ∉ [ResKind.late, .old, .lensLost] → t.cru.events = s.cru.events) ∧
         (kind = .late → (s.slot i).reportedLate = true → t.cru.events = s.cru.events) ∧
         (kind = .old → (s.slot i).reportedOld = true → t.cru.events = s.cru.events) ∧
         (kind = .lensLost → (s.slot i).reportedLost = true → t.cru.events = s.cru.events) ∧
         (s.cru.events.length < 16 → s.cru.settings.eventDisable.getLsbD 5 = false →
           kind = .late → (s.slot i).reportedLate = false →
           t.cru.events = s.cru.events ++ [record (.bandLate kind b band.time band.deadline source)] ∧
             (t.slot i).reportedLate = true) ∧
         (s.cru.events.length < 16 → s.cru.settings.eventDisable.getLsbD 6 = false →
           (kind = .old ∧ (s.slot i).reportedOld = false) ∨
             (kind = .lensLost ∧ (s.slot i).reportedLost = false) →
           t.cru.events = s.cru.events ++ [record (.outOfHistory kind b band.time band.deadline source)])))

/-- The expiry of the tag deadline of an ARMED generation takes it through TAGGED, without a tag, to RESOLVED: all 8
bands are UNTAGGED with the deadline stamp as their time and their deadline, its HELD lines with band pending take
the band of their row, and TAG_MISSING is raised with the first-ingest stamp, the ingest beat count and the
end-of-frame mark. Its deadline is gone, and it keeps its successor while it holds a line. One that is closed and holds
no line goes on to COMPLETE. An expiry that has not come changes
nothing (log entry 2). -/
def Obligations.TagDeadlineExpires : Prop :=
  ∀ (s : State) (i : SlotId), s.pins.resetN = true → Quiet s →
    (∀ d, s.cru.proc = .none → (s.slot i).tagDeadline = some d → reached s.ssu.clock d = true →
      (s.frame i).state = .armed →
      let f := s.frame i
      let missing : EventRecord :=
        { event := .tagMissing f.firstIngest f.beats f.eofSeen, overflow := s.cru.overflow
          slot := some (i, f.generation), stamp := s.clock }
      ∃ t, exec (.tagDeadlineExpiry i) s = .next t ∧
        (f.closed = false ∨ f.held ≠ 0 ∨ f.successor = none → (t.slot i).tagDeadline = none) ∧
        (s.cru.events.length < 16 → s.cru.settings.eventDisable.getLsbD 2 = false →
          s.cru.events ++ [missing] <+: t.cru.events) ∧
        (∀ j, j ≠ i → t.slot j = s.slot j) ∧
        (f.closed = false ∨ f.held ≠ 0 → (t.frame i).state = .resolved ∧ (t.frame i).presented = f.presented ∧
          ∀ (x : LineIdx) (tag : LineTag) (lanes : List Lane) (demand : Bool) (w : Window),
            (s.slot i).committed = some w → s.line x = .held tag none lanes demand → tag.slot = i →
            tag.generation = f.generation → t.line x = .held tag (some (w.bandOfLine tag.line)) lanes demand) ∧
        (f.closed = true → f.held = 0 → f.ended = false → f.successor = none → f.pendingTag = none →
          (s.slot i).pendingDesc = none →
          (t.frame i).state = .complete ∧ (t.frame i).presented.isSome = true) ∧
        (f.closed = false ∨ f.held ≠ 0 ∨ (f.ended = false ∧ f.successor = none ∧ f.pendingTag = none ∧
          (s.slot i).pendingDesc = none) →
          (t.frame i).tagSequence = f.tagSequence ∧ (t.frame i).generation = f.generation ∧
          (t.frame i).held = f.held ∧ (t.frame i).beats = f.beats ∧ (t.frame i).eofSeen = f.eofSeen ∧
          (t.frame i).successor = f.successor ∧
          ∀ b : BandId, ((t.frame i).bands[b]).time = some d ∧ ((t.frame i).bands[b]).deadline = some d ∧
            ((t.frame i).bands[b]).result.map BandResult.kind = some .untagged)) ∧
    ((∀ d, (s.slot i).tagDeadline = some d → reached s.ssu.clock d = false ∨ (s.frame i).state ≠ .armed) →
      exec (.tagDeadlineExpiry i) s = .next s)

/-! ### The functions the rules give -/

/-- Band b is the image rows from floor(b × H ÷ 8) to floor((b + 1) × H ÷ 8) − 1, every image row lies in exactly
one band, every band has at least 32 rows when H is at least 256, and the mid row is the floor of the mean of
the first and last rows; with the mid rows of the spec's table. -/
def Obligations.BandsPartitionRows : Prop :=
  (∀ (h y : Nat) (b : BandId), 256 ≤ h → y < h →
    (bandOfRow h y = b ↔ b.val * h / 8 ≤ y ∧ y ≤ (b.val + 1) * h / 8 - 1)) ∧
  (∀ (h : Nat) (b : BandId), 256 ≤ h →
    32 ≤ (b.val + 1) * h / 8 - b.val * h / 8 ∧
    midRow h b = (b.val * h / 8 + ((b.val + 1) * h / 8 - 1)) / 2) ∧
  allBands.map (midRow 2160) = [134, 404, 674, 944, 1214, 1484, 1754, 2024] ∧
  allBands.map (midRow 1080) = [67, 202, 337, 472, 607, 742, 877, 1012] ∧
  allBands.map (midRow 3000) = [187, 562, 937, 1312, 1687, 2062, 2437, 2812] ∧
  (∀ y, 270 ≤ y → y ≤ 540 → bandOfRow 2164 y = 1) ∧ (∀ y, 541 ≤ y → y ≤ 810 → bandOfRow 2164 y = 2)

/-- When a tag is applied, the entry whose strobe count equals the tag's sequence and every older one leave the
Exposure Queue, those after it stay in order, and the exposure start is the entry's stamp plus the strobe
offset modulo 2^32, however old the entry is. -/
def Obligations.StrobeMatch : Prop :=
  ∀ (s : State) (slot : SlotId) (tag : FrameTag) (decodeStamp : Stamp) (height : Nat)
    (older newer : List Strobe) (e : Strobe), s.ssu.exposures = older ++ e :: newer →
    (∀ x ∈ older, x.count ≠ tag.sequence) → e.count = tag.sequence →
    s.exposureStart slot tag decodeStamp height =
      (BitVec.ofInt 32 (e.stamp.toNat + tag.strobeOffset),
        { s with ssu := { s.ssu with exposures := newer } })

/-- The zone position is the largest whole number q from 0 to 3840 with q² × (W² + H²) ≤ 4 × 3840² × (dx² + dy²);
it is 0 at the optical centre and 3840 at the half-diagonal and beyond; its zone is from 0 to 15 and its fraction
from 0 to 255. -/
def Obligations.ZonePosition : Prop :=
  ∀ (w : Window) (cx cy : Int) (x y : Nat), 0 < w.width → 0 < w.height →
    let q := zonePosition w (distance2 (cx, cy) x y)
    let fits (n : Nat) : Prop := ((n * n * (w.width * w.width + w.height * w.height) : Nat) : Int) ≤
      4 * 3840 * 3840 * (((x : Int) - cx) * ((x : Int) - cx) + ((y : Int) - cy) * ((y : Int) - cy))
    q ≤ 3840 ∧ fits q ∧ (∀ n, n ≤ 3840 → fits n → n ≤ q) ∧ ((x : Int) = cx → (y : Int) = cy → q = 0) ∧
      (((w.width * w.width + w.height * w.height : Nat) : Int) ≤
        4 * (((x : Int) - cx) * ((x : Int) - cx) + ((y : Int) - cy) * ((y : Int) - cy)) → q = 3840) ∧
      q / 256 ≤ 15 ∧ q - 256 * (q / 256) ≤ 255

/-- The gain of a channel at a zone position: zone 15's own gain in zone 15, else the gain interpolated to the
next zone, rounded to nearest with half upward; the result lies between the two and is from 0 to 65535. -/
def Obligations.ZoneGain : Prop :=
  ∀ (gains : GainList) (q c : Nat), q ≤ 3840 → c < 4 →
    let z := q / 256
    let f := q - 256 * z
    let here : Int := zoneGain gains z c
    let next : Int := zoneGain gains (z + 1) c
    gainAt gains q c ≤ 65535 ∧ (z = 15 → (gainAt gains q c : Int) = here) ∧
    (z < 15 → 256 * here + (next - here) * f - 128 < 256 * (gainAt gains q c : Int) ∧
      256 * (gainAt gains q c : Int) ≤ 256 * here + (next - here) * f + 128 ∧
      min here next ≤ (gainAt gains q c : Int) ∧ (gainAt gains q c : Int) ≤ max here next)

/-- The magnification of a row: the outer band's at or beyond its mid row, and between two mid rows the value
interpolated and rounded to nearest with half upward, which lies between the two; so it is within 52429 to 81920
when the eight are, and 65536 on every row when they are. -/
def Obligations.RowMagnification : Prop :=
  ∀ (h y : Nat) (mags : Vector Nat 8), 256 ≤ h →
    (y ≤ midRow h 0 → magnificationAt h y mags = mags[0]) ∧
    (midRow h 7 ≤ y → magnificationAt h y mags = mags[7]) ∧
    (∀ j : Fin 7, midRow h j.castSucc ≤ y → y < midRow h j.succ →
      let here : Int := (mags[j.castSucc] : Nat)
      let next : Int := (mags[j.succ] : Nat)
      let step : Int := (midRow h j.succ - midRow h j.castSucc : Nat)
      let offset : Int := (y - midRow h j.castSucc : Nat)
      let k : Int := magnificationAt h y mags
      2 * (here * step + (next - here) * offset) - step < 2 * k * step ∧
        2 * k * step ≤ 2 * (here * step + (next - here) * offset) + step ∧
        min here next ≤ k ∧ k ≤ max here next) ∧
    ((∀ b : Fin 8, 52429 ≤ mags[b] ∧ mags[b] ≤ 81920) →
      52429 ≤ magnificationAt h y mags ∧ magnificationAt h y mags ≤ 81920) ∧
    ((∀ b : Fin 8, mags[b] = 65536) → magnificationAt h y mags = 65536)

/-- The source coordinate is 256 × c + (v − c) × 16,777,216 ÷ k rounded to nearest, half upward; the lower neighbour
is the largest whole number of the sample's parity whose 256-fold is at most it, and its weight is from 0 to 511.
The four neighbours of an output sample carry the products of the weights of the two axes, whose sum is 262,144;
one whose weight is 0 is not needed. -/
def Obligations.SourcePosition : Prop :=
  (∀ (centre v k : Nat), 0 < k →
    let exact : Int := ((v : Int) - centre) * 16777216
    let src : Int := source256 centre v k
    2 * exact - k < 2 * k * (src - 256 * centre) ∧ 2 * k * (src - 256 * centre) ≤ 2 * exact + k ∧
    ∀ parity : Nat, parity < 2 →
      let a := lowerNeighbour src parity
      (a - parity) % 2 = 0 ∧ 256 * a ≤ src ∧ src - 256 * a ≤ 511 ∧
        (∀ m : Int, (m - parity) % 2 = 0 → 256 * m ≤ src → m ≤ a) ∧
        (src = 256 * a → neighbours src parity = [(a, 512)]) ∧
        (256 * a < src → neighbours src parity =
          [(a, (512 - (src - 256 * a)).toNat), (a + 2, (src - 256 * a).toNat)])) ∧
  ∀ (u : ReadSetting) (x y : Nat), 0 < u.k →
    let xs := source256 u.window.resamplingCentre.1 x u.k
    let ys := source256 u.window.resamplingCentre.2 y u.k
    let xa := lowerNeighbour xs (x % 2)
    let ya := lowerNeighbour ys (y % 2)
    let wx := (xs - 256 * xa).toNat
    let wy := (ys - 256 * ya).toNat
    let four : List (Int × Int × Nat) :=
      [(xa, ya, (512 - wx) * (512 - wy)), (xa + 2, ya, wx * (512 - wy)),
       (xa, ya + 2, (512 - wx) * wy), (xa + 2, ya + 2, wx * wy)]
    u.neighboursOf x y = (four.filter fun n => n.2.2 ≠ 0).map (fun n =>
      (u.window.neighbourSource u.border u.fillValue (x % 2) (y % 2) n.1 n.2.1, n.2.2)) ∧
    (four.map fun n => n.2.2).sum = 262144

end
end

