-- ==== Sys2Proof/Laws/Memory.lean ====
section
/-! SUPPORT. Addressed memory and tables: what a read gives after a write, the canonical form, and the
entries of a changed table. -/

namespace Sys2Proof.Machine

/-! ### Tables -/

@[simp] theorem put_getElem {α : Type} {n : Nat} (v : Vector α n) (i : Fin n) (x : α) (j : Nat) (h : j < n) :
    (put v i x)[j] = if i.val = j then x else v[j] := by
  simp [put, Vector.getElem_set]

theorem put_get {α : Type} {n : Nat} (v : Vector α n) (i j : Fin n) (x : α) :
    (put v i x)[j] = if i = j then x else v[j] := by
  simp [Fin.ext_iff]

theorem put_self {α : Type} {n : Nat} (v : Vector α n) (i : Fin n) (x : α) : (put v i x)[i] = x := by
  simp

theorem put_other {α : Type} {n : Nat} (v : Vector α n) {i j : Fin n} (h : i ≠ j) (x : α) :
    (put v i x)[j] = v[j] := by
  rw [put_get, if_neg h]

@[simp] theorem mapTable_getElem {α β : Type} {n : Nat} (v : Vector α n) (f : α → β) (j : Nat) (h : j < n) :
    (mapTable v f)[j] = f v[j] := by
  simp [mapTable]

theorem mapTable_get {α β : Type} {n : Nat} (v : Vector α n) (f : α → β) (i : Fin n) :
    (mapTable v f)[i] = f v[i] := by
  simp

/-! ### Reading after writing -/

theorem Memory.read_write (m : Memory) (h : Memory.wf m) (a b : Nat) (v : Byte) :
    (m.write a v).read b = if b = a then v else m.read b := by
  induction m with
  | nil =>
    simp only [Memory.write]
    by_cases hv : v = 0
    · subst hv; by_cases e : b = a <;> simp [Memory.read, e]
    · rw [if_neg hv]; by_cases e : b = a
      · subst e; simp [Memory.read]
      · simp [Memory.read, e, eq_comm (a := a)]
  | cons c rest ih =>
    obtain ⟨k, x⟩ := c
    have hp := h.1
    rw [List.pairwise_cons] at hp
    have hrest : Memory.wf rest := ⟨hp.2, fun c hc => h.2 c (List.mem_cons_of_mem _ hc)⟩
    have low : ∀ (r : Memory) (y : Nat), (∀ c ∈ r, y < c.1) → r.read y = 0 := by
      intro r y hr
      induction r with
      | nil => rfl
      | cons d r ih' =>
        have h1 := hr d (List.mem_cons_self ..)
        simp only [Memory.read]
        rw [if_neg (by omega)]
        exact ih' fun c hc => hr c (List.mem_cons_of_mem _ hc)
    simp only [Memory.write]
    split
    · next hlt =>
      split
      · next hv =>
        subst hv
        by_cases e : b = a
        · subst e
          simp only [if_pos]
          refine low _ _ ?_
          intro c hc
          rcases List.mem_cons.mp hc with rfl | hc
          · exact hlt
          · have := hp.1 c hc; simp only at this; omega
        · simp [e]
      · by_cases e : b = a
        · subst e; simp [Memory.read]
        · simp [Memory.read, e, eq_comm (a := a)]
    · split
      · next hnlt he =>
        subst he
        split
        · next hv =>
          subst hv
          by_cases e : b = a
          · subst e
            simp only [if_pos]
            exact low _ _ fun c hc => hp.1 c hc
          · simp [Memory.read, e, eq_comm (a := a)]
        · by_cases e : b = a
          · subst e; simp [Memory.read]
          · simp [Memory.read, e, eq_comm (a := a)]
      · next hnlt hne =>
        simp only [Memory.read]
        by_cases e : b = a
        · subst e
          rw [if_neg (by omega), ih hrest, if_pos rfl, if_pos rfl]
        · by_cases e' : k = b
          · simp [e', e]
          · rw [if_neg e', ih hrest, if_neg e, if_neg e', if_neg e]

/-! ### The canonical form -/

theorem Memory.wf_nil : Memory.wf [] := by simp [Memory.wf]

/-- Every address listed after a write was listed before it or is the one written. -/
theorem Memory.mem_write {m : Memory} {a : Nat} {v : Byte} {c : Host.Cell} (h : c ∈ m.write a v) :
    c ∈ m ∨ (c = (a, v) ∧ v ≠ 0) := by
  induction m with
  | nil =>
    simp only [Memory.write] at h
    split at h <;> simp_all
  | cons d rest ih =>
    obtain ⟨k, x⟩ := d
    simp only [Memory.write] at h
    split at h
    · split at h
      · exact .inl h
      · rcases List.mem_cons.mp h with rfl | h
        · exact .inr ⟨rfl, by assumption⟩
        · exact .inl h
    · split at h
      · split at h
        · exact .inl (List.mem_cons_of_mem _ h)
        · rcases List.mem_cons.mp h with rfl | h
          · exact .inr ⟨rfl, by assumption⟩
          · exact .inl (List.mem_cons_of_mem _ h)
      · rcases List.mem_cons.mp h with rfl | h
        · exact .inl (List.mem_cons_self ..)
        · rcases ih h with h | h
          · exact .inl (List.mem_cons_of_mem _ h)
          · exact .inr h

/-- A write keeps the canonical form. -/
theorem Memory.wf_write {m : Memory} (h : Memory.wf m) (a : Nat) (v : Byte) : Memory.wf (m.write a v) := by
  refine ⟨?_, fun c hc => ?_⟩
  · induction m with
    | nil => simp only [Memory.write]; split <;> simp
    | cons d rest ih =>
      obtain ⟨k, x⟩ := d
      have hp := h.1
      rw [List.pairwise_cons] at hp
      have hrest : Memory.wf rest := ⟨hp.2, fun c hc => h.2 c (List.mem_cons_of_mem _ hc)⟩
      simp only [Memory.write]
      split
      · next hlt =>
        split
        · exact h.1
        · refine List.pairwise_cons.mpr ⟨?_, h.1⟩
          intro c hc
          rcases List.mem_cons.mp hc with rfl | hc
          · exact hlt
          · have := hp.1 c hc; simp only at this ⊢; omega
      · split
        · next he =>
          split
          · exact hp.2
          · refine List.pairwise_cons.mpr ⟨?_, hp.2⟩
            intro c hc
            have := hp.1 c hc; simp only at this ⊢; omega
        · next hnlt hne =>
          refine List.pairwise_cons.mpr ⟨?_, ih hrest⟩
          intro c hc
          rcases Memory.mem_write hc with hc | ⟨rfl, _⟩
          · exact hp.1 c hc
          · simp only; omega
  · rcases Memory.mem_write hc with hc | ⟨rfl, hv⟩
    · exact h.2 c hc
    · exact hv

/-- Writing lanes keeps the canonical form. -/
theorem Memory.wf_writeLanes {m : Memory} (h : Memory.wf m) (a : Nat) (l : List Lane) :
    Memory.wf (m.writeLanes a l) := by
  induction l generalizing m a with
  | nil => exact h
  | cons x l ih =>
    cases x with
    | none => exact ih h _
    | some b => exact ih (Memory.wf_write h a b) _

/-- A byte after a write of lanes: the lane on it when its enable is set, else the byte before (R172). -/
theorem Memory.read_writeLanes {m : Memory} (h : Memory.wf m) (a b : Nat) (l : List Lane) :
    (m.writeLanes a l).read b = if a ≤ b then (l.getD (b - a) none).getD (m.read b) else m.read b := by
  induction l generalizing m a with
  | nil => simp [Memory.writeLanes]
  | cons x l ih =>
    have step : ∀ m' : Memory, Memory.wf m' → (∀ b, b ≠ a → m'.read b = m.read b) →
        m'.read a = x.getD (m.read a) →
        (m'.writeLanes (a + 1) l).read b =
          if a ≤ b then (((x :: l).getD (b - a) none).getD (m.read b)) else m.read b := by
      intro m' hw ho ha
      rw [ih hw]
      rcases Nat.lt_trichotomy b a with hb | rfl | hb
      · rw [if_neg (by omega), if_neg (by omega), ho b (by omega)]
      · rw [if_neg (by omega), if_pos (Nat.le_refl _), ha]; simp
      · obtain ⟨n, rfl⟩ : ∃ n, b = a + 1 + n := ⟨b - (a + 1), by omega⟩
        rw [if_pos (by omega), if_pos (by omega), ho _ (by omega),
          show a + 1 + n - a = n + 1 by omega, show a + 1 + n - (a + 1) = n by omega]
        simp
    cases x with
    | none => exact step m h (fun _ _ => rfl) rfl
    | some v =>
      refine step (m.write a v) (Memory.wf_write h a v) (fun b hb => ?_) ?_
      · rw [Memory.read_write m h, if_neg hb]
      · rw [Memory.read_write m h, if_pos rfl]; rfl

/-- A number in memory depends on its own bytes alone. -/
theorem Memory.number_agree {m n : Memory} (off k : Nat)
    (h : ∀ a, off ≤ a → a < off + k → m.read a = n.read a) : m.number off k = n.number off k := by
  unfold Memory.number
  induction k generalizing off with
  | zero => rfl
  | succ k ih =>
    simp only [readLE]
    rw [h off (by omega) (by omega), ih (off + 1) (fun a h1 h2 => h a (by omega) (by omega))]

end Sys2Proof.Machine
end

