-- ==== Sys2Proof/Laws/State.lean ====
section
/-! SUPPORT. What each unconditional update of the state leaves and what it sets, field by field: one
lemma per field per update, each true by `rfl`, so that no proof unfolds a record update. -/

namespace Sys2Proof.Machine

variable (s : State)


/-! ### `State.modSlot` -/

@[simp] theorem State.modSlot_pending (i : SlotId) (f : Slot → Slot) : (s.modSlot i f).pending = s.pending := rfl
@[simp] theorem State.modSlot_pins (i : SlotId) (f : Slot → Slot) : (s.modSlot i f).pins = s.pins := rfl
@[simp] theorem State.modSlot_ports (i : SlotId) (f : Slot → Slot) : (s.modSlot i f).ports = s.ports := rfl
@[simp] theorem State.modSlot_mpu (i : SlotId) (f : Slot → Slot) : (s.modSlot i f).mpu = s.mpu := rfl
@[simp] theorem State.modSlot_slots (i : SlotId) (f : Slot → Slot) :
    (s.modSlot i f).slots = put s.slots i (f (s.slot i)) := rfl
@[simp] theorem State.modSlot_ssu (i : SlotId) (f : Slot → Slot) : (s.modSlot i f).ssu = s.ssu := rfl
@[simp] theorem State.modSlot_llc (i : SlotId) (f : Slot → Slot) : (s.modSlot i f).llc = s.llc := rfl
@[simp] theorem State.modSlot_br (i : SlotId) (f : Slot → Slot) : (s.modSlot i f).br = s.br := rfl
@[simp] theorem State.modSlot_pu (i : SlotId) (f : Slot → Slot) : (s.modSlot i f).pu = s.pu := rfl
@[simp] theorem State.modSlot_ls (i : SlotId) (f : Slot → Slot) : (s.modSlot i f).ls = s.ls := rfl
@[simp] theorem State.modSlot_er (i : SlotId) (f : Slot → Slot) : (s.modSlot i f).er = s.er := rfl
@[simp] theorem State.modSlot_cru (i : SlotId) (f : Slot → Slot) : (s.modSlot i f).cru = s.cru := rfl
@[simp] theorem State.modSlot_free (i : SlotId) (f : Slot → Slot) : (s.modSlot i f).free = s.free := rfl

/-! ### `State.modFrame` -/

@[simp] theorem State.modFrame_pending (i : SlotId) (f : FrameRecord → FrameRecord) : (s.modFrame i f).pending = s.pending := rfl
@[simp] theorem State.modFrame_pins (i : SlotId) (f : FrameRecord → FrameRecord) : (s.modFrame i f).pins = s.pins := rfl
@[simp] theorem State.modFrame_ports (i : SlotId) (f : FrameRecord → FrameRecord) : (s.modFrame i f).ports = s.ports := rfl
@[simp] theorem State.modFrame_mpu (i : SlotId) (f : FrameRecord → FrameRecord) : (s.modFrame i f).mpu = s.mpu := rfl
@[simp] theorem State.modFrame_slots (i : SlotId) (f : FrameRecord → FrameRecord) :
    (s.modFrame i f).slots = put s.slots i { s.slot i with frame := f (s.slot i).frame } := rfl
@[simp] theorem State.modFrame_ssu (i : SlotId) (f : FrameRecord → FrameRecord) : (s.modFrame i f).ssu = s.ssu := rfl
@[simp] theorem State.modFrame_llc (i : SlotId) (f : FrameRecord → FrameRecord) : (s.modFrame i f).llc = s.llc := rfl
@[simp] theorem State.modFrame_br (i : SlotId) (f : FrameRecord → FrameRecord) : (s.modFrame i f).br = s.br := rfl
@[simp] theorem State.modFrame_pu (i : SlotId) (f : FrameRecord → FrameRecord) : (s.modFrame i f).pu = s.pu := rfl
@[simp] theorem State.modFrame_ls (i : SlotId) (f : FrameRecord → FrameRecord) : (s.modFrame i f).ls = s.ls := rfl
@[simp] theorem State.modFrame_er (i : SlotId) (f : FrameRecord → FrameRecord) : (s.modFrame i f).er = s.er := rfl
@[simp] theorem State.modFrame_cru (i : SlotId) (f : FrameRecord → FrameRecord) : (s.modFrame i f).cru = s.cru := rfl
@[simp] theorem State.modFrame_free (i : SlotId) (f : FrameRecord → FrameRecord) : (s.modFrame i f).free = s.free := rfl

/-! ### `State.setLine` -/

@[simp] theorem State.setLine_pending (i : LineIdx) (r : LineRec) : (s.setLine i r).pending = s.pending := rfl
@[simp] theorem State.setLine_pins (i : LineIdx) (r : LineRec) : (s.setLine i r).pins = s.pins := rfl
@[simp] theorem State.setLine_ports (i : LineIdx) (r : LineRec) : (s.setLine i r).ports = s.ports := rfl
@[simp] theorem State.setLine_mpu (i : LineIdx) (r : LineRec) : (s.setLine i r).mpu = s.mpu := rfl
@[simp] theorem State.setLine_slots (i : LineIdx) (r : LineRec) : (s.setLine i r).slots = s.slots := rfl
@[simp] theorem State.setLine_ssu (i : LineIdx) (r : LineRec) : (s.setLine i r).ssu = s.ssu := rfl
@[simp] theorem State.setLine_llc (i : LineIdx) (r : LineRec) : (s.setLine i r).llc = s.llc := rfl
@[simp] theorem State.setLine_br (i : LineIdx) (r : LineRec) : (s.setLine i r).br = s.br := rfl
@[simp] theorem State.setLine_pu (i : LineIdx) (r : LineRec) : (s.setLine i r).pu = s.pu := rfl
@[simp] theorem State.setLine_ls (i : LineIdx) (r : LineRec) :
    (s.setLine i r).ls = { s.ls with lines := put s.ls.lines i r } := rfl
@[simp] theorem State.setLine_er (i : LineIdx) (r : LineRec) : (s.setLine i r).er = s.er := rfl
@[simp] theorem State.setLine_cru (i : LineIdx) (r : LineRec) : (s.setLine i r).cru = s.cru := rfl
@[simp] theorem State.setLine_free (i : LineIdx) (r : LineRec) : (s.setLine i r).free = s.free := rfl

/-! ### `State.mapLines` -/

@[simp] theorem State.mapLines_pending (f : LineRec → LineRec) : (s.mapLines f).pending = s.pending := rfl
@[simp] theorem State.mapLines_pins (f : LineRec → LineRec) : (s.mapLines f).pins = s.pins := rfl
@[simp] theorem State.mapLines_ports (f : LineRec → LineRec) : (s.mapLines f).ports = s.ports := rfl
@[simp] theorem State.mapLines_mpu (f : LineRec → LineRec) : (s.mapLines f).mpu = s.mpu := rfl
@[simp] theorem State.mapLines_slots (f : LineRec → LineRec) : (s.mapLines f).slots = s.slots := rfl
@[simp] theorem State.mapLines_ssu (f : LineRec → LineRec) : (s.mapLines f).ssu = s.ssu := rfl
@[simp] theorem State.mapLines_llc (f : LineRec → LineRec) : (s.mapLines f).llc = s.llc := rfl
@[simp] theorem State.mapLines_br (f : LineRec → LineRec) : (s.mapLines f).br = s.br := rfl
@[simp] theorem State.mapLines_pu (f : LineRec → LineRec) : (s.mapLines f).pu = s.pu := rfl
@[simp] theorem State.mapLines_ls (f : LineRec → LineRec) :
    (s.mapLines f).ls = { s.ls with lines := mapTable s.ls.lines f } := rfl
@[simp] theorem State.mapLines_er (f : LineRec → LineRec) : (s.mapLines f).er = s.er := rfl
@[simp] theorem State.mapLines_cru (f : LineRec → LineRec) : (s.mapLines f).cru = s.cru := rfl
@[simp] theorem State.mapLines_free (f : LineRec → LineRec) : (s.mapLines f).free = s.free := rfl

/-! ### `State.setClaims` -/

@[simp] theorem State.setClaims_pending (l : List Claim) : (s.setClaims l).pending = s.pending := rfl
@[simp] theorem State.setClaims_pins (l : List Claim) : (s.setClaims l).pins = s.pins := rfl
@[simp] theorem State.setClaims_ports (l : List Claim) : (s.setClaims l).ports = s.ports := rfl
@[simp] theorem State.setClaims_mpu (l : List Claim) : (s.setClaims l).mpu = s.mpu := rfl
@[simp] theorem State.setClaims_slots (l : List Claim) : (s.setClaims l).slots = s.slots := rfl
@[simp] theorem State.setClaims_ssu (l : List Claim) : (s.setClaims l).ssu = s.ssu := rfl
@[simp] theorem State.setClaims_llc (l : List Claim) : (s.setClaims l).llc = s.llc := rfl
@[simp] theorem State.setClaims_br (l : List Claim) : (s.setClaims l).br = s.br := rfl
@[simp] theorem State.setClaims_pu (l : List Claim) : (s.setClaims l).pu = s.pu := rfl
@[simp] theorem State.setClaims_ls (l : List Claim) :
    (s.setClaims l).ls = { s.ls with claims := l } := rfl
@[simp] theorem State.setClaims_er (l : List Claim) : (s.setClaims l).er = s.er := rfl
@[simp] theorem State.setClaims_cru (l : List Claim) : (s.setClaims l).cru = s.cru := rfl
@[simp] theorem State.setClaims_free (l : List Claim) : (s.setClaims l).free = s.free := rfl

/-! ### `State.popClaim` -/

@[simp] theorem State.popClaim_pending (i : LineIdx) : (s.popClaim i).pending = s.pending := rfl
@[simp] theorem State.popClaim_pins (i : LineIdx) : (s.popClaim i).pins = s.pins := rfl
@[simp] theorem State.popClaim_ports (i : LineIdx) : (s.popClaim i).ports = s.ports := rfl
@[simp] theorem State.popClaim_mpu (i : LineIdx) : (s.popClaim i).mpu = s.mpu := rfl
@[simp] theorem State.popClaim_slots (i : LineIdx) : (s.popClaim i).slots = s.slots := rfl
@[simp] theorem State.popClaim_ssu (i : LineIdx) : (s.popClaim i).ssu = s.ssu := rfl
@[simp] theorem State.popClaim_llc (i : LineIdx) : (s.popClaim i).llc = s.llc := rfl
@[simp] theorem State.popClaim_br (i : LineIdx) : (s.popClaim i).br = s.br := rfl
@[simp] theorem State.popClaim_pu (i : LineIdx) : (s.popClaim i).pu = s.pu := rfl
@[simp] theorem State.popClaim_ls (i : LineIdx) :
    (s.popClaim i).ls = { s.ls with claims := s.ls.claims.eraseP fun c => c.on i } := rfl
@[simp] theorem State.popClaim_er (i : LineIdx) : (s.popClaim i).er = s.er := rfl
@[simp] theorem State.popClaim_cru (i : LineIdx) : (s.popClaim i).cru = s.cru := rfl
@[simp] theorem State.popClaim_free (i : LineIdx) : (s.popClaim i).free = s.free := rfl

/-! ### `State.clearClaim` -/

@[simp] theorem State.clearClaim_pending (i : LineIdx) (u : Bool) : (s.clearClaim i u).pending = s.pending := rfl
@[simp] theorem State.clearClaim_pins (i : LineIdx) (u : Bool) : (s.clearClaim i u).pins = s.pins := rfl
@[simp] theorem State.clearClaim_ports (i : LineIdx) (u : Bool) : (s.clearClaim i u).ports = s.ports := rfl
@[simp] theorem State.clearClaim_mpu (i : LineIdx) (u : Bool) : (s.clearClaim i u).mpu = s.mpu := rfl
@[simp] theorem State.clearClaim_slots (i : LineIdx) (u : Bool) : (s.clearClaim i u).slots = s.slots := rfl
@[simp] theorem State.clearClaim_ssu (i : LineIdx) (u : Bool) : (s.clearClaim i u).ssu = s.ssu := rfl
@[simp] theorem State.clearClaim_llc (i : LineIdx) (u : Bool) : (s.clearClaim i u).llc = s.llc := rfl
@[simp] theorem State.clearClaim_br (i : LineIdx) (u : Bool) : (s.clearClaim i u).br = s.br := rfl
@[simp] theorem State.clearClaim_pu (i : LineIdx) (u : Bool) : (s.clearClaim i u).pu = s.pu := rfl
@[simp] theorem State.clearClaim_ls (i : LineIdx) (u : Bool) :
    (s.clearClaim i u).ls = { s.ls with
      claims := modFirst i (fun c => { c with cleared := true, updated := u }) s.ls.claims } := rfl
@[simp] theorem State.clearClaim_er (i : LineIdx) (u : Bool) : (s.clearClaim i u).er = s.er := rfl
@[simp] theorem State.clearClaim_cru (i : LineIdx) (u : Bool) : (s.clearClaim i u).cru = s.cru := rfl
@[simp] theorem State.clearClaim_free (i : LineIdx) (u : Bool) : (s.clearClaim i u).free = s.free := rfl

/-! ### `State.addClaim` -/

@[simp] theorem State.addClaim_pending (line : Nat) (k : ClaimKind) : (s.addClaim line k).pending = s.pending := rfl
@[simp] theorem State.addClaim_pins (line : Nat) (k : ClaimKind) : (s.addClaim line k).pins = s.pins := rfl
@[simp] theorem State.addClaim_ports (line : Nat) (k : ClaimKind) : (s.addClaim line k).ports = s.ports := rfl
@[simp] theorem State.addClaim_mpu (line : Nat) (k : ClaimKind) : (s.addClaim line k).mpu = s.mpu := rfl
@[simp] theorem State.addClaim_slots (line : Nat) (k : ClaimKind) : (s.addClaim line k).slots = s.slots := rfl
@[simp] theorem State.addClaim_ssu (line : Nat) (k : ClaimKind) : (s.addClaim line k).ssu = s.ssu := rfl
@[simp] theorem State.addClaim_llc (line : Nat) (k : ClaimKind) : (s.addClaim line k).llc = s.llc := rfl
@[simp] theorem State.addClaim_br (line : Nat) (k : ClaimKind) : (s.addClaim line k).br = s.br := rfl
@[simp] theorem State.addClaim_pu (line : Nat) (k : ClaimKind) : (s.addClaim line k).pu = s.pu := rfl
@[simp] theorem State.addClaim_ls (line : Nat) (k : ClaimKind) :
    (s.addClaim line k).ls = { s.ls with claims := s.ls.claims ++ [⟨line, k, false, false⟩] } := rfl
@[simp] theorem State.addClaim_er (line : Nat) (k : ClaimKind) : (s.addClaim line k).er = s.er := rfl
@[simp] theorem State.addClaim_cru (line : Nat) (k : ClaimKind) : (s.addClaim line k).cru = s.cru := rfl
@[simp] theorem State.addClaim_free (line : Nat) (k : ClaimKind) : (s.addClaim line k).free = s.free := rfl

/-! ### `State.modIntake` -/

@[simp] theorem State.modIntake_pending (f : Presented → Presented) : (s.modIntake f).pending = s.pending := rfl
@[simp] theorem State.modIntake_pins (f : Presented → Presented) : (s.modIntake f).pins = s.pins := rfl
@[simp] theorem State.modIntake_ports (f : Presented → Presented) : (s.modIntake f).ports = s.ports := rfl
@[simp] theorem State.modIntake_mpu (f : Presented → Presented) :
    (s.modIntake f).mpu = { s.mpu with intake := s.mpu.intake.map f } := rfl
@[simp] theorem State.modIntake_slots (f : Presented → Presented) : (s.modIntake f).slots = s.slots := rfl
@[simp] theorem State.modIntake_ssu (f : Presented → Presented) : (s.modIntake f).ssu = s.ssu := rfl
@[simp] theorem State.modIntake_llc (f : Presented → Presented) : (s.modIntake f).llc = s.llc := rfl
@[simp] theorem State.modIntake_br (f : Presented → Presented) : (s.modIntake f).br = s.br := rfl
@[simp] theorem State.modIntake_pu (f : Presented → Presented) : (s.modIntake f).pu = s.pu := rfl
@[simp] theorem State.modIntake_ls (f : Presented → Presented) : (s.modIntake f).ls = s.ls := rfl
@[simp] theorem State.modIntake_er (f : Presented → Presented) : (s.modIntake f).er = s.er := rfl
@[simp] theorem State.modIntake_cru (f : Presented → Presented) : (s.modIntake f).cru = s.cru := rfl
@[simp] theorem State.modIntake_free (f : Presented → Presented) : (s.modIntake f).free = s.free := rfl

/-! ### `State.setPhase` -/

@[simp] theorem State.setPhase_pending (ph : Phase) : (s.setPhase ph).pending = s.pending := rfl
@[simp] theorem State.setPhase_pins (ph : Phase) : (s.setPhase ph).pins = s.pins := rfl
@[simp] theorem State.setPhase_ports (ph : Phase) : (s.setPhase ph).ports = s.ports := rfl
@[simp] theorem State.setPhase_mpu (ph : Phase) :
    (s.setPhase ph).mpu = { s.mpu with intake := s.mpu.intake.map fun p => { p with phase := ph } } := rfl
@[simp] theorem State.setPhase_slots (ph : Phase) : (s.setPhase ph).slots = s.slots := rfl
@[simp] theorem State.setPhase_ssu (ph : Phase) : (s.setPhase ph).ssu = s.ssu := rfl
@[simp] theorem State.setPhase_llc (ph : Phase) : (s.setPhase ph).llc = s.llc := rfl
@[simp] theorem State.setPhase_br (ph : Phase) : (s.setPhase ph).br = s.br := rfl
@[simp] theorem State.setPhase_pu (ph : Phase) : (s.setPhase ph).pu = s.pu := rfl
@[simp] theorem State.setPhase_ls (ph : Phase) : (s.setPhase ph).ls = s.ls := rfl
@[simp] theorem State.setPhase_er (ph : Phase) : (s.setPhase ph).er = s.er := rfl
@[simp] theorem State.setPhase_cru (ph : Phase) : (s.setPhase ph).cru = s.cru := rfl
@[simp] theorem State.setPhase_free (ph : Phase) : (s.setPhase ph).free = s.free := rfl

/-! ### `State.emptyIntake` -/

@[simp] theorem State.emptyIntake_pending : (s.emptyIntake).pending = s.pending := rfl
@[simp] theorem State.emptyIntake_pins : (s.emptyIntake).pins = s.pins := rfl
@[simp] theorem State.emptyIntake_ports : (s.emptyIntake).ports = s.ports := rfl
@[simp] theorem State.emptyIntake_mpu :
    (s.emptyIntake).mpu = { s.mpu with intake := none, class3 := none } := rfl
@[simp] theorem State.emptyIntake_slots : (s.emptyIntake).slots = s.slots := rfl
@[simp] theorem State.emptyIntake_ssu : (s.emptyIntake).ssu = s.ssu := rfl
@[simp] theorem State.emptyIntake_llc : (s.emptyIntake).llc = s.llc := rfl
@[simp] theorem State.emptyIntake_br : (s.emptyIntake).br = s.br := rfl
@[simp] theorem State.emptyIntake_pu : (s.emptyIntake).pu = s.pu := rfl
@[simp] theorem State.emptyIntake_ls : (s.emptyIntake).ls = s.ls := rfl
@[simp] theorem State.emptyIntake_er : (s.emptyIntake).er = s.er := rfl
@[simp] theorem State.emptyIntake_cru : (s.emptyIntake).cru = s.cru := rfl
@[simp] theorem State.emptyIntake_free : (s.emptyIntake).free = s.free := rfl

/-! ### `State.offer` -/

@[simp] theorem State.offer_pending (f : Forward) : (s.offer f).pending = s.pending := rfl
@[simp] theorem State.offer_pins (f : Forward) : (s.offer f).pins = s.pins := rfl
@[simp] theorem State.offer_ports (f : Forward) : (s.offer f).ports = s.ports := rfl
@[simp] theorem State.offer_mpu (f : Forward) :
    (s.offer f).mpu = { s.mpu with
      class3 := some f, intake := s.mpu.intake.map fun p => { p with phase := .offered } } := rfl
@[simp] theorem State.offer_slots (f : Forward) : (s.offer f).slots = s.slots := rfl
@[simp] theorem State.offer_ssu (f : Forward) : (s.offer f).ssu = s.ssu := rfl
@[simp] theorem State.offer_llc (f : Forward) : (s.offer f).llc = s.llc := rfl
@[simp] theorem State.offer_br (f : Forward) : (s.offer f).br = s.br := rfl
@[simp] theorem State.offer_pu (f : Forward) : (s.offer f).pu = s.pu := rfl
@[simp] theorem State.offer_ls (f : Forward) : (s.offer f).ls = s.ls := rfl
@[simp] theorem State.offer_er (f : Forward) : (s.offer f).er = s.er := rfl
@[simp] theorem State.offer_cru (f : Forward) : (s.offer f).cru = s.cru := rfl
@[simp] theorem State.offer_free (f : Forward) : (s.offer f).free = s.free := rfl

/-! ### `State.joinClass1` -/

@[simp] theorem State.joinClass1_pending (i : LineIdx) : (s.joinClass1 i).pending = s.pending := rfl
@[simp] theorem State.joinClass1_pins (i : LineIdx) : (s.joinClass1 i).pins = s.pins := rfl
@[simp] theorem State.joinClass1_ports (i : LineIdx) : (s.joinClass1 i).ports = s.ports := rfl
@[simp] theorem State.joinClass1_mpu (i : LineIdx) :
    (s.joinClass1 i).mpu = { s.mpu with class1 := s.mpu.class1 ++ [i] } := rfl
@[simp] theorem State.joinClass1_slots (i : LineIdx) : (s.joinClass1 i).slots = s.slots := rfl
@[simp] theorem State.joinClass1_ssu (i : LineIdx) : (s.joinClass1 i).ssu = s.ssu := rfl
@[simp] theorem State.joinClass1_llc (i : LineIdx) : (s.joinClass1 i).llc = s.llc := rfl
@[simp] theorem State.joinClass1_br (i : LineIdx) : (s.joinClass1 i).br = s.br := rfl
@[simp] theorem State.joinClass1_pu (i : LineIdx) : (s.joinClass1 i).pu = s.pu := rfl
@[simp] theorem State.joinClass1_ls (i : LineIdx) : (s.joinClass1 i).ls = s.ls := rfl
@[simp] theorem State.joinClass1_er (i : LineIdx) : (s.joinClass1 i).er = s.er := rfl
@[simp] theorem State.joinClass1_cru (i : LineIdx) : (s.joinClass1 i).cru = s.cru := rfl
@[simp] theorem State.joinClass1_free (i : LineIdx) : (s.joinClass1 i).free = s.free := rfl

/-! ### `State.joinDemanded` -/

@[simp] theorem State.joinDemanded_pending (i : SlotId) (g : Generation) (b : BandId) : (s.joinDemanded i g b).pending = s.pending := rfl
@[simp] theorem State.joinDemanded_pins (i : SlotId) (g : Generation) (b : BandId) : (s.joinDemanded i g b).pins = s.pins := rfl
@[simp] theorem State.joinDemanded_ports (i : SlotId) (g : Generation) (b : BandId) : (s.joinDemanded i g b).ports = s.ports := rfl
@[simp] theorem State.joinDemanded_slots (i : SlotId) (g : Generation) (b : BandId) : (s.joinDemanded i g b).slots = s.slots := rfl
@[simp] theorem State.joinDemanded_ssu (i : SlotId) (g : Generation) (b : BandId) : (s.joinDemanded i g b).ssu = s.ssu := rfl
@[simp] theorem State.joinDemanded_llc (i : SlotId) (g : Generation) (b : BandId) : (s.joinDemanded i g b).llc = s.llc := rfl
@[simp] theorem State.joinDemanded_br (i : SlotId) (g : Generation) (b : BandId) : (s.joinDemanded i g b).br = s.br := rfl
@[simp] theorem State.joinDemanded_pu (i : SlotId) (g : Generation) (b : BandId) : (s.joinDemanded i g b).pu = s.pu := rfl
@[simp] theorem State.joinDemanded_ls (i : SlotId) (g : Generation) (b : BandId) : (s.joinDemanded i g b).ls = s.ls := rfl
@[simp] theorem State.joinDemanded_er (i : SlotId) (g : Generation) (b : BandId) : (s.joinDemanded i g b).er = s.er := rfl
@[simp] theorem State.joinDemanded_cru (i : SlotId) (g : Generation) (b : BandId) : (s.joinDemanded i g b).cru = s.cru := rfl
@[simp] theorem State.joinDemanded_free (i : SlotId) (g : Generation) (b : BandId) : (s.joinDemanded i g b).free = s.free := rfl

/-! ### `State.setLoad` -/

@[simp] theorem State.setLoad_pending (l : Option Load) : (s.setLoad l).pending = s.pending := rfl
@[simp] theorem State.setLoad_pins (l : Option Load) : (s.setLoad l).pins = s.pins := rfl
@[simp] theorem State.setLoad_ports (l : Option Load) : (s.setLoad l).ports = s.ports := rfl
@[simp] theorem State.setLoad_mpu (l : Option Load) : (s.setLoad l).mpu = s.mpu := rfl
@[simp] theorem State.setLoad_slots (l : Option Load) : (s.setLoad l).slots = s.slots := rfl
@[simp] theorem State.setLoad_ssu (l : Option Load) : (s.setLoad l).ssu = s.ssu := rfl
@[simp] theorem State.setLoad_llc (l : Option Load) : (s.setLoad l).llc = s.llc := rfl
@[simp] theorem State.setLoad_br (l : Option Load) : (s.setLoad l).br = s.br := rfl
@[simp] theorem State.setLoad_pu (l : Option Load) :
    (s.setLoad l).pu = { s.pu with load := l } := rfl
@[simp] theorem State.setLoad_ls (l : Option Load) : (s.setLoad l).ls = s.ls := rfl
@[simp] theorem State.setLoad_er (l : Option Load) : (s.setLoad l).er = s.er := rfl
@[simp] theorem State.setLoad_cru (l : Option Load) : (s.setLoad l).cru = s.cru := rfl
@[simp] theorem State.setLoad_free (l : Option Load) : (s.setLoad l).free = s.free := rfl

/-! ### `State.modLlc` -/

@[simp] theorem State.modLlc_pending (f : Llc → Llc) : (s.modLlc f).pending = s.pending := rfl
@[simp] theorem State.modLlc_pins (f : Llc → Llc) : (s.modLlc f).pins = s.pins := rfl
@[simp] theorem State.modLlc_ports (f : Llc → Llc) : (s.modLlc f).ports = s.ports := rfl
@[simp] theorem State.modLlc_mpu (f : Llc → Llc) : (s.modLlc f).mpu = s.mpu := rfl
@[simp] theorem State.modLlc_slots (f : Llc → Llc) : (s.modLlc f).slots = s.slots := rfl
@[simp] theorem State.modLlc_ssu (f : Llc → Llc) : (s.modLlc f).ssu = s.ssu := rfl
@[simp] theorem State.modLlc_llc (f : Llc → Llc) :
    (s.modLlc f).llc = f s.llc := rfl
@[simp] theorem State.modLlc_br (f : Llc → Llc) : (s.modLlc f).br = s.br := rfl
@[simp] theorem State.modLlc_pu (f : Llc → Llc) : (s.modLlc f).pu = s.pu := rfl
@[simp] theorem State.modLlc_ls (f : Llc → Llc) : (s.modLlc f).ls = s.ls := rfl
@[simp] theorem State.modLlc_er (f : Llc → Llc) : (s.modLlc f).er = s.er := rfl
@[simp] theorem State.modLlc_cru (f : Llc → Llc) : (s.modLlc f).cru = s.cru := rfl
@[simp] theorem State.modLlc_free (f : Llc → Llc) : (s.modLlc f).free = s.free := rfl

/-! ### `State.setProc` -/

@[simp] theorem State.setProc_pending (p : Procedure) : (s.setProc p).pending = s.pending := rfl
@[simp] theorem State.setProc_pins (p : Procedure) : (s.setProc p).pins = s.pins := rfl
@[simp] theorem State.setProc_ports (p : Procedure) : (s.setProc p).ports = s.ports := rfl
@[simp] theorem State.setProc_mpu (p : Procedure) : (s.setProc p).mpu = s.mpu := rfl
@[simp] theorem State.setProc_slots (p : Procedure) : (s.setProc p).slots = s.slots := rfl
@[simp] theorem State.setProc_ssu (p : Procedure) : (s.setProc p).ssu = s.ssu := rfl
@[simp] theorem State.setProc_llc (p : Procedure) : (s.setProc p).llc = s.llc := rfl
@[simp] theorem State.setProc_br (p : Procedure) : (s.setProc p).br = s.br := rfl
@[simp] theorem State.setProc_pu (p : Procedure) : (s.setProc p).pu = s.pu := rfl
@[simp] theorem State.setProc_ls (p : Procedure) : (s.setProc p).ls = s.ls := rfl
@[simp] theorem State.setProc_er (p : Procedure) : (s.setProc p).er = s.er := rfl
@[simp] theorem State.setProc_cru (p : Procedure) :
    (s.setProc p).cru = { s.cru with proc := p } := rfl
@[simp] theorem State.setProc_free (p : Procedure) : (s.setProc p).free = s.free := rfl

/-! ### `State.complete` -/

@[simp] theorem State.complete_pending (c : UpCompletion) : (s.complete c).pending = s.pending := rfl
@[simp] theorem State.complete_pins (c : UpCompletion) : (s.complete c).pins = s.pins := rfl
@[simp] theorem State.complete_ports (c : UpCompletion) :
    (s.complete c).ports = { s.ports with ump := s.ports.ump ++ [c] } := rfl
@[simp] theorem State.complete_mpu (c : UpCompletion) : (s.complete c).mpu = s.mpu := rfl
@[simp] theorem State.complete_slots (c : UpCompletion) : (s.complete c).slots = s.slots := rfl
@[simp] theorem State.complete_ssu (c : UpCompletion) : (s.complete c).ssu = s.ssu := rfl
@[simp] theorem State.complete_llc (c : UpCompletion) : (s.complete c).llc = s.llc := rfl
@[simp] theorem State.complete_br (c : UpCompletion) : (s.complete c).br = s.br := rfl
@[simp] theorem State.complete_pu (c : UpCompletion) : (s.complete c).pu = s.pu := rfl
@[simp] theorem State.complete_ls (c : UpCompletion) : (s.complete c).ls = s.ls := rfl
@[simp] theorem State.complete_er (c : UpCompletion) : (s.complete c).er = s.er := rfl
@[simp] theorem State.complete_cru (c : UpCompletion) : (s.complete c).cru = s.cru := rfl
@[simp] theorem State.complete_free (c : UpCompletion) : (s.complete c).free = s.free := rfl

/-! ### `State.sendPart` -/

@[simp] theorem State.sendPart_pending (p : PartFrame) : (s.sendPart p).pending = s.pending := rfl
@[simp] theorem State.sendPart_pins (p : PartFrame) : (s.sendPart p).pins = s.pins := rfl
@[simp] theorem State.sendPart_ports (p : PartFrame) :
    (s.sendPart p).ports = { s.ports with lml := s.ports.lml ++ [p] } := rfl
@[simp] theorem State.sendPart_mpu (p : PartFrame) : (s.sendPart p).mpu = s.mpu := rfl
@[simp] theorem State.sendPart_slots (p : PartFrame) : (s.sendPart p).slots = s.slots := rfl
@[simp] theorem State.sendPart_ssu (p : PartFrame) : (s.sendPart p).ssu = s.ssu := rfl
@[simp] theorem State.sendPart_llc (p : PartFrame) : (s.sendPart p).llc = s.llc := rfl
@[simp] theorem State.sendPart_br (p : PartFrame) : (s.sendPart p).br = s.br := rfl
@[simp] theorem State.sendPart_pu (p : PartFrame) : (s.sendPart p).pu = s.pu := rfl
@[simp] theorem State.sendPart_ls (p : PartFrame) : (s.sendPart p).ls = s.ls := rfl
@[simp] theorem State.sendPart_er (p : PartFrame) : (s.sendPart p).er = s.er := rfl
@[simp] theorem State.sendPart_cru (p : PartFrame) : (s.sendPart p).cru = s.cru := rfl
@[simp] theorem State.sendPart_free (p : PartFrame) : (s.sendPart p).free = s.free := rfl

/-! ### `State.modRead` -/

@[simp] theorem State.modRead_pending (r : Nat) (f : EgressEntry → EgressEntry) : (s.modRead r f).pending = s.pending := rfl
@[simp] theorem State.modRead_pins (r : Nat) (f : EgressEntry → EgressEntry) : (s.modRead r f).pins = s.pins := rfl
@[simp] theorem State.modRead_ports (r : Nat) (f : EgressEntry → EgressEntry) : (s.modRead r f).ports = s.ports := rfl
@[simp] theorem State.modRead_mpu (r : Nat) (f : EgressEntry → EgressEntry) : (s.modRead r f).mpu = s.mpu := rfl
@[simp] theorem State.modRead_slots (r : Nat) (f : EgressEntry → EgressEntry) : (s.modRead r f).slots = s.slots := rfl
@[simp] theorem State.modRead_ssu (r : Nat) (f : EgressEntry → EgressEntry) : (s.modRead r f).ssu = s.ssu := rfl
@[simp] theorem State.modRead_llc (r : Nat) (f : EgressEntry → EgressEntry) : (s.modRead r f).llc = s.llc := rfl
@[simp] theorem State.modRead_br (r : Nat) (f : EgressEntry → EgressEntry) : (s.modRead r f).br = s.br := rfl
@[simp] theorem State.modRead_pu (r : Nat) (f : EgressEntry → EgressEntry) : (s.modRead r f).pu = s.pu := rfl
@[simp] theorem State.modRead_ls (r : Nat) (f : EgressEntry → EgressEntry) : (s.modRead r f).ls = s.ls := rfl
@[simp] theorem State.modRead_er (r : Nat) (f : EgressEntry → EgressEntry) :
    (s.modRead r f).er = { s.er with
      queue := s.er.queue.map fun e => if e.id = r then f e else e } := rfl
@[simp] theorem State.modRead_cru (r : Nat) (f : EgressEntry → EgressEntry) : (s.modRead r f).cru = s.cru := rfl
@[simp] theorem State.modRead_free (r : Nat) (f : EgressEntry → EgressEntry) : (s.modRead r f).free = s.free := rfl

/-! ### `State.popRead` -/

@[simp] theorem State.popRead_pending : (s.popRead).pending = s.pending := rfl
@[simp] theorem State.popRead_pins : (s.popRead).pins = s.pins := rfl
@[simp] theorem State.popRead_ports : (s.popRead).ports = s.ports := rfl
@[simp] theorem State.popRead_mpu : (s.popRead).mpu = s.mpu := rfl
@[simp] theorem State.popRead_slots : (s.popRead).slots = s.slots := rfl
@[simp] theorem State.popRead_ssu : (s.popRead).ssu = s.ssu := rfl
@[simp] theorem State.popRead_llc : (s.popRead).llc = s.llc := rfl
@[simp] theorem State.popRead_br : (s.popRead).br = s.br := rfl
@[simp] theorem State.popRead_pu : (s.popRead).pu = s.pu := rfl
@[simp] theorem State.popRead_ls : (s.popRead).ls = s.ls := rfl
@[simp] theorem State.popRead_er :
    (s.popRead).er = { s.er with queue := s.er.queue.drop 1 } := rfl
@[simp] theorem State.popRead_cru : (s.popRead).cru = s.cru := rfl
@[simp] theorem State.popRead_free : (s.popRead).free = s.free := rfl

/-! ### `State.copyShadow` -/

@[simp] theorem State.copyShadow_pending (w : ControlBytes) : (s.copyShadow w).pending = s.pending := rfl
@[simp] theorem State.copyShadow_pins (w : ControlBytes) : (s.copyShadow w).pins = s.pins := rfl
@[simp] theorem State.copyShadow_ports (w : ControlBytes) : (s.copyShadow w).ports = s.ports := rfl
@[simp] theorem State.copyShadow_mpu (w : ControlBytes) : (s.copyShadow w).mpu = s.mpu := rfl
@[simp] theorem State.copyShadow_slots (w : ControlBytes) : (s.copyShadow w).slots = s.slots := rfl
@[simp] theorem State.copyShadow_ssu (w : ControlBytes) : (s.copyShadow w).ssu = s.ssu := rfl
@[simp] theorem State.copyShadow_llc (w : ControlBytes) : (s.copyShadow w).llc = s.llc := rfl
@[simp] theorem State.copyShadow_br (w : ControlBytes) : (s.copyShadow w).br = s.br := rfl
@[simp] theorem State.copyShadow_pu (w : ControlBytes) : (s.copyShadow w).pu = s.pu := rfl
@[simp] theorem State.copyShadow_ls (w : ControlBytes) : (s.copyShadow w).ls = s.ls := rfl
@[simp] theorem State.copyShadow_er (w : ControlBytes) : (s.copyShadow w).er = s.er := rfl
@[simp] theorem State.copyShadow_cru (w : ControlBytes) :
    (s.copyShadow w).cru = { s.cru with shadow := s.cru.shadow.writeLanes w.offset w.lanes } := rfl
@[simp] theorem State.copyShadow_free (w : ControlBytes) : (s.copyShadow w).free = s.free := rfl

/-! ### `State.setBypass` -/

@[simp] theorem State.setBypass_pending (b : Bool) : (s.setBypass b).pending = s.pending := rfl
@[simp] theorem State.setBypass_pins (b : Bool) :
    (s.setBypass b).pins = { s.pins with bypass := b } := rfl
@[simp] theorem State.setBypass_ports (b : Bool) : (s.setBypass b).ports = s.ports := rfl
@[simp] theorem State.setBypass_mpu (b : Bool) : (s.setBypass b).mpu = s.mpu := rfl
@[simp] theorem State.setBypass_slots (b : Bool) : (s.setBypass b).slots = s.slots := rfl
@[simp] theorem State.setBypass_ssu (b : Bool) : (s.setBypass b).ssu = s.ssu := rfl
@[simp] theorem State.setBypass_llc (b : Bool) : (s.setBypass b).llc = s.llc := rfl
@[simp] theorem State.setBypass_br (b : Bool) : (s.setBypass b).br = s.br := rfl
@[simp] theorem State.setBypass_pu (b : Bool) : (s.setBypass b).pu = s.pu := rfl
@[simp] theorem State.setBypass_ls (b : Bool) : (s.setBypass b).ls = s.ls := rfl
@[simp] theorem State.setBypass_er (b : Bool) : (s.setBypass b).er = s.er := rfl
@[simp] theorem State.setBypass_cru (b : Bool) : (s.setBypass b).cru = s.cru := rfl
@[simp] theorem State.setBypass_free (b : Bool) : (s.setBypass b).free = s.free := rfl

/-! ### `State.arrive` -/

@[simp] theorem State.arrive_pending (r : UpRequest) : (s.arrive r).pending = s.pending := rfl
@[simp] theorem State.arrive_pins (r : UpRequest) : (s.arrive r).pins = s.pins := rfl
@[simp] theorem State.arrive_ports (r : UpRequest) : (s.arrive r).ports = s.ports := rfl
@[simp] theorem State.arrive_mpu (r : UpRequest) :
    (s.arrive r).mpu = { s.mpu with port := s.mpu.port ++ [r] } := rfl
@[simp] theorem State.arrive_slots (r : UpRequest) : (s.arrive r).slots = s.slots := rfl
@[simp] theorem State.arrive_ssu (r : UpRequest) : (s.arrive r).ssu = s.ssu := rfl
@[simp] theorem State.arrive_llc (r : UpRequest) : (s.arrive r).llc = s.llc := rfl
@[simp] theorem State.arrive_br (r : UpRequest) : (s.arrive r).br = s.br := rfl
@[simp] theorem State.arrive_pu (r : UpRequest) : (s.arrive r).pu = s.pu := rfl
@[simp] theorem State.arrive_ls (r : UpRequest) : (s.arrive r).ls = s.ls := rfl
@[simp] theorem State.arrive_er (r : UpRequest) : (s.arrive r).er = s.er := rfl
@[simp] theorem State.arrive_cru (r : UpRequest) : (s.arrive r).cru = s.cru := rfl
@[simp] theorem State.arrive_free (r : UpRequest) : (s.arrive r).free = s.free := rfl

/-! ### `State.takeReport` -/

@[simp] theorem State.takeReport_pending : (s.takeReport).pending = s.pending := rfl
@[simp] theorem State.takeReport_pins : (s.takeReport).pins = s.pins := rfl
@[simp] theorem State.takeReport_ports : (s.takeReport).ports = s.ports := rfl
@[simp] theorem State.takeReport_mpu :
    (s.takeReport).mpu = { s.mpu with class5 := s.mpu.class5.drop 1, starvation := 0 } := rfl
@[simp] theorem State.takeReport_slots : (s.takeReport).slots = s.slots := rfl
@[simp] theorem State.takeReport_ssu : (s.takeReport).ssu = s.ssu := rfl
@[simp] theorem State.takeReport_llc : (s.takeReport).llc = s.llc := rfl
@[simp] theorem State.takeReport_br : (s.takeReport).br = s.br := rfl
@[simp] theorem State.takeReport_pu : (s.takeReport).pu = s.pu := rfl
@[simp] theorem State.takeReport_ls : (s.takeReport).ls = s.ls := rfl
@[simp] theorem State.takeReport_er : (s.takeReport).er = s.er := rfl
@[simp] theorem State.takeReport_cru : (s.takeReport).cru = s.cru := rfl
@[simp] theorem State.takeReport_free : (s.takeReport).free = s.free := rfl

/-! ### `State.countStarvation` -/

@[simp] theorem State.countStarvation_pending : (s.countStarvation).pending = s.pending := rfl
@[simp] theorem State.countStarvation_pins : (s.countStarvation).pins = s.pins := rfl
@[simp] theorem State.countStarvation_ports : (s.countStarvation).ports = s.ports := rfl
@[simp] theorem State.countStarvation_mpu :
    (s.countStarvation).mpu = { s.mpu with
      starvation := if s.mpu.class5.isEmpty then 0 else min 64 (s.mpu.starvation + 1) } := rfl
@[simp] theorem State.countStarvation_slots : (s.countStarvation).slots = s.slots := rfl
@[simp] theorem State.countStarvation_ssu : (s.countStarvation).ssu = s.ssu := rfl
@[simp] theorem State.countStarvation_llc : (s.countStarvation).llc = s.llc := rfl
@[simp] theorem State.countStarvation_br : (s.countStarvation).br = s.br := rfl
@[simp] theorem State.countStarvation_pu : (s.countStarvation).pu = s.pu := rfl
@[simp] theorem State.countStarvation_ls : (s.countStarvation).ls = s.ls := rfl
@[simp] theorem State.countStarvation_er : (s.countStarvation).er = s.er := rfl
@[simp] theorem State.countStarvation_cru : (s.countStarvation).cru = s.cru := rfl
@[simp] theorem State.countStarvation_free : (s.countStarvation).free = s.free := rfl

/-! ### `State.issue` -/

@[simp] theorem State.issue_pending (t : DownTag) (o : Origin) (a b : Nat) (k : ReqKind) : (s.issue t o a b k).pending = s.pending := rfl
@[simp] theorem State.issue_pins (t : DownTag) (o : Origin) (a b : Nat) (k : ReqKind) : (s.issue t o a b k).pins = s.pins := rfl
@[simp] theorem State.issue_ports (t : DownTag) (o : Origin) (a b : Nat) (k : ReqKind) :
    (s.issue t o a b k).ports = { s.ports with dmp := s.ports.dmp ++ [⟨t, a, b, k⟩] } := rfl
@[simp] theorem State.issue_mpu (t : DownTag) (o : Origin) (a b : Nat) (k : ReqKind) :
    (s.issue t o a b k).mpu = { s.mpu with outstanding := put s.mpu.outstanding t (some o) } := rfl
@[simp] theorem State.issue_slots (t : DownTag) (o : Origin) (a b : Nat) (k : ReqKind) : (s.issue t o a b k).slots = s.slots := rfl
@[simp] theorem State.issue_ssu (t : DownTag) (o : Origin) (a b : Nat) (k : ReqKind) : (s.issue t o a b k).ssu = s.ssu := rfl
@[simp] theorem State.issue_llc (t : DownTag) (o : Origin) (a b : Nat) (k : ReqKind) : (s.issue t o a b k).llc = s.llc := rfl
@[simp] theorem State.issue_br (t : DownTag) (o : Origin) (a b : Nat) (k : ReqKind) : (s.issue t o a b k).br = s.br := rfl
@[simp] theorem State.issue_pu (t : DownTag) (o : Origin) (a b : Nat) (k : ReqKind) : (s.issue t o a b k).pu = s.pu := rfl
@[simp] theorem State.issue_ls (t : DownTag) (o : Origin) (a b : Nat) (k : ReqKind) : (s.issue t o a b k).ls = s.ls := rfl
@[simp] theorem State.issue_er (t : DownTag) (o : Origin) (a b : Nat) (k : ReqKind) : (s.issue t o a b k).er = s.er := rfl
@[simp] theorem State.issue_cru (t : DownTag) (o : Origin) (a b : Nat) (k : ReqKind) : (s.issue t o a b k).cru = s.cru := rfl
@[simp] theorem State.issue_free (t : DownTag) (o : Origin) (a b : Nat) (k : ReqKind) : (s.issue t o a b k).free = s.free := rfl

/-! ### `State.startFill` -/

@[simp] theorem State.startFill_pending (i : LineIdx) (line : Nat) (slot : SlotId) (g : Generation) (b : Nat) : (s.startFill i line slot g b).pending = s.pending := rfl
@[simp] theorem State.startFill_pins (i : LineIdx) (line : Nat) (slot : SlotId) (g : Generation) (b : Nat) : (s.startFill i line slot g b).pins = s.pins := rfl
@[simp] theorem State.startFill_ports (i : LineIdx) (line : Nat) (slot : SlotId) (g : Generation) (b : Nat) : (s.startFill i line slot g b).ports = s.ports := rfl
@[simp] theorem State.startFill_mpu (i : LineIdx) (line : Nat) (slot : SlotId) (g : Generation) (b : Nat) :
    (s.startFill i line slot g b).mpu = { s.mpu with class2 := s.mpu.class2 ++ fillParts line b } := rfl
@[simp] theorem State.startFill_slots (i : LineIdx) (line : Nat) (slot : SlotId) (g : Generation) (b : Nat) : (s.startFill i line slot g b).slots = s.slots := rfl
@[simp] theorem State.startFill_ssu (i : LineIdx) (line : Nat) (slot : SlotId) (g : Generation) (b : Nat) : (s.startFill i line slot g b).ssu = s.ssu := rfl
@[simp] theorem State.startFill_llc (i : LineIdx) (line : Nat) (slot : SlotId) (g : Generation) (b : Nat) : (s.startFill i line slot g b).llc = s.llc := rfl
@[simp] theorem State.startFill_br (i : LineIdx) (line : Nat) (slot : SlotId) (g : Generation) (b : Nat) : (s.startFill i line slot g b).br = s.br := rfl
@[simp] theorem State.startFill_pu (i : LineIdx) (line : Nat) (slot : SlotId) (g : Generation) (b : Nat) : (s.startFill i line slot g b).pu = s.pu := rfl
@[simp] theorem State.startFill_ls (i : LineIdx) (line : Nat) (slot : SlotId) (g : Generation) (b : Nat) :
    (s.startFill i line slot g b).ls = { s.ls with
      lines := put s.ls.lines i (.filling ⟨line, slot, g⟩ (freeBytes s.free 256) (fillParts line b).length []) } := rfl
@[simp] theorem State.startFill_er (i : LineIdx) (line : Nat) (slot : SlotId) (g : Generation) (b : Nat) : (s.startFill i line slot g b).er = s.er := rfl
@[simp] theorem State.startFill_cru (i : LineIdx) (line : Nat) (slot : SlotId) (g : Generation) (b : Nat) : (s.startFill i line slot g b).cru = s.cru := rfl
@[simp] theorem State.startFill_free (i : LineIdx) (line : Nat) (slot : SlotId) (g : Generation) (b : Nat) :
    (s.startFill i line slot g b).free = s.free + 256 := rfl

/-! ### `State.beginGen` -/

@[simp] theorem State.beginGen_pending (i : SlotId) : (s.beginGen i).pending = s.pending := rfl
@[simp] theorem State.beginGen_pins (i : SlotId) : (s.beginGen i).pins = s.pins := rfl
@[simp] theorem State.beginGen_ports (i : SlotId) : (s.beginGen i).ports = s.ports := rfl
@[simp] theorem State.beginGen_mpu (i : SlotId) : (s.beginGen i).mpu = s.mpu := rfl
@[simp] theorem State.beginGen_slots (i : SlotId) :
    (s.beginGen i).slots = put s.slots i (Slot.begin (s.slot i)) := rfl
@[simp] theorem State.beginGen_ssu (i : SlotId) : (s.beginGen i).ssu = s.ssu := rfl
@[simp] theorem State.beginGen_llc (i : SlotId) : (s.beginGen i).llc = s.llc := rfl
@[simp] theorem State.beginGen_br (i : SlotId) : (s.beginGen i).br = s.br := rfl
@[simp] theorem State.beginGen_pu (i : SlotId) : (s.beginGen i).pu = s.pu := rfl
@[simp] theorem State.beginGen_ls (i : SlotId) : (s.beginGen i).ls = s.ls := rfl
@[simp] theorem State.beginGen_er (i : SlotId) : (s.beginGen i).er = s.er := rfl
@[simp] theorem State.beginGen_cru (i : SlotId) : (s.beginGen i).cru = s.cru := rfl
@[simp] theorem State.beginGen_free (i : SlotId) : (s.beginGen i).free = s.free := rfl

/-! ### `State.setTagDeadline` -/

@[simp] theorem State.setTagDeadline_pending (i : SlotId) : (s.setTagDeadline i).pending = s.pending := rfl
@[simp] theorem State.setTagDeadline_pins (i : SlotId) : (s.setTagDeadline i).pins = s.pins := rfl
@[simp] theorem State.setTagDeadline_ports (i : SlotId) : (s.setTagDeadline i).ports = s.ports := rfl
@[simp] theorem State.setTagDeadline_mpu (i : SlotId) : (s.setTagDeadline i).mpu = s.mpu := rfl
@[simp] theorem State.setTagDeadline_ssu (i : SlotId) : (s.setTagDeadline i).ssu = s.ssu := rfl
@[simp] theorem State.setTagDeadline_llc (i : SlotId) : (s.setTagDeadline i).llc = s.llc := rfl
@[simp] theorem State.setTagDeadline_br (i : SlotId) : (s.setTagDeadline i).br = s.br := rfl
@[simp] theorem State.setTagDeadline_pu (i : SlotId) : (s.setTagDeadline i).pu = s.pu := rfl
@[simp] theorem State.setTagDeadline_ls (i : SlotId) : (s.setTagDeadline i).ls = s.ls := rfl
@[simp] theorem State.setTagDeadline_er (i : SlotId) : (s.setTagDeadline i).er = s.er := rfl
@[simp] theorem State.setTagDeadline_cru (i : SlotId) : (s.setTagDeadline i).cru = s.cru := rfl
@[simp] theorem State.setTagDeadline_free (i : SlotId) : (s.setTagDeadline i).free = s.free := rfl

/-! ### `State.clearCollection` -/

@[simp] theorem State.clearCollection_pending (i : SlotId) : (s.clearCollection i).pending = s.pending := rfl
@[simp] theorem State.clearCollection_pins (i : SlotId) : (s.clearCollection i).pins = s.pins := rfl
@[simp] theorem State.clearCollection_ports (i : SlotId) : (s.clearCollection i).ports = s.ports := rfl
@[simp] theorem State.clearCollection_mpu (i : SlotId) : (s.clearCollection i).mpu = s.mpu := rfl
@[simp] theorem State.clearCollection_slots (i : SlotId) :
    (s.clearCollection i).slots = put s.slots i { s.slot i with collection := emptyCollection } := rfl
@[simp] theorem State.clearCollection_ssu (i : SlotId) : (s.clearCollection i).ssu = s.ssu := rfl
@[simp] theorem State.clearCollection_llc (i : SlotId) : (s.clearCollection i).llc = s.llc := rfl
@[simp] theorem State.clearCollection_br (i : SlotId) : (s.clearCollection i).br = s.br := rfl
@[simp] theorem State.clearCollection_pu (i : SlotId) : (s.clearCollection i).pu = s.pu := rfl
@[simp] theorem State.clearCollection_ls (i : SlotId) : (s.clearCollection i).ls = s.ls := rfl
@[simp] theorem State.clearCollection_er (i : SlotId) : (s.clearCollection i).er = s.er := rfl
@[simp] theorem State.clearCollection_cru (i : SlotId) : (s.clearCollection i).cru = s.cru := rfl
@[simp] theorem State.clearCollection_free (i : SlotId) : (s.clearCollection i).free = s.free := rfl

/-! ### `State.markComplete` -/

@[simp] theorem State.markComplete_pending (i : SlotId) : (s.markComplete i).pending = s.pending := rfl
@[simp] theorem State.markComplete_pins (i : SlotId) : (s.markComplete i).pins = s.pins := rfl
@[simp] theorem State.markComplete_ports (i : SlotId) : (s.markComplete i).ports = s.ports := rfl
@[simp] theorem State.markComplete_mpu (i : SlotId) : (s.markComplete i).mpu = s.mpu := rfl
@[simp] theorem State.markComplete_ssu (i : SlotId) : (s.markComplete i).ssu = s.ssu := rfl
@[simp] theorem State.markComplete_llc (i : SlotId) : (s.markComplete i).llc = s.llc := rfl
@[simp] theorem State.markComplete_br (i : SlotId) : (s.markComplete i).br = s.br := rfl
@[simp] theorem State.markComplete_pu (i : SlotId) : (s.markComplete i).pu = s.pu := rfl
@[simp] theorem State.markComplete_ls (i : SlotId) : (s.markComplete i).ls = s.ls := rfl
@[simp] theorem State.markComplete_er (i : SlotId) : (s.markComplete i).er = s.er := rfl
@[simp] theorem State.markComplete_cru (i : SlotId) : (s.markComplete i).cru = s.cru := rfl
@[simp] theorem State.markComplete_free (i : SlotId) : (s.markComplete i).free = s.free := rfl

/-! ### `State.refreshReports` -/

@[simp] theorem State.refreshReports_pending : (s.refreshReports).pending = s.pending := rfl
@[simp] theorem State.refreshReports_pins :
    (s.refreshReports).pins = { s.pins with attnN := s.attnLevel } := rfl
@[simp] theorem State.refreshReports_ports : (s.refreshReports).ports = s.ports := rfl
@[simp] theorem State.refreshReports_slots : (s.refreshReports).slots = s.slots := rfl
@[simp] theorem State.refreshReports_ssu : (s.refreshReports).ssu = s.ssu := rfl
@[simp] theorem State.refreshReports_llc : (s.refreshReports).llc = s.llc := rfl
@[simp] theorem State.refreshReports_br : (s.refreshReports).br = s.br := rfl
@[simp] theorem State.refreshReports_pu : (s.refreshReports).pu = s.pu := rfl
@[simp] theorem State.refreshReports_ls : (s.refreshReports).ls = s.ls := rfl
@[simp] theorem State.refreshReports_er : (s.refreshReports).er = s.er := rfl
@[simp] theorem State.refreshReports_cru : (s.refreshReports).cru = s.cru := rfl
@[simp] theorem State.refreshReports_free : (s.refreshReports).free = s.free := rfl

/-! ### `State.clearWork` -/

@[simp] theorem State.clearWork_pending : (s.clearWork).pending = s.pending := rfl
@[simp] theorem State.clearWork_pins : (s.clearWork).pins = s.pins := rfl
@[simp] theorem State.clearWork_ports : (s.clearWork).ports = s.ports := rfl
@[simp] theorem State.clearWork_mpu : (s.clearWork).mpu = s.mpu := rfl
@[simp] theorem State.clearWork_slots :
    (s.clearWork).slots = mapTable s.slots Slot.rearm := rfl
@[simp] theorem State.clearWork_ssu :
    (s.clearWork).ssu = { s.ssu with exposures := [] } := rfl
@[simp] theorem State.clearWork_llc :
    (s.clearWork).llc = { s.llc with focusRef := none } := rfl
@[simp] theorem State.clearWork_br :
    (s.clearWork).br = { s.br with history := [] } := rfl
@[simp] theorem State.clearWork_pu : (s.clearWork).pu = s.pu := rfl
@[simp] theorem State.clearWork_ls :
    (s.clearWork).ls = { s.ls with lines := mapTable s.ls.lines fun _ => .invalid } := rfl
@[simp] theorem State.clearWork_er : (s.clearWork).er = s.er := rfl
@[simp] theorem State.clearWork_cru : (s.clearWork).cru = s.cru := rfl
@[simp] theorem State.clearWork_free : (s.clearWork).free = s.free := rfl

/-! ### `State.endBypassEntry` -/

@[simp] theorem State.endBypassEntry_pending : (s.endBypassEntry).pending = s.pending := rfl
@[simp] theorem State.endBypassEntry_pins : (s.endBypassEntry).pins = s.pins := rfl
@[simp] theorem State.endBypassEntry_ports : (s.endBypassEntry).ports = s.ports := rfl
@[simp] theorem State.endBypassEntry_mpu : (s.endBypassEntry).mpu = s.mpu := rfl
@[simp] theorem State.endBypassEntry_ssu : (s.endBypassEntry).ssu = s.ssu := rfl
@[simp] theorem State.endBypassEntry_llc : (s.endBypassEntry).llc = s.llc := rfl
@[simp] theorem State.endBypassEntry_br : (s.endBypassEntry).br = s.br := rfl
@[simp] theorem State.endBypassEntry_pu : (s.endBypassEntry).pu = s.pu := rfl
@[simp] theorem State.endBypassEntry_ls : (s.endBypassEntry).ls = s.ls := rfl
@[simp] theorem State.endBypassEntry_er : (s.endBypassEntry).er = s.er := rfl
@[simp] theorem State.endBypassEntry_cru :
    (s.endBypassEntry).cru = { s.cru with proc := .none } := rfl
@[simp] theorem State.endBypassEntry_free : (s.endBypassEntry).free = s.free := rfl

/-! ### `State.release` -/

@[simp] theorem State.release_pending : (s.release).pending = s.pending := rfl
@[simp] theorem State.release_pins :
    (s.release).pins = { s.pins with resetN := true } := rfl
@[simp] theorem State.release_ports : (s.release).ports = s.ports := rfl
@[simp] theorem State.release_mpu : (s.release).mpu = s.mpu := rfl
@[simp] theorem State.release_slots : (s.release).slots = s.slots := rfl
@[simp] theorem State.release_ssu : (s.release).ssu = s.ssu := rfl
@[simp] theorem State.release_llc : (s.release).llc = s.llc := rfl
@[simp] theorem State.release_br : (s.release).br = s.br := rfl
@[simp] theorem State.release_pu : (s.release).pu = s.pu := rfl
@[simp] theorem State.release_ls :
    (s.release).ls = { s.ls with sweeping := true } := rfl
@[simp] theorem State.release_er : (s.release).er = s.er := rfl
@[simp] theorem State.release_cru : (s.release).cru = s.cru := rfl
@[simp] theorem State.release_free : (s.release).free = s.free := rfl

/-! ### `State.freeEntry` -/

@[simp] theorem State.freeEntry_pending (t : DownTag) : (s.freeEntry t).pending = s.pending := rfl
@[simp] theorem State.freeEntry_pins (t : DownTag) : (s.freeEntry t).pins = s.pins := rfl
@[simp] theorem State.freeEntry_ports (t : DownTag) : (s.freeEntry t).ports = s.ports := rfl
@[simp] theorem State.freeEntry_mpu (t : DownTag) :
    (s.freeEntry t).mpu = { s.mpu with outstanding := put s.mpu.outstanding t none } := rfl
@[simp] theorem State.freeEntry_slots (t : DownTag) : (s.freeEntry t).slots = s.slots := rfl
@[simp] theorem State.freeEntry_ssu (t : DownTag) : (s.freeEntry t).ssu = s.ssu := rfl
@[simp] theorem State.freeEntry_llc (t : DownTag) : (s.freeEntry t).llc = s.llc := rfl
@[simp] theorem State.freeEntry_br (t : DownTag) : (s.freeEntry t).br = s.br := rfl
@[simp] theorem State.freeEntry_pu (t : DownTag) : (s.freeEntry t).pu = s.pu := rfl
@[simp] theorem State.freeEntry_ls (t : DownTag) : (s.freeEntry t).ls = s.ls := rfl
@[simp] theorem State.freeEntry_er (t : DownTag) : (s.freeEntry t).er = s.er := rfl
@[simp] theorem State.freeEntry_free (t : DownTag) : (s.freeEntry t).free = s.free := rfl

/-! ### `State.cycle` -/

@[simp] theorem State.cycle_pending : (s.cycle).pending = s.pending := rfl
@[simp] theorem State.cycle_pins : (s.cycle).pins = s.pins := rfl
@[simp] theorem State.cycle_ports : (s.cycle).ports = s.ports := rfl
@[simp] theorem State.cycle_mpu : (s.cycle).mpu = s.mpu := rfl
@[simp] theorem State.cycle_slots : (s.cycle).slots = s.slots := rfl
@[simp] theorem State.cycle_ssu :
    (s.cycle).ssu = s.ssu.tick s.pins.refsel := rfl
@[simp] theorem State.cycle_llc : (s.cycle).llc = s.llc := rfl
@[simp] theorem State.cycle_br : (s.cycle).br = s.br := rfl
@[simp] theorem State.cycle_pu : (s.cycle).pu = s.pu := rfl
@[simp] theorem State.cycle_ls : (s.cycle).ls = s.ls := rfl
@[simp] theorem State.cycle_er : (s.cycle).er = s.er := rfl
@[simp] theorem State.cycle_cru : (s.cycle).cru = s.cru := rfl
@[simp] theorem State.cycle_free : (s.cycle).free = s.free := rfl

/-! ### `State.dropTagDeadlines` -/

@[simp] theorem State.dropTagDeadlines_pending : (s.dropTagDeadlines).pending = s.pending := rfl
@[simp] theorem State.dropTagDeadlines_pins : (s.dropTagDeadlines).pins = s.pins := rfl
@[simp] theorem State.dropTagDeadlines_ports : (s.dropTagDeadlines).ports = s.ports := rfl
@[simp] theorem State.dropTagDeadlines_mpu : (s.dropTagDeadlines).mpu = s.mpu := rfl
@[simp] theorem State.dropTagDeadlines_slots :
    (s.dropTagDeadlines).slots = mapTable s.slots Slot.dropTagDeadline := rfl
@[simp] theorem State.dropTagDeadlines_ssu : (s.dropTagDeadlines).ssu = s.ssu := rfl
@[simp] theorem State.dropTagDeadlines_llc : (s.dropTagDeadlines).llc = s.llc := rfl
@[simp] theorem State.dropTagDeadlines_br : (s.dropTagDeadlines).br = s.br := rfl
@[simp] theorem State.dropTagDeadlines_pu : (s.dropTagDeadlines).pu = s.pu := rfl
@[simp] theorem State.dropTagDeadlines_ls : (s.dropTagDeadlines).ls = s.ls := rfl
@[simp] theorem State.dropTagDeadlines_er : (s.dropTagDeadlines).er = s.er := rfl
@[simp] theorem State.dropTagDeadlines_cru : (s.dropTagDeadlines).cru = s.cru := rfl
@[simp] theorem State.dropTagDeadlines_free : (s.dropTagDeadlines).free = s.free := rfl

/-! ### The record that becomes FREE -/

variable (f : FrameRecord)

@[simp] theorem FrameRecord.freed_state : f.freed.state = .free := rfl
@[simp] theorem FrameRecord.freed_generation : f.freed.generation = f.generation := rfl
@[simp] theorem FrameRecord.freed_eofSeen : f.freed.eofSeen = f.eofSeen := rfl
@[simp] theorem FrameRecord.freed_tagSequence : f.freed.tagSequence = f.tagSequence := rfl
@[simp] theorem FrameRecord.freed_area : f.freed.area = f.area := rfl
@[simp] theorem FrameRecord.freed_offsetX : f.freed.offsetX = f.offsetX := rfl
@[simp] theorem FrameRecord.freed_offsetY : f.freed.offsetY = f.offsetY := rfl
@[simp] theorem FrameRecord.freed_bands : f.freed.bands = f.bands := rfl
@[simp] theorem FrameRecord.freed_beats : f.freed.beats = f.beats := rfl
@[simp] theorem FrameRecord.freed_held : f.freed.held = f.held := rfl
@[simp] theorem FrameRecord.freed_saturated : f.freed.saturated = f.saturated := rfl
@[simp] theorem FrameRecord.freed_flags : f.freed.flags = f.flags := rfl
@[simp] theorem FrameRecord.freed_firstIngest : f.freed.firstIngest = f.firstIngest := rfl
@[simp] theorem FrameRecord.freed_presented : f.freed.presented = f.presented := rfl
@[simp] theorem FrameRecord.freed_successor : f.freed.successor = f.successor := rfl
@[simp] theorem FrameRecord.freed_pendingTag : f.freed.pendingTag = f.pendingTag := rfl
@[simp] theorem FrameRecord.freed_ended : f.freed.ended = f.ended := rfl

end Sys2Proof.Machine
end

