-- ==== Sys2Proof/Laws/Within.lean ====
section
/-! SUPPORT. The relation `Within`: everything that the inner operations of the part (the frame table, the
band resolver, the line store, the egress queue, the profile areas) leave unchanged or keep within bounds.
One lemma per operation; the commands are put together from these. -/

namespace Sys2Proof.Machine

/-- A queued read but for what its needs have taken and its state. -/
def EgressEntry.fixed (e : EgressEntry) : EgressEntry := { e with needs := [], state := .gathering }

/-- Which procedure is in progress, and of a drain when it was accepted and whether it cancelled a
presentation. -/
def Procedure.core : Procedure → Nat × Option (Stamp × Bool)
  | .none => (0, Option.none)
  | .drain d => (1, some (d.accepted, d.cancelled))
  | .bypassEntry _ => (2, Option.none)

/-- What an inner operation from `s` to `t` keeps. -/
structure Within (s t : State) : Prop where
  pending : t.pending = s.pending
  pins : t.pins = s.pins
  lml : t.ports.lml = s.ports.lml
  dmp : t.ports.dmp = s.ports.dmp
  ump : s.ports.ump <+: t.ports.ump
  port : t.mpu.port = s.mpu.port
  class5 : t.mpu.class5 = s.mpu.class5
  starvation : t.mpu.starvation = s.mpu.starvation
  busy : ∀ e : DownTag, (t.mpu.outstanding[e]).isSome = (s.mpu.outstanding[e]).isSome
  path : PathOk s → PathOk t
  idle : s.mpu.intake = none → t.mpu.intake = none
  clock : t.ssu.clock = s.ssu.clock
  prescaler : t.ssu.prescaler = s.ssu.prescaler
  strobe : t.ssu.strobe = s.ssu.strobe
  exposures : t.ssu.exposures <:+ s.ssu.exposures
  llc : t.llc = { s.llc with modeTarget := t.llc.modeTarget }
  normal : s.llc.link ≠ .ready → s.llc.modeTarget = .normal → t.llc.modeTarget = .normal
  br : t.br = s.br
  bytes0 : t.pu.p0.bytes = s.pu.p0.bytes
  bytes1 : t.pu.p1.bytes = s.pu.p1.bytes
  requests : Load.short s.pu.load → Load.short t.pu.load
  sweeping : t.ls.sweeping = s.ls.sweeping
  lines : LinesOk s → LinesOk t
  reads : t.er.queue.map EgressEntry.fixed <:+ s.er.queue.map EgressEntry.fixed
  nextId : t.er.nextId = s.er.nextId
  shadow : t.cru.shadow = s.cru.shadow
  settings : t.cru.settings = s.cru.settings
  ringState : t.cru.ringState = s.cru.ringState
  produce : t.cru.produce = s.cru.produce
  recordWrite : t.cru.recordWrite = s.cru.recordWrite
  snapshot : t.cru.snapshot = s.cru.snapshot
  snapshotRepeat : t.cru.snapshotRepeat = s.cru.snapshotRepeat
  events : s.cru.events <+: t.cru.events
  few : s.cru.events.length ≤ 16 → t.cru.events.length ≤ 16
  proc : t.cru.proc.core = s.cru.proc.core
  waits : t.waitFor = s.waitFor

theorem Within.refl (s : State) : Within s s := by
  constructor <;>
    first
    | rfl
    | exact id
    | exact List.prefix_refl _
    | exact List.suffix_refl _
    | exact Nat.le_refl _
    | exact fun _ => rfl
    | exact fun _ => id

theorem Within.trans {s t u : State} (a : Within s t) (b : Within t u) : Within s u where
  pending := b.pending.trans a.pending
  pins := b.pins.trans a.pins
  lml := b.lml.trans a.lml
  dmp := b.dmp.trans a.dmp
  ump := a.ump.trans b.ump
  port := b.port.trans a.port
  class5 := b.class5.trans a.class5
  starvation := b.starvation.trans a.starvation
  busy := fun e => (b.busy e).trans (a.busy e)
  path := fun h => b.path (a.path h)
  idle := fun h => b.idle (a.idle h)
  clock := b.clock.trans a.clock
  prescaler := b.prescaler.trans a.prescaler
  strobe := b.strobe.trans a.strobe
  exposures := b.exposures.trans a.exposures
  llc := by rw [b.llc, a.llc]
  normal := fun h h' => b.normal (by rw [a.llc]; exact h) (a.normal h h')
  br := b.br.trans a.br
  bytes0 := b.bytes0.trans a.bytes0
  bytes1 := b.bytes1.trans a.bytes1
  requests := fun h => b.requests (a.requests h)
  sweeping := b.sweeping.trans a.sweeping
  lines := fun h => b.lines (a.lines h)
  reads := b.reads.trans a.reads
  nextId := b.nextId.trans a.nextId
  shadow := b.shadow.trans a.shadow
  settings := b.settings.trans a.settings
  ringState := b.ringState.trans a.ringState
  produce := b.produce.trans a.produce
  recordWrite := b.recordWrite.trans a.recordWrite
  snapshot := b.snapshot.trans a.snapshot
  snapshotRepeat := b.snapshotRepeat.trans a.snapshotRepeat
  events := a.events.trans b.events
  few := fun h => b.few (a.few h)
  proc := b.proc.trans a.proc
  waits := b.waits.trans a.waits

/-- The Egress Queue does not grow. -/
theorem Within.queue {s t : State} (h : Within s t) : t.er.queue.length ≤ s.er.queue.length := by
  simpa using h.reads.length_le

/-- A fold of operations that each keep within bounds. -/
theorem Within.foldl {α : Type} {f : State → α → State} (h : ∀ s x, Within s (f s x)) (l : List α) (s : State) :
    Within s (l.foldl f s) := by
  induction l generalizing s with
  | nil => exact .refl s
  | cons x l ih => exact (h s x).trans (ih _)

/-- Either of two operations. -/
theorem Within.ite {p : Prop} [Decidable p] {s a b : State} (ha : Within s a) (hb : Within s b) :
    Within s (if p then a else b) := by
  split <;> assumption

/-! ### Changes of one part -/

theorem Within.ofSlots (s : State) (x : Vector Slot 8) : Within s { s with slots := x } := by
  constructor <;>
    first
    | rfl
    | exact id
    | exact List.prefix_refl _
    | exact List.suffix_refl _
    | exact Nat.le_refl _
    | exact fun _ => rfl
    | exact fun _ => id

theorem Within.ofFree (s : State) (n : Nat) : Within s { s with free := n } := by
  constructor <;>
    first
    | rfl
    | exact id
    | exact List.prefix_refl _
    | exact List.suffix_refl _
    | exact Nat.le_refl _
    | exact fun _ => rfl
    | exact fun _ => id

theorem Within.ofMpu (s : State) (m : Mpu) (h1 : m.port = s.mpu.port) (h2 : m.class5 = s.mpu.class5)
    (h3 : m.starvation = s.mpu.starvation)
    (h4 : ∀ e : DownTag, (m.outstanding[e]).isSome = (s.mpu.outstanding[e]).isSome)
    (h5 : PathOk s → m.class3.isSome → m.intake.isSome) (h6 : s.mpu.intake = none → m.intake = none) :
    Within s { s with mpu := m } := by
  constructor <;>
    first
    | assumption
    | rfl
    | exact id
    | exact List.prefix_refl _
    | exact List.suffix_refl _
    | exact Nat.le_refl _
    | exact fun _ => id

theorem Within.ofLs (s : State) (l : Ls) (h1 : l.sweeping = s.ls.sweeping)
    (h2 : LinesOk s → ∀ i : LineIdx, (l.lines[i]).okAt i) : Within s { s with ls := l } := by
  constructor <;>
    first
    | assumption
    | rfl
    | exact id
    | exact List.prefix_refl _
    | exact List.suffix_refl _
    | exact Nat.le_refl _
    | exact fun _ => rfl
    | exact fun _ => id

theorem Within.ofPu (s : State) (p : Pu) (h1 : p.p0.bytes = s.pu.p0.bytes) (h2 : p.p1.bytes = s.pu.p1.bytes)
    (h3 : Load.short s.pu.load → Load.short p.load) : Within s { s with pu := p } := by
  constructor <;>
    first
    | assumption
    | rfl
    | exact id
    | exact List.prefix_refl _
    | exact List.suffix_refl _
    | exact Nat.le_refl _
    | exact fun _ => rfl
    | exact fun _ => id

theorem Within.ofEr (s : State) (e : Er) (h : e.queue.map EgressEntry.fixed <:+ s.er.queue.map EgressEntry.fixed)
    (h' : e.nextId = s.er.nextId) : Within s { s with er := e } := by
  constructor <;>
    first
    | assumption
    | rfl
    | exact id
    | exact List.prefix_refl _
    | exact List.suffix_refl _
    | exact Nat.le_refl _
    | exact fun _ => rfl
    | exact fun _ => id

theorem Within.ofExposures (s : State) (l : List Strobe) (h : l <:+ s.ssu.exposures) :
    Within s { s with ssu := { s.ssu with exposures := l } } := by
  constructor <;>
    first
    | assumption
    | rfl
    | exact id
    | exact List.prefix_refl _
    | exact List.suffix_refl _
    | exact Nat.le_refl _
    | exact fun _ => rfl
    | exact fun _ => id

theorem Within.ofTarget (s : State) (m : Mode) (h : s.llc.link ≠ .ready → s.llc.modeTarget = .normal → m = .normal) :
    Within s { s with llc := { s.llc with modeTarget := m } } := by
  constructor <;>
    first
    | assumption
    | rfl
    | exact id
    | exact List.prefix_refl _
    | exact List.suffix_refl _
    | exact Nat.le_refl _
    | exact fun _ => rfl

theorem Within.complete (s : State) (c : UpCompletion) : Within s (s.complete c) := by
  constructor <;>
    first
    | rfl
    | exact id
    | exact List.prefix_refl _
    | exact List.suffix_refl _
    | exact List.prefix_append _ _
    | exact Nat.le_refl _
    | exact fun _ => rfl
    | exact fun _ => id

theorem Within.raiseFor (s : State) (x : Option (SlotId × Generation)) (e : Event) : Within s (s.raiseFor x e) := by
  unfold State.raiseFor
  split
  · split
    · next h =>
      constructor <;>
        first
        | rfl
        | exact id
        | exact List.prefix_refl _
        | exact List.suffix_refl _
        | exact List.prefix_append _ _
        | exact Nat.le_refl _
        | exact fun _ => rfl
        | exact fun _ => id
        | exact fun _ => by simp; omega
    · constructor <;>
        first
        | rfl
        | exact id
        | exact List.prefix_refl _
        | exact List.suffix_refl _
        | exact Nat.le_refl _
        | exact fun _ => rfl
        | exact fun _ => id
  · exact .refl s

theorem Within.raise (s : State) (e : Event) : Within s (s.raise e) := .raiseFor s _ e

theorem Within.raiseSlot (s : State) (i : SlotId) (e : Event) : Within s (s.raiseSlot i e) := .raiseFor s _ e

theorem Within.raiseIf (s : State) (x : Option (SlotId × Generation)) (e : Option Event) :
    Within s (s.raiseIf x e) := by
  cases e
  · exact .refl s
  · exact .raiseFor s x _

theorem Within.modDrain (s : State) (f : Drain → Drain)
    (h : ∀ d, (f d).waitFor = d.waitFor ∧ (f d).accepted = d.accepted ∧ (f d).cancelled = d.cancelled := by
      intro d; exact ⟨rfl, rfl, rfl⟩) : Within s (s.modDrain f) := by
  unfold State.modDrain
  split
  · next d e =>
    constructor <;>
      first
      | rfl
      | exact id
      | exact List.prefix_refl _
      | exact List.suffix_refl _
      | exact Nat.le_refl _
      | exact fun _ => rfl
      | exact fun _ => id
      | exact (h d).1.trans (by simp only [State.waitFor, e])
      | exact (by rw [e]; simp only [Procedure.core, (h d).2.1, (h d).2.2])
  · exact .refl s

/-! ### Slots and frame records -/

theorem Within.modSlot (s : State) (i : SlotId) (f : Slot → Slot) : Within s (s.modSlot i f) := .ofSlots s _

theorem Within.modFrame (s : State) (i : SlotId) (f : FrameRecord → FrameRecord) : Within s (s.modFrame i f) :=
  .ofSlots s _

theorem Within.beginGen (s : State) (i : SlotId) : Within s (s.beginGen i) := .ofSlots s _

theorem Within.setTagDeadline (s : State) (i : SlotId) : Within s (s.setTagDeadline i) := .ofSlots s _

theorem Within.clearCollection (s : State) (i : SlotId) : Within s (s.clearCollection i) := .ofSlots s _

theorem Within.markComplete (s : State) (i : SlotId) : Within s (s.markComplete i) := .ofSlots s _

/-- The state after the free order of slots is taken. -/
theorem Within.slotOrder (s : State) (p : SlotId → Bool) : Within s (s.slotOrder p).2 := by
  unfold State.slotOrder
  split
  · exact .refl s
  · exact .refl s
  · exact .ofFree s _

theorem Within.forSlots (s : State) (p : SlotId → Bool) (f : State → SlotId → State)
    (h : ∀ s i, Within s (f s i)) : Within s (s.forSlots p f) :=
  (Within.slotOrder s p).trans (.foldl h _ _)

/-! ### Lines and claims -/

theorem LinesOk.put {s : State} {i : LineIdx} {r : LineRec} (h : LinesOk s) (hr : r.okAt i) (j : LineIdx) :
    ((put s.ls.lines i r)[j]).okAt j := by
  rw [put_get]
  split
  · next e => subst e; exact hr
  · exact h j

theorem Within.setLine (s : State) (i : LineIdx) (r : LineRec) (h : LinesOk s → r.okAt i) :
    Within s (s.setLine i r) :=
  .ofLs s _ rfl fun hs => hs.put (h hs)

theorem Within.mapLines (s : State) (f : LineRec → LineRec) (h : ∀ i r, LineRec.okAt i r → LineRec.okAt i (f r)) :
    Within s (s.mapLines f) :=
  .ofLs s _ rfl fun hs i => by rw [mapTable_get]; exact h i _ (hs i)

theorem Within.setClaims (s : State) (l : List Claim) : Within s (s.setClaims l) := .ofLs s _ rfl id

theorem Within.popClaim (s : State) (i : LineIdx) : Within s (s.popClaim i) := .setClaims s _

theorem Within.clearClaim (s : State) (i : LineIdx) (u : Bool) : Within s (s.clearClaim i u) := .setClaims s _

theorem Within.addClaim (s : State) (l : Nat) (k : ClaimKind) : Within s (s.addClaim l k) := .setClaims s _

theorem Within.joinClass1 (s : State) (i : LineIdx) : Within s (s.joinClass1 i) :=
  .ofMpu s _ rfl rfl rfl (fun _ => rfl) id id

theorem Within.joinDemanded (s : State) (i : SlotId) (g : Generation) (b : BandId) :
    Within s (s.joinDemanded i g b) :=
  .ofMpu s _ rfl rfl rfl (fun _ => rfl) id id

theorem Within.demand (s : State) (i : LineIdx) : Within s (s.demand i) := by
  unfold State.demand
  split
  · next tag band lanes e =>
    have h : Within s (s.setLine i (.held tag band lanes true)) := .setLine s i _ fun hs => by
      have := hs i; rw [e] at this; exact this
    dsimp only
    split
    · exact h.trans (.joinClass1 _ _)
    · exact h
  · exact .refl s

theorem Within.linesTakeBand (s : State) (i : SlotId) : Within s (s.linesTakeBand i) := by
  unfold State.linesTakeBand
  split
  · exact .refl s
  · refine .mapLines s _ fun i r h => ?_
    unfold LineRec.takeBand
    split
    · split <;> exact h
    · exact h

theorem LineRec.okAt_dropClean (slot : SlotId) (w : Option Window) (i : LineIdx) (r : LineRec)
    (h : r.okAt i) : (r.dropClean slot w).okAt i := by
  unfold LineRec.dropClean
  repeat' split
  all_goals first | exact h | trivial

theorem Within.dropUpdated (s : State) (line : Nat) : Within s (s.dropUpdated line) := by
  unfold State.dropUpdated
  split
  · split
    · exact .setLine s _ _ fun _ => trivial
    · exact .refl s
  · exact .refl s

/-! ### The mode target and the profile areas -/

/-- The mode target falls to NORMAL, and stays so, while the link is not READY (R76). -/
theorem State.modeTargetNow_normal {s : State} (h : s.llc.link ≠ .ready) (h' : s.llc.modeTarget = .normal) :
    s.modeTargetNow = .normal := by
  unfold State.modeTargetNow State.fastLink
  simp [h, h']

theorem Within.evalMode (s : State) (r : Bool) : Within s (s.evalMode r) := by
  unfold State.evalMode
  dsimp only
  split
  · exact (Within.ofTarget s _ State.modeTargetNow_normal).trans (.raise _ _)
  · exact .ofTarget s _ State.modeTargetNow_normal

theorem Within.modArea (s : State) (a : AreaId) (f : Area → Area)
    (h : ∀ x, (f x).bytes = x.bytes := by intro x; rfl) : Within s (s.modArea a f) := by
  cases a
  · exact .ofPu s _ (h _) rfl id
  · exact .ofPu s _ rfl (h _) id

theorem Within.setLoad (s : State) (l : Option Load) (h : Load.short s.pu.load → Load.short l) :
    Within s (s.setLoad l) :=
  .ofPu s _ rfl rfl h

theorem Load.short_none : Load.short none := fun _ h => by cases h

theorem Load.short_some {ld : Load} (h : ld.requests.length ≤ 4) : Load.short (some ld) := by
  intro x e; cases e; exact h

theorem Within.startLoad (s : State) (ld : Load) (a : AreaId) : Within s (s.startLoad ld a) := by
  unfold State.startLoad
  refine .trans ?_ (.evalMode _ _)
  refine .trans ?_ (.setLoad _ _ fun _ => Load.short_some (by simp [Load.pendingFor]))
  exact .modArea s a _

theorem Within.startPending (s : State) : Within s s.startPending := by
  unfold State.startPending
  split
  · exact .refl s
  · split
    · exact .startLoad s _ _
    · exact .refl s

theorem Within.triggerLoad (s : State) (x : LensIdentity) : Within s (s.triggerLoad x) :=
  ((Within.setLoad s _ fun _ => Load.short_some (by simp [Load.pendingFor])).trans (.evalMode _ _)).trans
    (.startPending _)

theorem Within.failLoad (s : State) (r : LoadReason) (c : Option FormatCheck) (b : Nat) :
    Within s (s.failLoad r c b) := by
  unfold State.failLoad
  split
  · exact .refl s
  · next ld e =>
    have h : Within s (match ld.area with
        | none => s
        | some a => s.modArea a fun x => { x with state := .free }) := by
      split
      · exact .refl s
      · exact .modArea s _ _
    refine .trans ?_ (.evalMode _ _)
    refine .trans ?_ (.raise _ _)
    refine .trans ?_ (.setLoad _ _ fun _ => Load.short_none)
    exact h

theorem Within.supersedeLoad (s : State) (x : LensIdentity) : Within s (s.supersedeLoad x) :=
  (Within.failLoad s _ _ _).trans (.triggerLoad _ _)

theorem Within.reload (s : State) : Within s s.reload := by
  unfold State.reload
  split
  · exact .raise s _
  · split
    · exact .triggerLoad s _
    · exact .supersedeLoad s _

theorem Within.markMatch (s : State) (x : LensIdentity) : Within s (s.markMatch x) := by
  unfold State.markMatch
  split
  · exact .refl s
  · refine .trans ?_ (.evalMode _ _)
    exact .modArea s _ _

theorem Within.takeIdentity (s : State) (x : LensIdentity) : Within s (s.takeIdentity x) := by
  unfold State.takeIdentity
  dsimp only
  refine (Within.markMatch s x).trans ?_
  split
  · split
    · exact .triggerLoad _ _
    · exact .refl _
  · split
    · exact .refl _
    · split
      · exact .supersedeLoad _ _
      · exact .failLoad _ _ _ _

theorem Within.activate (s : State) (ld : Load) (a : AreaId) : Within s (s.activate ld a) := by
  unfold State.activate
  dsimp only
  have h : Within s (match s.areaIn .active with
      | none => s
      | some o => s.modArea o fun x =>
          { x with state := if 0 < x.refs then AreaState.retiring else .free, matchMark := false }) := by
    split
    · exact .refl s
    · exact .modArea s _ _
  refine .trans ?_ (.evalMode _ _)
  refine .trans ?_ (.raise _ _)
  refine .trans ?_ (.setLoad _ _ fun _ => Load.short_none)
  refine .trans ?_ (.modArea _ _ _)
  exact h

theorem Within.validate (s : State) (ld : Load) (a : AreaId) (n : Nat) : Within s (s.validate ld a n) := by
  unfold State.validate
  split
  · exact .failLoad s _ _ _
  · exact .activate s _ _

theorem Within.checkComplete (s : State) (a : AreaId) : Within s (s.checkComplete a) := by
  unfold State.checkComplete
  split
  · exact .refl s
  · split
    · exact .refl s
    · split
      · exact .validate s _ _ _
      · exact .refl s

/-- Moving the entries that have timed out to the tail keeps their number (R112). -/
theorem requeue_length (f : BlockRequest → BlockRequest) (l : List BlockRequest) :
    (l.filter (fun r => !r.timedOut) ++ (l.filter BlockRequest.timedOut).map f).length = l.length := by
  simp only [List.length_append, List.length_map]
  induction l with
  | nil => rfl
  | cons r l ih =>
    cases h : r.timedOut
    · simp only [List.filter_cons, h]; simp only [Bool.not_false, if_true, List.length_cons]; simp; omega
    · simp only [List.filter_cons, h]; simp only [if_true, List.length_cons]; simp; omega

theorem Within.loadPeriod (s : State) : Within s s.loadPeriod := by
  unfold State.loadPeriod
  split
  · exact .refl s
  · next ld e =>
    have len (hs : Load.short s.pu.load) : (ld.requests.map BlockRequest.age).length ≤ 4 := by
      rw [List.length_map]; exact hs ld e
    dsimp only
    generalize ld.requests.map BlockRequest.age = aged at len ⊢
    split
    · refine .trans ?_ (.failLoad _ _ _ _)
      exact .setLoad s _ fun hs => Load.short_some (len hs)
    · refine .setLoad s _ fun hs => Load.short_some ?_
      refine Nat.le_trans ?_ (len hs)
      exact Nat.le_of_eq (requeue_length _ _)

theorem Within.capture (s : State) (i : SlotId) : Within s (s.capture i) := by
  unfold State.capture
  split
  · exact .modFrame s _ _
  · refine .trans ?_ (.modFrame _ _ _)
    exact .modArea s _ _

theorem Within.releaseArea (s : State) (a : Option AreaId) : Within s (s.releaseArea a) := by
  unfold State.releaseArea
  split
  · exact .refl s
  · dsimp only
    split
    · split
      · refine .trans ?_ (.modArea _ _ _)
        exact .modArea s _ _
      · refine .trans ?_ (.startPending _)
        refine .trans ?_ (.modArea _ _ _)
        exact .modArea s _ _
    · exact .modArea s _ _

theorem Within.abortForDrain (s : State) : Within s s.abortForDrain := by
  unfold State.abortForDrain
  split
  · exact .refl s
  · split
    · exact (Within.failLoad s _ _ _).trans (.modDrain _ _)
    · exact .refl s

theorem Within.resumeLoads (s : State) (b : Bool) : Within s (s.resumeLoads b) := by
  unfold State.resumeLoads
  repeat' split
  all_goals
    first
    | exact .refl s
    | exact .startPending s
    | exact .failLoad s _ _ _
    | exact .triggerLoad s _

/-! ### Band resolution -/

/-- A completion test that keeps within bounds. -/
def Keeping (complete : SlotId → State → State) : Prop := ∀ i s, Within s (complete i s)

theorem Within.enterResolved (s : State) (i : SlotId) : Within s (s.enterResolved i) := by
  unfold State.enterResolved
  exact (Within.modFrame s _ _).trans (.releaseArea _ _)

theorem Within.writeBand {s : State} {complete : SlotId → State → State} (hc : Keeping complete) (i : SlotId)
    (b : BandId) (k : ResKind) (src : Source) : Within s (s.writeBand complete i b k src) := by
  unfold State.writeBand
  dsimp only
  refine Within.trans ?_ (.raiseIf _ _ _)
  refine Within.trans ?_ (.joinDemanded _ _ _ _)
  split
  · exact ((Within.modSlot s _ _).trans (.enterResolved _ _)).trans (hc _ _)
  · exact .modSlot s _ _

theorem Within.takeBand {s : State} {complete : SlotId → State → State} (hc : Keeping complete) (e : BandEvent)
    (i : SlotId) (g : Generation) (b : BandId) : Within s (s.takeBand complete e i g b) := by
  unfold State.takeBand
  dsimp only
  split
  · split
    · exact .refl s
    · exact .writeBand hc _ _ _ _
  · exact .refl s

theorem Within.takeBands {s : State} {complete : SlotId → State → State} (hc : Keeping complete) (e : BandEvent)
    (i : SlotId) : Within s (s.takeBands complete e i) :=
  .foldl (fun _ _ => .takeBand hc _ _ _ _) _ _

theorem Within.takeAllBands {s : State} {complete : SlotId → State → State} (hc : Keeping complete)
    (e : BandEvent) : Within s (s.takeAllBands complete e) :=
  .forSlots s _ _ fun _ _ => .takeBands hc _ _

theorem Within.expireBand {s : State} {complete : SlotId → State → State} (hc : Keeping complete) (i : SlotId)
    (g : Generation) (b : BandId) : Within s (s.expireBand complete i g b) := by
  unfold State.expireBand
  split
  · exact .takeBand hc _ _ _ _
  · exact .refl s

/-! ### Generations -/

theorem matchStrobe_suffix {c : BitVec 16} {l : List Strobe} {e : Strobe} {rest : List Strobe}
    (h : matchStrobe c l = some (e, rest)) : rest <:+ l := by
  induction l with
  | nil => simp [matchStrobe] at h
  | cons x l ih =>
    simp only [matchStrobe] at h
    split at h
    · simp only [Option.some.injEq, Prod.mk.injEq] at h
      rw [← h.2]
      exact List.suffix_cons ..
    · exact (ih h).trans (List.suffix_cons ..)

theorem Within.exposureStart (s : State) (i : SlotId) (tag : FrameTag) (d : Stamp) (h : Nat) :
    Within s (s.exposureStart i tag d h).2 := by
  unfold State.exposureStart
  split
  · next e => exact .ofExposures s _ (matchStrobe_suffix e)
  · exact .raiseSlot s _ _

theorem Within.applyTag {s : State} {complete : SlotId → State → State} (hc : Keeping complete) (i : SlotId)
    (tag : FrameTag) (d : Stamp) : Within s (s.applyTag complete i tag d) := by
  unfold State.applyTag
  dsimp only
  refine Within.trans ?_ (.foldl (fun _ _ => .expireBand hc _ _ _) _ _)
  refine Within.trans ?_ (.takeBands hc _ _)
  refine Within.trans ?_ (.linesTakeBand _ _)
  refine Within.trans ?_ (.capture _ _)
  refine Within.trans ?_ (.modFrame _ _ _)
  exact (Within.modSlot s _ _).trans (.exposureStart _ _ _ _ _)

theorem Within.enterUntagged {s : State} {complete : SlotId → State → State} (hc : Keeping complete)
    (i : SlotId) (stamp : Stamp) (missing : Bool) : Within s (s.enterUntagged complete i stamp missing) := by
  unfold State.enterUntagged
  dsimp only
  refine Within.trans ?_ (.takeBands hc _ _)
  refine Within.trans ?_ (.linesTakeBand _ _)
  refine Within.trans ?_ (.capture _ _)
  split
  · exact (Within.modSlot s _ _).trans (.raiseSlot _ _ _)
  · exact .modSlot s _ _

theorem Within.expireTag {s : State} {complete : SlotId → State → State} (hc : Keeping complete) (i : SlotId) :
    Within s (s.expireTag complete i) := by
  unfold State.expireTag
  split
  · split
    · exact .enterUntagged hc _ _ _
    · exact .refl s
  · exact .refl s

theorem Origin.isSome_markStale (i : SlotId) (o : Option Origin) : (Origin.markStale i o).isSome = o.isSome := by
  unfold Origin.markStale
  split <;> rfl

theorem Within.applyDescriptor (s : State) (i : SlotId) (d : Option Window) : Within s (s.applyDescriptor i d) := by
  unfold State.applyDescriptor
  dsimp only
  have h : ∀ t : State, Within t ({ t with mpu := { t.mpu with
      intake := t.mpu.intake.map (Presented.markStale i)
      outstanding := mapTable t.mpu.outstanding (Origin.markStale i) } }.mapLines (LineRec.dropClean i d)) := by
    intro t
    refine .trans ?_ (.mapLines _ _ (LineRec.okAt_dropClean i d))
    exact .ofMpu t _ rfl rfl rfl (fun e => by rw [mapTable_get, Origin.isSome_markStale])
      (fun h => by simpa [PathOk] using h) (fun h => by simpa using h)
  split
  · refine .trans ?_ (.beginGen _ _)
    exact .trans (.modSlot s _ _) (h _)
  · refine .trans ?_ (.modSlot _ _ _)
    exact .trans (.modSlot s _ _) (h _)

theorem Within.applyPending (s : State) (i : SlotId) : Within s (s.applyPending i) := by
  unfold State.applyPending
  split
  · exact .refl s
  · exact (Within.applyDescriptor s _ _).trans (.raise _ _)

theorem Within.afterComplete {s : State} {complete : SlotId → State → State} (hc : Keeping complete)
    (i : SlotId) : Within s (s.afterComplete complete i) := by
  unfold State.afterComplete
  dsimp only
  split
  · exact (Within.beginGen s _).trans (.applyTag hc _ _ _)
  · split
    · exact (Within.beginGen s _).trans (.enterUntagged hc _ _ _)
    · exact ((Within.beginGen s _).trans (.setTagDeadline _ _)).trans (.expireTag hc _)
  · exact .applyPending s _

theorem Within.completeGen {s : State} {complete : SlotId → State → State} (hc : Keeping complete)
    (i : SlotId) : Within s (s.completeGen complete i) :=
  ((Within.markComplete s i).trans (.raiseSlot _ _ _)).trans (.afterComplete hc _)

theorem Within.endGen {s : State} {complete : SlotId → State → State} (hc : Keeping complete) (i : SlotId) :
    Within s (s.endGen complete i) := by
  unfold State.endGen
  dsimp only
  split
  · refine .trans ?_ (.modFrame _ _ _)
    exact .modDrain s _
  · refine .trans ?_ (.enterUntagged hc _ _ _)
    refine .trans ?_ (.beginGen _ _)
    exact .modDrain s _

theorem Within.tryComplete (n : Nat) : Keeping (State.tryComplete n) := by
  induction n with
  | zero => exact fun _ s => .refl s
  | succ n ih =>
    intro i s
    unfold State.tryComplete
    dsimp only
    split
    · split
      · exact .endGen ih _
      · split
        · exact .completeGen ih _
        · exact .refl s
    · exact .refl s

theorem Within.testComplete : Keeping State.testComplete := .tryComplete 4

/-- The completion test that a truncation withholds until its last step. -/
theorem Within.noTest : Keeping fun _ s => s := fun _ s => .refl s

theorem Within.truncate (s : State) (i : SlotId) (t : PendingTag) : Within s (s.truncate i t) := by
  unfold State.truncate
  dsimp only
  refine Within.trans ?_ (.testComplete _ _)
  split
  · refine .trans ?_ (.takeBands .noTest _ _)
    exact .modFrame s _ _
  · refine .trans ?_ (.modFrame _ _ _)
    refine .trans ?_ (.takeBands .noTest _ _)
    exact .modFrame s _ _

theorem Within.takeTag (s : State) (i : SlotId) (t : PendingTag) : Within s (s.takeTag i t) := by
  unfold State.takeTag
  dsimp only
  split
  · exact .refl s
  · exact .applyTag .testComplete _ _ _
  · exact (Within.beginGen s _).trans (.applyTag .testComplete _ _ _)
  all_goals
    split
    · split
      · exact .refl s
      · exact .modFrame s _ _
    · exact .truncate s _ _

theorem Within.accountOpen (s : State) (i : SlotId) (n : Nat) (e : Bool) : Within s (s.accountOpen i n e) := by
  unfold State.accountOpen
  dsimp only
  refine Within.trans ?_ (.testComplete _ _)
  split
  · exact (Within.modFrame s _ _).trans (.setTagDeadline _ _)
  · exact .modFrame s _ _

theorem Within.account (s : State) (i : SlotId) (n : Nat) (e c : Bool) : Within s (s.account i n e c) := by
  unfold State.account
  dsimp only
  split
  · split
    · exact (Within.beginGen s _).trans (.accountOpen _ _ _ _)
    · split
      · exact .modFrame s _ _
      · exact .accountOpen s _ _ _
  · exact .refl s

theorem Within.forceFull (s : State) (i : SlotId) : Within s (s.forceFull i) := by
  unfold State.forceFull
  split
  · exact .takeBands .testComplete _ _
  · exact .enterUntagged .testComplete _ _ _
  · exact .refl s

theorem Within.decodeAttempt (s : State) (i : SlotId) : Within s (s.decodeAttempt i) := by
  unfold State.decodeAttempt
  dsimp only
  split
  · split
    · exact .refl s
    · exact (Within.modSlot s _ _).trans (.raiseSlot _ _ _)
  · refine Within.trans ?_ (.clearCollection _ _)
    split
    · exact .refl s
    · exact .takeTag s _ _

theorem Within.tagHandover (s : State) (i : SlotId) (a : Nat) (l : List Lane) (stale : Bool) :
    Within s (s.tagHandover i a l stale) := by
  unfold State.tagHandover
  split
  · exact .refl s
  · dsimp only
    split
    · split
      · exact (Within.modSlot s _ _).trans (.decodeAttempt _ _)
      · exact .modSlot s _ _
    · exact .refl s

end Sys2Proof.Machine
end

