-- ==== Sys2Proof/Laws/Lines.lean ====
section
/-! SUPPORT. `Within` for the operations of the line store, the egress queue and the memory path, and the
lengths of the runs of lanes they make. -/

namespace Sys2Proof.Machine

/-! ### Lengths -/

@[simp] theorem linePart_length (a : Nat) (l : List Lane) (line : Nat) : (linePart a l line).length = 256 := by
  unfold linePart
  dsimp only
  split <;> simp only [List.length_take, List.length_append, List.length_replicate] <;> omega

theorem mergeLanes_length {a b : List Lane} (ha : a.length = 256) (hb : b.length = 256) :
    (mergeLanes a b).length = 256 := by
  simp [mergeLanes, ha, hb]

theorem mergeBytes_length {a : List Byte} {b : List Lane} (ha : a.length = 256) (hb : b.length = 256) :
    (mergeBytes a b).length = 256 := by
  simp [mergeBytes, ha, hb]

@[simp] theorem overlay_length (d : List Byte) (o n : Nat) (b : List Byte) : (overlay d o n b).length = 256 := by
  simp [overlay]

@[simp] theorem freeBytes_length (a n : Nat) : (freeBytes a n).length = n := by simp [freeBytes]

theorem leBytes_length (n v : Nat) : (leBytes n v).length = n := by
  induction n generalizing v with
  | zero => rfl
  | succ n ih => simp [leBytes, ih]

theorem GainSetting.pair_length (u : GainSetting) (x y : Nat) (lo hi : Lane) : (u.pair x y lo hi).lanes.length = 2 := by
  unfold GainSetting.pair
  split
  · rfl
  · split <;> simp [leBytes_length]

theorem GainSetting.lanes_length (u : GainSetting) (y x : Nat) (l : List Lane) :
    (u.lanes y x l).lanes.length = l.length := by
  match l with
  | [] => rfl
  | [_] => rfl
  | lo :: hi :: rest =>
    have ih := GainSetting.lanes_length u y (x + 1) rest
    simp only [GainSetting.lanes, List.length_append, List.length_cons, GainSetting.pair_length, ih]; omega

theorem GainSetting.gain_length (u : GainSetting) (a : Nat) (l : List Lane) : (u.gain a l).lanes.length = l.length :=
  u.lanes_length ..

/-! ### The Intake Stage -/

theorem Within.modIntake (s : State) (f : Presented → Presented) : Within s (s.modIntake f) :=
  .ofMpu s _ rfl rfl rfl (fun _ => rfl) (fun h hc => by simpa using h hc) fun h => by simp [h]

theorem Within.setPhase (s : State) (ph : Phase) : Within s (s.setPhase ph) := .modIntake s _

theorem Within.emptyIntake (s : State) : Within s s.emptyIntake :=
  .ofMpu s _ rfl rfl rfl (fun _ => rfl) (fun _ h => by simp at h) fun _ => rfl

theorem Within.offer (s : State) (f : Forward) (h : s.mpu.intake.isSome) : Within s (s.offer f) :=
  .ofMpu s { s.mpu with class3 := some f, intake := s.mpu.intake.map fun p => { p with phase := .offered } }
    rfl rfl rfl (fun _ => rfl) (fun _ _ => by simpa using h) fun h => by simp [h]

theorem Within.offerIfCleared (s : State) : Within s s.offerIfCleared := by
  unfold State.offerIfCleared
  split
  · exact .refl s
  · next p e =>
    split
    · exact .offer s _ (by rw [e]; rfl)
    · exact .refl s

/-- Lanes laid over the data of a CLEAN record. -/
theorem Within.merged {s : State} {i : LineIdx} {tag : LineTag} {data : List Byte} (e : s.line i = .clean tag data)
    {l : List Lane} (h : l.length = 256) : Within s (s.setLine i (.clean tag (mergeBytes data l))) :=
  .setLine s i _ fun hs => by
    have := hs i
    rw [e] at this
    exact ⟨this.1, mergeBytes_length this.2 h⟩

/-! ### Reads -/

theorem Within.modRead (s : State) (r : Nat) (f : EgressEntry → EgressEntry)
    (h : ∀ e, (f e).fixed = e.fixed) : Within s (s.modRead r f) := by
  refine .ofEr s _ ?_ rfl
  have e : List.map EgressEntry.fixed (s.er.queue.map fun e => if e.id = r then f e else e) =
      s.er.queue.map EgressEntry.fixed := by
    rw [List.map_map]
    refine List.map_congr_left fun e _ => ?_
    dsimp only [Function.comp]
    split
    · exact h e
    · rfl
  dsimp only
  rw [e]

theorem Within.popRead (s : State) : Within s s.popRead :=
  .ofEr s _ (by simp only [List.map_drop]; exact List.drop_suffix _ _) rfl

theorem EgressEntry.fixed_fail (e : EgressEntry) : e.fail.fixed = e.fixed := rfl

theorem EgressEntry.fixed_serve (e : EgressEntry) (line : Nat) (data : List Byte) :
    (e.serve line data).fixed = e.fixed := by
  unfold EgressEntry.serve EgressEntry.readyIfServed
  dsimp only
  split <;> rfl

theorem Within.startFill (s : State) (i : LineIdx) (line : Nat) (slot : SlotId) (g : Generation) (b : Nat)
    (h : indexOf line = i) : Within s (s.startFill i line slot g b) := by
  have h1 : Within s (s.setLine i (.filling ⟨line, slot, g⟩ (freeBytes s.free 256) (fillParts line b).length [])) :=
    .setLine s i _ fun _ => ⟨h, by simp⟩
  refine h1.trans ?_
  refine .trans (.ofFree _ (s.free + 256)) ?_
  exact .ofMpu _ _ rfl rfl rfl (fun _ => rfl) id id

theorem Within.evalNeed (s : State) (i : LineIdx) (line read : Nat) (slot : SlotId) (g : Generation) (b : Nat)
    (h : indexOf line = i) : Within s (s.evalNeed i line read slot g b).1 := by
  unfold State.evalNeed
  split
  · split
    · exact (Within.popClaim s _).trans (.modRead _ _ _ fun e => e.fixed_serve _ _)
    · exact .startFill s _ _ _ _ _ h
  · exact .startFill s _ _ _ _ _ h
  · exact .demand s _
  · exact .refl s
  · exact .refl s

theorem Within.evalForwardRead (s : State) (i : LineIdx) (line : Nat) : Within s (s.evalForwardRead i line).1 := by
  unfold State.evalForwardRead
  split
  · exact .demand s _
  · split
    · exact .refl s
    · exact (Within.popClaim s _).trans (.offerIfCleared _)

theorem Within.evalForwardWrite (s : State) (i : LineIdx) (line a : Nat) (l : List Lane) :
    Within s (s.evalForwardWrite i line a l) := by
  unfold State.evalForwardWrite
  split
  · split
    · exact .demand s _
    · exact .refl s
    · exact .refl s
    · next tag data e =>
      split
      · refine .trans ?_ (.offerIfCleared _)
        refine .trans ?_ (.clearClaim _ _ _)
        exact .setLine s _ _ fun _ => trivial
      · refine .trans ?_ (.offerIfCleared _)
        refine .trans ?_ (.clearClaim _ _ _)
        exact .merged e (by simp)
    · exact (Within.clearClaim s _ _).trans (.offerIfCleared _)
  · exact (Within.clearClaim s _ _).trans (.offerIfCleared _)

theorem Within.evalForward (s : State) (i : LineIdx) (line : Nat) : Within s (s.evalForward i line).1 := by
  unfold State.evalForward
  split
  · exact .refl s
  · split
    · exact .evalForwardRead s _ _
    · exact .evalForwardWrite s _ _ _ _

theorem Within.takePosted (s : State) (i : LineIdx) (p : Presented) (slot : SlotId) (w : Window) :
    Within s (s.takePosted i p slot w) := by
  unfold State.takePosted
  refine .trans ?_ (.popClaim _ _)
  refine .trans ?_ (.emptyIntake _)
  refine .trans ?_ (.complete _ _)
  exact .account s _ _ _ _

theorem Within.postMerge {s : State} {i : LineIdx} {tag : LineTag} {band : Option BandId} {lanes : List Lane}
    {d : Bool} (h : s.line i = .held tag band lanes d) (p : Presented) (slot : SlotId) (w : Window) :
    Within s (s.postMerge i p slot w tag band lanes d) := by
  have ht := Within.takePosted s i p slot w
  constructor
  case lines =>
    intro hs
    have hi := hs i
    rw [h] at hi
    have hr : LineRec.okAt i (.held tag band (mergeLanes lanes (p.lanesOn tag.line)) d) :=
      ⟨hi.1, mergeLanes_length hi.2 (by simp [Presented.lanesOn])⟩
    exact (Within.setLine _ i _ fun _ => hr).lines (ht.lines hs)
  all_goals
    first
    | exact ht.pending | exact ht.pins | exact ht.lml | exact ht.dmp | exact ht.ump | exact ht.port
    | exact ht.class5 | exact ht.idle | exact ht.normal | exact ht.starvation | exact ht.busy | exact ht.path | exact ht.clock
    | exact ht.prescaler | exact ht.strobe | exact ht.exposures | exact ht.llc | exact ht.br
    | exact ht.bytes0 | exact ht.bytes1 | exact ht.requests | exact ht.sweeping | exact ht.reads
    | exact ht.nextId | exact ht.shadow | exact ht.settings | exact ht.ringState | exact ht.produce
    | exact ht.recordWrite | exact ht.snapshot | exact ht.snapshotRepeat | exact ht.events | exact ht.few
    | exact ht.proc | exact ht.waits

theorem Within.postNew (s : State) (i : LineIdx) (p : Presented) (slot : SlotId) (w : Window) (line : Nat)
    (g : Generation) (band : Option BandId) (h : indexOf line = i) :
    Within s (s.postNew i p slot w line g band) := by
  unfold State.postNew
  refine .trans ?_ (.modFrame _ _ _)
  refine .trans ?_ (.setLine _ _ _ fun _ => ⟨h, by simp [Presented.lanesOn]⟩)
  exact .takePosted s _ _ _ _

theorem Within.writeThrough (s : State) (i : LineIdx) (u : Gained) (b : Bool) (h : s.mpu.intake.isSome) :
    Within s (s.writeThrough i u b) := by
  unfold State.writeThrough
  exact (Within.clearClaim s _ _).trans (.offer _ _ h)

theorem Within.resolvedWrite (s : State) (i : LineIdx) (line : Nat) (p : Presented) (slot : SlotId) (w : Window)
    (named : Option (Generation × BandId)) (h : s.mpu.intake.isSome) :
    Within s (s.resolvedWrite i line p slot w named).1 := by
  unfold State.resolvedWrite
  dsimp only
  split
  · split
    · next e =>
      split
      · exact .postMerge e _ _ _
      · exact .demand s _
    · exact .refl s
    · exact .refl s
    · next tag data e =>
      split
      · refine .trans ?_ (.writeThrough _ _ _ _ h)
        exact .merged e (by simp)
      · refine .trans ?_ (.writeThrough _ _ _ _ h)
        exact .setLine s _ _ fun _ => trivial
    · exact .writeThrough s _ _ _ h
  · exact .writeThrough s _ _ _ h

theorem Within.unresolvedWrite (s : State) (i : LineIdx) (line : Nat) (p : Presented) (slot : SlotId) (w : Window)
    (g : Generation) (band : Option BandId) (h : indexOf line = i) :
    Within s (s.unresolvedWrite i line p slot w g band).1 := by
  unfold State.unresolvedWrite
  split
  · exact .postNew s _ _ _ _ _ _ _ h
  · exact .postNew s _ _ _ _ _ _ _ h
  · next e =>
    split
    · exact .postMerge e _ _ _
    · exact .demand s _
  · exact .refl s
  · exact .refl s

theorem Within.evalIngest (s : State) (i : LineIdx) (line : Nat) (h : indexOf line = i) :
    Within s (s.evalIngest i line).1 := by
  unfold State.evalIngest
  split
  · exact .refl s
  · next p e =>
    split
    · dsimp only
      have some' : ∀ a : Option FtAnswer,
          (s.modIntake fun q => { q with answer := a }).mpu.intake.isSome := fun _ => by
        simp [State.modIntake, e]
      split
      · exact (Within.modIntake s _).trans (.forceFull _ _)
      · exact (Within.modIntake s _).trans (.resolvedWrite _ _ _ _ _ _ _ (some' _))
      · exact (Within.modIntake s _).trans (.resolvedWrite _ _ _ _ _ _ _ (some' _))
      · exact (Within.modIntake s _).trans (.unresolvedWrite _ _ _ _ _ _ _ _ h)
      · exact (Within.modIntake s _).trans (.unresolvedWrite _ _ _ _ _ _ _ _ h)
    · exact .refl _

/-! ### Evaluating heads -/

theorem State.headClaim_on {s : State} {i : LineIdx} {c : Claim} (h : s.headClaim i = some c) :
    indexOf c.line = i := by
  have := List.find?_some h
  simpa [Claim.on] using this

theorem Within.evalClaim (s : State) (i : LineIdx) (c : Claim) (h : indexOf c.line = i) :
    Within s (s.evalClaim i c).1 := by
  unfold State.evalClaim
  split
  · exact .evalIngest s _ _ h
  · exact .evalForward s _ _
  · exact .evalNeed s _ _ _ _ _ _ h

theorem Within.evalHead (n : Nat) (i : LineIdx) (s : State) : Within s (State.evalHead n i s) := by
  induction n generalizing s with
  | zero => exact .refl s
  | succ n ih =>
    unfold State.evalHead
    split
    · exact .refl s
    · next c e =>
      split
      · exact .refl s
      · dsimp only
        have h := Within.evalClaim s i c (State.headClaim_on e)
        split
        · exact h.trans (ih _)
        · exact h

theorem Within.evalIndex (s : State) (i : LineIdx) : Within s (s.evalIndex i) := .evalHead _ _ _

theorem Within.evalIndices (s : State) (l : List Claim) : Within s (s.evalIndices l) :=
  .foldl (fun _ _ => .evalIndex _ _) _ _

theorem Within.settleIntake (n : Nat) (s : State) : Within s (State.settleIntake n s) := by
  induction n generalizing s with
  | zero => exact .refl s
  | succ n ih =>
    unfold State.settleIntake
    split
    · exact .refl s
    · split
      · dsimp only
        split
        · exact .refl s
        · split
          · refine .trans ?_ (ih _)
            refine .trans ?_ (.evalIndex _ _)
            refine .trans ?_ (.modIntake _ _)
            refine .trans ?_ (.ofMpu _ _ rfl rfl rfl (fun _ => rfl) (fun _ h => by simp at h) id)
            refine .trans ?_ (.setClaims _ _)
            split
            · split
              · exact .dropUpdated s _
              · exact .refl s
            · exact .refl s
          · split
            · exact (Within.evalIndex s _).trans (ih _)
            · exact .refl s
      · exact .refl s

/-! ### Withdrawal -/

theorem Within.withdrawIntake (s : State) : Within s s.withdrawIntake := by
  unfold State.withdrawIntake
  dsimp only
  refine .trans ?_ (.evalIndices _ _)
  refine .trans ?_ (.foldl (fun t c => ?_) _ _)
  · exact .setClaims s _
  · split
    · exact .dropUpdated _ _
    · exact .refl _

theorem Within.withdrawRead (s : State) (r : Nat) : Within s (s.withdrawRead r) := by
  unfold State.withdrawRead
  dsimp only
  exact (Within.setClaims s _).trans (.evalIndices _ _)

theorem Within.failReads (s : State) (l : List Nat) : Within s (s.failReads l) := by
  unfold State.failReads
  dsimp only
  refine .trans ?_ (.evalIndices _ _)
  refine .trans ?_ (.setClaims _ _)
  exact .foldl (fun _ _ => .modRead _ _ _ EgressEntry.fixed_fail) _ _

/-! ### Completions of fills and castouts -/

theorem Within.failFill (s : State) (i : LineIdx) (tag : LineTag) (f : List FillPartKind) :
    Within s (s.failFill i tag f) := by
  unfold State.failFill
  dsimp only
  refine .trans ?_ (.evalIndex _ _)
  refine .trans ?_ (.failReads _ _)
  refine .trans ?_ (.setClaims _ _)
  refine .trans ?_ (.raiseFor _ _ _)
  exact .setLine s _ _ fun _ => trivial

theorem Within.fillDone (s : State) (part : FillPart) (st : Status) (b : List Byte) :
    Within s (s.fillDone part st b) := by
  unfold State.fillDone
  dsimp only
  split
  · next tag data parts faulted e =>
    have hd (hs : LinesOk s) : indexOf tag.line = indexOf part.line ∧
        (overlay data (16 * part.firstBeat) (16 * part.beats) b).length = 256 := by
      have := hs (indexOf part.line)
      rw [e] at this
      exact ⟨this.1, overlay_length _ _ _ _⟩
    generalize overlay data (16 * part.firstBeat) (16 * part.beats) b = d at hd ⊢
    generalize (if st = .okay then faulted else faulted ++ [part.kind]) = f
    split
    · exact .setLine s _ (.filling tag _ _ _) fun hs => hd hs
    · split
      · refine .trans ?_ (.evalIndex _ _)
        exact .setLine s _ (.clean tag _) fun hs => hd hs
      · exact .failFill s _ _ _
  · exact .refl s

theorem castoutLeaves_ok {tag : LineTag} {l : List Lane} {i : LineIdx} (h : indexOf tag.line = i)
    (hl : l.length = 256) : (castoutLeaves tag l).okAt i := by
  unfold castoutLeaves
  split
  · exact ⟨h, by simpa using hl⟩
  · trivial

theorem Within.castoutDone (s : State) (i : LineIdx) (st : Status) : Within s (s.castoutDone i st) := by
  unfold State.castoutDone
  split
  · next tag band lanes d e =>
    dsimp only
    generalize decide (st = .fault) = failed
    have h0 : Within s (s.modDrain fun d =>
        { d with castouts := d.castouts + 1, faulted := d.faulted + bit failed }) := .modDrain s _
    have hl : (s.modDrain fun d =>
        { d with castouts := d.castouts + 1, faulted := d.faulted + bit failed }).ls = s.ls := by
      unfold State.modDrain; split <;> rfl
    generalize (s.modDrain fun d =>
        { d with castouts := d.castouts + 1, faulted := d.faulted + bit failed }) = t at h0 hl ⊢
    have hi (hs : LinesOk t) : indexOf tag.line = i ∧ lanes.length = 256 := by
      have := hs i
      simp only [State.line, hl] at this e
      rw [e] at this
      exact this
    refine .trans ?_ (.evalIndex _ _)
    cases failed
    · simp only [Bool.false_eq_true, if_false]
      refine .trans ?_ (.testComplete _ _)
      refine .trans ?_ (.modFrame _ _ _)
      exact h0.trans (.setLine _ _ _ fun hs => castoutLeaves_ok (hi hs).1 (hi hs).2)
    · simp only [if_true]
      refine .trans ?_ (.failReads _ _)
      refine .trans ?_ (.testComplete _ _)
      refine .trans ?_ (.modFrame _ _ _)
      refine .trans ?_ (.raiseFor _ _ _)
      exact h0.trans (.setLine _ _ _ fun _ => trivial)
  · exact .refl s

theorem Within.startCastout {s : State} {i : LineIdx} {tag : LineTag} {b : BandId} {lanes : List Lane} {d : Bool}
    (h : s.line i = .held tag (some b) lanes d) : Within s (s.startCastout i tag b lanes d).1 := by
  unfold State.startCastout
  dsimp only
  refine .trans ?_ (.modFrame _ _ _)
  refine .setLine s _ _ fun hs => ?_
  have := hs i
  rw [h] at this
  refine ⟨this.1, ?_⟩
  split
  · exact this.2
  · rw [GainSetting.gain_length]; exact this.2

/-! ### The Egress Queue -/

theorem Within.placeNeed (s : State) (e : EgressEntry) (n : Need) : Within s (s.placeNeed e n) :=
  (Within.addClaim s _ _).trans (.evalIndex _ _)

theorem Within.answerReads (n : Nat) (s : State) : Within s (State.answerReads n s) := by
  induction n generalizing s with
  | zero => exact .refl s
  | succ n ih =>
    unfold State.answerReads
    split
    · exact .refl s
    · split
      · exact .refl s
      all_goals exact ((Within.popRead s).trans (.complete _ _)).trans (ih _)

theorem Within.emptyQueue (n : Nat) (s : State) : Within s (State.emptyQueue n s) := by
  induction n generalizing s with
  | zero => exact .refl s
  | succ n ih =>
    unfold State.emptyQueue
    split
    · exact .refl s
    · split
      · exact ((Within.popRead s).trans (.complete _ _)).trans (ih _)
      · exact ((Within.popRead s).trans (.complete _ _)).trans (ih _)
      · dsimp only
        refine .trans ?_ (ih _)
        refine .trans ?_ (.complete _ _)
        refine .trans ?_ (.withdrawRead _ _)
        refine .trans ?_ (.modDrain _ _)
        exact .popRead s

/-- The queue emptied with room to spare is empty (R170). -/
theorem State.emptyQueue_nil (n : Nat) (s : State) (h : s.er.queue.length ≤ n) :
    (State.emptyQueue n s).er.queue = [] := by
  induction n generalizing s with
  | zero => simpa [State.emptyQueue] using h
  | succ n ih =>
    unfold State.emptyQueue
    split
    · assumption
    · next e rest he =>
      have hp : s.popRead.er.queue.length ≤ n := by simp [he] at h ⊢; omega
      split
      · exact ih _ hp
      · exact ih _ hp
      · refine ih _ ?_
        refine Nat.le_trans ?_ hp
        exact (((Within.modDrain s.popRead _).trans (.withdrawRead _ _)).trans (.complete _ _)).queue

/-! ### The end of a command, except for the reports -/

/-- What `finish` does before the reports follow. -/
theorem Within.settled (s : State) : Within s ((s.settleIntake 8).answerReads 16) :=
  (Within.settleIntake 8 s).trans (.answerReads _ _)

/-! ### Presentation and the forwarded requests -/

theorem Within.placeForward (s : State) (r : UpRequest) : Within s (s.placeForward r) := by
  unfold State.placeForward
  dsimp only
  refine .trans ?_ (.foldl (fun _ _ => .evalIndex _ _) _ _)
  refine .trans ?_ (.foldl (fun _ _ => .addClaim _ _ _) _ _)
  exact .setPhase s _

theorem Within.startPresented (s : State) (p : Presented) (h : s.mpu.intake.isSome) :
    Within s (s.startPresented p) := by
  unfold State.startPresented
  repeat' split
  all_goals
    first
    | exact .offer s _ h
    | exact .placeForward s _
    | exact .setPhase s _
    | skip
  dsimp only
  refine .trans ?_ (.evalIndex _ _)
  refine .trans ?_ (.addClaim _ _ _)
  exact .setPhase s _

theorem Within.resumeSwept (s : State) : Within s s.resumeSwept := by
  unfold State.resumeSwept
  split
  · next p e =>
    split
    · exact .startPresented s _ (by rw [e]; rfl)
    · exact .refl s
  · exact .refl s

theorem Within.reportSpan (s : State) (r : UpRequest) : Within s (s.reportSpan r) := by
  unfold State.reportSpan
  split
  · exact .raise s _
  · exact .refl s

theorem Within.accountGranted (s : State) (p : Presented) (f : Forward) : Within s (s.accountGranted p f) := by
  unfold State.accountGranted
  split
  · dsimp only
    refine .trans ?_ (.account _ _ _ _ _)
    split
    · split
      · exact .modFrame s _ _
      · exact .refl s
    · exact .refl s
  · exact .refl s

theorem Within.dropIfFault (s : State) (st : Status) (l : List Nat) : Within s (s.dropIfFault st l) := by
  unfold State.dropIfFault
  split
  · exact .refl s
  · exact .foldl (fun _ _ => .dropUpdated _ _) _ _

theorem Within.resolveSlot (s : State) (i : SlotId) : Within s (s.resolveSlot i) := by
  unfold State.resolveSlot
  split
  · exact .takeBands .testComplete _ _
  · exact .enterUntagged .testComplete _ _ _
  · exact .testComplete _ s

theorem Within.applyAllPending (s : State) : Within s s.applyAllPending :=
  .foldl (fun _ _ => .applyPending _ _) _ _

end Sys2Proof.Machine
end

