-- ==== Sys2Proof/Laws/Keeps.lean ====
section
/-! SUPPORT. What a whole command keeps, part by part: `Keeps F s t` says that every part of the state not
marked in `F` is the same in `t` as in `s` (or is kept within its bound). `finish` and the raw updates of one
block are covered here; `Laws/Commands.lean` has one lemma per command. -/

namespace Sys2Proof.Machine

/-- The parts of the state that a command keeps or may change, and the bounds it keeps. -/
inductive Part where
  | pending | resetN | straps | bypass | attnN | lml | dmp | ump | port | class5 | starvation | busy
  | clock | strobe | exposures | link | focusRef | br | areaBytes | sweeping | nextId | shadow | settings
  | ring | recordWrite | snapshot | events | proc | waits
  | path | lines | queue16 | starvation64 | edges8 | history256 | historyOrder | memories | requests
  | events16 | attnOk
  deriving DecidableEq, Repr

/-- A part is the same, or kept within its bound. -/
def Part.same (s t : State) : Part → Prop
  | .pending => t.pending = s.pending
  | .resetN => t.pins.resetN = s.pins.resetN
  | .straps => t.pins.ctlbase = s.pins.ctlbase ∧ t.pins.refsel = s.pins.refsel
  | .bypass => t.pins.bypass = s.pins.bypass
  | .attnN => t.pins.attnN = s.pins.attnN
  | .lml => t.ports.lml = s.ports.lml
  | .dmp => t.ports.dmp = s.ports.dmp
  | .ump => s.ports.ump <+: t.ports.ump
  | .port => t.mpu.port = s.mpu.port
  | .class5 => t.mpu.class5 = s.mpu.class5
  | .starvation => t.mpu.starvation = s.mpu.starvation
  | .busy => ∀ e : DownTag, (t.mpu.outstanding[e]).isSome = (s.mpu.outstanding[e]).isSome
  | .clock => t.ssu.clock = s.ssu.clock ∧ t.ssu.prescaler = s.ssu.prescaler
  | .strobe => t.ssu.strobe = s.ssu.strobe
  | .exposures => t.ssu.exposures <:+ s.ssu.exposures
  | .link => t.llc = { s.llc with modeTarget := t.llc.modeTarget, focusRef := t.llc.focusRef }
  | .focusRef => t.llc.focusRef = s.llc.focusRef
  | .br => t.br = s.br
  | .areaBytes => t.pu.p0.bytes = s.pu.p0.bytes ∧ t.pu.p1.bytes = s.pu.p1.bytes
  | .sweeping => t.ls.sweeping = s.ls.sweeping
  | .nextId => t.er.nextId = s.er.nextId
  | .shadow => t.cru.shadow = s.cru.shadow
  | .settings => t.cru.settings = s.cru.settings
  | .ring => t.cru.ringState = s.cru.ringState ∧ t.cru.produce = s.cru.produce
  | .recordWrite => t.cru.recordWrite = s.cru.recordWrite
  | .snapshot => t.cru.snapshot = s.cru.snapshot ∧ t.cru.snapshotRepeat = s.cru.snapshotRepeat
  | .events => s.cru.events <+: t.cru.events
  | .proc => t.cru.proc.core = s.cru.proc.core
  | .waits => t.waitFor = s.waitFor
  | .path => PathOk s → PathOk t
  | .lines => LinesOk s → LinesOk t
  | .queue16 => s.er.queue.length ≤ 16 → t.er.queue.length ≤ 16
  | .starvation64 => s.mpu.starvation ≤ 64 → t.mpu.starvation ≤ 64
  | .edges8 => s.ssu.exposures.length ≤ 8 → t.ssu.exposures.length ≤ 8
  | .history256 => s.br.history.length ≤ 256 → t.br.history.length ≤ 256
  | .historyOrder => HistoryOk s → HistoryOk t
  | .memories => MemoriesOk s → MemoriesOk t
  | .requests => Load.short s.pu.load → Load.short t.pu.load
  | .events16 => s.cru.events.length ≤ 16 → t.cru.events.length ≤ 16
  | .attnOk => AttnOk s → AttnOk t

theorem Part.same_refl (s : State) (p : Part) : p.same s s := by
  cases p <;>
    first
    | rfl
    | exact id
    | exact ⟨rfl, rfl⟩
    | exact List.prefix_refl _
    | exact List.suffix_refl _
    | exact fun _ => rfl

theorem Part.same_trans {s t u : State} {p : Part} (a : p.same s t) (b : p.same t u) : p.same s u := by
  cases p
  case ump => exact List.IsPrefix.trans a b
  case events => exact List.IsPrefix.trans a b
  case exposures => exact List.IsSuffix.trans b a
  case busy => exact fun e => (b e).trans (a e)
  case link => simp only [Part.same] at a b ⊢; rw [b, a]
  all_goals
    first
    | exact Eq.trans b a
    | exact ⟨b.1.trans a.1, b.2.trans a.2⟩
    | exact fun h => b (a h)

/-- Every part not marked in `F` is the same. -/
def Keeps (F : Part → Bool) (s t : State) : Prop := ∀ p, F p = false → p.same s t

/-- The marks of a list of parts. -/
def marks (l : List Part) (p : Part) : Bool := l.contains p

theorem Keeps.refl (F : Part → Bool) (s : State) : Keeps F s s := fun p _ => p.same_refl s

theorem Keeps.trans {F : Part → Bool} {s t u : State} (a : Keeps F s t) (b : Keeps F t u) : Keeps F s u :=
  fun p hp => Part.same_trans (a p hp) (b p hp)

theorem Keeps.mono {F G : Part → Bool} {s t : State} (a : Keeps F s t) (h : ∀ p, F p = true → G p = true) :
    Keeps G s t := fun p hp => a p (by
  cases e : F p
  · rfl
  · rw [h p e] at hp; cases hp)

/-- More parts may change. -/
theorem Keeps.widen {l m : List Part} {s t : State} (a : Keeps (marks l) s t)
    (h : ∀ x ∈ l, x ∈ m := by decide) : Keeps (marks m) s t :=
  a.mono fun p hp => by
    simp only [marks, List.contains_iff_mem] at hp ⊢
    exact h p hp

theorem Keeps.foldl {F : Part → Bool} {α : Type} {f : State → α → State} (h : ∀ s x, Keeps F s (f s x))
    (l : List α) (s : State) : Keeps F s (l.foldl f s) := by
  induction l generalizing s with
  | nil => exact .refl F s
  | cons x l ih => exact (h s x).trans (ih _)

/-- ATTN_N depends on the ring and the shadow's consumed index alone (R184). -/
theorem State.attnLevel_eq {s t : State} (h1 : t.cru.ringState = s.cru.ringState)
    (h2 : t.cru.produce = s.cru.produce) (h3 : t.cru.shadow = s.cru.shadow)
    (h4 : t.cru.settings.ring = s.cru.settings.ring) : t.attnLevel = s.attnLevel := by
  simp only [State.attnLevel, State.consumed, State.ringSize, h1, h2, h3, h4]

/-- The inner operations keep every part. -/
theorem Within.keeps {s t : State} (h : Within s t) (F : Part → Bool) : Keeps F s t := by
  intro p _
  cases p
  case pending => exact h.pending
  case resetN => exact congrArg Pins.resetN h.pins
  case straps => exact ⟨congrArg Pins.ctlbase h.pins, congrArg Pins.refsel h.pins⟩
  case bypass => exact congrArg Pins.bypass h.pins
  case attnN => exact congrArg Pins.attnN h.pins
  case lml => exact h.lml
  case dmp => exact h.dmp
  case ump => exact h.ump
  case port => exact h.port
  case class5 => exact h.class5
  case starvation => exact h.starvation
  case busy => exact h.busy
  case clock => exact ⟨h.clock, h.prescaler⟩
  case strobe => exact h.strobe
  case exposures => exact h.exposures
  case link => simp only [Part.same]; rw [h.llc]
  case focusRef => simp only [Part.same]; rw [h.llc]
  case br => exact h.br
  case areaBytes => exact ⟨h.bytes0, h.bytes1⟩
  case sweeping => exact h.sweeping
  case nextId => exact h.nextId
  case shadow => exact h.shadow
  case settings => exact h.settings
  case ring => exact ⟨h.ringState, h.produce⟩
  case recordWrite => exact h.recordWrite
  case snapshot => exact ⟨h.snapshot, h.snapshotRepeat⟩
  case events => exact h.events
  case proc => exact h.proc
  case waits => exact h.waits
  case path => exact h.path
  case lines => exact h.lines
  case queue16 => exact fun hs => Nat.le_trans h.queue hs
  case starvation64 => intro hs; rw [h.starvation]; exact hs
  case edges8 => exact fun hs => Nat.le_trans h.exposures.length_le hs
  case history256 => intro hs; rw [h.br]; exact hs
  case historyOrder => simp only [Part.same, HistoryOk, h.br]; exact id
  case memories => simp only [Part.same, MemoriesOk, h.shadow, h.bytes0, h.bytes1]; exact id
  case requests => exact h.requests
  case events16 => exact h.few
  case attnOk =>
    intro hs
    simp only [AttnOk, h.pins]
    rw [State.attnLevel_eq h.ringState h.produce h.shadow (congrArg Settings.ring h.settings)]
    exact hs

/-! ### `finish` -/

/-- The reports after `refreshReports`: ATTN_N stands as the ring has it. -/
theorem State.refreshReports_attn (s : State) : AttnOk s.refreshReports := rfl

theorem Keeps.refreshReports (s : State) : Keeps (marks [.attnN, .class5, .starvation]) s s.refreshReports := by
  intro p hp
  cases p <;>
    first
    | rfl
    | exact id
    | exact ⟨rfl, rfl⟩
    | exact List.prefix_refl _
    | exact List.suffix_refl _
    | exact fun _ => rfl
    | cases hp
    | skip
  intro hs
  simp only [State.refreshReports]
  split
  · exact Nat.zero_le _
  · exact hs

theorem Keeps.finish {F : Part → Bool} {s t : State} (h : Keeps F s t) (h1 : F .attnN = true)
    (h2 : F .class5 = true) (h3 : F .starvation = true) :
    Keeps (fun p => F p && p != .attnOk) s t.finish := by
  intro p hp
  by_cases e : p = .attnOk
  · subst e; exact fun _ => State.refreshReports_attn _
  · have hF : F p = false := by
      cases hF : F p
      · rfl
      · simp [hF, e] at hp
    refine Part.same_trans (h p hF) ?_
    refine Part.same_trans ((Within.settled t).keeps F p hF) ?_
    refine Keeps.refreshReports _ p ?_
    cases p <;> first | rfl | simp_all

/-- With nothing at the Intake Stage and no queued read, a command ends with the reports alone. -/
theorem State.finish_eq {s : State} (h1 : s.mpu.intake = none) (h2 : s.er.queue = []) :
    s.finish = s.refreshReports := by
  have e1 : State.settleIntake 8 s = s := by unfold State.settleIntake; rw [h1]
  have e2 : State.answerReads 16 s = s := by unfold State.answerReads; rw [h2]
  simp only [State.finish, e1, e2]

end Sys2Proof.Machine
end

