-- ==== Sys2Proof/Laws/Commands.lean ====
section
/-! SUPPORT. What each command keeps: one lemma per command, over `Keeps` of `Laws/Keeps.lean`. -/

namespace Sys2Proof.Machine

/-! ### Raw updates -/

theorem Keeps.ofSlots (F : Part → Bool) (s : State) (x : Vector Slot 8) : Keeps F s { s with slots := x } :=
  (Within.ofSlots s x).keeps F

/-- The Memory Path but for its table, its port, its class 5 and its count. -/
theorem Keeps.ofMpu (s : State) (m : Mpu) (h : PathOk s → m.class3.isSome → m.intake.isSome)
    (h' : s.mpu.starvation ≤ 64 → m.starvation ≤ 64) :
    Keeps (marks [.port, .class5, .starvation, .busy]) s { s with mpu := m } := by
  intro p hp
  cases p <;>
    first
    | assumption
    | rfl
    | exact id
    | exact ⟨rfl, rfl⟩
    | exact List.prefix_refl _
    | exact List.suffix_refl _
    | exact fun _ => rfl
    | cases hp

theorem Keeps.setProc (s : State) (x : Procedure) : Keeps (marks [.proc, .waits]) s (s.setProc x) := by
  intro p hp
  cases p <;>
    first
    | rfl
    | exact id
    | exact ⟨rfl, rfl⟩
    | exact List.prefix_refl _
    | exact List.suffix_refl _
    | exact fun _ => rfl
    | cases hp

theorem Keeps.modLlc (s : State) (f : Llc → Llc) : Keeps (marks [.link, .focusRef]) s (s.modLlc f) := by
  intro p hp
  cases p <;>
    first
    | rfl
    | exact id
    | exact ⟨rfl, rfl⟩
    | exact List.prefix_refl _
    | exact List.suffix_refl _
    | exact fun _ => rfl
    | cases hp

theorem Keeps.ofBr (s : State) (b : Br) (h : s.br.history.length ≤ 256 → b.history.length ≤ 256)
    (h' : HistoryOk s → HistoryOk { s with br := b }) : Keeps (marks [.br]) s { s with br := b } := by
  intro p hp
  cases p <;>
    first
    | assumption
    | rfl
    | exact id
    | exact ⟨rfl, rfl⟩
    | exact List.prefix_refl _
    | exact List.suffix_refl _
    | exact fun _ => rfl
    | cases hp

/-- The Band Resolver with its history as it was. -/
theorem Keeps.ofBrSame (s : State) (b : Br) (h : b.history = s.br.history) :
    Keeps (marks [.br]) s { s with br := b } :=
  .ofBr s b (fun hs => by rw [h]; exact hs) fun hs => by
    unfold HistoryOk at hs ⊢
    dsimp only
    rw [h]
    exact hs

theorem Keeps.sendPart (s : State) (x : PartFrame) : Keeps (marks [.lml]) s (s.sendPart x) := by
  intro p hp
  cases p <;>
    first
    | rfl
    | exact id
    | exact ⟨rfl, rfl⟩
    | exact List.prefix_refl _
    | exact List.suffix_refl _
    | exact fun _ => rfl
    | cases hp

/-- The Control and Reporting Unit with its events as they were. -/
theorem Keeps.ofCru (s : State) (c : Cru) (h : Memory.wf s.cru.shadow → Memory.wf c.shadow)
    (h' : c.events = s.cru.events) :
    Keeps (marks [.shadow, .settings, .ring, .recordWrite, .snapshot, .proc, .waits, .attnOk]) s
      { s with cru := c } := by
  intro p hp
  cases p <;>
    first
    | rfl
    | exact id
    | exact ⟨rfl, rfl⟩
    | exact List.prefix_refl _
    | exact List.suffix_refl _
    | exact fun _ => rfl
    | cases hp
    | skip
  · simp only [Part.same, h']; exact List.prefix_refl _
  · exact fun hm => ⟨h hm.1, hm.2⟩
  · simp only [Part.same, h']; exact id

/-- A request issued downstream. -/
theorem Keeps.issue (s : State) (t : DownTag) (o : Origin) (a n : Nat) (k : ReqKind) :
    Keeps (marks [.dmp, .busy]) s (s.issue t o a n k) := by
  intro p hp
  cases p <;>
    first
    | rfl
    | exact id
    | exact ⟨rfl, rfl⟩
    | exact List.prefix_refl _
    | exact List.suffix_refl _
    | exact fun _ => rfl
    | cases hp

theorem Keeps.freeEntry (s : State) (t : DownTag) : Keeps (marks [.busy, .waits]) s (s.freeEntry t) := by
  intro p hp
  cases p <;>
    first
    | rfl
    | exact id
    | exact ⟨rfl, rfl⟩
    | exact List.prefix_refl _
    | exact List.suffix_refl _
    | exact fun _ => rfl
    | cases hp
    | skip
  simp only [Part.same, State.freeEntry]
  split <;> simp_all [Procedure.core]

theorem Keeps.countStarvation (s : State) : Keeps (marks [.starvation]) s s.countStarvation := by
  intro p hp
  cases p <;>
    first
    | rfl
    | exact id
    | exact ⟨rfl, rfl⟩
    | exact List.prefix_refl _
    | exact List.suffix_refl _
    | exact fun _ => rfl
    | cases hp
    | skip
  intro _
  simp only [State.countStarvation]
  split <;> omega

theorem Keeps.takeReport (s : State) : Keeps (marks [.class5, .starvation]) s s.takeReport := by
  intro p hp
  cases p <;>
    first
    | rfl
    | exact id
    | exact ⟨rfl, rfl⟩
    | exact List.prefix_refl _
    | exact List.suffix_refl _
    | exact fun _ => rfl
    | exact fun _ => Nat.zero_le _
    | cases hp

/-- The parts that the end of a command may change. -/
abbrev reporting : List Part := [.attnN, .class5, .starvation]

/-- A command's end after inner operations. -/
theorem Keeps.finished {l : List Part} {s t : State} (h : Keeps (marks (reporting ++ l)) s t) :
    Keeps (marks (reporting ++ l)) s t.finish :=
  (h.finish rfl rfl rfl).mono fun p hp => by
    rw [Bool.and_eq_true] at hp
    exact hp.1

/-- A command's end makes ATTN_N right whatever was changed before it. -/
theorem Keeps.mended {l : List Part} {s t : State} (h : Keeps (marks (.attnOk :: reporting ++ l)) s t) :
    Keeps (marks (reporting ++ l)) s t.finish :=
  (h.finish rfl rfl rfl).mono fun p hp => by
    rw [Bool.and_eq_true] at hp
    have h1 := hp.1
    have h2 := hp.2
    simp only [marks, List.cons_append, List.contains_cons, Bool.or_eq_true] at h1 ⊢
    rcases h1 with h1 | h1
    · simp at h1 h2; exact absurd h1 h2
    · exact h1

/-! ### Pins -/

theorem Keeps.setBypass (s : State) (b : Bool) : Keeps (marks [.bypass]) s (s.setBypass b) := by
  intro p hp
  cases p <;>
    first
    | rfl
    | exact id
    | exact ⟨rfl, rfl⟩
    | exact List.prefix_refl _
    | exact List.suffix_refl _
    | exact fun _ => rfl
    | cases hp

theorem Keeps.release (s : State) : Keeps (marks [.resetN, .sweeping]) s s.release := by
  intro p hp
  cases p <;>
    first
    | rfl
    | exact id
    | exact ⟨rfl, rfl⟩
    | exact List.prefix_refl _
    | exact List.suffix_refl _
    | exact fun _ => rfl
    | cases hp

theorem Keeps.endSweep (s : State) : Keeps (marks (reporting ++ [.sweeping])) s s.endSweep := by
  unfold State.endSweep
  refine Keeps.finished ?_
  refine Keeps.trans ?_ ((Within.resumeSwept _).keeps _)
  intro p hp
  cases p <;>
    first
    | rfl
    | exact id
    | exact ⟨rfl, rfl⟩
    | exact List.prefix_refl _
    | exact List.suffix_refl _
    | exact fun _ => rfl
    | cases hp
    | skip
  intro _ i
  simp only [State.line, mapTable_get]
  trivial

/-! ### Emptying the part -/

theorem Keeps.cancelPresented (s : State) : Keeps (marks [.port]) s s.cancelPresented := by
  unfold State.cancelPresented
  split
  · exact .refl _ s
  · refine Keeps.trans ?_ ((Within.withdrawIntake _).keeps _)
    intro p hp
    cases p <;>
      first
      | rfl
      | exact id
      | exact ⟨rfl, rfl⟩
      | exact List.prefix_refl _
      | exact List.suffix_refl _
      | exact fun _ => rfl
      | cases hp
      | skip
    intro _ h
    simp at h

theorem Keeps.emptyPart (s : State) : Keeps (marks [.port]) s s.emptyPart :=
  ((Keeps.cancelPresented s).trans ((Within.forSlots _ _ _ fun _ _ => .resolveSlot _ _).keeps _)).trans
    (Keeps.ofSlots _ _ _)

/-- The parts that a procedure's start may change. -/
abbrev procedural : List Part := [.port, .proc, .waits]

theorem Keeps.startBypassEntry (s : State) : Keeps (marks procedural) s s.startBypassEntry := by
  unfold State.startBypassEntry
  dsimp only
  refine Keeps.trans ?_ ((Within.emptyQueue _ _).keeps _)
  refine Keeps.trans ?_ ((Keeps.setProc _ _).widen)
  refine Keeps.trans ?_ ((Keeps.emptyPart _).widen)
  refine Keeps.trans ?_ (Keeps.ofSlots _ _ _)
  exact (Keeps.setProc _ _).widen

theorem Keeps.endBypassEntry (s : State) : Keeps (marks [.proc, .waits]) s s.endBypassEntry :=
  (Keeps.ofSlots _ s _).trans (Keeps.setProc _ _)

theorem Keeps.modDrain (s : State) (f : Drain → Drain)
    (h : ∀ d, (f d).accepted = d.accepted ∧ (f d).cancelled = d.cancelled := by
      intro d; exact ⟨rfl, rfl⟩) : Keeps (marks [.waits]) s (s.modDrain f) := by
  unfold State.modDrain
  split
  · next d e =>
    intro p hp
    cases p <;>
      first
      | rfl
      | exact id
      | exact ⟨rfl, rfl⟩
      | exact List.prefix_refl _
      | exact List.suffix_refl _
      | exact fun _ => rfl
      | cases hp
      | skip
    simp only [Part.same]
    rw [e]
    simp only [Procedure.core, (h d).1, (h d).2]
  · exact .refl _ s

theorem Keeps.startDrain (s : State) : Keeps (marks procedural) s s.startDrain := by
  unfold State.startDrain
  dsimp only
  refine Keeps.trans ?_ ((Within.emptyQueue _ _).keeps _)
  refine Keeps.trans ?_ ((Within.abortForDrain _).keeps _)
  refine Keeps.trans ?_ ((Keeps.modDrain _ _).widen)
  refine Keeps.trans ?_ ((Keeps.emptyPart _).widen)
  exact (Keeps.setProc _ _).widen

/-- The parts that the end of a drain may change. -/
abbrev drained : List Part := [.port, .proc, .waits, .focusRef, .br]

theorem Keeps.clearWork (s : State) : Keeps (marks drained) s s.clearWork := by
  intro p hp
  cases p <;>
    first
    | rfl
    | exact id
    | exact ⟨rfl, rfl⟩
    | exact List.prefix_refl _
    | exact List.suffix_refl _
    | exact fun _ => rfl
    | exact fun _ => Nat.zero_le _
    | exact List.nil_suffix
    | cases hp
    | skip
  · intro _ i
    simp only [State.line, State.clearWork, mapTable_get]
    trivial
  · exact fun _ => by simp [HistoryOk, State.clearWork]

theorem Keeps.finishDrain (s : State) (d : Drain) : Keeps (marks drained) s (s.finishDrain d) := by
  unfold State.finishDrain
  dsimp only
  have h : Keeps (marks drained) s
      ((((s.clearWork.applyAllPending).raise d.doneEvent).setProc .none).resumeLoads d.loadAborted) := by
    refine Keeps.trans ?_ ((Within.resumeLoads _ _).keeps _)
    refine Keeps.trans ?_ ((Keeps.setProc _ _).widen)
    refine Keeps.trans ?_ ((Within.raise _ _).keeps _)
    refine Keeps.trans ?_ ((Within.applyAllPending _).keeps _)
    exact .clearWork s
  split
  · exact h.trans ((Keeps.startBypassEntry _).widen)
  · exact h

/-! ### The lens link -/

/-- The parts that the link may change without a frame of its own. -/
abbrev linked : List Part := [.link, .focusRef, .br]

theorem Keeps.changeLink (s : State) (e : LinkState) (r : LinkReason) (n : Nat) (c : Option Byte) :
    Keeps (marks [.link, .focusRef]) s (s.changeLink e r n c) := by
  unfold State.changeLink
  refine Keeps.trans ?_ ((Within.evalMode _ _).keeps _)
  refine Keeps.trans ?_ ((Within.raise _ _).keeps _)
  exact .modLlc s _

theorem Keeps.dropMode (s : State) : Keeps (marks [.link, .focusRef]) s s.dropMode := by
  unfold State.dropMode
  split
  · refine Keeps.trans ?_ ((Within.raise _ _).keeps _)
    exact .modLlc s _
  · exact .refl _ s

theorem Keeps.lose (s : State) : Keeps (marks [.br]) s { s with br := s.br.lose } :=
  .ofBr s _ (fun _ => Nat.zero_le _) fun _ => by simp [HistoryOk, Br.lose]

theorem Keeps.enterDown (s : State) (r : LinkReason) (n : Nat) : Keeps (marks linked) s (s.enterDown r n) := by
  unfold State.enterDown
  dsimp only
  refine Keeps.trans ?_ ((Within.evalMode _ _).keeps _)
  refine Keeps.trans ?_ ((Within.failLoad _ _ _ _).keeps _)
  refine Keeps.trans ?_ ((Keeps.modLlc _ _).widen)
  refine Keeps.trans ?_ ((Within.takeAllBands .testComplete _).keeps _)
  refine Keeps.trans ?_ ((Keeps.lose _).widen)
  refine Keeps.trans ?_ ((Keeps.dropMode _).widen)
  refine Keeps.trans ?_ ((Within.raise _ _).keeps _)
  exact (Keeps.modLlc _ _).widen

theorem Keeps.badPeriod (s : State) : Keeps (marks linked) s s.badPeriod := by
  unfold State.badPeriod
  dsimp only
  have h : Keeps (marks linked) s (s.modLlc fun l =>
    { l with run := s.llc.run + 1, acquire := if l.link = .acquiring then 0 else l.acquire }) :=
    (Keeps.modLlc s _).widen
  split
  · exact h.trans (.enterDown _ _ _)
  · split
    · exact h.trans ((Keeps.changeLink _ _ _ _ _).widen)
    · exact h

theorem Keeps.identPeriod (s : State) : Keeps (marks linked) s s.identPeriod := by
  unfold State.identPeriod
  split
  · exact .refl _ s
  · split
    · exact (Keeps.modLlc s _).widen
    · dsimp only
      split
      · exact (Keeps.modLlc s _).widen
      · refine Keeps.trans ?_ ((Keeps.changeLink _ _ _ _ _).widen)
        refine Keeps.trans ?_ ((Keeps.modLlc _ _).widen)
        exact (Keeps.modLlc s _).widen

theorem Keeps.periodEvent (s : State) : Keeps (marks linked) s s.periodEvent :=
  (Keeps.identPeriod s).trans ((Within.loadPeriod _).keeps _)

theorem Keeps.missPeriod (s : State) (d : Stamp) : Keeps (marks linked) s (s.missPeriod d) := by
  unfold State.missPeriod
  dsimp only
  refine Keeps.trans ?_ (.periodEvent _)
  refine Keeps.trans ?_ (.badPeriod _)
  exact (Keeps.modLlc s _).widen

theorem Keeps.restartLink (s : State) : Keeps (marks linked) s s.restartLink := by
  unfold State.restartLink
  split
  · exact .refl _ s
  · exact .enterDown s _ _

/-! ### Lens frames -/

/-- The parts that a lens frame may change. -/
abbrev framed : List Part := [.lml, .link, .focusRef, .br, .areaBytes]

theorem Keeps.testMarks (s : State) (x : Sample) : Keeps (marks framed) s (s.testMarks x) := by
  unfold State.testMarks
  split
  · dsimp only
    refine Keeps.trans ?_ ((Keeps.modLlc _ _).widen)
    split
    · exact .refl _ s
    · exact .foldl (fun _ _ => (Within.raiseIf _ _ _).keeps _) _ _
  · exact .refl _ s

theorem Br.push_length (b : Br) (x : Sample) (h : b.history.length ≤ 256) : (b.push x).history.length ≤ 256 := by
  unfold Br.push
  dsimp only
  split <;> simp <;> omega

theorem HistoryOk.push {s : State} {x : Sample} (h : HistoryOk s) (ha : s.br.admits x = true) :
    HistoryOk { s with br := s.br.push x } := by
  have joined (l : List Sample) (hl : l.IsChain fun a b => later b.stamp a.stamp = true)
      (hx : ∀ y, l.getLast? = some y → later x.stamp y.stamp = true) :
      (l ++ [x]).IsChain fun a b => later b.stamp a.stamp = true := by
    refine List.isChain_append.mpr ⟨hl, List.isChain_singleton _, ?_⟩
    intro y hy z hz
    simp at hz
    subst hz
    exact hx y hy
  unfold HistoryOk Br.push
  dsimp only
  unfold HistoryOk at h
  unfold Br.admits at ha
  split
  · refine joined _ h fun y hy => ?_
    rw [hy] at ha
    exact ha
  · next hlen =>
    refine joined _ (h.drop 1) fun y hy => ?_
    have : s.br.history.getLast? = some y := by
      rw [List.getLast?_drop] at hy
      split at hy
      · cases hy
      · exact hy
    rw [this] at ha
    exact ha

theorem Keeps.takeSample (s : State) (x : Sample) : Keeps (marks framed) s (s.takeSample x) := by
  unfold State.takeSample
  split
  · next ha =>
    dsimp only
    refine Keeps.trans ?_ ((Within.takeAllBands .testComplete _).keeps _)
    refine Keeps.trans ?_ (Keeps.widen (Keeps.ofBrSame _ _ (by rfl)))
    refine Keeps.trans ?_ (.testMarks _ _)
    exact (Keeps.ofBr s _ (s.br.push_length x) fun h => h.push ha).widen
  · exact .refl _ s

theorem Keeps.checkMode (s : State) (f : LensFrame) : Keeps (marks framed) s (s.checkMode f) := by
  unfold State.checkMode
  split
  · exact .refl _ s
  · exact ((Keeps.modLlc s _).widen).trans ((Within.raise _ _).keeps _)

theorem Keeps.acceptReply (s : State) (x : LensIdentity) : Keeps (marks framed) s (s.acceptReply x) := by
  unfold State.acceptReply
  dsimp only
  refine Keeps.trans ?_ ((Keeps.changeLink _ _ _ _ _).widen)
  refine Keeps.trans ?_ ((Keeps.modLlc _ _).widen)
  refine Keeps.trans ?_ ((Within.takeIdentity _ _).keeps _)
  refine Keeps.trans ?_ ((Within.raise _ _).keeps _)
  refine Keeps.trans (Keeps.modLlc s fun l => { l with identified := some x }).widen ?_
  refine Keeps.widen (m := framed) (.ofBrSame _ _ ?_)
  split <;> rfl

theorem Keeps.mismatch (s : State) (f : LensFrame) : Keeps (marks framed) s (s.mismatch f) := by
  unfold State.mismatch
  refine Keeps.trans ?_ ((Within.failLoad _ _ _ _).keeps _)
  refine Keeps.trans ?_ ((Keeps.changeLink _ _ _ _ _).widen)
  exact (Keeps.modLlc s _).widen

theorem Keeps.storeBlock (s : State) (a : AreaId) (n : Nat) (d : List Byte) :
    Keeps (marks framed) s (s.modArea a fun x => x.store n d) := by
  have hw : ∀ x : Area, Memory.wf x.bytes → Memory.wf (x.store n d).bytes := fun x h => Memory.wf_writeLanes h _ _
  intro p hp
  cases a <;> cases p <;>
    first
    | rfl
    | exact id
    | exact ⟨rfl, rfl⟩
    | exact List.prefix_refl _
    | exact List.suffix_refl _
    | exact fun _ => rfl
    | cases hp
    | skip
  · exact fun h => ⟨h.1, hw _ h.2.1, h.2.2⟩
  · exact fun h => ⟨h.1, h.2.1, hw _ h.2.2⟩

theorem Keeps.blockReply (s : State) (n : Nat) (d : List Byte) : Keeps (marks framed) s (s.blockReply n d) := by
  unfold State.blockReply
  split
  · exact .refl _ s
  · next ld e =>
    split
    · exact .refl _ s
    · next a ea =>
      split
      · dsimp only
        have short : ∀ t : State, t.pu.load = s.pu.load → Load.short t.pu.load →
            (ld.requests.filter fun r => r.block != n).length ≤ 4 := fun t ht hs =>
          Nat.le_trans (List.length_filter_le _ _) (hs ld (by rw [ht]; exact e))
        have hload : (s.modArea a fun x => x.store n d).pu.load = s.pu.load := by cases a <;> rfl
        have h1 : Keeps (marks framed) s ((s.modArea a fun x => x.store n d).setLoad
            (some { ld with requests := ld.requests.filter fun r => r.block != n })) :=
          (Keeps.storeBlock s a n d).trans
            ((Within.setLoad _ _ fun hs => Load.short_some (short _ hload hs)).keeps _)
        split
        · split
          · exact h1.trans ((Within.failLoad _ _ _ _).keeps _)
          · refine Keeps.trans ?_ ((Within.checkComplete _ _).keeps _)
            refine h1.trans ((Within.setLoad _ _ ?_).keeps _)
            exact fun hs => Load.short_some (hs _ rfl :)
        · exact h1.trans ((Within.checkComplete _ _).keeps _)
      · exact .refl _ s

theorem Keeps.takePayload (s : State) (x : Option (Nat × List Byte)) : Keeps (marks framed) s (s.takePayload x) := by
  cases x
  · exact .refl _ s
  · exact .blockReply s _ _

theorem Keeps.takeReady (s : State) (f : LensFrame) : Keeps (marks framed) s (s.takeReady f) := by
  unfold State.takeReady
  split
  · dsimp only
    refine Keeps.trans ?_ (.checkMode _ _)
    refine Keeps.trans ?_ (.takePayload _ _)
    exact .foldl (fun _ _ => .takeSample _ _) _ _
  · exact .mismatch s f

theorem Keeps.takeGood (s : State) (f : LensFrame) : Keeps (marks framed) s (s.takeGood f) := by
  have hm : ∀ (t : State) (g : Llc → Llc), Keeps (marks framed) t (t.modLlc g) := fun t g =>
    (Keeps.modLlc t g).widen
  have hc : ∀ (t : State) e r n c, Keeps (marks framed) t (t.changeLink e r n c) := fun t e r n c =>
    (Keeps.changeLink t e r n c).widen
  unfold State.takeGood
  split
  · exact ((hm s _).trans (hc _ _ _ _ _)).trans (.checkMode _ _)
  · dsimp only
    split
    · exact (hm s _).trans (.checkMode _ _)
    · exact (((hm s _).trans (hm _ _)).trans (hc _ _ _ _ _)).trans (.checkMode _ _)
  · split
    · exact (Keeps.acceptReply s _).trans (.checkMode _ _)
    · exact .checkMode s f
  · exact .takeReady s f
  · exact (hc s _ _ _ _).trans (.takeReady _ _)

theorem Load.offer_short {ld ld' : Load} {b : Nat} (h : ld.requests.length ≤ 4)
    (e : ld.offer = some (b, ld')) : ld'.requests.length ≤ 4 := by
  unfold Load.offer at e
  dsimp only at e
  repeat' split at e
  all_goals try cases e
  · simpa [markSent] using h
  · simp
  · next hn => simp; omega

theorem Keeps.answerReady (s : State) (q : BitVec 8) : Keeps (marks framed) s (s.answerReady q) := by
  unfold State.answerReady
  split
  · next b ld e =>
    refine Keeps.trans ?_ ((Keeps.sendPart _ _).widen)
    refine (Within.setLoad s _ fun hs => ?_).keeps _
    cases hl : s.pu.load with
    | none => simp [hl] at e
    | some ld0 =>
      rw [hl] at e
      exact Load.short_some (Load.offer_short (hs ld0 hl) e)
  · exact (Keeps.sendPart s _).widen

theorem Keeps.answerFrame (s : State) (f : LensFrame) : Keeps (marks framed) s (s.answerFrame f) := by
  have hs : ∀ (t : State) x, Keeps (marks framed) t (t.sendPart x) := fun t x =>
    (Keeps.sendPart t x).widen
  unfold State.answerFrame
  split
  · exact ((Keeps.modLlc s _).widen).trans (hs _ _)
  · split
    · exact hs s _
    · split
      · exact .answerReady s _
      · exact hs s _

theorem Keeps.lensFrame (s : State) (bytes : List Byte) : Keeps (marks framed) s (s.lensFrame bytes) := by
  have ha : ∀ e, Keeps (marks framed) s (s.arrival e) := fun e =>
    (Keeps.modLlc s _).widen
  have hl : ∀ {t u : State}, Keeps (marks linked) t u → Keeps (marks framed) t u := fun h =>
    h.widen
  unfold State.lensFrame
  split
  · split
    · exact .refl _ s
    · exact ((ha _).trans (hl (.badPeriod _))).trans (hl (.periodEvent _))
  · split
    · unfold State.goodFrame
      dsimp only
      refine Keeps.trans ?_ (.answerFrame _ _)
      refine Keeps.trans ?_ (hl (.periodEvent _))
      refine Keeps.trans ?_ (.takeGood _ _)
      exact (ha _).trans ((Keeps.modLlc _ _).widen)
    · exact ((ha _).trans (hl (.badPeriod _))).trans (hl (.periodEvent _))

/-! ### The control area -/

/-- The parts that a handed-over write may change before the command ends, but for the shadow. -/
abbrev obeyed : List Part :=
  [.attnOk, .attnN, .class5, .starvation, .settings, .ring, .recordWrite, .snapshot, .port, .proc, .waits, .link,
    .focusRef, .br]

/-- The parts that a handed-over write may change before the command ends. -/
abbrev handed : List Part := .shadow :: obeyed

/-- The Control and Reporting Unit with its shadow and its events as they were. -/
theorem Keeps.ofCruObeyed {s : State} {c : Cru} (h : c.shadow = s.cru.shadow) (h' : c.events = s.cru.events) :
    Keeps (marks obeyed) s { s with cru := c } := by
  intro p hp
  cases p
  case shadow => exact h
  case events => simp only [Part.same, h']; exact List.prefix_refl _
  case memories => simp only [Part.same, MemoriesOk, h]; exact id
  case events16 => simp only [Part.same, h']; exact id
  all_goals
    first
    | rfl
    | exact id
    | exact ⟨rfl, rfl⟩
    | exact List.prefix_refl _
    | exact List.suffix_refl _
    | exact fun _ => rfl
    | cases hp

theorem Keeps.takeRing (s : State) (old : Option Ring) : Keeps (marks obeyed) s (s.takeRing old) := by
  unfold State.takeRing
  split
  · exact .ofCruObeyed rfl rfl
  · split
    · exact .refl _ s
    · exact .ofCruObeyed rfl rfl

theorem Within.offerDescriptor (s : State) (i : SlotId) (d : Option Window) : Within s (s.offerDescriptor i d).1 := by
  unfold State.offerDescriptor
  split
  · exact .applyDescriptor s _ _
  · dsimp only
    exact .modSlot s _ _

theorem Within.commitSlot (s : State) (i : SlotId) : Within s (s.commitSlot i).1 := by
  unfold State.commitSlot
  dsimp only
  repeat' split
  all_goals
    first
    | exact .refl s
    | exact .offerDescriptor s _ _
    | (dsimp only; exact .modSlot s _ _)

theorem Within.commitSlots (s : State) : Within s s.commitSlots.1 := by
  unfold State.commitSlots
  generalize allSlots = l
  suffices h : ∀ (l : List SlotId) (acc : State × List (SlotId × Fate)), Within s acc.1 →
      Within s (l.foldl (fun acc i => ((acc.1.commitSlot i).1, acc.2 ++ [(i, (acc.1.commitSlot i).2)])) acc).1 from
    h l (s, []) (.refl s)
  intro l
  induction l with
  | nil => exact fun _ h => h
  | cons i l ih => exact fun acc h => ih _ (h.trans (.commitSlot _ _))

theorem Keeps.acceptCommit (s : State) : Keeps (marks obeyed) s s.acceptCommit := by
  unfold State.acceptCommit
  dsimp only
  refine Keeps.trans ?_ ((Within.evalMode _ _).keeps _)
  refine Keeps.trans ?_ ((Within.raise _ _).keeps _)
  refine Keeps.trans ?_ ((Within.commitSlots _).keeps _)
  refine Keeps.trans ?_ (.takeRing _ _)
  exact .ofCruObeyed rfl rfl

theorem Keeps.commit (s : State) : Keeps (marks obeyed) s s.commit := by
  unfold State.commit
  split
  · exact (Within.raise s _).keeps _
  · exact .acceptCommit s

/-- A snapshot captured and offered. -/
theorem Keeps.capture (s : State) (x : Option Snapshot) (l : List ReportWrite) :
    Keeps (marks (reporting ++ [.snapshot])) s
      { s with cru := { s.cru with snapshot := x }, mpu := { s.mpu with class5 := l } } := by
  intro p hp
  cases p <;>
    first
    | rfl
    | exact id
    | exact ⟨rfl, rfl⟩
    | exact List.prefix_refl _
    | exact List.suffix_refl _
    | exact fun _ => rfl
    | cases hp

theorem Keeps.startSnapshot (s : State) : Keeps (marks (reporting ++ [.snapshot])) s s.startSnapshot := by
  unfold State.startSnapshot
  split
  · exact (Within.raise s _).keeps _
  · dsimp only
    exact (Keeps.refreshReports s).widen.trans (.capture _ _ _)

theorem Keeps.snapshotMark (s : State) (x : Option Snapshot) (b : Bool) :
    Keeps (marks (reporting ++ [.snapshot])) s
      { s with cru := { s.cru with snapshot := x, snapshotRepeat := b } } := by
  intro p hp
  cases p <;>
    first
    | rfl
    | exact id
    | exact ⟨rfl, rfl⟩
    | exact List.prefix_refl _
    | exact List.suffix_refl _
    | exact fun _ => rfl
    | cases hp

theorem Keeps.requestSnapshot (s : State) :
    Keeps (marks (reporting ++ [.snapshot])) s s.requestSnapshot := by
  unfold State.requestSnapshot
  split
  · exact (Within.raise s _).keeps _
  · split
    · exact .startSnapshot s
    · split
      · exact .startSnapshot s
      · exact .snapshotMark s _ _

theorem Keeps.unlessRefused (s : State) (act : State → State) (h : Keeps (marks obeyed) s (act s)) :
    Keeps (marks obeyed) s (s.unlessRefused act) := by
  unfold State.unlessRefused
  split
  · exact (Within.raise s _).keeps _
  · exact h

theorem Keeps.command (s : State) : Keeps (marks obeyed) s s.command := by
  unfold State.command
  split
  · exact .refl _ s
  · exact .unlessRefused s _ (Keeps.startDrain s).widen
  · exact .unlessRefused s _ ((Within.reload s).keeps _)
  · exact .unlessRefused s _ (Keeps.restartLink s).widen
  · exact (Within.raise s _).keeps _

/-- What follows from a header word's act. -/
theorem Keeps.acted {s t : State} (h : Keeps (marks obeyed) s t) : Keeps (marks obeyed) s t.finish :=
  (h.finish rfl rfl rfl).mono fun p hp => by
    rw [Bool.and_eq_true] at hp
    exact hp.1

theorem Keeps.whenCovered (s : State) (w : ControlBytes) (o : Nat) (act : State → State)
    (h : Keeps (marks obeyed) s (act s)) : Keeps (marks obeyed) s (s.whenCovered w o act) := by
  unfold State.whenCovered
  split
  · exact h
  · exact .refl _ s

/-- What a handed-over write does after its bytes are in the shadow. -/
theorem Keeps.obey (s : State) (w : ControlBytes) :
    Keeps (marks obeyed) s ((((s.whenCovered w consumedOffset State.refreshReports).whenCovered w commitOffset
      fun s => s.commit.finish).whenCovered w commandOffset fun s => s.command.finish).whenCovered w snapshotOffset
        State.requestSnapshot) := by
  refine Keeps.trans ?_ (.whenCovered _ _ _ _ (Keeps.requestSnapshot _).widen)
  refine Keeps.trans ?_ (.whenCovered _ _ _ _ (.acted (.command _)))
  refine Keeps.trans ?_ (.whenCovered _ _ _ _ (.acted (.commit _)))
  exact .whenCovered _ _ _ _ (Keeps.refreshReports _).widen

theorem Keeps.handover (s : State) (w : ControlBytes) : Keeps (marks handed) s (s.handover w) := by
  unfold State.handover
  dsimp only
  refine Keeps.trans ?_ (Keeps.obey _ w).widen
  exact (Keeps.ofCru s _ (fun h => Memory.wf_writeLanes h _ _) (by rfl)).widen

/-! ### Completions -/

theorem Keeps.recordWriteDone (s : State) (st : Status) :
    Keeps (marks [.recordWrite, .events, .ring, .attnOk]) s (s.recordWriteDone st) := by
  have hl : (s.cru.events.drop 1).length ≤ s.cru.events.length := by simp
  unfold State.recordWriteDone
  split
  · exact .refl _ s
  · dsimp only
    split <;>
      · intro p hp
        cases p <;>
          first
          | rfl
          | exact id
          | exact ⟨rfl, rfl⟩
          | exact List.prefix_refl _
          | exact List.suffix_refl _
          | exact fun _ => rfl
          | exact fun h => Nat.le_trans hl h
          | cases hp

theorem Keeps.snapshotWriteDone (s : State) (st : Status) :
    Keeps (marks (reporting ++ [.snapshot])) s (s.snapshotWriteDone st) := by
  unfold State.snapshotWriteDone
  split
  · exact .refl _ s
  · dsimp only
    split
    · exact .snapshotMark s _ _
    · have h : ∀ e, Keeps (marks (reporting ++ [.snapshot])) s
          (({ s with cru := { s.cru with snapshot := none, snapshotRepeat := false } }).raise e) := by
        intro e
        refine Keeps.trans ?_ ((Within.raise _ _).keeps _)
        exact .snapshotMark s _ _
      split
      · exact (h _).trans (.startSnapshot _)
      · exact h _

end Sys2Proof.Machine
end

