-- ==== Sys2Proof/Laws/Exec.lean ====
section
/-! SUPPORT. What each command may change: the table `Instr.touches`, and `exec_keeps`, which says that a
command keeps every other part of the state and every bound of `Safety.lean`. -/

namespace Sys2Proof.Machine

/-- The parts that a command may change (the bounds are never among them). -/
def touches : Instr → List Part
  | .resetNLow _ _ =>
    [.resetN, .straps, .attnN, .port, .class5, .starvation, .busy, .clock, .strobe, .exposures, .link, .focusRef,
      .br, .areaBytes, .sweeping, .nextId, .shadow, .settings, .ring, .recordWrite, .snapshot, .events, .proc,
      .waits]
  | .resetNHigh => [.resetN, .sweeping]
  | .invalidateSweepEnd => reporting ++ [.sweeping]
  | .bypassRise => reporting ++ .bypass :: procedural
  | .bypassEntrySequenceEnd => [.proc, .waits]
  | .bypassFall => [.bypass]
  | .expoEdge => [.strobe, .exposures]
  | .upstreamRequest _ => reporting ++ [.port]
  | .egressQueueEntry => reporting ++ [.nextId]
  | .forwardedGrant => reporting ++ [.dmp, .busy]
  | .castoutGrant => [.starvation, .dmp, .busy]
  | .fillGrant => [.starvation, .dmp, .busy]
  | .eventRecordWriteGrant => [.class5, .starvation, .recordWrite, .dmp, .busy]
  | .snapshotWriteGrant => [.class5, .starvation, .dmp, .busy]
  | .upstreamOriginCompletion _ _ _ =>
    reporting ++ [.busy, .shadow, .settings, .ring, .recordWrite, .snapshot, .port, .proc, .waits, .link, .focusRef,
      .br]
  | .castoutCompletion _ _ => reporting ++ [.busy, .waits]
  | .fillCompletion _ _ _ => reporting ++ [.busy, .waits]
  | .eventRecordWriteCompletion _ _ => reporting ++ [.busy, .waits, .recordWrite, .events, .ring]
  | .snapshotWriteCompletion _ _ => reporting ++ [.busy, .waits, .snapshot]
  | .staleCompletion _ _ _ => []
  | .controlWrite _ | .commit _ | .consumedIndex _ | .snapshotRequest _ | .none | .drainRestart
  | .reloadProfile | .linkRestart | .unknownCommand _ =>
    reporting ++ [.shadow, .settings, .ring, .recordWrite, .snapshot, .port, .proc, .waits, .link, .focusRef, .br]
  | .drainStep4 => reporting ++ drained
  | .lensFrame _ => reporting ++ framed
  | .missingPeriod => reporting ++ linked
  | .resolveDeadlineExpiry _ _ => reporting
  | .tagDeadlineExpiry _ => reporting

/-- A state from which a step is told by equality of answers. -/
theorem next_keeps {F : Part → Bool} {s u t : State} (h : (.next u : Answer) = .next t) (k : Keeps F s u) :
    Keeps F s t := by
  cases h
  exact k

theorem Keeps.whenLive {l : List Part} {s : State} {act : State → State} (h : Keeps (marks l) s (act s)) :
    Keeps (marks l) s (s.whenLive act) := by
  unfold State.whenLive
  split
  · exact h
  · exact .refl _ s

theorem Keeps.inReset (s : State) (c : BitVec 8) (r : BitVec 2) :
    Keeps (marks (touches (.resetNLow c r))) s (s.inReset c r) := by
  intro p hp
  cases p <;>
    first
    | rfl
    | exact id
    | exact ⟨rfl, rfl⟩
    | exact List.prefix_refl _
    | exact List.suffix_refl _
    | exact fun _ => rfl
    | cases hp
    | skip
  · exact fun _ h => by simp [State.inReset, Mpu.reset] at h
  · intro _ i
    simp [State.line, State.inReset, Ls.reset, LineRec.okAt]
  · exact fun _ => Nat.zero_le _
  · exact fun _ => Nat.zero_le _
  · exact fun _ => Nat.zero_le _
  · exact fun _ => Nat.zero_le _
  · exact fun _ => by simp [HistoryOk, State.inReset, Br.reset]
  · exact fun _ => ⟨Memory.wf_nil, Memory.wf_nil, Memory.wf_nil⟩
  · exact fun _ => Load.short_none
  · exact fun _ => Nat.zero_le _

theorem Keeps.edge (s : State) : Keeps (marks [.strobe, .exposures]) s { s with ssu := s.ssu.edge } := by
  intro p hp
  cases p <;>
    first
    | rfl
    | exact id
    | exact ⟨rfl, rfl⟩
    | exact List.prefix_refl _
    | exact List.suffix_refl _
    | exact fun _ => rfl
    | cases hp
    | skip
  intro h
  simp only [Ssu.edge]
  split <;> simp <;> omega

/-- The Memory Path with its port and its Intake Stage changed. -/
theorem Keeps.ofPort (s : State) (m : Mpu) (h : PathOk s → m.class3.isSome → m.intake.isSome)
    (h1 : m.class5 = s.mpu.class5) (h2 : m.starvation = s.mpu.starvation)
    (h3 : m.outstanding = s.mpu.outstanding) : Keeps (marks (reporting ++ [.port])) s { s with mpu := m } := by
  intro p hp
  cases p <;>
    first
    | assumption
    | rfl
    | exact id
    | exact ⟨rfl, rfl⟩
    | exact List.prefix_refl _
    | exact List.suffix_refl _
    | cases hp
    | skip
  · exact fun e => by rw [h3]
  · simp only [Part.same, h2]; exact id

theorem Keeps.present (s : State) : Keeps (marks (reporting ++ [.port])) s s.present := by
  unfold State.present
  split
  · refine Keeps.finished ?_
    unfold State.presentHead
    split
    · exact .refl _ s
    · dsimp only
      refine Keeps.trans ?_ ((Within.startPresented _ _ rfl).keeps _)
      exact .ofPort s _ (fun _ _ => rfl) rfl rfl rfl
  · exact .refl _ s

theorem Keeps.arrive (s : State) (r : UpRequest) : Keeps (marks (reporting ++ [.port])) s (s.arrive r) :=
  .ofPort s _ (fun h => h) rfl rfl rfl

theorem Keeps.enterQueue (s : State) (p : Presented) (i : SlotId) (w : Window) (h : s.er.queue.length < 16) :
    Keeps (marks (reporting ++ [.nextId])) s (s.enterQueue p i w) := by
  unfold State.enterQueue
  dsimp only
  refine Keeps.trans ?_ ((Within.foldl (fun _ _ => .placeNeed _ _ _) _ _).keeps _)
  have h1 : Within s ((s.modFrame i FrameRecord.readEarly).emptyIntake) :=
    (Within.modFrame s _ _).trans (.emptyIntake _)
  refine Keeps.trans (h1.keeps _) ?_
  intro p hp
  cases p <;>
    first
    | rfl
    | exact id
    | exact ⟨rfl, rfl⟩
    | exact List.prefix_refl _
    | exact List.suffix_refl _
    | exact fun _ => rfl
    | cases hp
    | skip
  intro _
  have hq : ((s.modFrame i FrameRecord.readEarly).emptyIntake).er.queue = s.er.queue := rfl
  simp only [hq, List.length_append, List.length_singleton]
  omega

theorem Keeps.grantForward (s : State) (t : DownTag) (f : Forward) :
    Keeps (marks (reporting ++ [.dmp, .busy])) s (s.grantForward t f) := by
  unfold State.grantForward
  split
  · exact .refl _ s
  · dsimp only
    refine Keeps.finished ?_
    refine Keeps.trans ?_ ((Within.evalIndices _ _).keeps _)
    refine Keeps.trans ?_ ((Within.reportSpan _ _).keeps _)
    refine Keeps.trans ?_ ((Within.accountGranted _ _ _).keeps _)
    refine Keeps.trans ?_ ((Within.setClaims _ _).keeps _)
    refine Keeps.trans ?_ ((Within.emptyIntake _).keeps _)
    refine Keeps.trans ?_ (Keeps.issue _ _ _ _ _ _).widen
    exact (Keeps.countStarvation s).widen

theorem Keeps.grantCastout (s : State) (t : DownTag) (i : LineIdx) :
    Keeps (marks [.starvation, .dmp, .busy]) s (s.grantCastout t i) := by
  unfold State.grantCastout
  split
  · next tag b lanes d e =>
    dsimp only
    refine Keeps.trans ?_ (Keeps.issue _ _ _ _ _ _).widen
    refine Keeps.trans (Keeps.countStarvation s).widen ?_
    refine Keeps.trans (t := { s.countStarvation with mpu := { s.countStarvation.mpu with
      class1 := s.countStarvation.mpu.class1.erase i } }) ?_ ?_
    · exact (Within.ofMpu _ _ rfl rfl rfl (fun _ => rfl) id id).keeps _
    · refine (Within.startCastout ?_).keeps _
      exact e
  · exact .refl _ s

theorem Keeps.grantFill (s : State) (t : DownTag) (x : FillPart) :
    Keeps (marks [.starvation, .dmp, .busy]) s (s.grantFill t x) := by
  unfold State.grantFill
  dsimp only
  refine Keeps.trans ?_ (Keeps.issue _ _ _ _ _ _).widen
  refine Keeps.trans (Keeps.countStarvation s).widen ?_
  exact (Within.ofMpu _ _ rfl rfl rfl (fun _ => rfl) id id).keeps _

theorem Keeps.grantRecord (s : State) (t : DownTag) :
    Keeps (marks [.class5, .starvation, .recordWrite, .dmp, .busy]) s (s.grantRecord t) := by
  unfold State.grantRecord
  dsimp only
  refine Keeps.trans ?_ (Keeps.issue _ _ _ _ _ _).widen
  refine Keeps.trans (Keeps.takeReport s).widen ?_
  intro p hp
  cases p <;>
    first
    | rfl
    | exact id
    | exact ⟨rfl, rfl⟩
    | exact List.prefix_refl _
    | exact List.suffix_refl _
    | exact fun _ => rfl
    | cases hp

theorem Keeps.grantSnapshot (s : State) (t : DownTag) (x : Fin 2) :
    Keeps (marks [.class5, .starvation, .dmp, .busy]) s (s.grantSnapshot t x) := by
  unfold State.grantSnapshot
  split
  · exact .refl _ s
  · exact Keeps.trans (Keeps.takeReport s).widen (Keeps.issue _ _ _ _ _ _).widen

theorem Keeps.handOn (s : State) (r : UpRequest) (c : Cls) (stale : Bool) (st : Status) :
    Keeps (marks handed) s (s.handOn r c stale st) := by
  unfold State.handOn
  split
  · exact .handover s _
  · exact (Within.tagHandover s _ _ _ _).keeps _
  · exact .refl _ s

theorem Keeps.handOver (s : State) (w : ControlBytes) :
    Keeps (marks (touches .none)) s (s.handOver w) := by
  unfold State.handOver
  split
  · exact Keeps.mended (l := [.shadow, .settings, .ring, .recordWrite, .snapshot, .port, .proc, .waits, .link,
      .focusRef, .br]) (Keeps.handover s w).widen
  · exact .refl _ s

/-- A command keeps every part it does not touch. -/
theorem exec_keeps {c : Instr} {s t : State} (h : exec c s = .next t) : Keeps (marks (touches c)) s t := by
  cases c
  case resetNLow c r => exact next_keeps h (.inReset s c r)
  case resetNHigh =>
    refine next_keeps h ?_
    split
    · exact .refl _ s
    · exact .release s
  case invalidateSweepEnd =>
    refine next_keeps h (.whenLive ?_)
    split
    · exact .endSweep s
    · exact .refl _ s
  case bypassRise =>
    refine next_keeps h ?_
    split
    · exact .refl _ s
    · refine Keeps.trans (Keeps.setBypass s true).widen (.whenLive ?_)
      split
      · exact .refl _ _
      · exact Keeps.finished (l := .bypass :: procedural) (Keeps.startBypassEntry _).widen
  case bypassEntrySequenceEnd =>
    refine next_keeps h ?_
    split
    · exact .endBypassEntry s
    · exact .refl _ s
  case bypassFall => exact next_keeps h (.setBypass s false)
  case expoEdge => exact next_keeps h (.whenLive (.edge s))
  case upstreamRequest r =>
    simp only [exec, execUpstreamRequest] at h
    split at h
    · exact next_keeps h ((Keeps.arrive s r).trans (.present _))
    · cases h
  case egressQueueEntry =>
    refine next_keeps h ?_
    split
    · exact .refl _ s
    · next p e =>
      split
      · split
        · next hq =>
          simp only [State.canEnterQueue, e, Bool.and_eq_true, decide_eq_true_eq] at hq
          exact Keeps.finished (.enterQueue s _ _ _ hq.2)
        · exact .refl _ s
      · exact .refl _ s
  case forwardedGrant =>
    refine next_keeps h ?_
    split
    · exact .grantForward s _ _
    · exact .refl _ s
  case castoutGrant =>
    refine next_keeps h ?_
    split
    · exact .grantCastout s _ _
    · exact .refl _ s
  case fillGrant =>
    refine next_keeps h ?_
    split
    · exact .grantFill s _ _
    · exact .refl _ s
  case eventRecordWriteGrant =>
    refine next_keeps h ?_
    split
    · exact .grantRecord s _
    · exact .refl _ s
  case snapshotWriteGrant =>
    refine next_keeps h ?_
    split
    · exact .grantSnapshot s _ _
    · exact .refl _ s
  case upstreamOriginCompletion e st data =>
    refine next_keeps h ?_
    split
    · next r c u stale he =>
      dsimp only
      refine Keeps.mended (l := [.busy, .shadow, .settings, .ring, .recordWrite, .snapshot, .port, .proc, .waits,
        .link, .focusRef, .br]) ?_
      refine Keeps.trans ?_ (Keeps.handOn _ _ _ _ _).widen
      refine Keeps.trans ?_ ((Within.complete _ _).keeps _)
      refine Keeps.trans ?_ ((Within.dropIfFault _ _ _).keeps _)
      exact (Keeps.freeEntry s e).widen
    · exact .refl _ s
  case castoutCompletion e st =>
    refine next_keeps h ?_
    split
    · exact Keeps.finished ((Keeps.freeEntry s e).widen.trans ((Within.castoutDone _ _ _).keeps _))
    · exact .refl _ s
  case fillCompletion e st data =>
    refine next_keeps h ?_
    split
    · exact Keeps.finished ((Keeps.freeEntry s e).widen.trans ((Within.fillDone _ _ _ _).keeps _))
    · exact .refl _ s
  case eventRecordWriteCompletion e st =>
    refine next_keeps h ?_
    split
    · exact Keeps.mended (l := [.busy, .waits, .recordWrite, .events, .ring])
        ((Keeps.freeEntry s e).widen.trans (Keeps.recordWriteDone _ _).widen)
    · exact .refl _ s
  case snapshotWriteCompletion e st =>
    refine next_keeps h ?_
    split
    · exact Keeps.finished (l := [.busy, .waits, .snapshot]) ((Keeps.freeEntry s e).widen.trans (Keeps.snapshotWriteDone _ _).widen)
    · exact .refl _ s
  case staleCompletion => exact next_keeps h (.refl _ s)
  case controlWrite w =>
    simp only [exec, execControlWrite] at h
    split at h
    · exact next_keeps h (.handOver s w)
    · cases h
  case commit w => exact next_keeps h (.handOver s _)
  case consumedIndex w => exact next_keeps h (.handOver s _)
  case snapshotRequest w => exact next_keeps h (.handOver s _)
  case none => exact next_keeps h (.handOver s _)
  case drainRestart => exact next_keeps h (.handOver s _)
  case reloadProfile => exact next_keeps h (.handOver s _)
  case linkRestart => exact next_keeps h (.handOver s _)
  case unknownCommand v => exact next_keeps h (.handOver s _)
  case drainStep4 =>
    refine next_keeps h ?_
    split
    · split
      · exact Keeps.finished (Keeps.finishDrain s _).widen
      · exact .refl _ s
    · exact .refl _ s
  case lensFrame bytes =>
    exact next_keeps h (.whenLive (Keeps.finished (l := framed) (Keeps.lensFrame s bytes).widen))
  case missingPeriod =>
    refine next_keeps h ?_
    split
    · split
      · exact Keeps.finished (l := linked) (Keeps.missPeriod s _).widen
      · exact .refl _ s
    · exact .refl _ s
  case resolveDeadlineExpiry i b =>
    exact next_keeps h (.whenLive (Keeps.finished (l := []) ((Within.expireBand .testComplete _ _ _).keeps _)))
  case tagDeadlineExpiry i =>
    exact next_keeps h (.whenLive (Keeps.finished (l := []) ((Within.expireTag .testComplete _).keeps _)))

end Sys2Proof.Machine
end

