-- ==== Sys2Proof/Laws/PerInstr.lean ====
section
/-! SUPPORT. What the operand check of each command admits, said with the ranges of the spec's rules, command by
command. -/

namespace Sys2Proof.Laws

/-- The operands that the rules give a command (R1, R7, R11, R173, R177). -/
def InRange : Instr → Prop
  | .upstreamRequest r =>
    16 ∣ r.addr.toNat ∧ 1 ≤ r.beats ∧ r.beats ≤ 16 ∧
      ∀ lanes, r.kind = .write lanes → lanes.length = 16 * r.beats
  | .controlWrite w =>
    16 ∣ w.offset ∧ 16 ∣ w.lanes.length ∧ 16 ≤ w.lanes.length ∧
      w.offset / 256 = (w.offset + w.lanes.length - 1) / 256 ∧ w.offset + w.lanes.length ≤ 4096
  | .commit w => ∃ lane ∈ w.toList, lane.isSome = true
  | .consumedIndex w => ∃ lane ∈ w.toList, lane.isSome = true
  | .snapshotRequest w => ∃ lane ∈ w.toList, lane.isSome = true
  | .unknownCommand v => v.toNat ≠ 0 ∧ v.toNat ≠ 1 ∧ v.toNat ≠ 2 ∧ v.toNat ≠ 3
  | _ => True

/-- A run of lanes covers a byte exactly when one of its lanes is enabled (R173). -/
theorem coversWord_iff (w : WordLanes) : coversWord w = true ↔ ∃ lane ∈ w.toList, lane.isSome = true := by
  rw [coversWord, List.any_eq_true]

end Sys2Proof.Laws

namespace Sys2Proof.Laws.OperandRange

/-- The check accepts a command exactly when its operands are ones the rules give it. -/
def Statement (c : Instr) : Prop := c.wf = true ↔ InRange c

theorem resetNLow (ctlbase : BitVec 8) (refsel : BitVec 2) : Statement (.resetNLow ctlbase refsel) := iff_of_true rfl trivial

theorem resetNHigh : Statement .resetNHigh := iff_of_true rfl trivial

theorem invalidateSweepEnd : Statement .invalidateSweepEnd := iff_of_true rfl trivial

theorem bypassRise : Statement .bypassRise := iff_of_true rfl trivial

theorem bypassEntrySequenceEnd : Statement .bypassEntrySequenceEnd := iff_of_true rfl trivial

theorem bypassFall : Statement .bypassFall := iff_of_true rfl trivial

theorem expoEdge : Statement .expoEdge := iff_of_true rfl trivial

theorem upstreamRequest (r : UpRequest) : Statement (.upstreamRequest r) := by
  cases h : r.kind <;> simp [Statement, InRange, Instr.wf, UpRequest.wf, h, Nat.dvd_iff_mod_eq_zero, and_assoc]

theorem egressQueueEntry : Statement .egressQueueEntry := iff_of_true rfl trivial

theorem forwardedGrant : Statement .forwardedGrant := iff_of_true rfl trivial

theorem castoutGrant : Statement .castoutGrant := iff_of_true rfl trivial

theorem fillGrant : Statement .fillGrant := iff_of_true rfl trivial

theorem eventRecordWriteGrant : Statement .eventRecordWriteGrant := iff_of_true rfl trivial

theorem snapshotWriteGrant : Statement .snapshotWriteGrant := iff_of_true rfl trivial

theorem upstreamOriginCompletion (tag : Fin 64) (status : Status) (data : List Byte) : Statement (.upstreamOriginCompletion tag status data) := iff_of_true rfl trivial

theorem castoutCompletion (tag : Fin 64) (status : Status) : Statement (.castoutCompletion tag status) := iff_of_true rfl trivial

theorem fillCompletion (tag : Fin 64) (status : Status) (data : List Byte) : Statement (.fillCompletion tag status data) := iff_of_true rfl trivial

theorem eventRecordWriteCompletion (tag : Fin 64) (status : Status) : Statement (.eventRecordWriteCompletion tag status) := iff_of_true rfl trivial

theorem snapshotWriteCompletion (tag : Fin 64) (status : Status) : Statement (.snapshotWriteCompletion tag status) := iff_of_true rfl trivial

theorem staleCompletion (tag : Fin 64) (status : Status) (data : List Byte) : Statement (.staleCompletion tag status data) := iff_of_true rfl trivial

theorem controlWrite (w : ControlBytes) : Statement (.controlWrite w) := by
  simp [Statement, InRange, Instr.wf, ControlBytes.wf, Nat.dvd_iff_mod_eq_zero, and_assoc]

theorem commit (w : WordLanes) : Statement (.commit w) := coversWord_iff w

theorem consumedIndex (w : WordLanes) : Statement (.consumedIndex w) := coversWord_iff w

theorem snapshotRequest (w : WordLanes) : Statement (.snapshotRequest w) := coversWord_iff w

theorem none : Statement .none := iff_of_true rfl trivial

theorem drainRestart : Statement .drainRestart := iff_of_true rfl trivial

theorem reloadProfile : Statement .reloadProfile := iff_of_true rfl trivial

theorem linkRestart : Statement .linkRestart := iff_of_true rfl trivial

theorem unknownCommand (value : BitVec 32) : Statement (.unknownCommand value) := by
  simp only [Statement, InRange, Instr.wf, unknownValue, decide_eq_true_iff]
  omega

theorem drainStep4 : Statement .drainStep4 := iff_of_true rfl trivial

theorem lensFrame (bytes : List Byte) : Statement (.lensFrame bytes) := iff_of_true rfl trivial

theorem missingPeriod : Statement .missingPeriod := iff_of_true rfl trivial

theorem resolveDeadlineExpiry (slot band : Fin 8) : Statement (.resolveDeadlineExpiry slot band) := iff_of_true rfl trivial

theorem tagDeadlineExpiry (slot : Fin 8) : Statement (.tagDeadlineExpiry slot) := iff_of_true rfl trivial

end Sys2Proof.Laws.OperandRange
end

