-- ==== Sys2Proof/Laws/Reports.lean ====
section
/-! SUPPORT. The end of a command: when the reports stand, what `finish` leaves as it was, and what cancelling a
presentation and freeing an Outstanding Table entry do. -/

namespace Sys2Proof.Machine

/-- The reports stand when class 5, the starvation count and ATTN_N are what their rules give (R19, R183, R184). -/
theorem State.refreshReports_self_iff (s : State) :
    s.refreshReports = s ↔ s.class5Now = s.mpu.class5 ∧ (s.class5Now.isEmpty = true → s.mpu.starvation = 0) ∧
      s.pins.attnN = s.attnLevel := by
  unfold State.refreshReports
  dsimp only
  constructor
  · intro h
    have e1 := congrArg State.mpu h
    have e2 := congrArg (fun u => u.pins.attnN) h
    have e3 := congrArg Mpu.class5 e1
    have e4 := congrArg Mpu.starvation e1
    simp only at e2 e3 e4
    exact ⟨e3, fun h => by rw [if_pos h] at e4; exact e4.symm, e2.symm⟩
  · rintro ⟨h1, h2, h3⟩
    have h4 : (if s.class5Now.isEmpty = true then 0 else s.mpu.starvation) = s.mpu.starvation := by
      split
      · exact (h2 ‹_›).symm
      · rfl
    rw [h4, h1, ← h3]

/-- The reports stand in a state that agrees with one in which they stand on what they are made of. -/
theorem State.refreshReports_moved {s t : State} (h : s.refreshReports = s) (h1 : t.mpu.class5 = s.mpu.class5)
    (h2 : t.mpu.starvation = s.mpu.starvation) (h3 : t.pins.attnN = s.pins.attnN)
    (h4 : t.cru.ringState = s.cru.ringState) (h5 : t.cru.recordWrite = s.cru.recordWrite)
    (h6 : t.cru.events = s.cru.events) (h7 : t.cru.produce = s.cru.produce)
    (h8 : t.cru.settings.ring = s.cru.settings.ring) (h9 : t.cru.shadow = s.cru.shadow) :
    t.refreshReports = t := by
  rw [State.refreshReports_self_iff] at *
  simp only [State.class5Now, State.recordOffered, State.attnLevel, State.ringSize, State.consumed, h1, h2, h3, h4,
    h5, h6, h7, h8, h9] at *
  exact h

/-- A quiet state stays quiet while the Memory Path, the queue, the pins and the reporting unit stay as they are. -/
theorem Quiet.moved {s t : State} (q : Quiet s) (hm : t.mpu = s.mpu) (he : t.er = s.er) (hp : t.pins = s.pins)
    (hc : t.cru = s.cru) : Quiet t where
  intake := by rw [hm]; exact q.intake
  queue := by rw [he]; exact q.queue
  reports := State.refreshReports_moved q.reports (by rw [hm]) (by rw [hm]) (by rw [hp]) (by rw [hc]) (by rw [hc])
    (by rw [hc]) (by rw [hc]) (by rw [hc]) (by rw [hc])

/-- The reports stand once they have been brought up to date. -/
theorem State.refreshReports_again (s : State) : s.refreshReports.refreshReports = s.refreshReports := by
  have ring : s.refreshReports.recordOffered = s.recordOffered := rfl
  have class5 : s.refreshReports.class5Now = s.class5Now := by
    show (if s.refreshReports.recordOffered then _ else _) = _
    rw [ring]
    show (if s.recordOffered then
        if s.class5Now.contains .event then s.class5Now else s.class5Now ++ [.event]
      else s.class5Now.filter fun w => w != .event) = s.class5Now
    unfold State.class5Now
    split
    · split
      · rfl
      · rw [if_pos (by simp)]
    · rw [List.filter_filter]
      simp
  refine (State.refreshReports_self_iff _).mpr ⟨class5, fun h => ?_, rfl⟩
  rw [class5] at h
  simp only [State.refreshReports, h, if_true]

/-- With nothing at the Intake Stage and no queued read, the end of a command comes once: between the header words of
one write (R173) and again at its end. -/
theorem State.finish_again {s : State} (h1 : s.mpu.intake = none) (h2 : s.er.queue = []) :
    s.finish.finish = s.finish := by
  rw [State.finish_eq h1 h2]
  exact (State.finish_eq (s := s.refreshReports) h1 h2).trans s.refreshReports_again

/-- A command ends in a quiet state with nothing further. -/
theorem Quiet.finish_self {s : State} (q : Quiet s) : s.finish = s :=
  (State.finish_eq q.intake q.queue).trans q.reports

/-- A request that waits for nothing of the Frame Table's answer is not settled. -/
theorem State.settleIntake_self {s : State} {p : Presented} (h : s.mpu.intake = some p) (hc : p.answer = none)
    (n : Nat) : s.settleIntake n = s := by
  cases n
  · rfl
  · unfold State.settleIntake
    simp only [h, hc]
    cases p.cls <;> cases p.window <;> rfl

/-- With nothing to settle, no queued read and the reports standing, a command ends with nothing further. -/
theorem State.finish_self {s : State} (h1 : s.settleIntake 8 = s) (h2 : s.er.queue = [])
    (h3 : s.refreshReports = s) : s.finish = s := by
  have h4 : State.answerReads 16 s = s := by unfold State.answerReads; rw [h2]
  simp only [State.finish, h1, h4]
  exact h3

/-- The end of a command keeps every part but the reports. -/
theorem State.finish_same (s : State) (p : Part) (h1 : p ≠ .attnN) (h2 : p ≠ .class5) (h3 : p ≠ .starvation) :
    p.same s s.finish := by
  by_cases e : p = .attnOk
  · subst e; exact fun _ => State.refreshReports_attn _
  refine Part.same_trans ((Within.settled s).keeps (fun _ => false) p rfl) (Keeps.refreshReports _ p ?_)
  cases p <;> first | rfl | simp_all

theorem State.finish_intake {s : State} (h : s.mpu.intake = none) : s.finish.mpu.intake = none :=
  (Within.settled s).idle h

theorem State.finish_queue {s : State} (h : s.er.queue = []) : s.finish.er.queue = [] := by
  have h' := (Within.settled s).queue
  rw [h] at h'
  exact List.eq_nil_of_length_eq_zero (Nat.le_zero.mp h')

theorem State.cancelPresented_intake (s : State) : s.cancelPresented.mpu.intake = none := by
  unfold State.cancelPresented
  split
  · assumption
  · exact (Within.withdrawIntake _).idle rfl

/-- A cancelled request goes back to the head of the port (R4). -/
theorem State.cancelPresented_port (s : State) : s.cancelPresented.mpu.port = s.mpu.returned := by
  unfold State.cancelPresented Mpu.returned
  split
  · next h => simp [h]
  · next h => simp only [h]; exact (Within.withdrawIntake _).port

/-- Freeing an entry changes no other entry (R16). -/
theorem State.freeEntry_busy (s : State) (e x : DownTag) : ((s.freeEntry e).mpu.outstanding[x]).isSome =
    ((s.mpu.outstanding[x]).isSome && decide (x ≠ e)) := by
  show ((put s.mpu.outstanding e none)[x]).isSome = _
  rw [put_get]
  by_cases hx : e = x
  · subst hx; simp
  · rw [if_neg hx]; simp [Ne.symm hx]

/-- A request that arrives at an empty port and can be presented is handed to the block of its class. -/
theorem exec_upstreamRequest_presents {s : State} {r : UpRequest} (hc : s.canPresent = true) (hp : s.mpu.port = [])
    (hw : r.wf = true) {p : Presented}
    (h : p = { req := r, cls := (s.classify r).1, window := (s.classify r).2, stale := false, phase := .sweep
               answer := none }) :
    exec (.upstreamRequest r) s =
      .next (({ s with mpu := { s.mpu with intake := some p } }).startPresented p).finish := by
  subst h
  have h1 : (s.arrive r).canPresent = true := hc
  have h2 : (s.arrive r).mpu.port = [r] := by simp [State.arrive, hp]
  have h3 : (s.arrive r).classify r = s.classify r := rfl
  simp only [exec, execUpstreamRequest, hw, if_true, State.present, h1, State.presentHead, h2, h3]
  congr 3
  simp [State.arrive, hp]

/-- A write of header-word lanes covers the word it is written to (R173). -/
theorem coversAt_word {w : WordLanes} (h : coversWord w = true) (off : Nat) : coversAt ⟨off, w.toList⟩ off = true := by
  simp only [coversWord, List.any_eq_true] at h
  obtain ⟨x, hx, hx'⟩ := h
  rw [List.mem_iff_getElem] at hx
  obtain ⟨i, hi, rfl⟩ := hx
  simp at hi hx'
  simp only [coversAt, List.any_eq_true, List.mem_range]
  refine ⟨i, hi, ?_⟩
  simp
  rw [Vector.getElem?_eq_getElem hi]
  simpa using hx'

/-- It covers no other word. -/
theorem coversAt_other {w : WordLanes} {off other : Nat} (h : other + 4 ≤ off ∨ off + 4 ≤ other) :
    coversAt ⟨off, w.toList⟩ other = false := by
  simp [coversAt]
  intro i hi hi2
  rw [Vector.getElem?_eq_none (by omega)]
  rfl

end Sys2Proof.Machine
end

