-- ==== Sys2Proof/Laws/Step.lean ====
section
/-! SUPPORT. What any step keeps: the bounds of `Safety.lean`, whatever was commanded or due. -/

namespace Sys2Proof.Machine

/-- The parts that are bounds, which no command and no event of the part itself breaks. -/
def Part.isBound : Part → Bool
  | .path | .lines | .queue16 | .starvation64 | .edges8 | .history256 | .historyOrder | .memories | .requests
  | .events16 | .attnOk => true
  | _ => false

/-- A REFCLK cycle changes the stamp clock and its prescaler alone. -/
theorem Keeps.cycle (s : State) : Keeps (marks [.clock]) s s.cycle := by
  intro p hp
  cases p <;>
    first
    | rfl
    | exact id
    | exact ⟨rfl, rfl⟩
    | exact List.prefix_refl _
    | exact fun _ => rfl
    | cases hp
    | skip
  all_goals
    simp only [Part.same, State.cycle, Ssu.tick]
    split
  all_goals first | exact List.suffix_refl _ | rfl | exact id

/-- With nothing due a step on an empty queue is a REFCLK cycle. -/
theorem State.idle_of_dueEvents_nil {s : State} (h : s.dueEvents = []) (hr : s.pins.resetN = true) :
    s.idle = .next s.cycle := by
  simp [State.idle, h, hr]

/-- The period deadline is due only when nothing else is. -/
theorem State.dueEvents_of_prompt {s : State} (h : s.promptEvents ≠ []) : s.dueEvents = s.promptEvents := by
  unfold State.dueEvents
  split
  · next e => exact absurd e h
  · next e => exact e.symm

/-- An event that the part brings about keeps every bound. -/
theorem bringAbout_keeps {s t : State} {e : Due} (h : s.bringAbout e = .next t) :
    Keeps (fun p => !p.isBound) s t := by
  cases e with
  | presentation =>
    refine next_keeps h ((Keeps.present s).mono ?_)
    intro p; cases p <;> simp [marks, reporting, Part.isBound]
  | periodEnd =>
    simp only [State.bringAbout] at h
    split at h
    · next u e =>
      refine Keeps.trans ((exec_keeps (c := .missingPeriod) e).mono ?_) (next_keeps h ((Keeps.cycle u).mono ?_))
      · intro p; cases p <;> simp [marks, touches, reporting, linked, Part.isBound]
      · intro p; cases p <;> simp [marks, Part.isBound]
    · next hn => exact absurd h (hn _)
  | command c =>
    refine (exec_keeps (c := c) h).mono ?_
    intro p
    cases c <;> cases p <;> simp [marks, reporting, touches, drained, framed, linked, procedural, Part.isBound]

/-- A step keeps every bound. -/
theorem step_keeps {s t : State} (h : step s = .next t) : Keeps (fun p => !p.isBound) s t := by
  unfold step at h
  split at h
  · unfold State.idle at h
    split at h
    · split at h
      · refine next_keeps h ((Keeps.cycle s).mono ?_)
        intro p; cases p <;> simp [marks, Part.isBound]
      · exact bringAbout_keeps h
      · refine Keeps.trans ?_ (bringAbout_keeps h)
        intro p hp
        cases p <;> first | exact id | cases hp
    · exact next_keeps h (.refl _ s)
  · next c rest e =>
    refine Keeps.trans (t := { s with pending := rest }) ?_ (bringAbout_keeps (e := .command c) h)
    intro p hp
    cases p <;> first | exact id | cases hp

end Sys2Proof.Machine
end

