-- ==== Sys2Proof/Tests/Slice0.lean ====
section
/-! SUPPORT. Tests on fixed values: the operand checks refuse ill-formed operands, small results that the manual
gives, and for every statement a state and operands that meet its hypotheses. -/

namespace Sys2Proof.Tests

open Sys2Proof Sys2Proof.Machine

set_option Elab.async false

/-! ### The operand checks: one ill-formed term for each check -/

/-- A run of n enabled lanes. -/
def lanesOf (n : Nat) : List Lane := List.replicate n (some 7)

/-- A write of one beat. -/
def oneBeat (addr : BitVec 40) : UpRequest := ⟨1, 5, addr, 1, .write (lanesOf 16)⟩

theorem test_wf_request : (oneBeat 0x100400).wf = true ∧ (⟨15, 31, 0xFFFFFFFFF0, 1, .read⟩ : UpRequest).wf = true ∧
    (⟨1, 5, 0, 16, .write (lanesOf 256)⟩ : UpRequest).wf = true := by decide +kernel

theorem test_wf_request_unaligned : (oneBeat 0x100408).wf = false := by decide +kernel

theorem test_wf_request_no_beat : (⟨1, 5, 0, 0, .write []⟩ : UpRequest).wf = false := by decide +kernel

theorem test_wf_request_17_beats : (⟨1, 5, 0, 17, .read⟩ : UpRequest).wf = false := by decide +kernel

theorem test_wf_request_lanes : (⟨1, 5, 0, 1, .write (lanesOf 15)⟩ : UpRequest).wf = false := by decide +kernel

theorem test_wf_control : (⟨0, lanesOf 16⟩ : ControlBytes).wf = true ∧
    (⟨3840, lanesOf 256⟩ : ControlBytes).wf = true := by decide +kernel

theorem test_wf_control_unaligned : (⟨8, lanesOf 16⟩ : ControlBytes).wf = false := by decide +kernel

theorem test_wf_control_part_beat : (⟨0, lanesOf 24⟩ : ControlBytes).wf = false := by decide +kernel

theorem test_wf_control_empty : (⟨0, []⟩ : ControlBytes).wf = false := by decide +kernel

theorem test_wf_control_crossing : (⟨240, lanesOf 32⟩ : ControlBytes).wf = false := by decide +kernel

theorem test_wf_control_beyond : (⟨4096, lanesOf 16⟩ : ControlBytes).wf = false := by decide +kernel

/-- Four lanes of a value. -/
def word (v : Nat) : WordLanes :=
  #v[some (BitVec.ofNat 8 v), some (BitVec.ofNat 8 (v / 256)), some (BitVec.ofNat 8 (v / 65536)),
    some (BitVec.ofNat 8 (v / 16777216))]

/-- No lane enabled. -/
def noLane : WordLanes := #v[none, none, none, none]

theorem test_wf_words : coversWord (word 0) = true ∧ (Instr.commit noLane).wf = false ∧
    (Instr.consumedIndex noLane).wf = false ∧ (Instr.snapshotRequest noLane).wf = false := by decide +kernel

theorem test_wf_unknown : (Instr.unknownCommand 4).wf = true ∧ (Instr.unknownCommand 0).wf = false ∧
    (Instr.unknownCommand 3).wf = false := by decide +kernel

/-! ### Results that the manual gives -/

/-- R54's table, and the bands of H = 2000 and H = 2164. -/
theorem test_bands : allBands.map (midRow 2160) = [134, 404, 674, 944, 1214, 1484, 1754, 2024] ∧
    allBands.map (midRow 3000) = [187, 562, 937, 1312, 1687, 2062, 2437, 2812] ∧
    bandOfRow 2000 249 = 0 ∧ bandOfRow 2000 250 = 1 ∧ bandOfRow 2164 540 = 1 ∧ bandOfRow 2164 541 = 2 := by decide +kernel

/-- Frame 27 of Sequence 4-A: focus 30,000, iris 72, both valid marks set, check byte 0x27, no payload and no
reply (R192's example). -/
def frame27 : List Byte := withCrc [0x00, 0x1B, 0x27, 0x30, 0x75, 0x48, 0x03]

theorem test_frame27 : parseLensFrame frame27 =
    some ⟨.normal, 27, 0x27, [⟨30000, 72, true, true⟩], none, none⟩ := by decide +kernel

theorem test_frame27_damaged : parseLensFrame (frame27.set 3 0x31) = none ∧
    parseLensFrame (frame27.take 8) = none := by decide +kernel

/-- Sequence 3-A, step 4 and step 5: the band times of the matched start, and the estimated start. -/
theorem test_sequence_3A :
    let tag : FrameTag := ⟨532, .rolling, 20833, 7400, 20⟩
    (bandTime tag 5251687 2160 0).toNat = 5263094 ∧ (bandTime tag 5251687 2160 7).toNat = 5277080 ∧
      (estimatedStart tag 5268000 2160).toNat = 5231183 := by decide +kernel

/-- Sequence 5-A and Example Operation 2-1: fields and magnifications from the four knots, and the focus of
band 0 of the example, exactly half way. -/
theorem test_sequence_5A :
    let knots := [(0, 64000), (20000, 65536), (40000, 68096), (65535, 70000)]
    [30308, 34304, 38300, 42296, 46292].map (fieldAt knots) = [66855, 67367, 67878, 68267, 68565] ∧
      [66855, 67367, 67878, 68267, 68565].map (fun f => rawMagnification f (framingTarget .narrowest knots)) =
        [68460, 68984, 69507, 69905, 70211] ∧
      interpolateFocus ⟨20005952, 18928, 64, true, true⟩ ⟨20006016, 19024, 64, true, true⟩ 20006005 = 19008 := by
  decide +kernel

/-- The window of the worked sequences: 4096 × 2160, row pitch 8192 bytes, image first row 2. -/
def sequenceWindow : Window :=
  { base := 0x120000000, pitch := 8192, width := 4096, height := 2160, firstRow := 2, tagRow := 0, tagOffset := 0
    writer := 3, readers := 0x20, correctedView := true, centre := none }

/-- Sequence 8-A: the zone positions, a gain exactly half way, and the gained values. -/
theorem test_sequence_8A :
    let gains : GainList := ((((identityGains.set 44 20480).set 45 20224).set 48 21504).set 49 21120)
    let u : GainSetting := ⟨sequenceWindow, sequenceWindow.opticalCentre 12 (-6), gains⟩
    zonePosition sequenceWindow (distance2 u.centre 3800 1074) = 2885 ∧ gainAt gains 2885 0 = 20756 ∧
      zonePosition sequenceWindow (distance2 u.centre 3801 1074) = 2887 ∧ gainAt gains 2887 1 = 20473 ∧
      u.sample 3800 1074 30000 = (38005, false) ∧ u.sample 3801 1074 30000 = (37487, false) ∧
      u.sample 3800 1074 60000 = (65535, true) := by decide +kernel

/-- Sequence 9-A: the magnification of the read, its need list, the neighbours of its first sample, and the
blended sample. -/
theorem test_sequence_9A :
    let mags : Vector Nat 8 := #v[68460, 68984, 69507, 69905, 70211, 70211, 70211, 70211]
    let u : ReadSetting := ⟨sequenceWindow, magnificationAt 2160 539 mags, .edge, 0⟩
    let cells (c r v : Nat) : List Host.Cell :=
      let a := sequenceWindow.sampleAddr c r
      [(a, BitVec.ofNat 8 v), (a + 1, BitVec.ofNat 8 (v / 256))]
    u.k = 69246 ∧ u.needs 0x12043A7D0 1 = [(0x1204728, 4), (0x1204768, 4)] ∧
      neighbours (source256 2048 1000 u.k) 0 = [(1056, 474), (1058, 38)] ∧
      neighbours (source256 1080 539 u.k) 1 = [(567, 260), (569, 252)] ∧
      blend (cells 1056 567 20000 ++ cells 1058 567 20400 ++ cells 1056 569 20800 ++ cells 1058 569 21200)
        (u.neighboursOf 1000 539) = 20423 := by decide +kernel

theorem test_stamp_order : later 3 0xFFFFFFFE = true ∧ later 0xFFFFFFFE 3 = false ∧ reached 5 5 = true ∧
    stampAdd 1 (-2) = 0xFFFFFFFF := by decide +kernel

/-- The part with the sweep over. -/
def live : State := { State.reset with ls := Ls.reset false }

/-- The state a command leaves. -/
def after (c : Instr) (s : State) : State :=
  match exec c s with
  | .next t => t
  | _ => s

theorem test_reset_samples_straps : (after (.resetNLow 0x40 3) live).pins =
    ⟨false, false, 0x40, 3, true⟩ := by decide +kernel

theorem test_expo_edges : (after .expoEdge (after .expoEdge live)).ssu.exposures = [⟨0, 0⟩, ⟨0, 1⟩] := by decide +kernel

theorem test_lens_frame_first : (after (.lensFrame frame27) live).ports.lml = [.poll 27] ∧
    (after (.lensFrame frame27) live).llc.link = .acquiring ∧
    (after (.lensFrame frame27) live).llc.expected = some 28 := by decide +kernel

theorem test_unknown_command : ((after (.unknownCommand 9) live).cru.events.map EventRecord.event) =
    [.commandRefused 9 .unknown false] := by decide +kernel

theorem test_commit_of_zeros_rejected : ((after (.commit (word 0)) live).cru.events.map EventRecord.event) =
    [.commitRejected .setting none] := by decide +kernel

theorem test_snapshot_without_address : ((after (.snapshotRequest (word 1)) live).cru.events.map
    EventRecord.event) = [.commandRefused 1 .noAddress true] := by decide +kernel

/-! ### Hypotheses met: the step and the frames -/

theorem test_hyp_StepRunsFrontCommand : ({ live with pending := [.expoEdge, .none] } : State).pending =
    .expoEdge :: [.none] := rfl

theorem test_hyp_EveryCommandCompletes : Instr.expoEdge.wf = true ∧ (oneBeat 0x100408).wf = false ∧
    (⟨8, lanesOf 16⟩ : ControlBytes).wf = false := by decide +kernel

/-- The part with a REFSEL strap and a prescaler count. -/
def ticking (refsel : BitVec 2) (n : Nat) : State :=
  { live with pins := { live.pins with refsel := refsel }, ssu := { live.ssu with prescaler := n } }

/-- The four REFSEL values, at the last cycle of a microsecond and at the one before it. -/
theorem test_hyp_IdleCycleCountsMicroseconds : ∀ x ∈ [((0 : BitVec 2), 25), (1, 27), (2, 50), (3, 54)],
    ∀ k ∈ [1, 2], (ticking x.1 (x.2 - k)).pending = [] ∧ (ticking x.1 (x.2 - k)).pins.resetN = true ∧
      (ticking x.1 (x.2 - k)).dueEvents = [] ∧ (ticking x.1 (x.2 - k)).pins.refsel = x.1 := by decide +kernel

/-- ClockAndPinFrame, ControlAreaFrame, LinkFrame and PortFrame: a command that answers a next state. -/
theorem test_hyp_frames : ∃ t, exec .expoEdge live = .next t := ⟨_, rfl⟩

/-! ### Hypotheses met: what every step keeps -/

/-- A state with an edge on EXPO waiting, and with a RESET_N Low. -/
def edgeWaiting (s : State) : State := { s with pending := [.expoEdge] }

theorem test_hyp_AttnFollowsRing : AttnOk (edgeWaiting live) ∧ ∃ t, step (edgeWaiting live) = .next t :=
  ⟨rfl, _, rfl⟩

/-- The Exposure Queue at its size. -/
def eightEdges : State :=
  { live with ssu := { live.ssu with
      strobe := 3
      exposures := [⟨0, 65531⟩, ⟨0, 65532⟩, ⟨0, 65533⟩, ⟨0, 65534⟩, ⟨0, 65535⟩, ⟨0, 0⟩, ⟨0, 1⟩, ⟨0, 2⟩] } }

theorem test_hyp_QueuesStayBounded : Bounded (edgeWaiting eightEdges) ∧ PathOk (edgeWaiting eightEdges) ∧
    IdsOk (edgeWaiting eightEdges) ∧ ∃ t, step (edgeWaiting eightEdges) = .next t :=
  ⟨⟨by decide, by decide, by decide, by decide, by decide, fun _ h => by cases h⟩, fun h => by simp [edgeWaiting, eightEdges, live, State.reset, Mpu.reset] at h,
    (fun _ h => by cases h), _, rfl⟩

theorem test_hyp_MemoriesStayCanonical : MemoriesOk (edgeWaiting live) ∧ ∃ t, step (edgeWaiting live) = .next t :=
  ⟨⟨Memory.wf_nil, Memory.wf_nil, Memory.wf_nil⟩, _, rfl⟩

theorem test_hyp_LinesStayAtTheirIndex : LinesOk (edgeWaiting live) ∧ ∃ t, step (edgeWaiting live) = .next t :=
  ⟨fun i => by simp [State.line, edgeWaiting, live, Ls.reset, LineRec.okAt], _, rfl⟩

theorem test_hyp_HistoryStaysIncreasing : HistoryOk (edgeWaiting live) ∧ ∃ t, step (edgeWaiting live) = .next t :=
  ⟨List.IsChain.nil, _, rfl⟩

theorem test_hyp_ExposuresStayConsecutive : ExposuresOk (edgeWaiting eightEdges) ∧
    ∃ t, step (edgeWaiting eightEdges) = .next t := by
  refine ⟨fun i e h => ?_, _, rfl⟩
  have hi : i < 8 := by
    by_contra hn
    rw [List.getElem?_eq_none (by simpa [edgeWaiting, eightEdges] using hn)] at h
    cases h
  revert h
  simp only [edgeWaiting, eightEdges]
  interval_cases i <;> simp <;> rintro rfl <;> decide

theorem test_hyp_PinResetHolds : ResetOk (edgeWaiting (live.inReset 0x40 3)) ∧
    (edgeWaiting (live.inReset 0x40 3)).pins.resetN = false ∧
    ∃ t, step (edgeWaiting (live.inReset 0x40 3)) = .next t :=
  ⟨fun _ => rfl, rfl, _, rfl⟩

/-! ### Hypotheses met: the pins -/

theorem test_hyp_PinReset : (live.inReset 0 0).pins.resetN = false ∧ live.pins.resetN = true := by decide

theorem test_hyp_SweepEndInvalidatesRecords : State.reset.pins.resetN = true ∧ State.reset.ls.sweeping = true ∧
    Quiet State.reset ∧ (live.inReset 0 0).pins.resetN = false ∧ live.ls.sweeping = false :=
  ⟨rfl, rfl, ⟨rfl, rfl, rfl⟩, rfl, rfl⟩

/-- A window of 512 by 256 image samples, with its tag in row 0 and its image from row 1 on. -/
def win : Window := ⟨0x100000, 1024, 512, 256, 1, 0, 0, 1, 4, true, none⟩

/-- An entry of the Egress Queue. -/
def entry : EgressEntry :=
  { id := 0, master := 2, tag := 5, addr := 0x100400, beats := 1, slot := 0, generation := 1, window := win
    source := .identity, k := 65536, border := .edge, fillValue := 0, needs := [], state := .gathering }

/-- The Egress Queue at its size. -/
def fullQueue : State := { live with er := { queue := List.replicate 16 entry, nextId := 1 } }

/-- A procedure in progress. -/
def inProc (p : Procedure) (s : State) : State := s.setProc p

theorem test_hyp_BypassRiseStartsEntry : (fullQueue.pins.bypass = false ∧ fullQueue.pins.resetN = true ∧
      fullQueue.cru.proc = .none ∧ fullQueue.er.queue.length ≤ 16) ∧
    ((live.inReset 0 0).pins.bypass = false ∧ (live.inReset 0 0).pins.resetN = false) ∧
    ((inProc (.bypassEntry []) live).pins.bypass = false ∧ (inProc (.bypassEntry []) live).cru.proc ≠ .none) ∧
    (live.setBypass true).pins.bypass = true := by decide +kernel

theorem test_hyp_BypassEntryEndAndFall : ((inProc (.bypassEntry []) live).cru.proc = .bypassEntry [] ∧
      (inProc (.bypassEntry []) live).workEnded = true) ∧
    (inProc (.bypassEntry [3]) live).workEnded = false := by decide +kernel

theorem test_hyp_ExposureEdge : live.pins.resetN = true ∧ (live.inReset 0 0).pins.resetN = false ∧
    ∃ t, exec (.resetNLow 0 0) live = .next t := ⟨rfl, rfl, _, rfl⟩

/-! ### Hypotheses met: requests -/

/-- The part with an ARMED generation of `win` in slot 0. -/
def armed : State :=
  live.modSlot 0 fun sl =>
    { sl with committed := some win, frame := { sl.frame with state := .armed, generation := 1 } }

/-- A read of one beat by a master. -/
def readBy (m : BitVec 4) (addr : BitVec 40) : UpRequest := ⟨m, 5, addr, 1, .read⟩

/-- The part with a bypass region of 256 bytes at 0x200000. -/
def withRegion : State :=
  { armed with cru := { armed.cru with settings := { armed.cru.settings with
      regions := put armed.cru.settings.regions 3 ⟨true, 0x200000, 256⟩ } } }

/-- Whether each of the clauses before the windows applies. -/
def early (s : State) (r : UpRequest) : Bool × Bool × Bool × Bool :=
  (r.crosses, s.rawPass,
    s.cru.settings.regions.toList.any (fun g => g.enabled && g.base ≤ r.first && r.first < g.base + g.size),
    decide (s.pins.ctlbase.toNat * 2 ^ 24 ≤ r.first ∧ r.first ≤ s.pins.ctlbase.toNat * 2 ^ 24 + 4095))

theorem test_hyp_ClassificationOrder :
    early armed ⟨1, 5, 0x1000F0, 2, .read⟩ = (true, false, false, false) ∧
    early (armed.setBypass true) (oneBeat 0x100400) = (false, true, false, false) ∧
    early withRegion (oneBeat 0x200000) = (false, false, true, false) ∧
    early withRegion (oneBeat 0x2000F0) = (false, false, true, false) ∧
    early withRegion (oneBeat 0x200100) = (false, false, false, false) ∧
    early armed (oneBeat 0xFF0) = (false, false, false, true) ∧
    early armed (oneBeat 0x1000) = (false, false, false, false) ∧
    early armed (oneBeat 0x100400) = (false, false, false, false) ∧
    armed.windowAt 0x100000 = some (0, win) ∧ armed.windowAt 0x1403FF = some (0, win) ∧
    armed.windowAt 0x0FFFF0 = none ∧ armed.windowAt 0x140400 = none := by decide +kernel

theorem test_classes : armed.classify (oneBeat 0x100400) = (.ingest 0, some win) ∧
    armed.classify (oneBeat 0x100000) = (.tag 0, some win) ∧
    armed.classify (readBy 2 0x100400) = (.egress 0, some win) ∧
    armed.classify (readBy 1 0x100400) = (.foreign 0, some win) ∧
    armed.classify (readBy 2 0x0FFFF0) = (.pass, none) := by decide +kernel

/-- The sweep running. -/
def sweeping (s : State) : State := { s with ls := { s.ls with sweeping := true } }

theorem quiet_armed : Quiet armed := ⟨rfl, rfl, rfl⟩

theorem test_hyp_RequestHandedOn : (oneBeat 0x100400).wf = true ∧ (inProc (.bypassEntry []) armed).canPresent = false ∧
    (armed.canPresent = true ∧ armed.mpu.port = [] ∧ armed.ls.sweeping = false ∧
      (armed.classify (oneBeat 0xFF0)).1 = .control ∧ (armed.classify (oneBeat 0x100000)).1 = .tag 0 ∧
      (armed.classify (readBy 2 0x100400)).1 = .egress 0) ∧
    ((sweeping armed).canPresent = true ∧ (sweeping armed).mpu.port = [] ∧ (sweeping armed).ls.sweeping = true ∧
      ((sweeping armed).classify (readBy 2 0x0FFFF0)).1 = .pass ∧
      ((sweeping armed).classify (readBy 1 0x100400)).1 = .foreign 0 ∧
      ((sweeping armed).classify (oneBeat 0x100400)).1 = .ingest 0 ∧
      ((sweeping armed).classify (readBy 2 0x100400)).1 = .egress 0) := by decide +kernel

theorem quiet_sweeping : Quiet (sweeping armed) := ⟨rfl, rfl, rfl⟩

/-- A line HELD at the line of 0x100400, of generation 1. -/
def heldLine : State := armed.setLine 4 (.held ⟨4100, 0, 1⟩ none (lanesOf 256) false)

theorem test_hyp_ForwardingCheck : (readBy 1 0x100400).wf = true ∧ (readBy 2 0x0FFFF0).wf = true ∧
    (armed.canPresent = true ∧ armed.mpu.port = [] ∧ armed.ls.sweeping = false ∧ armed.ls.claims = [] ∧
      (armed.classify (readBy 2 0x0FFFF0)).1 = .pass ∧
      (∀ l ∈ (readBy 2 0x0FFFF0).linesTouched, (armed.line (indexOf l)).isAt l = false) ∧
      (∀ l ∈ (⟨1, 5, 0x0FFFF0, 2, .read⟩ : UpRequest).linesTouched, (armed.line (indexOf l)).isAt l = false)) ∧
    (heldLine.canPresent = true ∧ heldLine.ls.claims = [] ∧ (readBy 1 0x100400).crosses = false ∧
      (heldLine.classify (readBy 1 0x100400)).1 = .foreign 0 ∧
      heldLine.line (indexOf ((readBy 1 0x100400).first / 256)) =
        .held ⟨4100, 0, 1⟩ none (lanesOf 256) false) := by decide +kernel

theorem quiet_heldLine : Quiet heldLine := ⟨rfl, rfl, rfl⟩

/-- A CLEAN record at the line of 0x100400, under a write-hit policy. -/
def cleanUnder (p : WriteHit) : State :=
  { armed.setLine 4 (.clean ⟨4100, 0, 1⟩ (zeros 256)) with
    cru := { armed.cru with settings := { armed.cru.settings with writeHit := p } } }

/-- A write of one beat by a master that is not the window's writer. -/
def writeBy (m : BitVec 4) (addr : BitVec 40) : UpRequest := ⟨m, 5, addr, 1, .write (lanesOf 16)⟩

theorem test_hyp_ForwardingCheck_clean : ∀ p ∈ [WriteHit.invalidate, .update],
    (cleanUnder p).canPresent = true ∧ (cleanUnder p).mpu.port = [] ∧ (cleanUnder p).ls.sweeping = false ∧
    (cleanUnder p).ls.claims = [] ∧ (cleanUnder p).cru.settings.writeHit = p ∧
    ∀ r ∈ [readBy 1 0x100400, writeBy 7 0x100400], r.wf = true ∧ r.crosses = false ∧
      ((cleanUnder p).classify r).1 = .foreign 0 ∧
      (cleanUnder p).line (indexOf (r.first / 256)) = .clean ⟨4100, 0, 1⟩ (zeros 256) := by decide +kernel

theorem quiet_cleanUnder : Quiet (cleanUnder .invalidate) ∧ Quiet (cleanUnder .update) :=
  ⟨⟨rfl, rfl, rfl⟩, ⟨rfl, rfl, rfl⟩⟩

theorem test_write_hit : (after (.upstreamRequest (writeBy 7 0x100400)) (cleanUnder .invalidate)).line 4 = .invalid ∧
    (after (.upstreamRequest (writeBy 7 0x100400)) (cleanUnder .update)).line 4 =
      .clean ⟨4100, 0, 1⟩ (List.replicate 16 7 ++ zeros 240) := by decide +kernel

/-- A generation in a state, its bands WAITING with a time and a deadline. -/
def inState (st : SlotState) : State :=
  armed.modFrame 0 fun f =>
    { f with state := st, bands := Vector.replicate 8 ⟨none, some 0, some 0⟩, firstIngest := some 0 }

/-- A CLEAN record at the index of the line of 0x100400. -/
def cleanThere (s : State) : State := s.setLine 4 (.clean ⟨4100, 0, 0⟩ (zeros 256))

theorem test_hyp_IngestWritePosted : (oneBeat 0x100400).wf = true ∧
    (∀ s ∈ [armed, inState .tagged, inState .complete, cleanThere armed],
      s.canPresent = true ∧ s.mpu.port = [] ∧ s.ls.sweeping = false ∧ s.ls.claims = [] ∧
      s.classify (oneBeat 0x100400) = (.ingest 0, some win)) ∧
    armed.ftAnswer 0 false (win.bandOfLine 4100) = .pendingBand 1 ∧
    (inState .tagged).ftAnswer 0 false (win.bandOfLine 4100) = .waiting 1 0 ∧
    (inState .complete).ftAnswer 0 false (win.bandOfLine 4100) = .pendingBand 2 ∧
    ((inState .complete).frame 0).successor = none ∧ armed.line 4 = .invalid ∧
    (cleanThere armed).line 4 = .clean ⟨4100, 0, 0⟩ (zeros 256) := by decide +kernel

/-- A closed generation in a state, with or without a successor. -/
def closedIn (st : SlotState) (n : Option Successor) : State :=
  (inState st).modFrame 0 fun f => { f with eofSeen := true, successor := n }

theorem test_hyp_IngestWritePosted_accounts :
    ((armed.frame 0).state = .armed ∧ (armed.frame 0).firstIngest = none ∧ (armed.frame 0).closed = false) ∧
    (∀ n ∈ [none, some (⟨2, 3, 77, false⟩ : Successor)],
      (closedIn .tagged n).canPresent = true ∧ (closedIn .tagged n).ls.claims = [] ∧
      (closedIn .tagged n).classify (oneBeat 0x100400) = (.ingest 0, some win) ∧
      (closedIn .tagged n).ftAnswer 0 false (win.bandOfLine 4100) = .pendingBand 2 ∧
      ((closedIn .tagged n).frame 0).closed = true ∧ ((closedIn .tagged n).frame 0).successor = n) := by
  decide +kernel

theorem quiet_closedIn : Quiet (closedIn .tagged none) ∧ Quiet (closedIn .tagged (some ⟨2, 3, 77, false⟩)) :=
  ⟨⟨rfl, rfl, rfl⟩, ⟨rfl, rfl, rfl⟩⟩

/-- The record at the index of the line of 0x100400. -/
def holding (r : LineRec) : State := armed.setLine 4 r

/-- A HELD record that takes the write, those that do not, and two that make it wait. -/
theorem test_hyp_IngestWritePosted_records :
    (∀ r ∈ [LineRec.held ⟨4100, 0, 1⟩ none (lanesOf 256) true, .held ⟨4612, 0, 1⟩ none (lanesOf 256) false,
        .held ⟨4100, 0, 0⟩ (some 7) (lanesOf 256) false, .filling ⟨4100, 0, 1⟩ (zeros 256) 2 [],
        .casting ⟨4100, 0, 1⟩ (some 0) (lanesOf 256) true],
      (holding r).canPresent = true ∧ (holding r).mpu.port = [] ∧ (holding r).ls.sweeping = false ∧
      (holding r).ls.claims = [] ∧ (holding r).classify (oneBeat 0x100400) = (.ingest 0, some win) ∧
      (holding r).ftAnswer 0 false (win.bandOfLine 4100) = .pendingBand 1) ∧
    indexOf 4100 = 4 ∧ (lanesOf 256).length = 256 := by decide +kernel

theorem quiet_holding (r : LineRec) : Quiet (holding r) := ⟨rfl, rfl, rfl⟩

/-- A HELD record with the odd bytes of its mask clear. -/
def halfHeld : LineRec :=
  .held ⟨4100, 0, 1⟩ none ((List.range 256).map fun k => if k % 2 = 0 then some 1 else none) false

theorem test_ingest_merges : (after (.upstreamRequest (oneBeat 0x100410)) (holding halfHeld)).line 4 =
      .held ⟨4100, 0, 1⟩ none ((List.range 256).map fun k =>
        if 16 ≤ k ∧ k < 32 then some 7 else if k % 2 = 0 then some 1 else none) false ∧
    ((after (.upstreamRequest (oneBeat 0x100410)) (holding halfHeld)).frame 0).held = 0 ∧
    ((after (.upstreamRequest (oneBeat 0x100410)) (holding halfHeld)).frame 0).beats = 1 := by decide +kernel

theorem test_ingest_opens_successor :
    ((after (.upstreamRequest (oneBeat 0x100400)) (closedIn .tagged none)).frame 0).successor =
      some ⟨1, 1, 0, false⟩ ∧
    ((after (.upstreamRequest (oneBeat 0x100400)) armed).slot 0).tagDeadline = some 4000 := by decide +kernel

theorem test_ingest_posted : (after (.upstreamRequest (oneBeat 0x100400)) (inState .complete)).ports.ump =
      [⟨1, 5, .okay, []⟩] ∧
    ((after (.upstreamRequest (oneBeat 0x100400)) (inState .complete)).frame 0).held = 1 ∧
    (after (.upstreamRequest (oneBeat 0x100400)) (inState .complete)).line 4 =
      .held ⟨4100, 0, 2⟩ none (lanesOf 16 ++ List.replicate 240 none) false := by decide +kernel

/-- Band 0 of a TAGGED generation RESOLVED with a gain of 1.0. -/
def bandResolved : State :=
  (inState .tagged).modFrame 0 fun f =>
    { f with bands := put f.bands 0 ⟨some (identityResult .exact), some 0, some 0⟩ }

/-- The Gain Unit's setting for it. -/
def unity : GainSetting := ⟨win, win.opticalCentre 0 0, identityGains⟩

theorem test_hyp_IngestWriteGained : (oneBeat 0x100400).wf = true ∧ (oneBeat 0x100400).isWrite = true ∧
    bandResolved.canPresent = true ∧ bandResolved.mpu.port = [] ∧ bandResolved.ls.sweeping = false ∧
    bandResolved.ls.claims = [] ∧ bandResolved.classify (oneBeat 0x100400) = (.ingest 0, some win) ∧
    bandResolved.ftAnswer 0 false (win.bandOfLine 4100) = .resolved 1 0 ∧
    bandResolved.gainSetting 0 1 0 = some unity ∧ (bandResolved.line 4).isAt 4100 = false := by decide +kernel

/-- Records at the write's line: CLEAN and HELD of its own and of another generation, FILLING and CASTING. -/
def atLine (r : LineRec) : State := (bandResolved.modFrame 0 fun f => { f with held := 1 }).setLine 4 r

/-- No generation: a closed current one with a descriptor pending (R39). -/
def noGeneration (r : LineRec) : State :=
  ((closedIn .tagged none).modSlot 0 fun sl => { sl with pendingDesc := some none }).setLine 4 r

/-- A write of one beat with one byte of a sample disabled. -/
def rawBeat : UpRequest := ⟨1, 5, 0x100400, 1, .write ((lanesOf 16).set 3 none)⟩

/-- The records of R122's rows at the line 4100, and one at the line 4612 of the same index. -/
def recordsThere : List LineRec :=
  [.clean ⟨4100, 0, 1⟩ (zeros 256), .clean ⟨4100, 0, 0⟩ (zeros 256), .held ⟨4100, 0, 1⟩ (some 0) (lanesOf 256) false,
    .held ⟨4100, 0, 2⟩ none (lanesOf 256) false, .filling ⟨4100, 0, 1⟩ (zeros 256) 1 [],
    .casting ⟨4100, 0, 1⟩ (some 0) (lanesOf 256) false, .held ⟨4612, 0, 1⟩ (some 0) (lanesOf 256) false, .invalid]

theorem test_hyp_IngestWriteGained_rows : rawBeat.wf = true ∧ rawBeat.isWrite = true ∧
    (∀ x ∈ recordsThere, ∀ s ∈ [atLine x, noGeneration x], s.canPresent = true ∧ s.mpu.port = [] ∧
      s.ls.sweeping = false ∧ s.ls.claims = [] ∧ s.line 4 = x ∧ s.classify rawBeat = (.ingest 0, some win) ∧
      s.classify (oneBeat 0x100400) = (.ingest 0, some win)) ∧
    (∀ x ∈ recordsThere, (atLine x).ftAnswer 0 false (win.bandOfLine 4100) = .resolved 1 0 ∧
      (atLine x).gainSetting 0 1 0 = some unity ∧ ((atLine x).frame 0).held ≠ 0 ∧
      (noGeneration x).ftAnswer 0 false (win.bandOfLine 4100) = .noGeneration) ∧
    (unity.gain 0x100400 rawBeat.kind.lanes).raw = true ∧
    (unity.gain 0x100400 (oneBeat 0x100400).kind.lanes).raw = false := by decide +kernel

theorem quiet_rows : ∀ x ∈ recordsThere, Quiet (atLine x) ∧ Quiet (noGeneration x) :=
  fun _ _ => ⟨⟨rfl, rfl, rfl⟩, ⟨rfl, rfl, rfl⟩⟩

/-- R122's rows for a write whose band is RESOLVED with a gain of 1.0: what the record is left as. -/
theorem test_resolved_rows : recordsThere.map (fun x => (after (.upstreamRequest (oneBeat 0x100400)) (atLine x)).line 4) =
      [.clean ⟨4100, 0, 1⟩ (List.replicate 16 7 ++ zeros 240), .invalid,
        .held ⟨4100, 0, 1⟩ (some 0) (lanesOf 256) false, .held ⟨4100, 0, 2⟩ none (lanesOf 256) true,
        .filling ⟨4100, 0, 1⟩ (zeros 256) 1 [], .casting ⟨4100, 0, 1⟩ (some 0) (lanesOf 256) false,
        .held ⟨4612, 0, 1⟩ (some 0) (lanesOf 256) false, .invalid] ∧
    (after (.upstreamRequest rawBeat) (atLine (.clean ⟨4100, 0, 1⟩ (zeros 256)))).line 4 = .invalid ∧
    (after (.upstreamRequest (oneBeat 0x100400)) (noGeneration (.clean ⟨4100, 0, 1⟩ (zeros 256)))).line 4 = .invalid ∧
    recordsThere.map (fun x => (after (.upstreamRequest (oneBeat 0x100400)) (atLine x)).mpu.class3.isSome) =
      [true, true, false, false, false, false, true, true] := by decide +kernel

theorem quiet_generations : Quiet (inState .tagged) ∧ Quiet (inState .complete) ∧ Quiet (cleanThere armed) ∧
    Quiet bandResolved := ⟨⟨rfl, rfl, rfl⟩, ⟨rfl, rfl, rfl⟩, ⟨rfl, rfl, rfl⟩, ⟨rfl, rfl, rfl⟩⟩

/-- A presented EGRESS read that waits for the queue. -/
def readWaiting : Presented :=
  { req := readBy 2 0x100400, cls := .egress 0, window := some win, stale := false, phase := .queue, answer := none }

/-- Such a read with n reads in the queue. -/
def readsBefore (n : Nat) : State :=
  { armed with mpu := { armed.mpu with intake := some readWaiting }
               er := { queue := List.replicate n entry, nextId := 1 } }

theorem test_hyp_EgressReadEnters : (readsBefore 15).mpu.intake = some readWaiting ∧
    readWaiting.cls = .egress 0 ∧ readWaiting.window = some win ∧ readWaiting.phase = .queue ∧
    (readsBefore 15).er.queue.length < 16 ∧ 16 ≤ (readsBefore 16).er.queue.length := by decide +kernel

/-- A window of half the width: the columns from 256 on are padding. -/
def narrow : Window := { win with width := 256 }

/-- A read of padding columns that waits for the queue, with n reads in it. -/
def paddingBefore (n : Nat) : State :=
  { readsBefore n with mpu := { armed.mpu with
      intake := some { readWaiting with req := readBy 2 0x100600, window := some narrow } } }

theorem test_hyp_EgressReadEnters_no_need : ∀ n ∈ [0, 1],
    ((paddingBefore n).fixRead (readBy 2 0x100600) 0 narrow).needs = [] ∧
    (paddingBefore n).er.queue = List.replicate n entry ∧ entry.state = .gathering ∧
    (after .egressQueueEntry (paddingBefore n)).er.queue.length = 2 * n := by decide +kernel

/-- A band magnification of 1.0 and of 60000 in a RESOLVED generation, with an EGRESS read that waits. -/
def magnified (k : Nat) (addr : BitVec 40) : State :=
  (readsBefore 0).modFrame 0 (fun f => { f with
    state := .resolved, bands := Vector.replicate 8 ⟨some ⟨.exact, k, identityGains⟩, some 0, some 0⟩ })
  |> fun s => { s with mpu := { s.mpu with intake := some { readWaiting with req := readBy 2 addr } } }

/-- Reads with one need and with two on different indices, at each record a need can meet. -/
theorem test_hyp_EgressReadEnters_needs :
    ((readsBefore 1).fixRead (readBy 2 0x100400) 0 win).needs = [⟨4100, 0, none⟩] ∧
    ((magnified 60000 0x1194F0).fixRead (readBy 2 0x1194F0) 0 win).needs = [⟨4484, 13, none⟩, ⟨4492, 13, none⟩] ∧
    indexOf 4484 ≠ indexOf 4492 ∧ (magnified 60000 0x1194F0).ls.claims = [] ∧ (readsBefore 1).ls.claims = [] ∧
    (∀ e ∈ (readsBefore 1).er.queue, e.id < (readsBefore 1).er.nextId ∧ e.state = .gathering) ∧
    (∀ r ∈ [LineRec.clean ⟨4100, 0, 1⟩ (zeros 256), .clean ⟨4612, 0, 1⟩ (zeros 256),
        .held ⟨4100, 0, 1⟩ none (lanesOf 256) false, .filling ⟨4100, 0, 1⟩ (zeros 256) 1 []],
      ((readsBefore 1).setLine 4 r).ls.claims = [] ∧ ((readsBefore 1).setLine 4 r).line 4 = r) := by decide +kernel

theorem test_needs_placed :
    (after .egressQueueEntry (magnified 60000 0x1194F0)).mpu.class2 =
      [⟨4484, 13, 3, .critical⟩, ⟨4484, 0, 13, .wrap⟩, ⟨4492, 13, 3, .critical⟩, ⟨4492, 0, 13, .wrap⟩] ∧
    (after .egressQueueEntry ((readsBefore 0).setLine 4 (.clean ⟨4100, 0, 1⟩ (zeros 256)))).ports.ump =
      [⟨2, 5, .okay, zeros 16⟩] ∧
    (after .egressQueueEntry ((readsBefore 1).setLine 4 (.held ⟨4100, 0, 1⟩ none (lanesOf 256) false))).line 4 =
      .held ⟨4100, 0, 1⟩ none (lanesOf 256) true := by decide +kernel

theorem test_padding_read_answered : (after .egressQueueEntry (paddingBefore 0)).ports.ump =
    [⟨2, 5, .okay, zeros 16⟩] := by decide +kernel

theorem test_egress_entry : ((after .egressQueueEntry (readsBefore 15)).er.queue.length = 16) ∧
    ((after .egressQueueEntry (readsBefore 15)).frame 0).flags.earlyRead = true ∧
    (after .egressQueueEntry (readsBefore 15)).mpu.class2 = [⟨4100, 0, 16, .single⟩] := by decide +kernel

/-! ### Hypotheses met: grants -/

/-- A state with candidates. -/
def asking (c1 : List LineIdx) (c2 : List FillPart) (c3 : Option Forward) (c5 : List ReportWrite) (n : Nat) : State :=
  { armed with mpu := { armed.mpu with class1 := c1, class2 := c2, class3 := c3, class5 := c5, starvation := n } }

/-- One part of a fill. -/
def part : FillPart := ⟨4100, 2, 14, .critical⟩

/-- The line of 0x100400 HELD with band 0 RESOLVED: a castout candidate. -/
def candidate : State := bandResolved.setLine 4 (.held ⟨4100, 0, 1⟩ (some 0) (lanesOf 256) false)

theorem test_hyp_ArbiterOrder : (asking [4] [part] none [.event] 64).mpu.starvation = 64 ∧
    (asking [4] [part] none [.event] 64).nextGrant = some (.report .event) ∧
    (asking [4] [part] none [.event] 63).nextGrant = some (.castout 4) ∧
    (asking [] [part] (some ⟨.read, 0⟩) [] 0).nextGrant = some (.fill part) ∧
    (asking [] [] (some ⟨.read, 0⟩) [.event] 63).nextGrant = some (.forward ⟨.read, 0⟩) ∧
    candidate.isBackground 4 = true ∧ candidate.isBackground 3 = false ∧
    candidate.nextGrant = some (.castout 4) ∧ armed.freeTag = some 0 := by decide +kernel

theorem test_hyp_ArbiterOrder_idle : (asking [] [] none [.event] 0).mpu.class1 = [] ∧
    ∀ i : LineIdx, (asking [] [] none [.event] 0).isBackground i = false :=
  ⟨rfl, fun i => by
    simp [State.isBackground, State.isCandidate, State.line, asking, armed, live, State.modSlot, Ls.reset]⟩

/-- A presented request that asks for its grant. -/
def offered : State :=
  { armed with mpu := { armed.mpu with
      intake := some ⟨readBy 1 0x100400, .foreign 0, some win, false, .offered, none⟩
      class3 := some ⟨.read, 0⟩ } }

theorem test_hyp_ForwardedGrantIssues : offered.nextGrant = some (.forward ⟨.read, 0⟩) ∧
    offered.freeTag = some 0 ∧ offered.mpu.intake =
      some ⟨readBy 1 0x100400, .foreign 0, some win, false, .offered, none⟩ := by decide +kernel

/-- A written-through INGEST write that asks for its grant, over a slot. -/
def offeredIngest (r : UpRequest) (answer : FtAnswer) (s : State) : State :=
  { s with
    mpu := { s.mpu with
      intake := some ⟨r, .ingest 0, some win, false, .offered, some answer⟩
      class3 := some ⟨r.kind, 5⟩ }
    ls := { s.ls with claims := [⟨r.first / 256, .ingest, true, true⟩] } }

/-- A RESOLVED generation that is not closed. -/
def resolvedOpen : State :=
  (inState .resolved).modFrame 0 fun f =>
    { f with bands := Vector.replicate 8 ⟨some (identityResult .exact), some 0, some 0⟩ }

/-- A crossing request that asks for its grant. -/
def crossing (addr : BitVec 40) : State :=
  { armed with mpu := { armed.mpu with
      intake := some ⟨⟨1, 5, addr, 2, .read⟩, .pass, none, false, .offered, none⟩, class3 := some ⟨.read, 0⟩ } }

/-- A write within the image and the one that holds its last byte; of the current generation, of another one and
of none. -/
theorem test_hyp_ForwardedGrantIssues_ingest :
    (∀ r ∈ [oneBeat 0x100400, oneBeat 0x1403F0], ∀ a ∈ [FtAnswer.resolved 1 0, .resolved 0 0, .noGeneration],
      (offeredIngest r a resolvedOpen).nextGrant = some (.forward ⟨r.kind, 5⟩) ∧
      (offeredIngest r a resolvedOpen).freeTag = some 0 ∧ r.crosses = false) ∧
    (resolvedOpen.frame 0).closed = false ∧ (resolvedOpen.frame 0).held = 0 ∧
    (resolvedOpen.frame 0).state = .resolved ∧ resolvedOpen.cru.proc = .none ∧
    (resolvedOpen.slot 0).committed = some win ∧ (resolvedOpen.slot 0).pendingDesc = none ∧
    ((oneBeat 0x1403F0).first ≤ win.lastImageByte ∧ win.lastImageByte ≤ (oneBeat 0x1403F0).last) := by decide +kernel

theorem test_hyp_ForwardedGrantIssues_crossing :
    (∀ s ∈ [crossing 0x0FFFF0, crossing 0x1403F0, crossing 0xFF0, crossing 0x1404F0],
      s.nextGrant = some (.forward ⟨.read, 0⟩) ∧ s.freeTag = some 0 ∧
      s.mpu.intake.map (fun p => p.req.crosses) = some true) ∧
    [crossing 0x0FFFF0, crossing 0x1403F0, crossing 0xFF0, crossing 0x1404F0].map (fun s =>
      ((after .forwardedGrant s).cru.events.map fun e => e.event.code)) = [[19], [19], [19], []] := by
  decide +kernel

theorem test_grant_completes :
    ((after .forwardedGrant (offeredIngest (oneBeat 0x1403F0) (.resolved 1 7) resolvedOpen)).frame 0).state =
      .complete ∧
    ((after .forwardedGrant (offeredIngest (oneBeat 0x1403F0) (.resolved 1 7) resolvedOpen)).frame 0).saturated = 5 ∧
    ((after .forwardedGrant (offeredIngest (oneBeat 0x100400) (.resolved 0 0) resolvedOpen)).frame 0).saturated = 0 ∧
    ((after .forwardedGrant (offeredIngest (oneBeat 0x100400) .noGeneration resolvedOpen)).frame 0).beats = 0 ∧
    (after .forwardedGrant (offeredIngest (oneBeat 0x100400) (.resolved 1 0) resolvedOpen)).mpu.outstanding[(0 : DownTag)] =
      some (.upstream (oneBeat 0x100400) (.ingest 0) [4100] false) := by decide +kernel

theorem test_hyp_CastoutGrantIssues : candidate.nextGrant = some (.castout 4) ∧ candidate.freeTag = some 0 ∧
    candidate.line 4 = .held ⟨4100, 0, 1⟩ (some 0) (lanesOf 256) false ∧
    candidate.gainSetting 0 1 0 = some unity := by decide +kernel

theorem test_castout_issued : (after .castoutGrant candidate).ports.dmp =
    [⟨0, 0x100400, 16, .write (lanesOf 256)⟩] := by decide +kernel

theorem test_hyp_FillGrantIssues : (asking [] [part] none [] 0).nextGrant = some (.fill part) ∧
    (asking [] [part] none [] 0).freeTag = some 0 := by decide +kernel

theorem test_fill_issued : (after .fillGrant (asking [] [part] none [] 0)).ports.dmp =
    [⟨0, 0x100420, 14, .read⟩] := by decide +kernel

/-- An event queued, the ring set at 0x300000 with P = 3, and a snapshot captured. -/
def reportingState : State :=
  { asking [4] [] none [.event, .snapshot 1] 64 with
    cru := { armed.cru with
      settings := { armed.cru.settings with ring := some ⟨0x300000, 16⟩ }
      ringState := .set
      produce := 3
      events := [⟨.snapshotDone 0 false, false, none, 0⟩]
      snapshot := some ⟨0x400000, zeros 512, 0, false⟩ } }

/-- The same with the second half of the snapshot first. -/
def snapshotAsking : State :=
  { reportingState with mpu := { reportingState.mpu with class5 := [.snapshot 1] } }

theorem test_hyp_ReportGrantsIssue : reportingState.freeTag = some 0 ∧
    reportingState.nextGrant = some (.report .event) ∧
    reportingState.cru.settings.ring = some ⟨0x300000, 16⟩ ∧
    reportingState.cru.events = ⟨.snapshotDone 0 false, false, none, 0⟩ :: [] ∧
    snapshotAsking.nextGrant = some (.report (.snapshot 1)) ∧
    snapshotAsking.cru.snapshot = some ⟨0x400000, zeros 512, 0, false⟩ := by decide +kernel

theorem test_report_addresses : ((after .eventRecordWriteGrant reportingState).ports.dmp.map DownRequest.addr) =
      [0x300060] ∧
    ((after .snapshotWriteGrant snapshotAsking).ports.dmp.map DownRequest.addr) = [0x400100] := by decide +kernel

/-! ### Hypotheses met: completions -/

/-- A state with an Outstanding Table entry BUSY. -/
def busyWith (o : Origin) (s : State) : State :=
  { s with mpu := { s.mpu with outstanding := put s.mpu.outstanding 9 (some o) } }

theorem test_hyp_ForwardedCompletionReturned :
    (busyWith (.upstream (oneBeat 0xFF0) .control [] false) armed).mpu.outstanding[(9 : DownTag)] =
      some (.upstream (oneBeat 0xFF0) .control [] false) ∧
    (oneBeat 0xFF0).kind = .write (lanesOf 16) ∧
    (busyWith (.upstream (readBy 1 0x100400) (.foreign 0) [] false) armed).mpu.outstanding[(9 : DownTag)] =
      some (.upstream (readBy 1 0x100400) (.foreign 0) [] false) := by decide +kernel

theorem test_completion_copies : ((after (.upstreamOriginCompletion 9 .okay [])
    (busyWith (.upstream (oneBeat 0xFF0) .control [] false) armed)).cru.shadow.map Prod.fst) =
    (List.range 16).map (0xFF0 + ·) := by decide +kernel

/-- The 64 bytes of a tag: sequence 532, rolling, 20833 µs, 7400 ns, strobe offset 20. -/
def tag532 : List Byte :=
  leBytes 4 0xB6C0F7A1 ++ leBytes 2 532 ++ leBytes 2 0 ++ leBytes 4 20833 ++ leBytes 4 7400 ++ leBytes 4 20 ++
    zeros 42 ++ leBytes 2 0xE12E

/-- A tag write of 4 beats in flight, over what a slot's generation is. -/
def tagWrite (bytes : List Byte) (stale : Bool) (s : State) : State :=
  busyWith (.upstream ⟨1, 5, 0x100000, 4, .write (bytes.map some)⟩ (.tag 0) [] stale) s

theorem test_hyp_ForwardedCompletionReturned_tag :
    (∀ b ∈ [true, false], ((tagWrite tag532 b armed).mpu.outstanding[(9 : DownTag)] =
        some (.upstream ⟨1, 5, 0x100000, 4, .write (tag532.map some)⟩ (.tag 0) [] b)) ∧
      (tagWrite tag532 b armed).mpu.intake = none ∧ ((tagWrite tag532 b armed).slot 0).committed = some win) ∧
    win.tagStart = 0x100000 ∧ tag532.length = 64 ∧
    decodeTag tag532 = .ok ⟨532, .rolling, 20833, 7400, 20⟩ ∧
    decodeTag (tag532.set 4 0) = .error .checksum ∧ (armed.slot 0).invalidReported = false ∧
    (armed.slot 0).collection = Vector.replicate 64 none := by decide +kernel

/-- The states of a record that a tag can meet. -/
theorem test_hyp_TagTaken : ((inState .tagged).frame 0).closed = false ∧
    (((inState .tagged).frame 0).bands[(3 : BandId)]).result = none ∧
    ((closedIn .tagged none).frame 0).state = .tagged ∧ ((closedIn .tagged none).frame 0).closed = true ∧
    (armed.frame 0).state = .armed ∧ (armed.frame 0).closed = false ∧
    ((inState .complete).frame 0).state = .complete ∧ ((inState .complete).frame 0).successor = none ∧
    armed.cru.proc = .none ∧ (inProc (.bypassEntry []) armed).cru.proc ≠ .none := by decide +kernel

theorem test_tag_taken :
    ((after (.upstreamOriginCompletion 9 .okay []) (tagWrite tag532 false armed)).frame 0).tagSequence = some 532 ∧
    ((after (.upstreamOriginCompletion 9 .okay []) (tagWrite tag532 false (closedIn .tagged none))).frame
      0).pendingTag = some ⟨⟨532, .rolling, 20833, 7400, 20⟩, 0⟩ ∧
    ((after (.upstreamOriginCompletion 9 .okay []) (tagWrite (tag532.set 4 0) false armed)).cru.events.map
      fun e => e.event.code) = [3] ∧
    ((after (.upstreamOriginCompletion 9 .okay []) (tagWrite tag532 true armed)).frame 0).tagSequence = none := by
  decide +kernel

theorem test_hyp_FreeTagCompletionDiscarded : armed.mpu.outstanding[(9 : DownTag)] = none := by decide +kernel

/-- A castout in flight of generation 1, with n lines of it held. -/
def castingOut (n : Nat) (s : State) : State :=
  busyWith (.castout 4) ((s.setLine 4 (.casting ⟨4100, 0, 1⟩ (some 0) (lanesOf 256) true)).modFrame 0 fun f =>
    { f with held := n })

theorem test_hyp_CastoutCompletes : (castingOut 2 armed).mpu.outstanding[(9 : DownTag)] = some (.castout 4) ∧
    (castingOut 2 armed).line 4 = .casting ⟨4100, 0, 1⟩ (some 0) (lanesOf 256) true ∧
    (castingOut 2 armed).mpu.intake = none ∧ (castingOut 2 armed).er.queue = [] ∧
    (castingOut 2 armed).ls.claims = [] ∧ ((castingOut 2 armed).frame 0).generation = 1 ∧
    1 < ((castingOut 2 armed).frame 0).held ∧ (castingOut 2 armed).cru.events.length < 16 ∧
    (castingOut 2 armed).cru.settings.eventDisable.getLsbD 17 = false := by decide +kernel

theorem test_castout_faults : (after (.castoutCompletion 9 .fault) (castingOut 2 armed)).cru.events =
    [⟨.writebackFault 0x100400 (some 0) 256 true, false, some (0, 1), 0⟩] := by decide +kernel

/-- A RESOLVED generation that is closed. -/
def resolvedClosed : State :=
  (inState .resolved).modFrame 0 fun f =>
    { f with eofSeen := true, bands := Vector.replicate 8 ⟨some (identityResult .exact), some 0, some 0⟩ }

/-- A drain that waits for the castout. -/
def castoutDrain : Drain := ⟨0, false, 0, 0, 0, 0, false, [9]⟩

theorem test_hyp_CastoutCompletes_drain : ∀ s ∈ [inProc (.drain castoutDrain) (castingOut 2 armed),
      inProc (.drain castoutDrain) (castingOut 1 resolvedClosed)],
    s.cru.proc = .drain castoutDrain ∧ s.mpu.outstanding[(9 : DownTag)] = some (.castout 4) ∧ s.mpu.intake = none ∧
    s.er.queue = [] ∧ s.ls.claims = [] ∧ (s.frame 0).generation = 1 ∧ (s.frame 0).ended = false ∧
    (s.frame 0).successor = none := by decide +kernel

theorem test_drain_counts_castout :
    (after (.castoutCompletion 9 .fault) (inProc (.drain castoutDrain) (castingOut 1 resolvedClosed))).cru.proc =
      .drain ⟨0, false, 1, 1, 1, 0, false, []⟩ ∧
    ((after (.castoutCompletion 9 .okay) (inProc (.drain castoutDrain) (castingOut 1 resolvedClosed))).frame
      0).ended = true := by decide +kernel

theorem test_hyp_GenerationCompletes :
    (castingOut 1 resolvedClosed).mpu.outstanding[(9 : DownTag)] = some (.castout 4) ∧
    (castingOut 1 resolvedClosed).line 4 = .casting ⟨4100, 0, 1⟩ (some 0) (lanesOf 256) true ∧
    (castingOut 1 resolvedClosed).mpu.intake = none ∧ (castingOut 1 resolvedClosed).er.queue = [] ∧
    (castingOut 1 resolvedClosed).ls.claims = [] ∧ (castingOut 1 resolvedClosed).cru.proc = .none ∧
    ((castingOut 1 resolvedClosed).slot 0).committed = some win ∧
    ((castingOut 1 resolvedClosed).slot 0).pendingDesc = none ∧
    ((castingOut 1 resolvedClosed).frame 0).generation = 1 ∧ ((castingOut 1 resolvedClosed).frame 0).held = 1 ∧
    ((castingOut 1 resolvedClosed).frame 0).state = .resolved ∧
    ((castingOut 1 resolvedClosed).frame 0).closed = true ∧
    ((castingOut 1 resolvedClosed).frame 0).ended = false ∧
    ((castingOut 1 resolvedClosed).frame 0).successor = none ∧
    ((castingOut 1 resolvedClosed).frame 0).pendingTag = none ∧
    (castingOut 1 resolvedClosed).cru.events.length < 16 ∧
    (castingOut 1 resolvedClosed).cru.settings.eventDisable.getLsbD 1 = false := by decide +kernel

theorem test_generation_completes :
    ((after (.castoutCompletion 9 .okay) (castingOut 1 resolvedClosed)).frame 0).state = .complete ∧
    ((after (.castoutCompletion 9 .okay) (castingOut 1 resolvedClosed)).frame 0).flags =
      ⟨false, true, false, false, false⟩ ∧
    ((after (.castoutCompletion 9 .okay) (castingOut 1 resolvedClosed)).cru.events.map fun e => e.event.code) =
      [1] := by decide +kernel

/-- A fill in flight with n parts outstanding, some of which have faulted. -/
def filling (n : Nat) (faulted : List FillPartKind) : State :=
  busyWith (.fill part) (armed.setLine 4 (.filling ⟨4100, 0, 1⟩ (zeros 256) n faulted))

theorem test_hyp_FillCompletes : ∀ s ∈ [filling 1 [], filling 2 [], filling 1 [.wrap]],
    s.mpu.outstanding[(9 : DownTag)] = some (.fill part) ∧ s.mpu.intake = none ∧ s.er.queue = [] ∧
    s.ls.claims = [] ∧ s.cru.events.length < 16 ∧ s.cru.settings.eventDisable.getLsbD 18 = false := by
  decide +kernel

theorem test_hyp_FillCompletes_line : (filling 1 []).line (indexOf part.line) =
      .filling ⟨4100, 0, 1⟩ (zeros 256) 1 [] ∧
    (filling 2 []).line (indexOf part.line) = .filling ⟨4100, 0, 1⟩ (zeros 256) 2 [] ∧
    (filling 1 [.wrap]).line (indexOf part.line) = .filling ⟨4100, 0, 1⟩ (zeros 256) 1 [.wrap] := by decide +kernel

theorem test_fault_stores_beats : (after (.fillCompletion 9 .fault (List.replicate 224 5)) (filling 2 [])).line 4 =
    .filling ⟨4100, 0, 1⟩ (zeros 32 ++ List.replicate 224 5) 1 [.critical] := by decide +kernel

theorem test_fill_faults : (after (.fillCompletion 9 .okay (zeros 224)) (filling 1 [.wrap])).cru.events =
    [⟨.fillFault 0x100400 [.wrap] 0, false, some (0, 1), 0⟩] := by decide +kernel

/-- A fill in flight with one read that waits for its line, and for another line when `more`. -/
def readOnFill (n : Nat) (faulted : List FillPartKind) (more : Bool) : State :=
  let needs := [⟨4100, 2, none⟩] ++ (if more then [⟨4104, 0, none⟩] else [])
  { filling n faulted with
    er := { queue := [{ entry with needs := needs }], nextId := 1 }
    ls := { (filling n faulted).ls with claims := [⟨4100, .need 0 0 1 2, false, false⟩] } }

theorem test_hyp_FillCompletes_read : ∀ more ∈ [true, false], ∀ x ∈ [(1, []), (2, []), (1, [FillPartKind.wrap])],
    (readOnFill x.1 x.2 more).mpu.outstanding[(9 : DownTag)] = some (.fill part) ∧
    (readOnFill x.1 x.2 more).line (indexOf part.line) = .filling ⟨4100, 0, 1⟩ (zeros 256) x.1 x.2 ∧
    (readOnFill x.1 x.2 more).mpu.intake = none ∧
    (readOnFill x.1 x.2 more).er.queue.map EgressEntry.id = [entry.id] ∧
    (readOnFill x.1 x.2 more).ls.claims = [⟨part.line, .need entry.id 0 1 2, false, false⟩] := by decide +kernel

theorem test_read_on_fill :
    (after (.fillCompletion 9 .okay (zeros 224)) (readOnFill 1 [] false)).ports.ump =
      [⟨2, 5, .okay, zeros 16⟩] ∧
    (after (.fillCompletion 9 .fault []) (readOnFill 1 [] true)).ports.ump = [⟨2, 5, .fault, zeros 16⟩] ∧
    (after (.fillCompletion 9 .okay (zeros 224)) (readOnFill 1 [] true)).er.queue.length = 1 := by decide +kernel

/-- A record write in flight. -/
def recordInFlight (changed : Bool) : State :=
  busyWith (.event 3) { reportingState with cru := { reportingState.cru with recordWrite := some changed } }

theorem test_hyp_RecordWriteCompletes : ∀ c ∈ [true, false],
    (recordInFlight c).mpu.outstanding[(9 : DownTag)] = some (.event 3) ∧
    (recordInFlight c).cru.recordWrite = some c ∧ (recordInFlight c).mpu.intake = none ∧
    (recordInFlight c).er.queue = [] := by decide +kernel

theorem test_record_faults : (after (.eventRecordWriteCompletion 9 .fault) (recordInFlight false)).cru.ringState =
      .broken ∧
    (after (.eventRecordWriteCompletion 9 .fault) (recordInFlight false)).pins.attnN = false := by decide +kernel

/-- A snapshot write in flight, with n of the two completed, and a request repeated. -/
def snapshotInFlight (n : Nat) (again : Bool) : State :=
  busyWith (.snapshot 1) { armed with cru := { armed.cru with
    snapshot := some ⟨0x400000, zeros 512, n, false⟩, snapshotRepeat := again
    settings := { armed.cru.settings with snapshotAddr := some 0x400000 } } }

theorem test_hyp_SnapshotWriteCompletes : ∀ n ∈ [0, 1], ∀ b ∈ [true, false],
    (snapshotInFlight n b).mpu.outstanding[(9 : DownTag)] = some (.snapshot 1) ∧
    (snapshotInFlight n b).cru.snapshot = some ⟨0x400000, zeros 512, n, false⟩ ∧
    (snapshotInFlight n b).cru.snapshotRepeat = b ∧
    (snapshotInFlight n b).mpu.intake = none ∧ (snapshotInFlight n b).er.queue = [] ∧
    (snapshotInFlight n b).cru.events.length < 16 ∧
    (snapshotInFlight n b).cru.settings.eventDisable.getLsbD 20 = false := by decide +kernel

/-! ### Hypotheses met: the control area -/

theorem memories_armed : MemoriesOk armed := ⟨Memory.wf_nil, Memory.wf_nil, Memory.wf_nil⟩

/-- In raw passing CONTROL writes are not handed over. -/
def rawPassing : State := armed.setBypass true

theorem test_hyp_ControlWriteCopiesBytes : (⟨16, lanesOf 16⟩ : ControlBytes).wf = true ∧
    (⟨0, lanesOf 16⟩ : ControlBytes).wf = true ∧ armed.snoops = true ∧ rawPassing.snoops = false := by
  decide +kernel

theorem test_hyp_CommitRejected : coversWord (word 0) = true ∧ armed.snoops = true ∧ armed.mpu.intake = none ∧
    armed.er.queue = [] ∧ (shadowAfter armed 0 (word 0).toList).commitFault = some (.setting, none) := by
  decide +kernel

/-- A shadow whose global settings pass every check, with an event ring when `ring` is true. -/
def settingsBytes (ring : Bool) : Memory :=
  Memory.writeLanes (Memory.writeLanes [] 0x040 (wordLanes 8000 ++ wordLanes 4000)) 0x060
    (if ring then wordLanes 0x300000 ++ wordLanes 0 ++ wordLanes 16 else [])

/-- The part with that shadow. -/
def shadowed (ring : Bool) : State := { live with cru := { live.cru with shadow := settingsBytes ring } }

theorem test_hyp_CommitAccepted : ∀ ring ∈ [true, false], (shadowed ring).snoops = true ∧
    (shadowed ring).mpu.intake = none ∧ (shadowed ring).er.queue = [] ∧
    (shadowAfter (shadowed ring) 0 (word 1).toList).commitFault = none ∧
    (shadowRing ((shadowed ring).cru.shadow.writeLanes 0 (word 1).toList)).isSome = ring ∧
    ((shadowed ring).slot 0).pendingDesc = none ∧ ((shadowed ring).frame 0).appliesAtOnce = true := by
  decide +kernel

theorem test_hyp_CommitAccepted_pending : ((inState .tagged).frame 0).appliesAtOnce = false ∧
    (shadowAfter { inState .tagged with cru := (shadowed true).cru } 0 (word 1).toList).commitFault = none := by
  decide +kernel

/-- The shadow with the descriptor of `win` for slot 0. -/
def windowBytes : Memory :=
  Memory.writeLanes (settingsBytes false) 0x200 (([3, 1, 1, 0, 4, 0, 0, 0] ++ leBytes 8 0x100000 ++
    leBytes 4 1024 ++ leBytes 2 512 ++ leBytes 2 256).map some)

/-- A shadow with bytes of it replaced. -/
def alsoBytes (m : Memory) (off : Nat) (bytes : List Byte) : Memory := m.writeLanes off (bytes.map some)

/-- The verdict on a shadow with an ARMED generation of `win` in slot 0. -/
def verdict (m : Memory) : Option (CommitFault × Option SlotId) :=
  ({ armed with cru := { armed.cru with shadow := m } } : State).commitFault

/-- One shadow for each check, in the table's order, each at the edge of a limit; the last passes. -/
theorem test_commit_checks : verdict (alsoBytes windowBytes 0x040 (leBytes 4 99)) = some (.setting, none) ∧
    verdict (alsoBytes windowBytes 0x060 (leBytes 8 0x300000 ++ leBytes 2 17)) = some (.ring, none) ∧
    verdict (alsoBytes windowBytes 0x070 (leBytes 8 0x300100 ++ [1])) = some (.snapshot, none) ∧
    verdict (alsoBytes windowBytes 0x214 (leBytes 2 511)) = some (.geometry, some 0) ∧
    verdict (alsoBytes windowBytes 0x210 (leBytes 4 1025)) = some (.pitch, some 0) ∧
    verdict (alsoBytes windowBytes 0x203 [1]) = some (.tagPlacement, some 0) ∧
    verdict (alsoBytes windowBytes 0x204 [6]) = some (.readerSet, some 0) ∧
    verdict (alsoBytes windowBytes 0x060 (leBytes 8 0x140200 ++ leBytes 2 16)) = some (.overlap, some 0) ∧
    verdict (alsoBytes (alsoBytes windowBytes 0x060 (leBytes 8 0x300000 ++ leBytes 2 16)) 0x070
      (leBytes 8 0x300000 ++ [1])) = some (.overlap, none) ∧
    verdict (alsoBytes windowBytes 0x060 (leBytes 8 0x140400 ++ leBytes 2 16)) = none := by decide +kernel

/-- A part with that shadow. -/
def offeredWindow (s : State) : State := { s with cru := { live.cru with shadow := windowBytes } }

theorem test_hyp_CommitAccepted_applies :
    (∀ s ∈ [offeredWindow live, offeredWindow armed, { armed with cru := (shadowed true).cru }],
      s.snoops = true ∧ s.mpu.intake = none ∧ s.er.queue = [] ∧ (s.frame 0).appliesAtOnce = true ∧
      (s.slot 0).pendingDesc = none ∧ (shadowAfter s 0 (word 1).toList).commitFault = none) ∧
    shadowWindow (windowBytes.writeLanes 0 (word 1).toList) 0 = some win ∧
    (live.slot 0).committed = none ∧ (armed.slot 0).committed = some win ∧
    shadowWindow ((shadowed true).cru.shadow.writeLanes 0 (word 1).toList) 0 = none := by decide +kernel

/-- A commit of `win` for a FREE slot during a drain. -/
def offeredInDrain : State := inProc (.drain ⟨0, false, 0, 0, 0, 0, false, []⟩) (offeredWindow live)

theorem test_hyp_CommitAccepted_in_drain : offeredInDrain.snoops = true ∧ offeredInDrain.mpu.intake = none ∧
    offeredInDrain.er.queue = [] ∧ (offeredInDrain.frame 0).appliesAtOnce = true ∧
    (offeredInDrain.slot 0).pendingDesc = none ∧
    (shadowAfter offeredInDrain 0 (word 1).toList).commitFault = none := by decide +kernel

/-- The FREE slot takes it at once (R38, R174), and step 4 begins one more generation (R41). -/
theorem test_drain_offer_applies :
    let t := after (.commit (word 1)) offeredInDrain
    (t.slot 0).committed = some win ∧ (t.slot 0).pendingDesc = none ∧ (t.frame 0).state = .armed ∧
    t.cru.events.map EventRecord.event = [.commitApplied [0] [] []] ∧
    ((after .drainStep4 t).frame 0).state = .armed ∧ ((after .drainStep4 t).frame 0).generation = 2 := by
  decide +kernel

/-- The same commit for a slot whose generation has ended in the drain. -/
def offeredToEnded : State := (inProc (.drain ⟨0, false, 0, 0, 0, 0, false, []⟩)
  (offeredWindow (inState .resolved))).modSlot 0 fun sl =>
    { sl with committed := some narrow, frame := { sl.frame with ended := true } }

/-- There it stays pending and applies at step 4 (R38, R175, R180). -/
theorem test_drain_offer_pends :
    let t := after (.commit (word 1)) offeredToEnded
    (t.slot 0).committed = some narrow ∧ (t.slot 0).pendingDesc = some (some win) ∧
    ((after .drainStep4 t).slot 0).committed = some win ∧ ((after .drainStep4 t).slot 0).pendingDesc = none := by
  decide +kernel

/-- An INGEST write of no generation, a descriptor being pending for its slot, has been gained and asks for its grant;
the shadow has the committed descriptor. -/
def awaitingGrant : State :=
  let s := offeredWindow (noGeneration .invalid)
  { s with
    mpu := { s.mpu with
      intake := some { req := oneBeat 0x100400, cls := .ingest 0, window := some win, stale := false, phase := .offered
                       answer := some .noGeneration }
      class3 := some ⟨.write (lanesOf 16), 0⟩ }
    ls := { s.ls with claims := [⟨4100, .ingest, true, false⟩] } }

/-- A CONTROL write of the commit word and of DRAIN_RESTART. -/
def commitAndDrain : ControlBytes :=
  ⟨0, (leBytes 4 1).map some ++ List.replicate 8 none ++ (leBytes 4 1).map some⟩

/-- R173 with R121: the commit withdraws the descriptor, the write is evaluated afresh and posted to the successor, and
the drain then finds nothing presented. -/
theorem test_words_in_turn : (after (.controlWrite commitAndDrain) awaitingGrant).ports.ump = [⟨1, 5, .okay, []⟩] ∧
    (after (.controlWrite commitAndDrain) awaitingGrant).mpu.port = [] ∧
    (match (after (.controlWrite commitAndDrain) awaitingGrant).cru.proc with
      | .drain d => d.cancelled
      | _ => true) = false ∧
    (after (.controlWrite ⟨0, List.replicate 12 none ++ (leBytes 4 1).map some⟩) awaitingGrant).mpu.port =
      [oneBeat 0x100400] := by decide +kernel

/-- A slot with a descriptor pending. -/
def pendingIn (st : SlotState) (d committed : Option Window) : State :=
  (offeredWindow (inState st)).modSlot 0 fun sl => { sl with pendingDesc := some d, committed := committed }

/-- The shadow has `win`: equal to the pending descriptor, to the committed one, and to neither. -/
theorem test_hyp_CommitAccepted_replaces : ∀ s ∈ [pendingIn .tagged (some win) (some narrow),
      pendingIn .tagged none (some win), pendingIn .tagged none (some narrow), pendingIn .complete none (some narrow)],
    s.snoops = true ∧ s.mpu.intake = none ∧ s.er.queue = [] ∧
    (shadowAfter s 0 (word 1).toList).commitFault = none ∧ (s.slot 0).pendingDesc.isSome = true ∧
    s.cru.events.length < 16 ∧ (shadowSettings (s.cru.shadow.writeLanes 0 (word 1).toList)).eventDisable = 0 := by
  decide +kernel

theorem test_commit_sets : [pendingIn .tagged (some win) (some narrow), pendingIn .tagged none (some win),
      pendingIn .tagged none (some narrow), pendingIn .complete none (some narrow)].map (fun s =>
        ((after (.commit (word 1)) s).cru.events.map EventRecord.event)) =
    [[.commitApplied [] [] []], [.commitApplied [] [] [0]], [.commitApplied [] [0] []],
      [.commitApplied [0] [] []]] := by decide +kernel

theorem test_descriptor_applies :
    ((after (.commit (word 1)) (offeredWindow live)).frame 0).state = .armed ∧
    ((after (.commit (word 1)) (offeredWindow armed)).frame 0).generation = 1 ∧
    ((after (.commit (word 1)) { inState .complete with cru := (shadowed true).cru }).frame 0).state = .free ∧
    (((after (.commit (word 1)) { inState .complete with cru := (shadowed true).cru }).frame
      0).bands[(0 : BandId)]).time = some 0 := by decide +kernel

/-- The ring in each of its states. -/
def ringIn (st : RingState) : State :=
  { reportingState with cru := { reportingState.cru with ringState := st } }

theorem test_hyp_ConsumedIndexTaken : ∀ st ∈ [RingState.none, .set, .broken], (ringIn st).snoops = true ∧
    (ringIn st).mpu.intake = none ∧ (ringIn st).er.queue = [] ∧ (ringIn st).cru.ringState = st ∧
    (ringIn st).cru.settings.ring = some ⟨0x300000, 16⟩ := by decide +kernel

/-- A drain that waits for nothing. -/
def aDrain : Drain := ⟨0, false, 0, 0, 0, 0, false, []⟩

/-- A snapshot address set. -/
def addressed : State :=
  { armed with cru := { armed.cru with settings := { armed.cru.settings with snapshotAddr := some 0x400000 } } }

theorem test_hyp_SnapshotRequestTaken : coversWord (word 1) = true ∧
    (∀ s ∈ [armed, addressed, snapshotInFlight 0 false, inProc (.drain aDrain) armed,
        inProc (.bypassEntry []) armed],
      s.snoops = true ∧ s.mpu.intake = none ∧ s.er.queue = []) ∧
    (armed.cru.proc = .none ∧ armed.cru.settings.snapshotAddr = none) ∧
    (addressed.cru.proc = .none ∧ addressed.cru.settings.snapshotAddr = some 0x400000 ∧
      addressed.cru.snapshot = none) ∧
    ((snapshotInFlight 0 false).cru.settings.snapshotAddr = some 0x400000 ∧
      (snapshotInFlight 0 false).cru.snapshot = some ⟨0x400000, zeros 512, 0, false⟩) := by decide +kernel

theorem test_hyp_NoneAndUnknownCommand : armed.snoops = true ∧ 3 < (4 : BitVec 32).toNat ∧
    3 < (0xFFFFFFFF : BitVec 32).toNat := by decide +kernel

theorem test_hyp_CommandsRefusedInProcedure :
    (inProc (.drain aDrain) armed).snoops = true ∧ (inProc (.bypassEntry []) armed).snoops = true ∧
    (inProc (.drain aDrain) armed).mpu.intake = none ∧ (inProc (.drain aDrain) armed).er.queue = [] ∧
    (inProc (.drain aDrain) armed).cru.proc = .drain aDrain ∧
    (inProc (.bypassEntry []) armed).cru.proc = .bypassEntry [] := by decide +kernel

theorem memories_procedures : MemoriesOk (inProc (.drain aDrain) armed) ∧
    MemoriesOk (inProc (.bypassEntry []) armed) ∧ MemoriesOk fullQueue :=
  ⟨⟨Memory.wf_nil, Memory.wf_nil, Memory.wf_nil⟩, ⟨Memory.wf_nil, Memory.wf_nil, Memory.wf_nil⟩,
    ⟨Memory.wf_nil, Memory.wf_nil, Memory.wf_nil⟩⟩

theorem test_hyp_DrainStarts : fullQueue.snoops = true ∧ fullQueue.cru.proc = .none ∧
    fullQueue.er.queue.length ≤ 16 := by decide +kernel

theorem test_hyp_DrainStarts_step2 :
    (∀ s ∈ [inState .tagged, inState .armed, resolvedClosed, closedIn .resolved (some ⟨2, 3, 77, true⟩),
        inState .complete, armed], s.snoops = true ∧ s.cru.proc = .none ∧ s.er.queue.length ≤ 16 ∧
      (s.frame 0).held = 0 ∧ (s.frame 0).ended = false) ∧
    ((inState .tagged).frame 0).successor = none ∧
    (((inState .tagged).frame 0).bands[(7 : BandId)]).result = none ∧
    ((inState .armed).frame 0).firstIngest = some 0 ∧ (armed.frame 0).firstIngest = none := by decide +kernel

/-- A GATHERING and a READY read in the queue, the first with a need at a FILLING record, and a load in progress. -/
def drainWork : State :=
  { armed.setLine 4 (.filling ⟨4100, 0, 1⟩ (zeros 256) 1 []) with
    er := { queue := [{ entry with needs := [⟨4100, 0, none⟩] }, { entry with id := 1, state := .ready (zeros 16) }]
            nextId := 2 }
    ls := { (armed.setLine 4 (.filling ⟨4100, 0, 1⟩ (zeros 256) 1 [])).ls with
            claims := [⟨4100, .need 0 0 1 0, false, false⟩] }
    pu := { armed.pu with load := some { Load.pendingFor ⟨0x51A30C27, 3⟩ with area := some .p1 } } }

/-- The drain in progress, if one is. -/
def drainOf (s : State) : Option Drain :=
  match s.cru.proc with
  | .drain d => some d
  | _ => none

theorem test_hyp_DrainStarts_counts : drainWork.snoops = true ∧ drainWork.cru.proc = .none ∧
    drainWork.er.queue.length ≤ 16 ∧ drainWork.mpu.intake = none ∧
    (∀ c ∈ drainWork.ls.claims, (drainWork.line (indexOf c.line)).inWork = true) ∧
    drainOf (after .drainRestart drainWork) = some ⟨0, false, 0, 0, 0, 1, true, []⟩ ∧
    (drainOf (after .drainRestart (closedIn .resolved (some ⟨0, 3, 77, true⟩)))).map Drain.generations = some 2 := by
  decide +kernel

theorem test_drain_step_2 :
    ((after .drainRestart (inState .tagged)).frame 0).state = .resolved ∧
    ((after .drainRestart (inState .tagged)).frame 0).ended = true ∧
    ((((after .drainRestart (inState .tagged)).frame 0).bands[(7 : BandId)]).result.map BandResult.kind) =
      some .forced ∧
    ((((after .drainRestart (inState .armed)).frame 0).bands[(0 : BandId)]).result.map BandResult.kind) =
      some .untagged ∧
    ((after .drainRestart (closedIn .resolved (some ⟨2, 3, 77, true⟩))).frame 0).generation = 2 := by decide +kernel

/-- What the bypass entry sequence meets: generations with work, with lines held or not, a successor, and a
descriptor pending. -/
theorem test_hyp_BypassRiseStartsEntry_generations :
    (∀ s ∈ [inState .tagged, inState .armed, resolvedOpen, resolvedClosed, (inState .tagged).modFrame 0 (fun f => { f with held := 2 }),
        closedIn .resolved (some ⟨2, 3, 77, true⟩), closedIn .resolved (some ⟨0, 3, 77, false⟩),
        resolvedClosed.modSlot 0 (fun sl => { sl with pendingDesc := some none }), armed],
      s.pins.bypass = false ∧ s.pins.resetN = true ∧ s.cru.proc = .none ∧ s.er.queue.length ≤ 16 ∧
      (s.frame 0).ended = false ∧ s.pu.load = none ∧ s.cru.events.length < 16 ∧
      s.cru.settings.eventDisable = 0 ∧ ∀ j : SlotId, j ≠ 0 → (s.frame j).state = .free) ∧
    (resolvedOpen.frame 0).held = 0 ∧ (resolvedOpen.frame 0).successor = none := by decide +kernel

theorem test_bypass_completes : ((after .bypassRise resolvedOpen).frame 0).state = .complete ∧
    ((after .bypassRise resolvedOpen).frame 0).flags.truncated = true ∧
    ((after .bypassRise resolvedOpen).cru.events.map fun e => e.event.code) = [1] ∧
    ((after .bypassRise (closedIn .resolved (some ⟨2, 3, 77, true⟩))).frame 0).generation = 2 ∧
    ((after .bypassRise ((inState .tagged).modFrame 0 fun f => { f with held := 2 })).frame 0).state = .resolved := by
  decide +kernel

/-- A lens of Sequence 4-A. -/
def lens : LensIdentity := ⟨0x51A30C27, 3⟩

/-- The link READY with that lens. -/
def ready : State :=
  { armed with llc := { armed.llc with link := .ready, expected := some 27, identified := some lens
                                       deadline := some 100 } }

/-- Both profile areas taken. -/
def areasTaken : State :=
  { ready with pu := { ready.pu with p0 := { ready.pu.p0 with state := .active }
                                     p1 := { ready.pu.p1 with state := .retiring } } }

theorem test_hyp_ReloadTaken : (∀ s ∈ [armed, ready, areasTaken], s.snoops = true ∧ s.cru.proc = .none ∧
      s.mpu.intake = none ∧ s.er.queue = []) ∧ armed.llc.identified = none ∧ ready.llc.identified = some lens ∧
    ready.pu.load = none ∧ ready.pu.p0.state = .free ∧ areasTaken.pu.load = none ∧
    areasTaken.pu.p0.state ≠ .free ∧ areasTaken.pu.p1.state ≠ .free := by decide +kernel

/-- An ACTIVE area P0, with a load held or not, and P1 in a state. -/
def reloading (l : Option Load) (p1 : AreaState) : State :=
  { ready with pu := { ready.pu with load := l
                                     p0 := { ready.pu.p0 with state := .active }
                                     p1 := { ready.pu.p1 with state := p1 } } }

/-- A load in progress in P1. -/
def loadInP1 : Load := { Load.pendingFor lens with area := some .p1, known := some 40 }

theorem test_hyp_ReloadTaken_superseding :
    (∀ s ∈ [reloading none .free, reloading (some loadInP1) .loading, reloading (some (.pendingFor lens)) .retiring],
      s.snoops = true ∧ s.cru.proc = .none ∧ s.mpu.intake = none ∧ s.er.queue = [] ∧ s.pu.p0.state ≠ .free ∧
      s.llc.identified = some lens ∧ s.cru.events.length < 16 ∧
      s.cru.settings.eventDisable.getLsbD 10 = false) ∧ loadInP1.area = some .p1 := by decide +kernel

theorem test_reload_elsewhere : ((after .reloadProfile (reloading none .free)).pu.load.map Load.area) =
      some (some .p1) ∧
    ((after .reloadProfile (reloading (some loadInP1) .loading)).pu.load.map Load.area) = some (some .p1) ∧
    ((after .reloadProfile (reloading (some loadInP1) .loading)).cru.events.map EventRecord.event) =
      [.profileFailed .superseded (some .p1) (some lens) none (some 40) 0 0] := by decide +kernel

theorem test_reload : ((after .reloadProfile ready).pu.load.map Load.area) = some (some .p0) ∧
    ((after .reloadProfile areasTaken).pu.load.map Load.area) = some none := by decide +kernel

theorem test_hyp_LinkRestartTaken : armed.llc.link = .down ∧ ready.llc.link ≠ .down ∧ ready.snoops = true ∧
    ready.cru.proc = .none := by decide +kernel

/-- The link READY and FAST, with a generation. -/
def fastWith (st : SlotState) : State :=
  { inState st with llc := { ready.llc with linkMode := .fast, modeTarget := .fast } }

theorem test_hyp_LinkRestartTaken_bands : (fastWith .tagged).snoops = true ∧ (fastWith .tagged).cru.proc = .none ∧
    (fastWith .tagged).llc.link ≠ .down ∧ (fastWith .tagged).llc.linkMode = .fast ∧
    (fastWith .tagged).cru.events.length < 15 ∧ (fastWith .tagged).cru.settings.eventDisable = 0 ∧
    (fastWith .tagged).mpu.intake = none ∧ ((fastWith .tagged).frame 0).closed = false ∧
    (((fastWith .tagged).frame 0).bands[(0 : BandId)]).result = none ∧
    ((fastWith .armed).frame 0).state ≠ .tagged := by decide +kernel

theorem test_restart_from_fast : ((after .linkRestart (fastWith .tagged)).cru.events.map EventRecord.event).take 2 =
      [.linkState .ready .down .restart 0 none none, .modeChanged .fast .normal .fast none] ∧
    ((((after .linkRestart (fastWith .tagged)).frame 0).bands[(0 : BandId)]).result.map BandResult.kind) =
      some .lensLost := by decide +kernel

/-- A drain whose work has ended. -/
def drainOver : State := inProc (.drain aDrain) armed

theorem test_hyp_DrainEnds : drainOver.cru.proc = .drain aDrain ∧ drainOver.workEnded = true ∧
    drainOver.pins.bypass = false ∧ drainOver.mpu.intake = none ∧ (drainOver.slot 0).pendingDesc = none ∧
    (drainOver.slot 0).committed.isSome = true := by decide +kernel

theorem test_drain_ends : ((after .drainStep4 drainOver).frame 0).generation = 2 ∧
    ((after .drainStep4 drainOver).cru.events.map EventRecord.event) =
      [.drainDone 0 false 0 0 0 0 false] := by decide +kernel

/-- A drain whose work has ended, with counts, and descriptors pending in slots 2 and 0. -/
def drainPending : State :=
  inProc (.drain ⟨7, true, 3, 4, 1, 2, true, []⟩) ((armed.modSlot 0 fun sl => { sl with pendingDesc := some none }).modSlot
    2 fun sl => { sl with pendingDesc := some (some narrow) })

theorem test_hyp_DrainEnds_pending : drainPending.cru.proc = .drain ⟨7, true, 3, 4, 1, 2, true, []⟩ ∧
    drainPending.workEnded = true ∧ drainPending.pins.bypass = false ∧ drainPending.mpu.intake = none ∧
    (drainPending.slot 0).pendingDesc = some none ∧ (drainPending.slot 2).pendingDesc = some (some narrow) ∧
    drainPending.cru.settings.eventDisable = 0 ∧ drainPending.cru.events.length + 3 ≤ 16 := by decide +kernel

theorem test_drain_done : ((after .drainStep4 drainPending).cru.events.map EventRecord.event) =
    [.commitApplied [0] [] [], .commitApplied [2] [] [], .drainDone 7 true 3 4 1 2 true] := by decide +kernel

/-! ### Hypotheses met: the lens link and the expiries -/

theorem test_hyp_FirstLensFrame : armed.pins.resetN = true ∧ armed.llc.link = .down ∧
    parseLensFrame (frame27.take 8) = none ∧
    parseLensFrame frame27 = some ⟨.normal, 27, 0x27, [⟨30000, 72, true, true⟩], none, none⟩ ∧
    armed.llc.outstanding = none := by decide +kernel

/-- The link in a state before READY, frame 27 expected. -/
def linkIn (lk : LinkState) (acquire attempts : Nat) (outstanding : Option Nat) : State :=
  { armed with llc := { armed.llc with link := lk, expected := some 27, deadline := some 100, acquire := acquire
                                       attempts := attempts, outstanding := outstanding } }

/-- Frame 27 with an identity reply. -/
def replyFrame : List Byte :=
  withCrc ([0x04, 0x1B, 0x27, 0x30, 0x75, 0x48, 0x03] ++ leBytes 4 0x51A30C27 ++ leBytes 2 3)

theorem test_hyp_FirstLensFrame_acquiring : ∀ n ∈ [0, 6, 7], (linkIn .acquiring n 0 none).pins.resetN = true ∧
    (linkIn .acquiring n 0 none).llc.link = .acquiring ∧ (linkIn .acquiring n 0 none).llc.expected = some 27 ∧
    (linkIn .acquiring n 0 none).llc.outstanding = none ∧ (linkIn .acquiring n 0 none).llc.modeTarget = .normal ∧
    (linkIn .acquiring n 0 none).llc.acquire = n ∧ n < 8 := by decide +kernel

theorem test_hyp_FirstLensFrame_ident :
    parseLensFrame replyFrame = some ⟨.normal, 27, 0x27, [⟨30000, 72, true, true⟩], none, some lens⟩ ∧
    (∀ x ∈ [(0, none), (2, none), (1, some 3), (1, some 14), (2, some 15), (3, some 15)],
      (linkIn .ident 0 x.1 x.2).pins.resetN = true ∧ (linkIn .ident 0 x.1 x.2).llc.link = .ident ∧
      (linkIn .ident 0 x.1 x.2).llc.expected = some 27 ∧ (linkIn .ident 0 x.1 x.2).llc.outstanding = x.2 ∧
      (linkIn .ident 0 x.1 x.2).llc.attempts = x.1 ∧ (linkIn .ident 0 x.1 x.2).mpu.intake = none ∧
      (linkIn .ident 0 x.1 x.2).pu.load = none ∧ (linkIn .ident 0 x.1 x.2).cru.events.length + 4 ≤ 16) := by
  decide +kernel

theorem test_frames_before_ready :
    [0, 7].map (fun n => let t := after (.lensFrame frame27) (linkIn .acquiring n 0 none)
      (t.llc.link, t.ports.lml)) = [(.acquiring, [.poll 27]), (.ident, [.identReq 27])] ∧
    [(0, none), (1, some 14), (2, some 15), (3, some 15)].map (fun x =>
      let t := after (.lensFrame frame27) (linkIn .ident 0 x.1 x.2)
      (t.llc.link, t.llc.outstanding, t.ports.lml)) =
      [(.ident, some 0, [.identReq 27]), (.ident, some 15, [.poll 27]), (.ident, some 0, [.identReq 27]),
        (.acquiring, none, [.poll 27])] := by decide +kernel

/-- R67 at the sixteenth period of the third attempt, with no ACTIVE area: the reply is taken and a load starts. -/
theorem test_reply_taken : let t := after (.lensFrame replyFrame) (linkIn .ident 0 3 (some 15))
    t.llc.link = .ready ∧ t.llc.identified = some lens ∧ t.pu.load.map Load.target = some lens ∧
      t.ports.lml = [.blockReq 27 0] ∧ t.cru.events.map EventRecord.event =
        [.lensIdent lens, .linkState .ident .ready .identified 0 (some 27) none] := by decide +kernel

/-- The link READY or in HOLDOVER with a load in progress in P0: its list, its known block count, and how many blocks
of the profile's bytes have been received; P1 is ACTIVE. -/
def loading (lk : LinkState) (m : Memory) (received : Nat) (requests : List BlockRequest) (known : Option Nat) : State :=
  { ready with
    llc := { ready.llc with link := lk }
    pu :=
      { p0 := { ready.pu.p0 with state := .loading, bytes := m
                                 received := ⟨((List.range 532).map fun k => decide (k < received)).toArray, by simp⟩ }
        p1 := { ready.pu.p1 with state := .active, refs := 2 }
        load := some ⟨lens, some .p0, requests, 14, known, 14⟩ } }

/-- Frame 27 with a block. -/
def blockFrame (block : Nat) (data : List Byte) : List Byte :=
  withCrc ([0x02, 0x1B, 0x27, 0x30, 0x75, 0x48, 0x03] ++ leBytes 2 block ++ data)

/-- Block 0 of the smallest profile of the lens, with a block count. -/
def headerBlock (count : Nat) : List Byte :=
  leBytes 4 0x51A30C27 ++ leBytes 2 3 ++ [4, 1, 1, 0] ++ leBytes 2 count ++ [0, 0] ++ leBytes 2 0

/-- The bytes of that profile but for block 3. -/
def profileBytes : Memory :=
  (Memory.writeLanes [] 0 ((headerBlock 14).map some)).writeLanes 64 (([(0, 64000), (20000, 65536), (40000, 68096),
    (65535, 70000)].flatMap fun (k : Nat × Nat) => leBytes 2 k.1 ++ [0, 0] ++ leBytes 4 k.2).map some)

/-- Block 3: the iris knot, and a word for the sum of the profile. -/
def irisBlock (word : Nat) : List Byte := leBytes 2 72 ++ zeros 12 ++ leBytes 2 word

theorem test_hyp_ReadyFrameFeedsHistory_block : ∀ lk ∈ [LinkState.ready, .holdover],
    (loading lk [] 0 [⟨0, true, 1, 0⟩] none).pins.resetN = true ∧
    (loading lk [] 0 [⟨0, true, 1, 0⟩] none).llc.link = lk ∧
    (loading lk [] 0 [⟨0, true, 1, 0⟩] none).llc.expected = some 27 ∧
    (loading lk [] 0 [⟨0, true, 1, 0⟩] none).llc.identified = some lens ∧
    (loading lk [] 0 [⟨0, true, 1, 0⟩] none).llc.outstanding = none ∧
    (parseLensFrame (blockFrame 0 (headerBlock 14))).bind LensFrame.payload = some (0, headerBlock 14) ∧
    ((loading lk [] 0 [⟨0, true, 1, 0⟩] none).area .p0).state = .loading ∧
    (∀ i, ((loading lk [] 0 [⟨0, true, 1, 0⟩] none).frame i).state ≠ .tagged) := by decide +kernel

/-- R111: a header that passes, one with a wrong block count, and a block that was not asked for. -/
theorem test_block_replies : let s := loading .ready [] 0 [⟨0, true, 1, 0⟩] none
    ((after (.lensFrame (blockFrame 0 (headerBlock 14))) s).pu.load.bind Load.known) = some 14 ∧
      ((after (.lensFrame (blockFrame 0 (headerBlock 15))) s).cru.events.map EventRecord.event) =
        [.profileFailed .format (some .p0) (some lens) (some .headerBlockCount) none 1 0] ∧
      (after (.lensFrame (blockFrame 5 (zeros 16))) s).pu.p0.bytes = [] := by decide +kernel

/-- A load in progress in P0 beside a RETIRING P1 (no run comes there, R104): the sample of frame 27 resolves the last
bands that refer to P1. -/
def besideRetiring : State :=
  let s := loading .ready [] 0 [⟨0, true, 1, 0⟩] none
  let s := s.modArea .p1 fun a => { a with state := .retiring, refs := 1 }
  ({ s with br := { s.br with history := [⟨s.ssu.clock - 20, 30000, 72, true, true⟩] } }).modFrame 0 fun f =>
    { f with state := .tagged, area := some .p1
             bands := Vector.replicate 8 ⟨none, some (s.ssu.clock - 10), some (s.ssu.clock + 100)⟩ }

theorem test_hyp_ReadyFrameFeedsHistory_retiring : besideRetiring.pins.resetN = true ∧
    besideRetiring.llc.link = .ready ∧ besideRetiring.llc.expected = some 27 ∧
    besideRetiring.llc.identified = some lens ∧ besideRetiring.llc.outstanding = none ∧
    (besideRetiring.area .p0).state = .loading ∧ (besideRetiring.area .p1).state = .retiring := by decide +kernel

/-- R106 and R111: the release makes P1 FREE before the header check fails. -/
theorem test_failed_load_beside_retiring :
    let t := after (.lensFrame (blockFrame 0 (headerBlock 15))) besideRetiring
    t.pu.load = none ∧ t.pu.p0.state = .free ∧ t.pu.p1.state = .free ∧ (t.frame 0).state = .resolved := by
  decide +kernel

/-- R113: the last block with a right and a wrong sum. -/
theorem test_profile_validated : let s := loading .holdover profileBytes 14 [⟨3, true, 7, 3⟩] (some 14)
    (after (.lensFrame (blockFrame 3 (irisBlock 41222))) s).pu.p0.state = .active ∧
      (after (.lensFrame (blockFrame 3 (irisBlock 41222))) s).pu.p1.state = .retiring ∧
      (after (.lensFrame (blockFrame 3 (irisBlock 0))) s).pu.p0.state = .free ∧
      ((after (.lensFrame (blockFrame 3 (irisBlock 0))) s).cru.events.map fun e => e.event.code) = [7, 10] := by
  decide +kernel

/-- A frame of another lens in READY and in HOLDOVER (R70). -/
theorem test_mismatch : [LinkState.ready, .holdover].map (fun lk =>
      let t := after (.lensFrame (withCrc [0x00, 0x1B, 0x28, 0x30, 0x75, 0x48, 0x03])) (loading lk [] 0 [] none)
      (t.llc.link, t.br.history, t.ports.lml, t.cru.events.map fun e => e.event.code)) =
    [(.ident, [], [.identReq 27], [7, 10]), (.ident, [], [.identReq 27], [7, 7, 10])] := by decide +kernel

theorem test_hyp_ReadyFrameFeedsHistory_mismatch :
    (parseLensFrame (withCrc [0x00, 0x1B, 0x28, 0x30, 0x75, 0x48, 0x03])).map LensFrame.checkByte = some 0x28 ∧
    (0x28 : Byte) ≠ lens.id.setWidth 8 := by decide +kernel

theorem test_hyp_ReadyFrameFeedsHistory : ready.pins.resetN = true ∧ ready.llc.link = .ready ∧
    parseLensFrame frame27 = some ⟨.normal, 27, 0x27, [⟨30000, 72, true, true⟩], none, none⟩ ∧
    ready.llc.expected = some 27 ∧ ready.llc.identified = some lens ∧ (0x27 : Byte) = lens.id.setWidth 8 ∧
    ready.llc.outstanding = none := by decide +kernel

theorem test_sample_taken : (after (.lensFrame frame27) ready).br.history = [⟨0, 30000, 72, true, true⟩] ∧
    (after (.lensFrame frame27) ready).br.newestFocus = some 30000 := by decide +kernel

/-- The link with a run count and the clock at a microsecond. -/
def silent (run : Nat) (clock : Stamp) : State :=
  { ready with llc := { ready.llc with run := run }, ssu := { ready.ssu with clock := clock } }

theorem test_hyp_MissingPeriodCounted : ∀ run ∈ [0, 3, 62, 63],
    (silent run 100).llc.deadline = some 100 ∧ reached (silent run 100).ssu.clock 100 = true ∧
    (silent run 100).llc.outstanding = none ∧ (silent run 100).llc.run = run ∧
    reached (silent run 99).ssu.clock 100 = false := by decide +kernel

/-- Bad periods in every state, with an outstanding attempt at the edge and a block request at its last period. -/
def badPeriods : List State :=
  [linkIn .acquiring 5 0 none, linkIn .ident 0 1 (some 14), linkIn .ident 0 2 (some 15), linkIn .ident 0 3 (some 15),
    silent 3 100, silent 63 100, loading .holdover [] 0 [⟨0, true, 7, 2⟩] none,
    loading .holdover [] 0 [⟨0, true, 7, 3⟩] none]

theorem test_hyp_MissingPeriodCounted_bad : (∀ s ∈ badPeriods, s.pins.resetN = true ∧ s.llc.link ≠ .down ∧
      s.cru.events.length + 1 ≤ 16) ∧
    parseLensFrame (frame27.take 8) = none ∧ (∀ s ∈ badPeriods.take 6, s.llc.link ∈ [.acquiring, .ident, .ready] ∧
      s.llc.expected = some 27) ∧ (parseLensFrame (withCrc (frame27.take 7 |>.set 1 0x1D))).map LensFrame.sequence =
        some 29 := by decide +kernel

theorem test_bad_periods : badPeriods.map (fun s => (after (.lensFrame (frame27.take 8)) s).llc.link) =
      [.acquiring, .ident, .ident, .acquiring, .holdover, .down, .holdover, .holdover] ∧
    badPeriods.map (fun s => (after (.lensFrame (withCrc (frame27.take 7 |>.set 1 0x1D))) s).llc.expected) =
      [some 30, some 30, some 30, some 30, some 30, none, some 30, some 30] ∧
    badPeriods.map (fun s => (after (.lensFrame (frame27.take 8)) s).pu.load.map Load.requests) =
      [none, none, none, none, none, none, some [⟨0, false, 0, 3⟩], none] := by decide +kernel

/-- The same with a frame at the port of the link. -/
def frameComing (run : Nat) (clock : Stamp) : State :=
  { silent run clock with pending := [.lensFrame frame27] }

theorem test_hyp_MissingPeriodCounted_frame : Instr.lensFrame frame27 ∈ (frameComing 3 100).pending ∧
    (frameComing 3 100).llc.deadline = some (frameComing 3 100).ssu.clock ∧
    (frameComing 3 101).llc.deadline = some 100 ∧ (frameComing 3 101).ssu.clock ≠ 100 ∧
    (∀ bytes, Instr.lensFrame bytes ∉ (silent 3 100).pending) :=
  ⟨List.mem_singleton.mpr rfl, rfl, rfl, by decide, fun _ h => by cases h⟩

theorem test_period_with_frame : (after .missingPeriod (frameComing 3 100)).llc.run = 3 ∧
    (after .missingPeriod (frameComing 3 101)).llc.run = 4 := by decide +kernel

theorem test_link_lost : (after .missingPeriod (silent 3 100)).llc.link = .holdover ∧
    (after .missingPeriod (silent 63 100)).llc.link = .down := by decide +kernel

/-- A TAGGED generation whose deadlines are at 100. -/
def deadlines (clock : Stamp) : State :=
  { (inState .tagged).modFrame 0 (fun f => { f with bands := Vector.replicate 8 ⟨none, some 50, some 100⟩ }) with
    ssu := { live.ssu with clock := clock } }

theorem test_hyp_BandDeadlineExpires : (deadlines 100).pins.resetN = true ∧
    ((deadlines 100).frame 0).state = .tagged ∧ (((deadlines 100).frame 0).bands[(7 : BandId)]).result = none ∧
    due (deadlines 100).ssu.clock (((deadlines 100).frame 0).bands[(7 : BandId)]).deadline = true ∧
    (((deadlines 100).frame 0).bands[(0 : BandId)]).result = none ∧
    due (deadlines 99).ssu.clock (((deadlines 99).frame 0).bands[(7 : BandId)]).deadline = false ∧
    (armed.frame 0).state ≠ .tagged ∧
    ((bandResolved.frame 0).bands[(0 : BandId)]).result.isSome = true := by decide +kernel

theorem quiet_deadlines : Quiet (deadlines 100) ∧ Quiet (deadlines 99) := ⟨⟨rfl, rfl, rfl⟩, ⟨rfl, rfl, rfl⟩⟩

/-- A band at its deadline, time 50, with a history, a last-known record, and a usable profile or none. -/
def expiring (history : List Sample) (known : Option Sample) (usable : Bool) : State :=
  { (deadlines 100).modFrame 0 (fun f => { f with area := if usable then some .p1 else none }) with
    br := { live.br with history := history, lastKnown := known }
    llc := { live.llc with identified := some ⟨0, 0⟩ } }

/-- A sample at a stamp. -/
def sampleAt (t : Stamp) : Sample := ⟨t, 30000, 72, true, true⟩

/-- The rows of the table of kinds, in its order, with the first and the last sample exactly at the band time, and
one exactly 2^31 µs from it; the last has its lower sample later than its upper one. -/
def expiries : List State :=
  [expiring [sampleAt 10, sampleAt 90] none false, expiring [sampleAt 10, sampleAt 90] none true,
    expiring [sampleAt 10, sampleAt 50] none true, expiring [sampleAt 0x80000032] none true,
    expiring [sampleAt 51, sampleAt 90] none true, expiring [sampleAt 10, sampleAt 49] none true,
    expiring [] (some (sampleAt 3)) true, expiring [] none true,
    expiring [sampleAt 60, sampleAt 0x40000000, sampleAt 0x80000100] none true]

theorem test_hyp_BandDeadlineExpires_rows : ∀ s ∈ expiries, s.pins.resetN = true ∧ (s.frame 0).state = .tagged ∧
    ((s.frame 0).bands[(7 : BandId)]).result = none ∧ ((s.frame 0).bands[(7 : BandId)]).time = some 50 ∧
    due s.ssu.clock ((s.frame 0).bands[(7 : BandId)]).deadline = true ∧
    ((s.frame 0).bands[(0 : BandId)]).result = none ∧ (s.area .p1).identity = ⟨0, 0⟩ ∧
    s.llc.identified = some ⟨0, 0⟩ ∧ s.cru.events.length < 16 ∧ s.cru.settings.eventDisable = 0 ∧
    (s.slot 0).reportedLate = false ∧ (s.slot 0).reportedOld = false ∧ (s.slot 0).reportedLost = false := by
  decide +kernel

theorem quiet_expiries : ∀ s ∈ expiries, Quiet s := by
  intro s h
  simp only [expiries, List.mem_cons, List.not_mem_nil, or_false] at h
  rcases h with rfl | rfl | rfl | rfl | rfl | rfl | rfl | rfl | rfl <;> exact ⟨rfl, rfl, rfl⟩

theorem test_expiry_kinds : expiries.map (fun s => (((after (.resolveDeadlineExpiry 0 7) s).frame
      0).bands[(7 : BandId)]).result.map BandResult.kind) =
    [some .noProfile, some .exact, some .exact, some .exact, some .old, some .late, some .lensLost, some .noSample,
      some .exact] ∧
    expiries.map (fun s => ((after (.resolveDeadlineExpiry 0 7) s).cru.events.map fun e => e.event.code)) =
      [[], [], [], [], [6], [5], [6], [], []] := by decide +kernel

/-- An ARMED generation whose tag deadline is at 100. -/
def untagged (clock : Stamp) : State :=
  { armed.modSlot 0 (fun sl => { sl with tagDeadline := some 100 }) with ssu := { live.ssu with clock := clock } }

theorem test_hyp_TagDeadlineExpires : (untagged 100).pins.resetN = true ∧ (untagged 100).cru.proc = .none ∧
    ((untagged 100).slot 0).tagDeadline = some 100 ∧ reached (untagged 100).ssu.clock 100 = true ∧
    ((untagged 100).frame 0).state = .armed ∧ ((untagged 100).frame 0).closed = false ∧
    reached (untagged 99).ssu.clock 100 = false := by decide +kernel

theorem quiet_untagged : Quiet (untagged 100) ∧ Quiet (untagged 99) := ⟨⟨rfl, rfl, rfl⟩, ⟨rfl, rfl, rfl⟩⟩

theorem test_tag_missing : ((after (.tagDeadlineExpiry 0) (untagged 100)).frame 0).state = .resolved ∧
    ((after (.tagDeadlineExpiry 0) (untagged 100)).cru.events.map fun e => e.event.code) = [2] := by decide +kernel

/-- The same with end-of-frame seen, and with a line of the generation HELD with band pending. -/
def untaggedClosed : State := (untagged 100).modFrame 0 fun f => { f with eofSeen := true, firstIngest := some 5 }
def untaggedHeld : State :=
  (untaggedClosed.modFrame 0 fun f => { f with held := 1 }).setLine 4 (.held ⟨4100, 0, 1⟩ none (lanesOf 256) true)

theorem test_hyp_TagDeadlineExpires_closed : (∀ s ∈ [untaggedClosed, untaggedHeld], s.pins.resetN = true ∧
      s.cru.proc = .none ∧ (s.slot 0).tagDeadline = some 100 ∧ reached s.ssu.clock 100 = true ∧
      (s.frame 0).state = .armed ∧ (s.frame 0).closed = true ∧ (s.frame 0).ended = false ∧
      (s.frame 0).successor = none ∧ (s.frame 0).pendingTag = none ∧ (s.slot 0).pendingDesc = none ∧
      (s.slot 0).committed = some win ∧ s.cru.events.length < 16 ∧ s.cru.settings.eventDisable = 0) ∧
    untaggedHeld.line 4 = .held ⟨4100, 0, 1⟩ none (lanesOf 256) true := by decide +kernel

/-- The same with a successor, which stays, and the state that no run reaches in which it becomes current at once. -/
def untaggedFollowed (held : Nat) : State :=
  untaggedClosed.modFrame 0 fun f => { f with held := held, successor := some ⟨1, 3, 60, false⟩ }

theorem test_hyp_TagDeadlineExpires_successor : ((untaggedFollowed 1).slot 0).tagDeadline = some 100 ∧
    reached (untaggedFollowed 1).ssu.clock 100 = true ∧ ((untaggedFollowed 1).frame 0).state = .armed ∧
    ((untaggedFollowed 1).frame 0).closed = true ∧ ((untaggedFollowed 1).frame 0).held ≠ 0 ∧
    ((untaggedFollowed 1).frame 0).successor.isSome = true := by decide +kernel

theorem quiet_untagged_followed : Quiet (untaggedFollowed 1) := ⟨rfl, rfl, rfl⟩

theorem test_tag_missing_followed :
    ((after (.tagDeadlineExpiry 0) (untaggedFollowed 1)).frame 0).successor = some ⟨1, 3, 60, false⟩ ∧
    ((after (.tagDeadlineExpiry 0) (untaggedFollowed 1)).slot 0).tagDeadline = none ∧
    ((after (.tagDeadlineExpiry 0) (untaggedFollowed 0)).slot 0).tagDeadline = some 4060 := by decide +kernel

theorem quiet_untagged_closed : Quiet untaggedClosed ∧ Quiet untaggedHeld := ⟨⟨rfl, rfl, rfl⟩, ⟨rfl, rfl, rfl⟩⟩

theorem test_tag_missing_closed : ((after (.tagDeadlineExpiry 0) untaggedClosed).frame 0).state = .complete ∧
    ((after (.tagDeadlineExpiry 0) untaggedHeld).frame 0).state = .resolved ∧
    (after (.tagDeadlineExpiry 0) untaggedHeld).line 4 = .held ⟨4100, 0, 1⟩ (some 0) (lanesOf 256) true ∧
    ((after (.tagDeadlineExpiry 0) untaggedClosed).cru.events.map EventRecord.event).head? =
      some (.tagMissing (some 5) 0 true) := by decide +kernel

/-! ### Hypotheses met: the functions -/

theorem test_hyp_BandsPartitionRows : (256 ≤ 256 ∧ 0 < 256 ∧ 255 < 256) ∧ bandOfRow 256 0 = 0 ∧
    bandOfRow 256 255 = 7 := by decide +kernel

/-- The tag that the second of four edges matches. -/
def tagOf (n : BitVec 16) : FrameTag := ⟨n, .rolling, 1000, 10000, -100000⟩

theorem test_hyp_StrobeMatch : eightEdges.ssu.exposures = [⟨0, 65531⟩, ⟨0, 65532⟩] ++ (⟨0, 65533⟩ : Strobe) ::
      [⟨0, 65534⟩, ⟨0, 65535⟩, ⟨0, 0⟩, ⟨0, 1⟩, ⟨0, 2⟩] ∧
    (∀ x ∈ [(⟨0, 65531⟩ : Strobe), ⟨0, 65532⟩], x.count ≠ (tagOf 65533).sequence) ∧
    (⟨0, 65533⟩ : Strobe).count = (tagOf 65533).sequence := by decide +kernel

theorem test_hyp_ZonePosition : 0 < win.width ∧ 0 < win.height ∧
    zonePosition win (distance2 (256, 128) 256 128) = 0 ∧
    zonePosition win (distance2 (0, 0) 511 255) = 3840 := by decide +kernel

theorem test_hyp_ZoneGain : (3839 ≤ 3840 ∧ 3839 / 256 = 14 ∧ 3840 / 256 = 15) ∧
    gainAt identityGains 3840 3 = 16384 ∧ gainAt identityGains 3839 0 = 16384 := by decide +kernel

/-- Magnifications that rise from band to band. -/
def rising : Vector Nat 8 := #v[60000, 61000, 62000, 63000, 64000, 65000, 66000, 67000]

theorem test_hyp_RowMagnification : midRow 2160 0 = 134 ∧ magnificationAt 2160 134 rising = 60000 ∧
    magnificationAt 2160 2024 rising = 67000 ∧ magnificationAt 2160 269 rising = 60500 ∧
    magnificationAt 2160 2023 rising = 66996 := by decide +kernel

theorem test_hyp_SourcePosition : 0 < 65536 ∧ source256 960 0 65536 = 0 ∧
    neighbours (source256 960 961 65536) 1 = [(961, 512)] ∧
    neighbours (source256 960 961 65536) 0 = [(960, 256), (962, 256)] := by decide +kernel

/-- A read setting at magnification 1.0, and one that needs 4 neighbours. -/
theorem test_hyp_SourcePosition_four :
    ((⟨win, 65536, .edge, 0⟩ : ReadSetting).neighboursOf 10 10).map Prod.snd = [262144] ∧
    (((⟨win, 60000, .edge, 0⟩ : ReadSetting).neighboursOf 10 10).map Prod.snd).length = 4 := by decide +kernel

end Sys2Proof.Tests
end

