-- ==== Sys2Proof/Proofs/Bands.lean ====
section
/-! PROOF. The 8 bands of a window (R54): the bounds `bandStart height 0`, …, `bandStart height 8` rise from 0 to
the height, so the row search of `bandOfRow` finds the one band whose bounds enclose the row. -/

namespace Sys2Proof.Machine

/-! ### The bounds of the bands -/

@[simp] theorem bandStart_zero (height : Nat) : bandStart height 0 = 0 := by simp [bandStart]

@[simp] theorem bandStart_eight (height : Nat) : bandStart height 8 = height := by simp [bandStart]

theorem bandStart_mono (height : Nat) {a b : Nat} (h : a ≤ b) : bandStart height a ≤ bandStart height b :=
  Nat.div_le_div_right (Nat.mul_le_mul_right height h)

/-- A band is at least an eighth of the height, rounded down. -/
theorem bandStart_add_le_succ (height b : Nat) : bandStart height b + height / 8 ≤ bandStart height (b + 1) := by
  simp only [bandStart, Nat.add_mul, Nat.one_mul]
  omega

/-- From a height of 256 on, a band has at least 32 rows. -/
theorem bandStart_add_32_le_succ {height : Nat} (h : 256 ≤ height) (b : Nat) :
    bandStart height b + 32 ≤ bandStart height (b + 1) := by
  have eighth : 32 ≤ height / 8 := by omega
  have := bandStart_add_le_succ height b
  omega

/-! ### The band of a row -/

/-- A row lies in a band when the band's bounds enclose it. -/
def inBand (height y : Nat) (b : BandId) : Prop :=
  bandStart height b.val ≤ y ∧ y < bandStart height (b.val + 1)

/-- From a height of 256 on no band is empty, so a band can be given by its first and its last row as R54 does. -/
theorem inBand_iff_first_last {height y : Nat} (h : 256 ≤ height) (b : BandId) :
    inBand height y b ↔ b.val * height / 8 ≤ y ∧ y ≤ (b.val + 1) * height / 8 - 1 := by
  have rows : b.val * height / 8 + 32 ≤ (b.val + 1) * height / 8 := bandStart_add_32_le_succ h b.val
  have last : y < (b.val + 1) * height / 8 ↔ y ≤ (b.val + 1) * height / 8 - 1 := by omega
  exact and_congr_right' last

/-- The row search answers a band whose upper bound lies beyond the row, and no band before it has one. -/
theorem bandOfRow_first {height y : Nat} (hy : y < height) :
    y < bandStart height ((bandOfRow height y).val + 1) ∧
      ∀ j < (bandOfRow height y).val, bandStart height (j + 1) ≤ y := by
  have bands : allBands = List.finRange 8 := rfl
  cases found : allBands.find? fun b => y < bandStart height (b.val + 1) with
  | none =>
    rw [List.find?_eq_none] at found
    simpa [hy] using found 7 (by decide)
  | some b =>
    have answer : bandOfRow height y = b := by simp [bandOfRow, found]
    rw [bands, List.find?_eq_some_iff_getElem] at found
    obtain ⟨upper, i, hi, rfl, before⟩ := found
    rw [answer]
    refine ⟨by simpa using upper, fun j hj => ?_⟩
    simpa using before j (by simpa using hj)

/-- An image row lies in the band that the row search answers. -/
theorem inBand_bandOfRow {height y : Nat} (hy : y < height) : inBand height y (bandOfRow height y) := by
  obtain ⟨upper, before⟩ := bandOfRow_first hy
  refine ⟨?_, upper⟩
  cases hb : (bandOfRow height y).val with
  | zero => simp
  | succ j => exact before j (by omega)

/-- A row of a band lies in no later band, which begins where the band ends or beyond. -/
theorem not_inBand_of_lt {height y : Nat} {a b : BandId} (lt : a < b) (ha : inBand height y a) :
    ¬ inBand height y b := fun hb =>
  absurd ha.2 (Nat.not_lt.mpr ((bandStart_mono height lt).trans hb.1))

theorem inBand_unique {height y : Nat} {a b : BandId} (ha : inBand height y a) (hb : inBand height y b) :
    a = b := by
  rcases lt_trichotomy a b with lt | eq | gt
  · exact absurd hb (not_inBand_of_lt lt ha)
  · exact eq
  · exact absurd ha (not_inBand_of_lt gt hb)

theorem bandOfRow_eq_iff {height y : Nat} (hy : y < height) (b : BandId) :
    bandOfRow height y = b ↔ inBand height y b where
  mp eq := eq ▸ inBand_bandOfRow hy
  mpr hb := inBand_unique (inBand_bandOfRow hy) hb

/-! ### The obligation -/

/-- Settles O55: the bounds rise by at least 32 from band to band and enclose each image row once. -/
theorem bandsPartitionRows : Obligations.BandsPartitionRows := by
  refine ⟨fun h y b hh hy => ?_, fun h b hh => ⟨?_, rfl⟩, by decide, by decide, by decide, ?_, ?_⟩
  · exact (bandOfRow_eq_iff hy b).trans (inBand_iff_first_last hh b)
  · have := bandStart_add_32_le_succ hh b.val
    simp only [bandStart] at this
    omega
  · intro y first last
    exact (bandOfRow_eq_iff (by omega) 1).mpr ⟨first, Nat.lt_succ_of_le last⟩
  · intro y first last
    exact (bandOfRow_eq_iff (by omega) 2).mpr ⟨first, Nat.lt_succ_of_le last⟩

end Sys2Proof.Machine
end

