-- ==== Sys2Proof/Proofs/Strobes.lean ====
section
/-! PROOF. The strobe counter and the Exposure Queue: what an edge of EXPO does to them (R45, R46), and what the
match of a tag takes from the queue (R52). -/

namespace Sys2Proof.Machine

/-! ### An edge of EXPO -/

/-- The strobe counter goes up by one and wraps at 65,536 (R45). -/
theorem strobe_succ (n : BitVec 16) : n + 1 = BitVec.ofNat 16 ((n.toNat + 1) % 65536) :=
  BitVec.eq_of_toNat_eq (by simp [BitVec.toNat_add])

/-- An edge with RESET_N High is taken by the Stamp and Strobe Unit. -/
theorem exec_expoEdge_live {s : State} (live : s.pins.resetN = true) :
    exec .expoEdge s = .next { s with ssu := s.ssu.edge } := by
  simp [exec, execExpoEdge, State.whenLive, live]

/-- An edge with RESET_N Low has no effect. -/
theorem exec_expoEdge_inReset {s : State} (low : s.pins.resetN = false) : exec .expoEdge s = .next s := by
  simp [exec, execExpoEdge, State.whenLive, low]

/-- A command that does not touch the strobe counter leaves it as it was. -/
theorem exec_strobe_same {c : Instr} {s t : State} (h : exec c s = .next t)
    (untouched : marks (touches c) .strobe = false) : t.ssu.strobe = s.ssu.strobe :=
  exec_keeps h .strobe untouched

/-- The commands that drive a drain and the BYPASS pin do not touch the strobe counter (R45). -/
theorem strobe_untouched_by_procedures :
    ∀ c ∈ [Instr.drainRestart, .drainStep4, .bypassRise, .bypassEntrySequenceEnd, .bypassFall],
      marks (touches c) .strobe = false := by decide

/-- Settles O20, by the two levels of RESET_N, the pin-reset state, and what the other commands touch. -/
theorem exposureEdge : Obligations.ExposureEdge := by
  intro s
  refine ⟨fun live => ?_, exec_expoEdge_inReset, fun c r t reset => ?_, fun c t member h => ?_⟩
  · rw [exec_expoEdge_live live, Ssu.edge, strobe_succ]
  · cases reset
    rfl
  · exact exec_strobe_same h (strobe_untouched_by_procedures c member)

/-! ### The match of a tag -/

/-- The search passes over the entries of other counts and stops at the first of the tag's. -/
theorem matchStrobe_append {c : BitVec 16} {older newer : List Strobe} {e : Strobe}
    (others : ∀ x ∈ older, x.count ≠ c) (found : e.count = c) :
    matchStrobe c (older ++ e :: newer) = some (e, newer) := by
  induction older with
  | nil => simp [matchStrobe, found]
  | cons x older ih =>
    obtain ⟨other, others⟩ := List.forall_mem_cons.mp others
    simp [matchStrobe, other, ih others]

/-- The sum of a stamp and a signed duration is the sum of the two numbers modulo 2^32 (R44). -/
theorem stampAdd_eq_ofInt (a : Stamp) (n : Int) : stampAdd a n = BitVec.ofInt 32 (a.toNat + n) := by
  rw [stampAdd, BitVec.ofInt_add, BitVec.ofInt_natCast, BitVec.ofNat_toNat, BitVec.setWidth_eq]

/-- A match gives the exposure start and cuts the queue after the matched entry (R52). -/
theorem State.exposureStart_of_match {s : State} {tag : FrameTag} {e : Strobe} {rest : List Strobe}
    (found : matchStrobe tag.sequence s.ssu.exposures = some (e, rest)) (slot : SlotId) (decodeStamp : Stamp)
    (height : Nat) : s.exposureStart slot tag decodeStamp height =
      (stampAdd e.stamp tag.strobeOffset, { s with ssu := { s.ssu with exposures := rest } }) := by
  simp only [State.exposureStart, found]

/-- Settles O56, by induction on the older entries that the search passes over. -/
theorem strobeMatch : Obligations.StrobeMatch := by
  intro s slot tag decodeStamp height older newer e queue others found
  have first : matchStrobe tag.sequence s.ssu.exposures = some (e, newer) := by
    rw [queue, matchStrobe_append others found]
  rw [State.exposureStart_of_match first, stampAdd_eq_ofInt]

end Sys2Proof.Machine
end

