-- ==== Sys2Proof/Proofs/Gains.lean ====
section
/-! PROOF. The Gain Unit: the zone position that the search bit by bit finds (R144), and the gain interpolated
between two zones (R145). -/

namespace Sys2Proof.Machine

/-! ### The search bit by bit

A search that tries the powers of two from the largest down, and keeps each one whose addition still passes, finds
the greatest number that passes, provided that whatever is less than a passing number passes too. -/

/-- The powers of two below 2^k, largest first. -/
def powersBelow : Nat → List Nat
  | 0 => []
  | k + 1 => 2 ^ k :: powersBelow k

theorem zoneBits_eq_powersBelow : zoneBits = powersBelow 12 := rfl

theorem bitSearch_isGreatest (p : Nat → Prop) [DecidablePred p] (lower : IsLowerSet {n | p n}) (k : Nat) {q : Nat}
    (start : p q) :
    IsGreatest {n | p n ∧ n < q + 2 ^ k} ((powersBelow k).foldl (fun q b => if p (q + b) then q + b else q) q) := by
  induction k generalizing q with
  | zero => exact ⟨⟨start, by simp [powersBelow]⟩, fun n hn => Nat.le_of_lt_succ hn.2⟩
  | succ k ih =>
    have double : q + 2 ^ (k + 1) = q + 2 ^ k + 2 ^ k := by rw [pow_succ]; omega
    rw [powersBelow, List.foldl_cons, double]
    by_cases taken : p (q + 2 ^ k)
    · rw [if_pos taken]
      exact ih taken
    · rw [if_neg taken]
      obtain ⟨⟨passes, below⟩, greatest⟩ := ih start
      refine ⟨⟨passes, Nat.lt_add_right _ below⟩, fun n ⟨hn, _⟩ => greatest ⟨hn, ?_⟩⟩
      by_contra beyond
      exact taken (lower (Nat.le_of_not_lt beyond) hn)

/-! ### The zone position -/

theorem zoneFits_iff (w : Window) (dist2 q : Nat) : zoneFits w dist2 q = true ↔
    q * q * (w.width * w.width + w.height * w.height) ≤ 4 * 3840 * 3840 * dist2 := by
  simp only [zoneFits, decide_eq_true_eq]

theorem zoneFits_zero (w : Window) (dist2 : Nat) : zoneFits w dist2 0 = true := by simp [zoneFits_iff]

/-- What is less than a number that fits fits too. -/
theorem zoneFits_of_le {w : Window} {dist2 m n : Nat} (le : m ≤ n) (fits : zoneFits w dist2 n = true) :
    zoneFits w dist2 m = true := by
  rw [zoneFits_iff] at fits ⊢
  exact (Nat.mul_le_mul_right _ (Nat.mul_le_mul le le)).trans fits

/-- The zone position is the greatest number up to 3840 that fits: the twelve bits reach beyond 3840. -/
theorem zonePosition_isGreatest (w : Window) (dist2 : Nat) :
    IsGreatest {n | n ≤ 3840 ∧ zoneFits w dist2 n = true} (zonePosition w dist2) := by
  have lower : IsLowerSet {n | n ≤ 3840 ∧ zoneFits w dist2 n = true} := fun _ _ le ⟨cap, fits⟩ =>
    ⟨le.trans cap, zoneFits_of_le le fits⟩
  obtain ⟨⟨found, _⟩, greatest⟩ := bitSearch_isGreatest (fun n => n ≤ 3840 ∧ zoneFits w dist2 n = true) lower 12
    ⟨Nat.zero_le _, zoneFits_zero w dist2⟩
  exact ⟨found, fun n ⟨cap, fits⟩ => greatest ⟨⟨cap, fits⟩, by omega⟩⟩

/-- The zone position at distance 0 from the optical centre. -/
theorem zonePosition_zero {w : Window} (width : 0 < w.width) : zonePosition w 0 = 0 := by
  have fits := (zoneFits_iff ..).mp (zonePosition_isGreatest w 0).1.2
  have diagonal : w.width * w.width + w.height * w.height ≠ 0 := by positivity
  rw [Nat.mul_zero, Nat.le_zero, Nat.mul_eq_zero, or_iff_left diagonal] at fits
  exact mul_self_eq_zero.mp fits

/-- The zone position at the half-diagonal and beyond. -/
theorem zonePosition_halfDiagonal {w : Window} {dist2 : Nat}
    (far : w.width * w.width + w.height * w.height ≤ 4 * dist2) : zonePosition w dist2 = 3840 := by
  obtain ⟨⟨cap, _⟩, greatest⟩ := zonePosition_isGreatest w dist2
  have fits : zoneFits w dist2 3840 = true := by rw [zoneFits_iff]; omega
  exact Nat.le_antisymm cap (greatest ⟨Nat.le_refl _, fits⟩)

/-- The squared distance is a sum of squares, so its `toNat` loses nothing. -/
theorem distance2_cast (cx cy : Int) (x y : Nat) : (distance2 (cx, cy) x y : Int) =
    ((x : Int) - cx) * ((x : Int) - cx) + ((y : Int) - cy) * ((y : Int) - cy) :=
  Int.toNat_of_nonneg (Int.add_nonneg (mul_self_nonneg _) (mul_self_nonneg _))

theorem distance2_centre (x y : Nat) : distance2 ((x : Int), (y : Int)) x y = 0 := by simp [distance2]

/-- Settles O57, by the search bit by bit, which finds the greatest number that the test admits. -/
theorem zonePosition_spec : Obligations.ZonePosition := by
  intro w cx cy x y width _
  simp only [← distance2_cast]
  have fits_iff (n : Nat) : ((n * n * (w.width * w.width + w.height * w.height) : Nat) : Int) ≤
      4 * 3840 * 3840 * (distance2 (cx, cy) x y : Int) ↔ zoneFits w (distance2 (cx, cy) x y) n = true := by
    rw [zoneFits_iff]
    exact_mod_cast Iff.rfl
  simp only [fits_iff]
  obtain ⟨⟨cap, fits⟩, greatest⟩ := zonePosition_isGreatest w (distance2 (cx, cy) x y)
  refine ⟨cap, fits, fun n hn fits => greatest ⟨hn, fits⟩, ?_, fun far => ?_, by omega, by omega⟩
  · rintro rfl rfl
    rw [distance2_centre, zonePosition_zero width]
  · exact zonePosition_halfDiagonal (by exact_mod_cast far)

/-! ### Rounding to nearest, half upward -/

/-- The rounded quotient is the whole number k with num ÷ den − 1/2 < k ≤ num ÷ den + 1/2. -/
theorem roundHalfUp_bounds (num : Int) {den : Nat} (pos : 0 < den) :
    2 * num - den < 2 * den * roundHalfUp num den ∧ 2 * den * roundHalfUp num den ≤ 2 * num + den := by
  have divisor : (0 : Int) < 2 * den := by omega
  have floor := Int.mul_ediv_add_emod (2 * num + den) (2 * den)
  have nonneg := Int.emod_nonneg (2 * num + den) divisor.ne'
  have less := Int.emod_lt_of_pos (2 * num + den) divisor
  rw [← roundHalfUp] at floor
  constructor <;> omega

theorem roundHalfUp_mono {m n : Int} (le : m ≤ n) {den : Nat} (pos : 0 < den) :
    roundHalfUp m den ≤ roundHalfUp n den :=
  Int.ediv_le_ediv (by omega) (by omega)

/-- A whole quotient is not changed by rounding. -/
theorem roundHalfUp_mul_self (k : Int) {den : Nat} (pos : 0 < den) : roundHalfUp (k * den) den = k := by
  have half : (den : Int) / (2 * den) = 0 := Int.ediv_eq_zero_of_lt (by omega) (by omega)
  have split : 2 * (k * den) + (den : Int) = den + 2 * den * k := by ring
  rw [roundHalfUp, split, Int.add_mul_ediv_left _ _ (by omega), half, Int.zero_add]

/-- A value interpolated between two whole numbers lies between the two: rounding is monotone and keeps both. -/
theorem interpolation_between (a b : Int) {f den : Nat} (le : f ≤ den) (pos : 0 < den) :
    min a b ≤ a + roundHalfUp ((b - a) * f) den ∧ a + roundHalfUp ((b - a) * f) den ≤ max a b := by
  have start : roundHalfUp 0 den = 0 := by simpa using roundHalfUp_mul_self 0 pos
  have finish : roundHalfUp ((b - a) * den) den = b - a := roundHalfUp_mul_self _ pos
  have part : (f : Int) ≤ den := by exact_mod_cast le
  rcases Int.le_total a b with up | down
  · have low := roundHalfUp_mono (mul_nonneg (sub_nonneg.mpr up) (Int.natCast_nonneg f)) pos
    have high := roundHalfUp_mono (mul_le_mul_of_nonneg_left part (sub_nonneg.mpr up)) pos
    omega
  · have low := roundHalfUp_mono (mul_le_mul_of_nonpos_left part (sub_nonpos.mpr down)) pos
    have high := roundHalfUp_mono (mul_nonpos_of_nonpos_of_nonneg (sub_nonpos.mpr down) (Int.natCast_nonneg f)) pos
    omega

/-! ### The gain of a sample -/

/-- A gain of a list is a word of 16 bits. -/
theorem zoneGain_le (gains : GainList) (z c : Nat) : zoneGain gains z c ≤ 65535 :=
  Nat.le_of_lt_succ (BitVec.isLt _)

theorem gainAt_of_zone15 (gains : GainList) {q : Nat} (c : Nat) (zone : q / 256 = 15) :
    gainAt gains q c = zoneGain gains 15 c := by
  simp [gainAt, zone]

/-- Below zone 15 the gain is the interpolated number itself: it is not negative, so its `toNat` loses nothing. -/
theorem gainAt_of_lt_zone15 (gains : GainList) {q : Nat} (c : Nat) (zone : q / 256 < 15) :
    (gainAt gains q c : Int) = zoneGain gains (q / 256) c +
      roundHalfUp (((zoneGain gains (q / 256 + 1) c : Int) - zoneGain gains (q / 256) c) * (q % 256 : Nat)) 256 := by
  obtain ⟨low, _⟩ := interpolation_between (zoneGain gains (q / 256) c) (zoneGain gains (q / 256 + 1) c)
    (Nat.mod_lt q (by decide : 0 < 256)).le (by decide)
  rw [gainAt, if_neg (by omega), Int.toNat_of_nonneg (by omega)]

/-- Below zone 15 the gain lies between its zone's gain and the next zone's. -/
theorem gainAt_between (gains : GainList) {q : Nat} (c : Nat) (zone : q / 256 < 15) :
    min (zoneGain gains (q / 256) c : Int) (zoneGain gains (q / 256 + 1) c) ≤ gainAt gains q c ∧
      (gainAt gains q c : Int) ≤ max (zoneGain gains (q / 256) c : Int) (zoneGain gains (q / 256 + 1) c) := by
  rw [gainAt_of_lt_zone15 gains c zone]
  exact interpolation_between _ _ (Nat.mod_lt q (by decide : 0 < 256)).le (by decide)

/-- A gain is a word of 16 bits at every zone position, as the gains of the list are. -/
theorem gainAt_le (gains : GainList) {q : Nat} (c : Nat) (cap : q ≤ 3840) : gainAt gains q c ≤ 65535 := by
  rcases Nat.lt_or_eq_of_le (Nat.div_le_div_right (c := 256) cap) with before | zone
  · have := gainAt_between gains c before
    have := zoneGain_le gains (q / 256) c
    have := zoneGain_le gains (q / 256 + 1) c
    omega
  · rw [gainAt_of_zone15 gains c zone]
    exact zoneGain_le gains 15 c

/-- Settles O58, by zone 15 and the zones before it. -/
theorem zoneGain_spec : Obligations.ZoneGain := by
  intro gains q c cap _
  have fraction : q - 256 * (q / 256) = q % 256 := by omega
  simp only [fraction]
  refine ⟨gainAt_le gains c cap, fun zone => ?_, fun before => ?_⟩
  · rw [gainAt_of_zone15 gains c zone, zone]
  · obtain ⟨above, below⟩ := roundHalfUp_bounds
      (((zoneGain gains (q / 256 + 1) c : Int) - zoneGain gains (q / 256) c) * (q % 256 : Nat))
      (by decide : 0 < 256)
    have value := gainAt_of_lt_zone15 gains c before
    exact ⟨by omega, by omega, gainAt_between gains c before⟩

end Sys2Proof.Machine
end

