-- ==== Sys2Proof/Proofs/Breathing.lean ====
section
/-! PROOF. The breathing correction on egress: the magnification of a row, interpolated between the mid rows of the
bands (R158), the source position of an output sample (R160), and the neighbours it is blended from (R161). -/

namespace Sys2Proof.Machine

/-! ### The mid rows of the bands -/

/-- From a height of 256 on, the mid rows rise strictly from band to band. -/
theorem midRow_strictMono {height : Nat} (h : 256 ≤ height) : StrictMono (midRow height) := by
  refine Fin.strictMono_iff_lt_succ.mpr fun j => ?_
  have lower := bandStart_add_32_le_succ h j.val
  have upper := bandStart_add_32_le_succ h (j.val + 1)
  simp only [midRow, Fin.val_castSucc, Fin.val_succ]
  omega

/-! ### The search through the mid rows

The search runs through a list of rows with their magnifications, the knots of the interpolation. -/

/-- At or above the first knot the magnification is the knot's own. -/
theorem magnificationFrom_of_le {y : Nat} {m : Nat × Nat} (le : y ≤ m.1) (rest : List (Nat × Nat)) :
    magnificationFrom y (m :: rest) = m.2 := by
  cases rest with
  | nil => rfl
  | cons n rest => rw [magnificationFrom, if_pos le]

/-- The search passes over the knots before the row when a knot at or before the row follows them. -/
theorem magnificationFrom_append {y : Nat} {before : List (Nat × Nat)} {m : Nat × Nat} (rest : List (Nat × Nat))
    (passed : ∀ n ∈ before, n.1 < y) (reached : m.1 ≤ y) :
    magnificationFrom y (before ++ m :: rest) = magnificationFrom y (m :: rest) := by
  induction before with
  | nil => rfl
  | cons first before ih =>
    obtain ⟨beyond, passed⟩ := List.forall_mem_cons.mp passed
    rw [← ih passed]
    cases before with
    | nil => rw [List.nil_append, List.singleton_append, magnificationFrom, if_neg beyond.not_ge, if_neg reached.not_gt]
    | cons second before =>
      have beyond_second := (passed second List.mem_cons_self).le
      rw [List.cons_append, List.cons_append, magnificationFrom, if_neg beyond.not_ge, if_neg beyond_second.not_gt]

/-- Between two knots the magnification is the interpolated number itself: it is not negative, so its `toNat` loses
nothing. -/
theorem magnificationFrom_of_between {y : Nat} {m n : Nat × Nat} (low : m.1 ≤ y) (high : y < n.1)
    (rest : List (Nat × Nat)) : (magnificationFrom y (m :: n :: rest) : Int) =
      m.2 + roundHalfUp (((n.2 : Int) - m.2) * (y - m.1 : Nat)) (n.1 - m.1) := by
  rcases Nat.eq_or_lt_of_le low with atKnot | beyond
  · rw [magnificationFrom_of_le atKnot.ge, atKnot]
    have start := roundHalfUp_mul_self 0 (show 0 < n.1 - y by omega)
    rw [zero_mul] at start
    rw [Nat.sub_self, Nat.cast_zero, mul_zero, start, add_zero]
  · have ⟨above, _⟩ := interpolation_between m.2 n.2 (show y - m.1 ≤ n.1 - m.1 by omega) (by omega)
    rw [magnificationFrom, if_neg beyond.not_ge, if_pos high, ← Nat.cast_sub low, Int.toNat_of_nonneg (by omega)]

/-- Between two knots the magnification lies between theirs. -/
theorem magnificationFrom_between {y : Nat} {m n : Nat × Nat} (low : m.1 ≤ y) (high : y < n.1)
    (rest : List (Nat × Nat)) : min (m.2 : Int) n.2 ≤ magnificationFrom y (m :: n :: rest) ∧
      (magnificationFrom y (m :: n :: rest) : Int) ≤ max (m.2 : Int) n.2 := by
  rw [magnificationFrom_of_between low high]
  exact interpolation_between m.2 n.2 (by omega) (by omega)

/-- The magnification of a row keeps to the bounds that the knots' magnifications keep to. -/
theorem magnificationFrom_mem_Icc {lo hi y : Nat} {knots : List (Nat × Nat)} (nonempty : knots ≠ [])
    (bounded : ∀ m ∈ knots, m.2 ∈ Set.Icc lo hi) : magnificationFrom y knots ∈ Set.Icc lo hi := by
  induction knots with
  | nil => contradiction
  | cons m rest ih =>
    obtain ⟨here, others⟩ := List.forall_mem_cons.mp bounded
    rcases le_or_gt y m.1 with le | beyond
    · rwa [magnificationFrom_of_le le]
    · cases rest with
      | nil => exact here
      | cons n rest =>
        rcases Nat.lt_or_ge y n.1 with before | reached
        · have between := magnificationFrom_between beyond.le before rest
          have next := others n List.mem_cons_self
          simp only [Set.mem_Icc] at here next ⊢
          omega
        · have passed : ∀ k ∈ [m], k.1 < y := List.forall_mem_singleton.mpr beyond
          exact magnificationFrom_append rest passed reached ▸ ih (List.cons_ne_nil n rest) others

/-! ### The magnification of a row -/

/-- An interpolated value is the whole number nearest to the exact one, half upward. -/
theorem interpolation_bounds (a b : Int) (f : Nat) {den : Nat} (pos : 0 < den) :
    2 * (a * den + (b - a) * f) - den < 2 * (a + roundHalfUp ((b - a) * f) den) * den ∧
      2 * (a + roundHalfUp ((b - a) * f) den) * den ≤ 2 * (a * den + (b - a) * f) + den := by
  obtain ⟨above, below⟩ := roundHalfUp_bounds ((b - a) * f) pos
  constructor <;> linarith

/-- A band's knot: its mid row and its magnification. -/
def bandKnot (height : Nat) (mags : Vector Nat 8) (b : BandId) : Nat × Nat := (midRow height b, mags[b])

theorem magnificationAt_eq (height y : Nat) (mags : Vector Nat 8) :
    magnificationAt height y mags = magnificationFrom y (allBands.map (bandKnot height mags)) := rfl

/-- The bands before a band, the band, and the bands after it. -/
theorem allBands_split : ∀ b : BandId,
    allBands = allBands.take b.val ++ b :: allBands.drop (b.val + 1) ∧ ∀ a ∈ allBands.take b.val, a < b := by
  decide

/-- From a band's mid row on, the bands before it do not count. -/
theorem magnificationAt_of_reached {height y : Nat} (h : 256 ≤ height) (mags : Vector Nat 8) {b : BandId}
    (reached : midRow height b ≤ y) : magnificationAt height y mags =
      magnificationFrom y (bandKnot height mags b :: (allBands.drop (b.val + 1)).map (bandKnot height mags)) := by
  obtain ⟨split, earlier⟩ := allBands_split b
  have passed : ∀ n ∈ (allBands.take b.val).map (bandKnot height mags), n.1 < y :=
    List.forall_mem_map.mpr fun a ha => (midRow_strictMono h (earlier a ha)).trans_le reached
  rw [magnificationAt_eq, split, List.map_append, List.map_cons, magnificationFrom_append _ passed reached, ← split]

/-- The band after a band, and the bands after that one. -/
theorem allBands_drop_succ : ∀ j : Fin 7,
    allBands.drop (j.castSucc.val + 1) = j.succ :: allBands.drop (j.val + 2) := by
  decide

/-- From a band's mid row to the next the magnification is interpolated between the two bands'. -/
theorem magnificationAt_of_between {height y : Nat} (h : 256 ≤ height) (mags : Vector Nat 8) {j : Fin 7}
    (low : midRow height j.castSucc ≤ y) (high : y < midRow height j.succ) :
    (magnificationAt height y mags : Int) = mags[j.castSucc] +
      roundHalfUp (((mags[j.succ] : Int) - mags[j.castSucc]) * (y - midRow height j.castSucc : Nat))
        (midRow height j.succ - midRow height j.castSucc) := by
  rw [magnificationAt_of_reached h mags low, allBands_drop_succ, List.map_cons]
  exact magnificationFrom_of_between low high _

/-- The magnification of a row keeps to the bounds that the 8 band magnifications keep to. -/
theorem magnificationAt_mem_Icc {lo hi : Nat} (height y : Nat) {mags : Vector Nat 8}
    (bounded : ∀ b : BandId, mags[b] ∈ Set.Icc lo hi) : magnificationAt height y mags ∈ Set.Icc lo hi :=
  magnificationFrom_mem_Icc (List.cons_ne_nil _ _) (List.forall_mem_map.mpr fun b _ => bounded b)

/-- Settles O59, by the knots that the search passes over and the two it interpolates between. -/
theorem rowMagnification : Obligations.RowMagnification := by
  intro h y mags tall
  refine ⟨fun above => ?_, fun below => ?_, fun j low high => ?_, fun bounded => ?_, fun identity => ?_⟩
  · exact magnificationFrom_of_le above _
  · exact magnificationAt_of_reached tall mags below
  · dsimp only
    rw [magnificationAt_of_between tall mags low high]
    obtain ⟨above, below⟩ := interpolation_bounds mags[j.castSucc] mags[j.succ] (y - midRow h j.castSucc)
      (show 0 < midRow h j.succ - midRow h j.castSucc by omega)
    exact ⟨above, below, interpolation_between _ _ (by omega) (by omega)⟩
  · exact magnificationAt_mem_Icc h y bounded
  · obtain ⟨low, high⟩ := magnificationAt_mem_Icc h y fun b =>
      Set.mem_Icc.mpr ⟨(identity b).ge, (identity b).le⟩
    exact Nat.le_antisymm high low

/-! ### The source position -/

/-- The source coordinate is at the rounded quotient from the centre (R160). -/
theorem source256_sub_centre (centre v k : Nat) :
    source256 centre v k - 256 * centre = roundHalfUp (((v : Int) - centre) * 16777216) k := by
  rw [source256, add_sub_cancel_left]

/-- The lower neighbour is the greatest number of the parity whose 256-fold is at most the source coordinate. -/
theorem lowerNeighbour_isGreatest (src : Int) (parity : Nat) :
    IsGreatest {m : Int | (m - parity) % 2 = 0 ∧ 256 * m ≤ src} (lowerNeighbour src parity) := by
  simp only [lowerNeighbour]
  refine ⟨⟨by omega, by omega⟩, fun m ⟨same, le⟩ => ?_⟩
  omega

/-- The weight of the upper neighbour is at most 511, for the upper neighbour lies beyond the source coordinate. -/
theorem source_sub_lowerNeighbour_le (src : Int) (parity : Nat) : src - 256 * lowerNeighbour src parity ≤ 511 := by
  rw [lowerNeighbour]
  omega

/-! ### The neighbours along one axis -/

/-- The two neighbours along one axis, needed or not. -/
def axisNeighbours (src : Int) (parity : Nat) : List Weighted :=
  let a := lowerNeighbour src parity
  let w := (src - 256 * a).toNat
  [(a, 512 - w), (a + 2, w)]

/-- The needed neighbours along one axis are those whose weight is not 0. -/
theorem neighbours_eq_filter (src : Int) (parity : Nat) :
    neighbours src parity = (axisNeighbours src parity).filter fun q => q.2 ≠ 0 := by
  have weight := source_sub_lowerNeighbour_le src parity
  have lower_needed : 512 - (src - 256 * lowerNeighbour src parity).toNat ≠ 0 := by omega
  by_cases atLower : (src - 256 * lowerNeighbour src parity).toNat = 0 <;>
    simp [neighbours, axisNeighbours, atLower, lower_needed]

theorem axisNeighbours_weight_sum (src : Int) (parity : Nat) :
    ((axisNeighbours src parity).map fun q => q.2).sum = 512 := by
  have weight := source_sub_lowerNeighbour_le src parity
  simp only [axisNeighbours, List.map_cons, List.map_nil, List.sum_cons, List.sum_nil]
  omega

/-- At the lower neighbour itself the other one is not needed. -/
theorem neighbours_of_eq {src : Int} {parity : Nat} (atLower : src = 256 * lowerNeighbour src parity) :
    neighbours src parity = [(lowerNeighbour src parity, 512)] := by
  rw [neighbours, if_pos (by omega)]

/-- Beyond the lower neighbour both are needed. -/
theorem neighbours_of_lt {src : Int} {parity : Nat} (beyond : 256 * lowerNeighbour src parity < src) :
    neighbours src parity =
      [(lowerNeighbour src parity, (512 - (src - 256 * lowerNeighbour src parity)).toNat),
        (lowerNeighbour src parity + 2, (src - 256 * lowerNeighbour src parity).toNat)] := by
  have weight : 512 - (src - 256 * lowerNeighbour src parity).toNat =
      (512 - (src - 256 * lowerNeighbour src parity)).toNat := by omega
  rw [neighbours, if_neg (by omega), weight]

/-! ### The product of the two axes -/

/-- The neighbours of two axes taken together, the columns of the first row first, with the products of the weights. -/
def weightProduct (columns rows : List Weighted) : List (Int × Int × Nat) :=
  rows.flatMap fun r => columns.map fun q => (q.1, r.1, q.2 * r.2)

/-- A product of weights is needed when both its weights are. -/
theorem weightProduct_filter (columns rows : List Weighted) :
    weightProduct (columns.filter fun q => q.2 ≠ 0) (rows.filter fun r => r.2 ≠ 0) =
      (weightProduct columns rows).filter fun n => n.2.2 ≠ 0 := by
  induction rows with
  | nil => rfl
  | cons r rows ih =>
    simp only [weightProduct, List.flatMap_cons, List.filter_append] at ih ⊢
    rw [← ih, List.filter_map]
    by_cases rowNeeded : r.2 = 0 <;> simp [rowNeeded, Function.comp_def]

theorem weightProduct_weight_sum (columns rows : List Weighted) :
    ((weightProduct columns rows).map fun n => n.2.2).sum =
      (columns.map fun q => q.2).sum * (rows.map fun r => r.2).sum := by
  induction rows with
  | nil => rfl
  | cons r rows ih =>
    simp only [weightProduct, List.flatMap_cons, List.map_append, List.sum_append] at ih ⊢
    rw [ih, List.map_cons, List.sum_cons, Nat.mul_add, List.map_map]
    congr 1
    exact List.sum_map_mul_right ..

/-- The needed neighbours of an output sample are the products of the two axes' needed neighbours. -/
theorem ReadSetting.neighboursOf_eq_weightProduct (u : ReadSetting) (x y : Nat) :
    u.neighboursOf x y =
      (weightProduct (neighbours (source256 u.window.resamplingCentre.1 x u.k) (x % 2))
        (neighbours (source256 u.window.resamplingCentre.2 y u.k) (y % 2))).map fun n =>
          (u.window.neighbourSource u.border u.fillValue (x % 2) (y % 2) n.1 n.2.1, n.2.2) := by
  simp only [weightProduct, List.map_flatMap, List.map_map]
  rfl

/-- Settles O60: rounding gives the source position, and the products of the axes' weights the four neighbours. -/
theorem sourcePosition : Obligations.SourcePosition := by
  refine ⟨fun centre v k pos => ?_, fun u x y _ => ?_⟩
  · obtain ⟨above, below⟩ := roundHalfUp_bounds (((v : Int) - centre) * 16777216) pos
    rw [← source256_sub_centre] at above below
    refine ⟨above, below, fun parity _ => ?_⟩
    obtain ⟨⟨same, le⟩, greatest⟩ := lowerNeighbour_isGreatest (source256 centre v k) parity
    exact ⟨same, le, source_sub_lowerNeighbour_le _ _, fun m same le => greatest ⟨same, le⟩, neighbours_of_eq,
      neighbours_of_lt⟩
  · dsimp only
    constructor
    · rw [u.neighboursOf_eq_weightProduct, neighbours_eq_filter, neighbours_eq_filter, weightProduct_filter]
      rfl
    · have total := weightProduct_weight_sum (axisNeighbours (source256 u.window.resamplingCentre.1 x u.k) (x % 2))
        (axisNeighbours (source256 u.window.resamplingCentre.2 y u.k) (y % 2))
      rw [axisNeighbours_weight_sum, axisNeighbours_weight_sum] at total
      exact total

end Sys2Proof.Machine
end

