-- ==== Sys2Proof/Proofs/ReadNames.lean ====
section
/-! PROOF. The names of the reads in the Egress Queue: every command but the entry of a read and a pin reset keeps the
reads of the queue, or takes some of its head, and names no new one. -/

namespace Sys2Proof.Machine

set_option Elab.async false

/-- The reads of the queue are those of before, some of its head perhaps gone, and no name has been given. -/
structure ReadsKept (s t : State) : Prop where
  reads : t.er.queue.map EgressEntry.fixed <:+ s.er.queue.map EgressEntry.fixed
  nextId : t.er.nextId = s.er.nextId

theorem Within.readsKept {s t : State} (h : Within s t) : ReadsKept s t := ⟨h.reads, h.nextId⟩

theorem ReadsKept.ofEr {s t : State} (h : t.er = s.er) : ReadsKept s t := by
  constructor <;> simp [h]

theorem ReadsKept.refl (s : State) : ReadsKept s s := .ofEr rfl

theorem ReadsKept.trans {s t u : State} (a : ReadsKept s t) (b : ReadsKept t u) : ReadsKept s u :=
  ⟨b.reads.trans a.reads, b.nextId.trans a.nextId⟩

/-- A change of other blocks before. -/
theorem ReadsKept.after {s t u : State} (b : ReadsKept t u) (h : t.er = s.er := by rfl) : ReadsKept s u :=
  .trans (.ofEr h) b

/-- An inner operation after a change of other blocks. -/
theorem ReadsKept.inner {s t u : State} (b : Within t u) (h : t.er = s.er := by rfl) : ReadsKept s u := b.readsKept.after h

/-- A change of other blocks afterwards. -/
theorem ReadsKept.followed {s t u : State} (a : ReadsKept s t) (h : u.er = t.er := by rfl) : ReadsKept s u :=
  a.trans (.ofEr h)

theorem ReadsKept.foldl {α : Type} {f : State → α → State} (h : ∀ s x, ReadsKept s (f s x)) (l : List α) (s : State) :
    ReadsKept s (l.foldl f s) := by
  induction l generalizing s with
  | nil => exact .refl s
  | cons x l ih => exact (h s x).trans (ih _)

/-- Reads that are kept keep their names. -/
theorem ReadsKept.idsOk {s t : State} (h : ReadsKept s t) (ids : IdsOk s) : IdsOk t := by
  intro e he
  obtain ⟨x, hx, same⟩ := List.mem_map.mp (h.reads.subset (List.mem_map_of_mem he))
  have name : x.id = e.id := by
    simpa only [EgressEntry.fixed] using congrArg (fun y : EgressEntry => y.id) same
  rw [h.nextId, ← name]
  exact ids x hx

/-! ### The end of a command, the pins and the procedures -/

theorem ReadsKept.refreshReports (s : State) : ReadsKept s s.refreshReports := .ofEr rfl

theorem ReadsKept.finish (s : State) : ReadsKept s s.finish :=
  (Within.settled s).readsKept.trans (.refreshReports _)

theorem ReadsKept.finished {s t : State} (h : ReadsKept s t) : ReadsKept s t.finish := h.trans (.finish t)

theorem ReadsKept.whenLive {s : State} {act : State → State} (h : ReadsKept s (act s)) : ReadsKept s (s.whenLive act) := by
  unfold State.whenLive
  split
  · exact h
  · exact .refl s

theorem ReadsKept.endSweep (s : State) : ReadsKept s s.endSweep := by
  unfold State.endSweep
  exact .finished (.inner (.resumeSwept _))

theorem ReadsKept.cancelPresented (s : State) : ReadsKept s s.cancelPresented := by
  unfold State.cancelPresented
  split
  · exact .refl s
  · exact .inner (.withdrawIntake _)

theorem ReadsKept.emptyPart (s : State) : ReadsKept s s.emptyPart := by
  unfold State.emptyPart
  dsimp only
  refine .followed (t := s.cancelPresented.forSlots _ _) ?_
  exact (ReadsKept.cancelPresented s).trans (.inner (.forSlots _ _ _ fun _ _ => .resolveSlot _ _))

theorem ReadsKept.startBypassEntry (s : State) : ReadsKept s s.startBypassEntry := by
  unfold State.startBypassEntry
  dsimp only
  refine .trans ?_ (.inner (.emptyQueue _ _))
  refine .followed (t := State.emptyPart _) ?_
  exact .after (.emptyPart _)

theorem ReadsKept.modDrain (s : State) (f : Drain → Drain) : ReadsKept s (s.modDrain f) := by
  unfold State.modDrain
  split
  · exact .ofEr rfl
  · exact .refl s

theorem ReadsKept.startDrain (s : State) : ReadsKept s s.startDrain := by
  unfold State.startDrain
  dsimp only
  refine .trans ?_ (.inner (.emptyQueue _ _))
  refine .trans ?_ (.inner (.abortForDrain _))
  refine .trans ?_ (.modDrain _ _)
  exact .after (.emptyPart _)

theorem ReadsKept.finishDrain (s : State) (d : Drain) : ReadsKept s (s.finishDrain d) := by
  have resumed : ReadsKept s
      ((((s.clearWork.applyAllPending).raise d.doneEvent).setProc .none).resumeLoads d.loadAborted) := by
    refine .trans ?_ (.inner (.resumeLoads _ _))
    refine .followed (t := State.raise _ _) ?_
    refine .trans ?_ (.inner (.raise _ _))
    exact .inner (.applyAllPending _)
  unfold State.finishDrain
  dsimp only
  split
  · exact resumed.trans (.startBypassEntry _)
  · exact resumed

/-! ### The lens link -/

theorem ReadsKept.changeLink (s : State) (e : LinkState) (r : LinkReason) (n : Nat) (c : Option Byte) :
    ReadsKept s (s.changeLink e r n c) := by
  unfold State.changeLink
  refine .trans ?_ (.inner (.evalMode _ _))
  exact .inner (.raise _ _)

theorem ReadsKept.dropMode (s : State) : ReadsKept s s.dropMode := by
  unfold State.dropMode
  split
  · exact .inner (.raise _ _)
  · exact .refl s

theorem ReadsKept.enterDown (s : State) (r : LinkReason) (n : Nat) : ReadsKept s (s.enterDown r n) := by
  unfold State.enterDown
  dsimp only
  refine .trans ?_ (.inner (.evalMode _ _))
  refine .trans ?_ (.inner (.failLoad _ _ _ _))
  refine .followed (t := State.takeAllBands _ _ _) ?_
  refine .trans ?_ (.inner (.takeAllBands .testComplete _))
  refine .followed (t := State.dropMode _) ?_
  refine .trans ?_ (.dropMode _)
  exact .inner (.raise _ _)

theorem ReadsKept.badPeriod (s : State) : ReadsKept s s.badPeriod := by
  unfold State.badPeriod
  dsimp only
  split
  · exact .after (.enterDown _ _ _)
  · split
    · exact .after (.changeLink _ _ _ _ _)
    · exact .ofEr rfl

theorem ReadsKept.identPeriod (s : State) : ReadsKept s s.identPeriod := by
  unfold State.identPeriod
  split
  · exact .refl s
  · split
    · exact .ofEr rfl
    · dsimp only
      split
      · exact .ofEr rfl
      · exact .after (.changeLink _ _ _ _ _)

theorem ReadsKept.periodEvent (s : State) : ReadsKept s s.periodEvent :=
  (ReadsKept.identPeriod s).trans (.inner (.loadPeriod _))

theorem ReadsKept.missPeriod (s : State) (d : Stamp) : ReadsKept s (s.missPeriod d) := by
  unfold State.missPeriod
  dsimp only
  refine .trans ?_ (.periodEvent _)
  exact .after (.badPeriod _)

theorem ReadsKept.restartLink (s : State) : ReadsKept s s.restartLink := by
  unfold State.restartLink
  split
  · exact .refl s
  · exact .enterDown s _ _

/-! ### Lens frames -/

theorem ReadsKept.testMarks (s : State) (x : Sample) : ReadsKept s (s.testMarks x) := by
  unfold State.testMarks
  split
  · dsimp only
    split
    · exact .ofEr rfl
    · exact .followed (.foldl (fun _ _ => .inner (.raiseIf _ _ _)) _ s)
  · exact .refl s

theorem ReadsKept.takeSample (s : State) (x : Sample) : ReadsKept s (s.takeSample x) := by
  unfold State.takeSample
  split
  · dsimp only
    refine .trans ?_ (.inner (.takeAllBands .testComplete _))
    refine .followed (t := State.testMarks _ _) ?_
    exact .after (.testMarks _ _)
  · exact .refl s

theorem ReadsKept.checkMode (s : State) (f : LensFrame) : ReadsKept s (s.checkMode f) := by
  unfold State.checkMode
  split
  · exact .refl s
  · exact .inner (.raise _ _)

theorem ReadsKept.acceptReply (s : State) (x : LensIdentity) : ReadsKept s (s.acceptReply x) := by
  unfold State.acceptReply
  dsimp only
  refine .trans ?_ (.after (.changeLink _ _ _ _ _))
  refine .followed (t := State.takeIdentity _ _) ?_
  refine .trans ?_ (.inner (.takeIdentity _ _))
  exact .inner (.raise _ _)

theorem ReadsKept.mismatch (s : State) (f : LensFrame) : ReadsKept s (s.mismatch f) := by
  unfold State.mismatch
  refine .trans ?_ (.inner (.failLoad _ _ _ _))
  exact .after (.changeLink _ _ _ _ _)

theorem State.modArea_er (s : State) (a : AreaId) (f : Area → Area) : (s.modArea a f).er = s.er := by
  cases a <;> rfl

theorem ReadsKept.blockReply (s : State) (n : Nat) (d : List Byte) : ReadsKept s (s.blockReply n d) := by
  unfold State.blockReply
  split
  · exact .refl s
  · split
    · exact .refl s
    · split
      · dsimp only
        split
        · split
          · exact .inner (.failLoad _ _ _ _) (s.modArea_er _ _)
          · exact .inner (.checkComplete _ _) (s.modArea_er _ _)
        · exact .inner (.checkComplete _ _) (s.modArea_er _ _)
      · exact .refl s

theorem ReadsKept.takePayload (s : State) (x : Option (Nat × List Byte)) : ReadsKept s (s.takePayload x) := by
  cases x
  · exact .refl s
  · exact .blockReply s _ _

theorem ReadsKept.takeReady (s : State) (f : LensFrame) : ReadsKept s (s.takeReady f) := by
  unfold State.takeReady
  split
  · dsimp only
    refine .trans ?_ (.checkMode _ _)
    refine .trans ?_ (.takePayload _ _)
    exact .foldl (fun _ _ => .takeSample _ _) _ _
  · exact .mismatch s f

theorem ReadsKept.takeGood (s : State) (f : LensFrame) : ReadsKept s (s.takeGood f) := by
  unfold State.takeGood
  split
  · exact .trans (.after (.changeLink _ _ _ _ _)) (.checkMode _ _)
  · dsimp only
    split
    · exact .after (.checkMode _ _)
    · exact .trans (.after (.changeLink _ _ _ _ _)) (.checkMode _ _)
  · split
    · exact .trans (.acceptReply _ _) (.checkMode _ _)
    · exact .checkMode _ _
  · exact .takeReady _ _
  · exact .trans (.changeLink _ _ _ _ _) (.takeReady _ _)

theorem ReadsKept.answerFrame (s : State) (f : LensFrame) : ReadsKept s (s.answerFrame f) := by
  unfold State.answerFrame State.answerReady
  repeat' split
  all_goals exact .ofEr rfl

theorem ReadsKept.lensFrame (s : State) (bytes : List Byte) : ReadsKept s (s.lensFrame bytes) := by
  have bad (e : Option (BitVec 8)) : ReadsKept s (((s.arrival e).badPeriod).periodEvent) := by
    refine .trans ?_ (.periodEvent _)
    exact .after (.badPeriod _)
  unfold State.lensFrame
  split
  · split
    · exact .refl s
    · exact bad _
  · split
    · unfold State.goodFrame
      dsimp only
      refine .trans ?_ (.answerFrame _ _)
      refine .trans ?_ (.periodEvent _)
      exact .after (.takeGood _ _)
    · exact bad _

/-! ### The control area -/

theorem ReadsKept.takeRing (s : State) (old : Option Ring) : ReadsKept s (s.takeRing old) := by
  unfold State.takeRing
  repeat' split
  all_goals exact .ofEr rfl

theorem ReadsKept.commit (s : State) : ReadsKept s s.commit := by
  unfold State.commit
  split
  · exact .inner (.raise s _)
  · unfold State.acceptCommit
    dsimp only
    refine .trans ?_ (.inner (.evalMode _ _))
    refine .trans ?_ (.inner (.raise _ _))
    refine .trans ?_ (.inner (.commitSlots _))
    exact .after (.takeRing _ _)

theorem ReadsKept.startSnapshot (s : State) : ReadsKept s s.startSnapshot := by
  unfold State.startSnapshot
  split
  · exact .inner (.raise s _)
  · exact .ofEr rfl

theorem ReadsKept.requestSnapshot (s : State) : ReadsKept s s.requestSnapshot := by
  unfold State.requestSnapshot
  split
  · exact .inner (.raise s _)
  · split
    · exact .startSnapshot s
    · split
      · exact .startSnapshot s
      · exact .ofEr rfl

theorem ReadsKept.unlessRefused {s : State} {act : State → State} (h : ReadsKept s (act s)) :
    ReadsKept s (s.unlessRefused act) := by
  unfold State.unlessRefused
  split
  · exact .inner (.raise s _)
  · exact h

theorem ReadsKept.command (s : State) : ReadsKept s s.command := by
  unfold State.command
  split
  · exact .refl s
  · exact .unlessRefused (.startDrain s)
  · exact .unlessRefused (.inner (.reload s))
  · exact .unlessRefused (.restartLink s)
  · exact .inner (.raise s _)

theorem ReadsKept.whenCovered {s : State} {act : State → State} (w : ControlBytes) (o : Nat) (h : ReadsKept s (act s)) :
    ReadsKept s (s.whenCovered w o act) := by
  unfold State.whenCovered
  split
  · exact h
  · exact .refl s

theorem ReadsKept.handover (s : State) (w : ControlBytes) : ReadsKept s (s.handover w) := by
  unfold State.handover
  dsimp only
  refine .trans ?_ (.whenCovered _ _ (.requestSnapshot _))
  refine .trans ?_ (.whenCovered _ _ (.finished (.command _)))
  refine .trans ?_ (.whenCovered _ _ (.finished (.commit _)))
  exact .after (.whenCovered _ _ (.refreshReports _))

theorem ReadsKept.handOver (s : State) (w : ControlBytes) : ReadsKept s (s.handOver w) := by
  unfold State.handOver
  split
  · exact .finished (.handover s w)
  · exact .refl s

/-! ### The memory path -/

theorem ReadsKept.present (s : State) : ReadsKept s s.present := by
  unfold State.present
  split
  · refine .finished ?_
    unfold State.presentHead
    split
    · exact .refl s
    · exact .inner (.startPresented _ _ rfl)
  · exact .refl s

theorem ReadsKept.grantForward (s : State) (t : DownTag) (f : Forward) : ReadsKept s (s.grantForward t f) := by
  unfold State.grantForward
  split
  · exact .refl s
  · dsimp only
    refine .finished ?_
    refine .trans ?_ (.inner (.evalIndices _ _))
    refine .trans ?_ (.inner (.reportSpan _ _))
    exact .inner (.accountGranted _ _ _)

theorem ReadsKept.grantCastout (s : State) (t : DownTag) (i : LineIdx) : ReadsKept s (s.grantCastout t i) := by
  unfold State.grantCastout
  split
  · exact .ofEr rfl
  · exact .refl s

theorem ReadsKept.grantSnapshot (s : State) (t : DownTag) (x : Fin 2) : ReadsKept s (s.grantSnapshot t x) := by
  unfold State.grantSnapshot
  split
  · exact .refl s
  · exact .ofEr rfl

theorem ReadsKept.handOn (s : State) (r : UpRequest) (c : Cls) (stale : Bool) (st : Status) :
    ReadsKept s (s.handOn r c stale st) := by
  unfold State.handOn
  split
  · exact .handover s _
  · exact .inner (.tagHandover s _ _ _ _)
  · exact .refl s

theorem ReadsKept.recordWriteDone (s : State) (st : Status) : ReadsKept s (s.recordWriteDone st) := by
  unfold State.recordWriteDone
  split
  · exact .refl s
  · dsimp only
    split <;> exact .ofEr rfl

theorem ReadsKept.snapshotWriteDone (s : State) (st : Status) : ReadsKept s (s.snapshotWriteDone st) := by
  unfold State.snapshotWriteDone
  split
  · exact .refl s
  · dsimp only
    split
    · exact .ofEr rfl
    · split
      · refine .trans ?_ (.startSnapshot _)
        exact .inner (.raise _ _)
      · exact .inner (.raise _ _)

/-! ### Every command -/

/-- A state from which a step is told by equality of answers. -/
theorem ReadsKept.next {s u t : State} (h : (.next u : Answer) = .next t) (k : ReadsKept s u) : ReadsKept s t := by
  cases h
  exact k

/-- The commands that give a read its name or take the queue to its pin-reset value. -/
def namesReads : Instr → Bool
  | .resetNLow _ _ | .egressQueueEntry => true
  | _ => false

/-- Every other command keeps the reads. -/
theorem exec_readsKept {c : Instr} {s t : State} (h : exec c s = .next t) (other : namesReads c = false) :
    ReadsKept s t := by
  cases c
  case resetNLow => cases other
  case egressQueueEntry => cases other
  case resetNHigh =>
    refine .next h ?_
    split
    · exact .refl s
    · exact .ofEr rfl
  case invalidateSweepEnd =>
    refine .next h (.whenLive ?_)
    split
    · exact .endSweep s
    · exact .refl s
  case bypassRise =>
    refine .next h ?_
    split
    · exact .refl s
    · refine .after (t := s.setBypass true) (.whenLive ?_)
      split
      · exact .refl _
      · exact .finished (.startBypassEntry _)
  case bypassEntrySequenceEnd =>
    refine .next h ?_
    split
    · exact .ofEr rfl
    · exact .refl s
  case bypassFall => exact .next h (.ofEr rfl)
  case expoEdge => exact .next h (.whenLive (.ofEr rfl))
  case upstreamRequest r =>
    simp only [exec, execUpstreamRequest] at h
    split at h
    · exact .next h (.after (.present _))
    · cases h
  case forwardedGrant =>
    refine .next h ?_
    split
    · exact .grantForward s _ _
    · exact .refl s
  case castoutGrant =>
    refine .next h ?_
    split
    · exact .grantCastout s _ _
    · exact .refl s
  case fillGrant =>
    refine .next h ?_
    split
    · exact .ofEr rfl
    · exact .refl s
  case eventRecordWriteGrant =>
    refine .next h ?_
    split
    · exact .ofEr rfl
    · exact .refl s
  case snapshotWriteGrant =>
    refine .next h ?_
    split
    · exact .grantSnapshot s _ _
    · exact .refl s
  case upstreamOriginCompletion e st data =>
    refine .next h ?_
    split
    · dsimp only
      refine .finished (.trans ?_ (.handOn _ _ _ _ _))
      refine .trans ?_ (.inner (.complete _ _))
      exact .inner (.dropIfFault _ _ _)
    · exact .refl s
  case castoutCompletion e st =>
    refine .next h ?_
    split
    · exact .finished (.inner (.castoutDone _ _ _))
    · exact .refl s
  case fillCompletion e st data =>
    refine .next h ?_
    split
    · exact .finished (.inner (.fillDone _ _ _ _))
    · exact .refl s
  case eventRecordWriteCompletion e st =>
    refine .next h ?_
    split
    · exact .finished (.after (.recordWriteDone _ _))
    · exact .refl s
  case snapshotWriteCompletion e st =>
    refine .next h ?_
    split
    · exact .finished (.after (.snapshotWriteDone _ _))
    · exact .refl s
  case staleCompletion => exact .next h (.refl s)
  case controlWrite w =>
    simp only [exec, execControlWrite] at h
    split at h
    · exact .next h (.handOver s w)
    · cases h
  case drainStep4 =>
    refine .next h ?_
    split
    · split
      · exact .finished (.finishDrain s _)
      · exact .refl s
    · exact .refl s
  case lensFrame bytes => exact .next h (.whenLive (.finished (.lensFrame s bytes)))
  case missingPeriod =>
    refine .next h ?_
    split
    · split
      · exact .finished (.missPeriod s _)
      · exact .refl s
    · exact .refl s
  case resolveDeadlineExpiry i b =>
    exact .next h (.whenLive (.finished (.inner (.expireBand .testComplete _ _ _))))
  case tagDeadlineExpiry i =>
    exact .next h (.whenLive (.finished (.inner (.expireTag .testComplete _))))
  all_goals exact .next h (.handOver s _)

/-- The read that enters is named below the next name. -/
theorem State.enterQueue_idsOk {s : State} (ids : IdsOk s) (p : Presented) (slot : SlotId) (w : Window) :
    IdsOk (s.enterQueue p slot w) := by
  unfold State.enterQueue
  dsimp only
  refine (Within.foldl (fun _ _ => .placeNeed _ _ _) _ _).readsKept.idsOk ?_
  intro e he
  rcases List.mem_append.mp he with old | new
  · exact Nat.lt_succ_of_lt (ids e old)
  · have named : e.id = s.er.nextId := by
      rw [List.mem_singleton.mp new, State.fixRead, EgressEntry.readyIfServed]
      split <;> rfl
    rw [named]
    exact Nat.lt_succ_self _

theorem exec_egressQueueEntry_idsOk {s t : State} (h : exec .egressQueueEntry s = .next t) (ids : IdsOk s) : IdsOk t := by
  have done {u : State} (h : (.next u : Answer) = .next t) (ok : IdsOk u) : IdsOk t := by
    cases h
    exact ok
  refine done h ?_
  split
  · exact ids
  · split
    · split
      · exact (ReadsKept.finish _).idsOk (State.enterQueue_idsOk ids _ _ _)
      · exact ids
    · exact ids

theorem exec_idsOk {c : Instr} {s t : State} (h : exec c s = .next t) (ids : IdsOk s) : IdsOk t := by
  cases other : namesReads c with
  | false => exact (exec_readsKept h other).idsOk ids
  | true =>
    cases c
    case resetNLow =>
      cases h
      exact fun e he => absurd he List.not_mem_nil
    case egressQueueEntry => exact exec_egressQueueEntry_idsOk h ids
    all_goals cases other

end Sys2Proof.Machine
end

