-- ==== Sys2Proof/Proofs/Invariants.lean ====
section
/-! PROOF. The invariants of the part: the bounds that every step keeps, the names of the reads, the strobe counts of
the Exposure Queue, the pin-reset state, and that all of them hold right after reset; and the step itself. -/

namespace Sys2Proof.Machine

/-! ### The step -/

/-- Settles O1: the front command runs on the state with the queue's rest. -/
theorem stepRunsFrontCommand : Obligations.StepRunsFrontCommand := by
  intro c rest s front
  simp only [step, front]

/-- The prescaler counts to the division of the straps and starts again as the Stamp Clock advances (R43). -/
theorem Ssu.tick_eq (u : Ssu) (refsel : BitVec 2) : u.tick refsel = { u with
    prescaler := if u.prescaler + 1 < division refsel then u.prescaler + 1 else 0
    clock := if u.prescaler + 1 < division refsel then u.clock else u.clock + 1 } := by
  unfold Ssu.tick
  split <;> rfl

/-- Settles O3: with nothing due a step is one REFCLK cycle, for each of the four divisions of R43. -/
theorem idleCycleCountsMicroseconds : Obligations.IdleCycleCountsMicroseconds := by
  intro s d empty live idle table
  have divides : division s.pins.refsel = d := by
    simp only [List.mem_cons, Prod.mk.injEq, List.not_mem_nil, or_false] at table
    rcases table with ⟨strap, rfl⟩ | ⟨strap, rfl⟩ | ⟨strap, rfl⟩ | ⟨strap, rfl⟩ <;> rw [strap] <;> rfl
  have waits : step s = s.idle := by simp only [step, empty]
  rw [waits, State.idle_of_dueEvents_nil idle live, State.cycle, Ssu.tick_eq, divides]

/-! ### The bounds -/

/-- Settles O8: a step keeps every bound, and that ATTN_N stands as the ring has it is one. -/
theorem attnFollowsRing : Obligations.AttnFollowsRing :=
  fun _ _ attn h => step_keeps h .attnOk rfl attn

/-- Settles O10: a step keeps every bound, and the canonical form is one. -/
theorem memoriesStayCanonical : Obligations.MemoriesStayCanonical :=
  fun _ _ canonical h => step_keeps h .memories rfl canonical

/-- Settles O11: a step keeps every bound, and that the records stand at their index is one. -/
theorem linesStayAtTheirIndex : Obligations.LinesStayAtTheirIndex :=
  fun _ _ lines h => step_keeps h .lines rfl lines

/-- Settles O12: a step keeps every bound, and the order of the history is one. -/
theorem historyStaysIncreasing : Obligations.HistoryStaysIncreasing :=
  fun _ _ ordered h => step_keeps h .historyOrder rfl ordered

theorem Bounded.step {s t : State} (bounded : Bounded s) (h : step s = .next t) : Bounded t where
  exposures := step_keeps h .edges8 rfl bounded.exposures
  history := step_keeps h .history256 rfl bounded.history
  events := step_keeps h .events16 rfl bounded.events
  queue := step_keeps h .queue16 rfl bounded.queue
  starvation := step_keeps h .starvation64 rfl bounded.starvation
  requests := step_keeps h .requests rfl bounded.requests

/-! ### An invariant, from the commands to the step -/

/-- What makes a property of the state hold through every step: each command keeps it, and so do what the part does by
itself and the changes of the queue and of the counter of free values that a step makes first. -/
structure StepInvariant (P : State → Prop) : Prop where
  exec : ∀ {c : Instr} {s t : State}, exec c s = .next t → P s → P t
  present : ∀ {s : State}, P s → P s.present
  cycle : ∀ {s : State}, s.pins.resetN = true → P s → P s.cycle
  pending : ∀ {s : State} (l : List Instr), P s → P { s with pending := l }
  free : ∀ {s : State} (n : Nat), P s → P { s with free := n }

theorem StepInvariant.bringAbout {P : State → Prop} (inv : StepInvariant P) {s t : State} {e : Due}
    (live : s.pins.resetN = true) (ok : P s) (h : s.bringAbout e = .next t) : P t := by
  cases e with
  | presentation =>
    cases h
    exact inv.present ok
  | periodEnd =>
    simp only [State.bringAbout] at h
    split at h
    · next u missed =>
      have stays : u.pins.resetN = s.pins.resetN := exec_keeps missed .resetN rfl
      cases h
      exact inv.cycle (stays.trans live) (inv.exec missed ok)
    · next stop => exact absurd h (stop _)
  | command c => exact inv.exec h ok

theorem StepInvariant.step {P : State → Prop} (inv : StepInvariant P) {s t : State} (ok : P s)
    (h : step s = .next t) : P t := by
  unfold Machine.step at h
  split at h
  · unfold State.idle at h
    split at h
    · next live =>
      split at h
      · cases h
        exact inv.cycle live ok
      · exact inv.bringAbout live ok h
      · exact inv.bringAbout (s := { s with free := s.free + 1 }) live (inv.free _ ok) h
    · cases h
      exact ok
  · exact inv.exec h (inv.pending _ ok)

/-! ### The names of the reads -/

theorem idsOk_stepInvariant : StepInvariant IdsOk where
  exec h ids := exec_idsOk h ids
  present ids := (ReadsKept.present _).idsOk ids
  cycle _ ids := ids
  pending _ ids := ids
  free _ ids := ids

/-- Settles O9: each size is a bound that a step keeps, and the names of the reads are an invariant of their own. -/
theorem queuesStayBounded : Obligations.QueuesStayBounded :=
  fun _ _ h => ⟨fun bounded => bounded.step h, step_keeps h .path rfl, fun ids => idsOk_stepInvariant.step ids h⟩

/-! ### The strobe counts of the Exposure Queue -/

/-- The newer part of a queue of consecutive counts has consecutive counts. -/
theorem ExposuresOk.of_suffix {s t : State} (ok : ExposuresOk s) (newer : t.ssu.exposures <:+ s.ssu.exposures)
    (strobe : t.ssu.strobe = s.ssu.strobe) : ExposuresOk t := by
  obtain ⟨older, split⟩ := newer
  intro i e here
  have there : s.ssu.exposures[older.length + i]? = some e := by
    rw [← split, List.getElem?_append_right (by omega)]
    simpa using here
  have lengths : s.ssu.exposures.length - (older.length + i) = t.ssu.exposures.length - i := by
    rw [← split, List.length_append]
    omega
  have count := ok _ _ there
  rw [lengths] at count
  rw [count, strobe]

/-- A new edge joins with the count that the counter stood at (R45). -/
theorem ExposuresOk.join {s t : State} (ok : ExposuresOk s)
    (joined : t.ssu.exposures = s.ssu.exposures ++ [⟨s.ssu.clock, s.ssu.strobe⟩])
    (strobe : t.ssu.strobe = s.ssu.strobe + 1) : ExposuresOk t := by
  intro i e here
  rw [joined, List.getElem?_append] at here
  rw [joined, List.length_append, List.length_singleton, strobe]
  split at here
  · next old =>
    have count := ok i e here
    rw [show s.ssu.exposures.length + 1 - i = (s.ssu.exposures.length - i) + 1 by omega, BitVec.ofNat_add,
      ← BitVec.add_assoc, count]
    rfl
  · next new =>
    have last : i = s.ssu.exposures.length := by
      have bound := (List.getElem?_eq_some_iff.mp here).1
      simp only [List.length_singleton] at bound
      omega
    subst last
    simp only [Nat.sub_self, List.getElem?_cons_zero, Option.some.injEq] at here
    subst here
    simp

theorem ExposuresOk.edge {s : State} (ok : ExposuresOk s) : ExposuresOk { s with ssu := s.ssu.edge } := by
  by_cases room : s.ssu.exposures.length < 8
  · exact ok.join (by simp [Ssu.edge, room]) rfl
  · have newest : ExposuresOk { s with ssu := { s.ssu with exposures := s.ssu.exposures.drop 1 } } :=
      ok.of_suffix (List.drop_suffix _ _) rfl
    exact newest.join (by simp [Ssu.edge, room]) rfl

theorem exec_exposuresOk {c : Instr} {s t : State} (h : exec c s = .next t) (ok : ExposuresOk s) : ExposuresOk t := by
  cases c
  case resetNLow =>
    cases h
    intro i e here
    simp [State.inReset, Ssu.reset] at here
  case expoEdge =>
    cases h
    unfold State.whenLive
    split
    · exact ok.edge
    · exact ok
  all_goals exact ok.of_suffix (exec_keeps h .exposures rfl) (exec_keeps h .strobe rfl)

theorem exposuresOk_stepInvariant : StepInvariant ExposuresOk where
  exec h ok := exec_exposuresOk h ok
  present ok := ok.of_suffix (Keeps.present _ .exposures rfl) (Keeps.present _ .strobe rfl)
  cycle _ ok := ok.of_suffix (Keeps.cycle _ .exposures rfl) (Keeps.cycle _ .strobe rfl)
  pending _ ok := ok
  free _ ok := ok

/-- Settles O13: a command takes from the head of the queue, or is an edge that joins at its tail. -/
theorem exposuresStayConsecutive : Obligations.ExposuresStayConsecutive :=
  fun _ _ ok h => exposuresOk_stepInvariant.step ok h

/-! ### Pin reset -/

@[simp] theorem State.inReset_line (s : State) (c : BitVec 8) (r : BitVec 2) (i : LineIdx) :
    (s.inReset c r).line i = .invalid := by
  simp [State.line, State.inReset, Ls.reset]

@[simp] theorem State.inReset_outstanding (s : State) (c : BitVec 8) (r : BitVec 2) (e : DownTag) :
    (s.inReset c r).mpu.outstanding[e] = none := by
  simp [State.inReset, Mpu.reset]

/-- With no candidate in classes 1 to 4 the next grant goes to class 5 (R18). -/
theorem State.nextGrant_classFive {s : State} (one : s.mpu.class1 = []) (two : s.mpu.class2 = [])
    (three : s.mpu.class3 = none) (four : ∀ i : LineIdx, s.isBackground i = false) :
    s.nextGrant = s.mpu.class5.head?.map .report := by
  have search : allLines.find? s.isBackground = none := List.find?_eq_none.mpr fun i _ => by simp [four i]
  have first : s.firstOfFour = none := by simp only [State.firstOfFour, one, two, three, search]
  unfold State.nextGrant
  rw [first]
  cases s.mpu.class5 <;> rfl

/-- In pin reset the arbiter has nothing to grant. -/
theorem State.inReset_nextGrant (s : State) (c : BitVec 8) (r : BitVec 2) : (s.inReset c r).nextGrant = none :=
  State.nextGrant_classFive rfl rfl rfl fun i => by
    rw [State.isBackground, State.inReset_line]
    rfl

/-- In pin reset CONTROL writes are not handed over. -/
theorem State.inReset_handOver (s : State) (c : BitVec 8) (r : BitVec 2) (w : ControlBytes) :
    (s.inReset c r).handOver w = s.inReset c r := rfl

theorem ResetOk.inReset (s : State) (c : BitVec 8) (r : BitVec 2) : ResetOk (s.inReset c r) := fun _ => rfl

/-- In pin reset a command changes the pins or the upstream port, or nothing. -/
theorem exec_inReset {c : Instr} {s t : State} {cb : BitVec 8} {rs : BitVec 2} (h : exec c (s.inReset cb rs) = .next t) :
    ResetOk t := by
  have unchanged {u : State} (h : (.next u : Answer) = .next t) (same : u = s.inReset cb rs) : ResetOk t := by
    cases h
    rw [same]
    exact .inReset s cb rs
  cases c
  case resetNLow =>
    cases h
    exact .inReset _ _ _
  case resetNHigh =>
    cases h
    intro low
    cases low
  case bypassRise =>
    cases h
    split
    · exact .inReset _ _ _
    · exact fun _ => rfl
  case bypassFall =>
    cases h
    exact fun _ => rfl
  case upstreamRequest r =>
    simp only [exec, execUpstreamRequest] at h
    split at h
    · cases h
      exact fun _ => rfl
    · cases h
  case controlWrite w =>
    simp only [exec, execControlWrite] at h
    split at h
    · exact unchanged h rfl
    · cases h
  case forwardedGrant => exact unchanged h (by rw [State.inReset_nextGrant])
  case castoutGrant => exact unchanged h (by rw [State.inReset_nextGrant])
  case fillGrant => exact unchanged h (by rw [State.inReset_nextGrant])
  case eventRecordWriteGrant => exact unchanged h (by rw [State.inReset_nextGrant])
  case snapshotWriteGrant => exact unchanged h (by rw [State.inReset_nextGrant])
  case upstreamOriginCompletion => exact unchanged h (by rw [State.inReset_outstanding])
  case castoutCompletion => exact unchanged h (by rw [State.inReset_outstanding])
  case fillCompletion => exact unchanged h (by rw [State.inReset_outstanding])
  case eventRecordWriteCompletion => exact unchanged h (by rw [State.inReset_outstanding])
  case snapshotWriteCompletion => exact unchanged h (by rw [State.inReset_outstanding])
  all_goals exact unchanged h rfl

/-- Only RESET_N_LOW takes the part into pin reset. -/
theorem exec_resetOk {c : Instr} {s t : State} (h : exec c s = .next t) (ok : ResetOk s) : ResetOk t := by
  cases low : s.pins.resetN with
  | false =>
    rw [ok low] at h
    exact exec_inReset h
  | true =>
    have high (kept : t.pins.resetN = s.pins.resetN) : ResetOk t := fun low' => by simp [kept, low] at low'
    cases c
    case resetNLow =>
      cases h
      exact .inReset _ _ _
    case resetNHigh =>
      cases h
      exact high (by rw [if_pos low])
    all_goals exact high (exec_keeps h .resetN rfl)

theorem resetOk_stepInvariant : StepInvariant ResetOk where
  exec h ok := exec_resetOk h ok
  present {s} ok low := by
    have before : s.pins.resetN = false := (Keeps.present s .resetN rfl).symm.trans low
    have waits : s.present = s := by simp [State.present, State.canPresent, before]
    rw [waits]
    exact ok before
  cycle live _ low := by simp [State.cycle, live] at low
  pending l ok low := by
    have same := ok low
    conv_lhs => rw [same]
    rfl
  free n ok low := by
    have same := ok low
    conv_lhs => rw [same]
    rfl

/-- Settles O14: in pin reset no command but RESET_N_HIGH, which ends it, changes more than the pins and the port. -/
theorem pinResetHolds : Obligations.PinResetHolds :=
  fun _ _ ok h => resetOk_stepInvariant.step ok h

/-! ### Right after reset -/

/-- Settles O15, invariant by invariant. -/
theorem invariantsHoldAtReset : Obligations.InvariantsHoldAtReset := by
  refine ⟨rfl, ?bounded, ?memories, ?lines, ?history, ?exposures, ?path, ?inReset, ?ids, ⟨rfl, rfl, rfl⟩⟩
  case bounded =>
    exact { exposures := by decide, history := by decide, events := by decide, queue := by decide
            starvation := by decide, requests := Load.short_none }
  case memories => exact ⟨Memory.wf_nil, Memory.wf_nil, Memory.wf_nil⟩
  case lines =>
    intro i
    simp [State.line, State.reset, Ls.reset, LineRec.okAt]
  case history => exact List.isChain_nil
  case exposures =>
    intro i e here
    simp [State.reset, Ssu.reset] at here
  case path => exact fun asking => by cases asking
  case inReset => exact fun low => by cases low
  case ids => exact fun e he => absurd he List.not_mem_nil

end Sys2Proof.Machine
end

