-- ==== Sys2Proof/Proofs/CommandFrames.lean ====
section
/-! PROOF. What a command leaves unchanged, read off the table of what each command touches: the clock and the pins, the
control area, the link, and the ports. And that every well-formed command completes. -/

namespace Sys2Proof.Machine

/-- A command whose operands the check admits answers a next state. -/
theorem exec_completes {c : Instr} (wf : c.wf = true) (s : State) : ∃ t, exec c s = .next t := by
  cases c
  case upstreamRequest r => exact ⟨_, if_pos wf⟩
  case controlWrite w => exact ⟨_, if_pos wf⟩
  all_goals exact ⟨_, rfl⟩

/-- Settles O2: only the two checked commands can be refused, and no command touches the queue. -/
theorem everyCommandCompletes : Obligations.EveryCommandCompletes := by
  intro c s
  refine ⟨fun wf => ?_, fun r request ill => ?_, fun w write ill => ?_⟩
  · obtain ⟨t, h⟩ := exec_completes wf s
    refine ⟨t, h, ?_⟩
    cases c <;> exact exec_keeps h .pending rfl
  · subst request
    simp [exec, execUpstreamRequest, ill]
  · subst write
    simp [exec, execControlWrite, ill]

/-- Settles O4, part by part: RESET_N_LOW aside, no command touches the clock or the straps, and each other part has its
own commands. -/
theorem clockAndPinFrame : Obligations.ClockAndPinFrame := by
  intro c s t h
  have kept := exec_keeps h
  refine ⟨?clock, ?strobe, ?resetN, ?bypass⟩
  case clock =>
    cases c
    case resetNLow => trivial
    all_goals exact ⟨(kept .clock rfl).1, (kept .clock rfl).2, (kept .straps rfl).1, (kept .straps rfl).2⟩
  case strobe =>
    cases c
    case resetNLow => trivial
    case expoEdge => trivial
    all_goals exact ⟨kept .strobe rfl, kept .exposures rfl⟩
  case resetN =>
    cases c
    case resetNLow => trivial
    case resetNHigh => trivial
    all_goals exact kept .resetN rfl
  case bypass =>
    cases c
    case bypassRise => trivial
    case bypassFall => trivial
    all_goals exact kept .bypass rfl

/-- Settles O5: the handed-over writes aside, only the report commands touch the ring, the record write and the
snapshot, and only the completion of a record write takes an event off the queue. -/
theorem controlAreaFrame : Obligations.ControlAreaFrame := by
  intro c s t h
  have kept := exec_keeps h
  refine ⟨?area, ?events⟩
  case events =>
    cases c
    case resetNLow => trivial
    case eventRecordWriteCompletion => trivial
    all_goals exact kept .events rfl
  case area =>
    cases c
    case eventRecordWriteGrant =>
      exact ⟨kept .shadow rfl, kept .settings rfl, ⟨(kept .ring rfl).1, (kept .ring rfl).2, trivial⟩, kept .snapshot rfl⟩
    case eventRecordWriteCompletion => exact ⟨kept .shadow rfl, kept .settings rfl, trivial, kept .snapshot rfl⟩
    case snapshotWriteCompletion =>
      exact ⟨kept .shadow rfl, kept .settings rfl, ⟨(kept .ring rfl).1, (kept .ring rfl).2, kept .recordWrite rfl⟩, trivial⟩
    all_goals
      first
      | trivial
      | exact ⟨kept .shadow rfl, kept .settings rfl, ⟨(kept .ring rfl).1, (kept .ring rfl).2, kept .recordWrite rfl⟩,
          kept .snapshot rfl⟩

/-- The link as it was but for its mode target. -/
theorem Keeps.llc_same {F : Part → Bool} {s t : State} (kept : Keeps F s t) (link : F .link = false)
    (focusRef : F .focusRef = false) : t.llc = { s.llc with modeTarget := t.llc.modeTarget } := by
  have fields : t.llc = { s.llc with modeTarget := t.llc.modeTarget, focusRef := t.llc.focusRef } := kept .link link
  have mark : t.llc.focusRef = s.llc.focusRef := kept .focusRef focusRef
  rw [mark] at fields
  exact fields

/-- Settles O6: the handed-over writes, the lens frame and the missing period aside, only drain step 4 touches the focus
reference, and only a lens frame the bytes of an area. -/
theorem linkFrame : Obligations.LinkFrame := by
  intro c s t h
  have kept := exec_keeps h
  refine ⟨?link, ?bytes⟩
  case link =>
    cases c
    case drainStep4 => exact kept .link rfl
    all_goals
      first
      | trivial
      | exact ⟨kept.llc_same rfl rfl, kept .br rfl⟩
  case bytes =>
    cases c
    case resetNLow => trivial
    case lensFrame => trivial
    all_goals exact kept .areaBytes rfl

/-- Settles O7: only a grant touches the requests issued and only a lens frame the part frames; the entries that are
BUSY change with a grant, a completion or a pin reset. -/
theorem portFrame : Obligations.PortFrame := by
  intro c s t h
  have kept := exec_keeps h
  refine ⟨?ump, ?dmp, ?lml, ?busy⟩
  case ump => cases c <;> exact kept .ump rfl
  case dmp =>
    cases c
    all_goals
      first
      | trivial
      | exact kept .dmp rfl
  case lml =>
    cases c
    case lensFrame => trivial
    all_goals exact kept .lml rfl
  case busy =>
    cases c
    all_goals
      first
      | trivial
      | exact kept .busy rfl

end Sys2Proof.Machine
end

