-- ==== Sys2Proof/Proofs/Pins.lean ====
section
/-! PROOF. The pins: pin reset and its release, the end of the invalidate sweep, and the end of the bypass entry
sequence. -/

namespace Sys2Proof.Machine

theorem State.inReset_slot (s : State) (c : BitVec 8) (r : BitVec 2) (i : SlotId) :
    (s.inReset c r).slot i = .reset := by
  simp [State.slot, State.inReset]

theorem State.inReset_frame (s : State) (c : BitVec 8) (r : BitVec 2) (i : SlotId) :
    (s.inReset c r).frame i = .blank 0 := by
  rw [State.frame, State.inReset_slot]
  rfl

theorem State.inReset_area (s : State) (c : BitVec 8) (r : BitVec 2) (a : AreaId) :
    (s.inReset c r).area a = .reset := by
  cases a <;> rfl

/-- Settles O16: the pin-reset state block by block, and the two edges of the pin. -/
theorem pinReset : Obligations.PinReset := by
  intro c r s
  refine ⟨⟨s.inReset c r, rfl, ?_⟩, fun low => ?_, fun high => ?_, ⟨_, rfl, rfl⟩⟩
  · refine ⟨rfl, rfl, rfl, rfl, rfl, rfl, rfl, rfl, rfl, State.inReset_outstanding s c r, rfl, fun i => ?slots, rfl, rfl,
      rfl, rfl, fun a => ?areas, State.inReset_line s c r, rfl, rfl, fun a => rfl, rfl, rfl, rfl, rfl, rfl, rfl, rfl, rfl,
      rfl⟩
    case slots =>
      rw [State.inReset_frame, State.inReset_slot]
      refine ⟨rfl, rfl, rfl, rfl, rfl, rfl, rfl, rfl, rfl, fun b => ?_, rfl, rfl, rfl, rfl, fun k => ?_⟩
      · simp [FrameRecord.blank, BandRecord.waiting]
      · simp [Slot.reset, emptyCollection]
    case areas =>
      rw [State.inReset_area]
      exact ⟨rfl, rfl, rfl⟩
  · simp [exec, execResetNHigh, low, State.release]
  · simp [exec, execResetNHigh, high]

/-! ### The end of the sweep -/

/-- A table made constant. -/
theorem mapTable_const {α β : Type} {n : Nat} (v : Vector α n) (x : β) :
    mapTable v (fun _ => x) = Vector.replicate n x := by
  ext i hi
  simp

/-- With nothing at the Intake Stage no request goes on at the end of the sweep. -/
theorem State.resumeSwept_self {s : State} (idle : s.mpu.intake = none) : s.resumeSwept = s := by
  unfold State.resumeSwept
  rw [idle]

theorem exec_invalidateSweepEnd {s : State} (live : s.pins.resetN = true) (running : s.ls.sweeping = true) :
    exec .invalidateSweepEnd s = .next s.endSweep := by
  simp [exec, execInvalidateSweepEnd, State.whenLive, live, running]

/-- The sweep is over at its end, whatever request goes on. -/
theorem State.endSweep_sweeping (s : State) : s.endSweep.ls.sweeping = false := by
  have ended : Part.same _ _ .sweeping := State.finish_same (State.resumeSwept { s with ls := { s.ls with
    lines := mapTable s.ls.lines fun _ => .invalid, sweeping := false } }) .sweeping nofun nofun nofun
  exact ended.trans (Within.resumeSwept _).sweeping

/-- Settles O17: the records are made INVALID, and a quiet state has no request that goes on. -/
theorem sweepEndInvalidatesRecords : Obligations.SweepEndInvalidatesRecords := by
  intro s
  refine ⟨fun live running quiet => ?_, fun live running => ?_, fun ended => ?_⟩
  · rw [exec_invalidateSweepEnd live running, State.endSweep, State.resumeSwept_self, mapTable_const]
    · exact congrArg Host.Outcome.next (Quiet.finish_self (quiet.moved rfl rfl rfl rfl))
    · exact quiet.intake
  · exact ⟨_, exec_invalidateSweepEnd live running, s.endSweep_sweeping⟩
  · rcases ended with low | idle
    · simp [exec, execInvalidateSweepEnd, State.whenLive, low]
    · simp [exec, execInvalidateSweepEnd, State.whenLive, idle]

/-! ### The end of the bypass entry sequence -/

/-- Settles O19: the end clears the collections and the procedure, and a fall sets the level. -/
theorem bypassEntryEndAndFall : Obligations.BypassEntryEndAndFall := by
  intro s
  refine ⟨fun l entry ended => ?_, fun going => ?_, rfl⟩
  · refine ⟨s.endBypassEntry, ?_, rfl, fun i => ?_⟩
    · simp [exec, execBypassEntrySequenceEnd, State.inBypassEntry, entry, ended]
    · show (mapTable s.slots _)[i] = _
      rw [mapTable_get]
      rfl
  · simp [exec, execBypassEntrySequenceEnd, going]

end Sys2Proof.Machine
end

