-- ==== Sys2Proof/Proofs/Grants.lean ====
section
/-! PROOF. The arbiter and its grants: the order of the classes, the entry that a grant takes, and what the grants of a
castout, a fill part and a report issue; and the completion whose tag names a FREE entry. -/

namespace Sys2Proof.Machine

/-! ### The order of the classes -/

theorem State.nextGrant_starved {s : State} {w : ReportWrite} {rest : List ReportWrite} (report : s.mpu.class5 = w :: rest)
    (starved : s.mpu.starvation = 64) : s.nextGrant = some (.report w) := by
  unfold State.nextGrant
  rw [report]
  cases s.firstOfFour <;> simp [starved]

/-- Short of a starvation count of 64 the first candidate of classes 1 to 4 goes before class 5 (R18, R19). -/
theorem State.nextGrant_of_four {s : State} {g : Grant} (patient : s.mpu.class5 = [] ∨ s.mpu.starvation ≠ 64)
    (first : s.firstOfFour = some g) : s.nextGrant = some g := by
  unfold State.nextGrant
  rw [first]
  rcases patient with none | fed
  · rw [none]
  · cases s.mpu.class5 <;> simp [fed]

/-- The background castout is that of the lowest index (R18). -/
theorem find_allLines {p : LineIdx → Bool} {i : LineIdx} (found : p i = true) (lowest : ∀ j, j < i → p j = false) :
    allLines.find? p = some i := by
  rw [allLines, List.find?_eq_some_iff_getElem]
  refine ⟨found, i.val, by simp, by simp, fun j hj => ?_⟩
  have below : (⟨j, by omega⟩ : LineIdx) < i := hj
  simpa using lowest _ below

theorem find_allTags_iff {p : DownTag → Bool} {e : DownTag} :
    allTags.find? p = some e ↔ p e = true ∧ ∀ f, f < e → p f = false := by
  rw [allTags, List.find?_eq_some_iff_getElem]
  constructor
  · rintro ⟨found, i, hi, here, lowest⟩
    simp only [List.getElem_finRange] at here
    subst here
    refine ⟨found, fun f hf => ?_⟩
    simpa using lowest f.val hf
  · rintro ⟨found, lowest⟩
    refine ⟨found, e.val, by simp, by simp, fun j hj => ?_⟩
    have below : (⟨j, by omega⟩ : DownTag) < e := hj
    simpa using lowest _ below

/-- Settles O27: the starved class 5, then the classes in their order, and the lowest FREE entry. -/
theorem arbiterOrder : Obligations.ArbiterOrder := by
  intro s
  refine ⟨fun w rest => State.nextGrant_starved, fun patient => ⟨?_, ?_, ?_, ?_⟩, ?_, fun e => ?_⟩
  · intro i rest one
    exact State.nextGrant_of_four patient (by simp [State.firstOfFour, one])
  · intro x rest one two
    exact State.nextGrant_of_four patient (by simp [State.firstOfFour, one, two])
  · intro f one two three
    exact State.nextGrant_of_four patient (by simp [State.firstOfFour, one, two, three])
  · intro i one two three found lowest
    exact State.nextGrant_of_four patient (by simp [State.firstOfFour, one, two, three, find_allLines found lowest])
  · exact State.nextGrant_classFive
  · rw [State.freeTag, find_allTags_iff]
    simp

/-! ### The grants -/

/-- A castout with a gain setting writes the gained bytes and counts the clamped ones (R128, R150). -/
theorem State.startCastout_of_gain {s : State} {tag : LineTag} {b : BandId} {u : GainSetting}
    (gain : s.gainSetting tag.slot tag.generation b = some u) (i : LineIdx) (lanes : List Lane) (demand : Bool) :
    s.startCastout i tag b lanes demand =
      ((s.setLine i (.casting tag (some b) (u.gain (tag.line * 256) lanes).lanes demand)).modFrame tag.slot fun f =>
        f.addSaturated (u.gain (tag.line * 256) lanes).clamped, (u.gain (tag.line * 256) lanes).lanes) := by
  simp only [State.startCastout, gain]

/-- Settles O29: the record of a gained castout, and the write that is issued. -/
theorem castoutGrantIssues : Obligations.CastoutGrantIssues := by
  intro s i tag b lanes demand u e next free held gain
  simp only [exec, execCastoutGrant, next, free, State.grantCastout, held]
  rw [State.startCastout_of_gain (u := u)]
  · rfl
  · exact gain

/-- Settles O30: the part that is granted is the head of class 2. -/
theorem fillGrantIssues : Obligations.FillGrantIssues := by
  intro s x e next free
  simp only [exec, execFillGrant, next, free]
  rfl

/-- Settles O31: the record at its place in the ring, and the half of the snapshot at its address. -/
theorem reportGrantsIssue : Obligations.ReportGrantsIssue := by
  intro s e free
  refine ⟨fun ring head rest next named queued => ?_, fun half n next flight => ?_⟩
  · have address : s.recordAddr = ring.base + 32 * s.cru.produce := by simp only [State.recordAddr, named]
    have bytes : s.headRecord = head.bytes := by simp only [State.headRecord, queued]
    rw [← address, ← bytes]
    simp only [exec, execEventRecordWriteGrant, next, free]
    rfl
  · simp only [exec, execSnapshotWriteGrant, next, free, State.grantSnapshot, flight]
    rfl

/-! ### Completions of no request -/

/-- Settles O33: a FREE entry records no origin. -/
theorem freeTagCompletionDiscarded : Obligations.FreeTagCompletionDiscarded := by
  intro s e st data
  refine ⟨rfl, fun free => ⟨?_, ?_, ?_, ?_, ?_⟩⟩
  · simp only [exec, execUpstreamOriginCompletion, free]
  · simp only [exec, execCastoutCompletion, free]
  · simp only [exec, execFillCompletion, free]
  · simp only [exec, execEventRecordWriteCompletion, free]
  · simp only [exec, execSnapshotWriteCompletion, free]

end Sys2Proof.Machine
end

