-- ==== Sys2Proof/Proofs/Requests.lean ====
section
/-! PROOF. A request at the upstream port: its class, the block it is handed to, and the forwarding check of its lines. -/

namespace Sys2Proof.Machine

/-! ### Classification -/

theorem State.inControl_eq (s : State) (a : Nat) : s.inControl a =
    decide (s.pins.ctlbase.toNat * 2 ^ 24 ≤ a ∧ a ≤ s.pins.ctlbase.toNat * 2 ^ 24 + 4095) := by
  rw [Bool.eq_iff_iff]
  simp only [State.inControl, Bool.and_eq_true, decide_eq_true_eq]
  rw [State.controlBase]
  omega

/-- The class of a request in a window's extent, as one chain of tests (R8). -/
theorem Window.classify_eq (w : Window) (i : SlotId) (r : UpRequest) : w.classify i r =
    if r.isWrite = true ∧ r.master = w.writer ∧ w.isImageRow (w.rowOf r.first) = true then .ingest i
    else if r.isWrite = true ∧ r.master = w.writer ∧ w.rowOf r.first = w.tagRow then .tag i
    else if r.isWrite = false ∧ w.reads r.master = true ∧ w.correctedView = true ∧
      w.isImageRow (w.rowOf r.first) = true then .egress i
    else .foreign i := by
  unfold Window.classify UpRequest.isWrite
  cases r.kind <;> simp

/-- Settles O21: the tests of `State.classify`, in their order. -/
theorem classificationOrder : Obligations.ClassificationOrder := by
  intro s r region control
  have inRegion : (s.cru.settings.regions.toList.any fun g => g.holds r.first) = region := rfl
  have inControl : s.inControl r.first = control := s.inControl_eq r.first
  refine ⟨fun crosses => ?_, fun whole raw => ?_, fun whole live region => ?_, fun whole live away control => ?_,
    fun whole live away outside i w within => ?_, fun whole live away outside none => ?_⟩
  · simp [State.classify, crosses]
  · simp [State.classify, whole, raw]
  · simp only [State.classify, whole, live, inRegion, region]
    rfl
  · simp only [State.classify, whole, live, inRegion, away, inControl, control]
    rfl
  · simp only [State.classify, whole, live, inRegion, away, inControl, outside, within, ← Window.classify_eq]
    rfl
  · simp only [State.classify, whole, live, inRegion, away, inControl, outside, none]
    rfl

/-! ### The hand-on -/

/-- A command that changes neither the pins, the queue, the reporting unit nor class 5 ends as it is, when nothing at
the Intake Stage is to be settled. -/
theorem Quiet.finish_settled {s t : State} (q : Quiet s) (settled : t.settleIntake 8 = t)
    (class5 : t.mpu.class5 = s.mpu.class5) (starvation : t.mpu.starvation = s.mpu.starvation) (er : t.er = s.er)
    (pins : t.pins = s.pins) (cru : t.cru = s.cru) : t.finish = t := by
  refine State.finish_self settled (by rw [er, q.queue]) ?_
  exact State.refreshReports_moved q.reports class5 starvation (by rw [pins]) (by rw [cru]) (by rw [cru]) (by rw [cru])
    (by rw [cru]) (by rw [cru]) (by rw [cru])

/-- A presented request with no answer of the Frame Table yet is left as it is at the end of its command. -/
theorem Quiet.finish_presented {s t : State} (q : Quiet s) {p : Presented} (here : t.mpu.intake = some p)
    (unasked : p.answer = none) (class5 : t.mpu.class5 = s.mpu.class5)
    (starvation : t.mpu.starvation = s.mpu.starvation) (er : t.er = s.er) (pins : t.pins = s.pins)
    (cru : t.cru = s.cru) : t.finish = t :=
  q.finish_settled (State.settleIntake_self here unasked 8) class5 starvation er pins cru

theorem Quiet.finish_presentedAs {s : State} (q : Quiet s) (r : UpRequest) (ph : Phase) (c3 : Option Forward) :
    (presentedAs s r ph c3).finish = presentedAs s r ph c3 :=
  q.finish_presented rfl rfl rfl rfl rfl rfl rfl

/-- An arriving request that can be presented is handed on in the state that holds it at the Intake Stage. -/
theorem exec_upstreamRequest_startPresented {s : State} {r : UpRequest} (free : s.canPresent = true)
    (port : s.mpu.port = []) (wf : r.wf = true) : exec (.upstreamRequest r) s =
      .next ((presentedAs s r .sweep s.mpu.class3).startPresented
        { req := r, cls := (s.classify r).1, window := (s.classify r).2, stale := false, phase := .sweep
          answer := none }).finish :=
  exec_upstreamRequest_presents free port wf rfl

theorem State.presentedAs_offer (s : State) (r : UpRequest) (ph : Phase) (c3 : Option Forward) (f : Forward) :
    (presentedAs s r ph c3).offer f = presentedAs s r .offered (some f) := rfl

theorem State.presentedAs_setPhase (s : State) (r : UpRequest) (ph next : Phase) (c3 : Option Forward) :
    (presentedAs s r ph c3).setPhase next = presentedAs s r next c3 := rfl

/-- Settles O22: the hand-on by class, in a quiet state. -/
theorem requestHandedOn : Obligations.RequestHandedOn := by
  intro r s wf
  refine ⟨fun closed => ?_, fun free port quiet => ⟨fun now => ?_, fun sweeping later => ?_, fun swept egress => ?_⟩⟩
  · have withheld : (s.arrive r).canPresent = false := closed
    simp only [exec, execUpstreamRequest, wf, if_true, State.present, withheld]
    rfl
  · rw [exec_upstreamRequest_startPresented free port wf]
    rcases now with control | ⟨i, tag⟩ | ⟨pass, sweeping⟩
    · simp only [State.startPresented, control, State.presentedAs_offer, quiet.finish_presentedAs]
    · simp only [State.startPresented, tag, State.presentedAs_offer, quiet.finish_presentedAs]
    · have swept : (presentedAs s r .sweep s.mpu.class3).ls.sweeping = true := sweeping
      simp only [State.startPresented, pass, swept, if_true, State.presentedAs_offer, quiet.finish_presentedAs]
  · have swept : (presentedAs s r .sweep s.mpu.class3).ls.sweeping = true := sweeping
    rw [exec_upstreamRequest_startPresented free port wf]
    rcases later with ⟨i, cls⟩ | ⟨i, cls⟩ | ⟨i, cls⟩ <;>
      simp only [State.startPresented, cls, swept, if_true, State.presentedAs_setPhase,
        quiet.finish_presentedAs]
  · have done : (presentedAs s r .sweep s.mpu.class3).ls.sweeping = false := swept
    obtain ⟨i, cls⟩ := egress
    rw [exec_upstreamRequest_startPresented free port wf]
    simp only [State.startPresented, cls, done, Bool.false_eq_true, if_false, State.presentedAs_setPhase,
        quiet.finish_presentedAs]

end Sys2Proof.Machine
end

