-- ==== Sys2Proof/Proofs/ClaimRules.lean ====
section
/-! SUPPORT. The evaluation of one claim at the head of its list, the demand of a castout as one change of the state, and
the request that asks for its grant. -/

namespace Sys2Proof.Machine

/-! ### Tables -/

theorem put_eq_self {α : Type} {n : Nat} (v : Vector α n) (i : Fin n) : put v i v[i] = v := by
  ext j hj
  rw [put_getElem]
  split
  · next here => simp [← here]
  · rfl

theorem put_put {α : Type} {n : Nat} (v : Vector α n) (i : Fin n) (x y : α) : put (put v i x) i y = put v i y := by
  ext j hj
  simp only [put_getElem]
  split <;> rfl

theorem State.line_setLine (s : State) (i j : LineIdx) (r : LineRec) :
    (s.setLine i r).line j = if i = j then r else s.line j := put_get _ _ _ _

theorem State.line_setLine_self (s : State) (i : LineIdx) (r : LineRec) : (s.setLine i r).line i = r := put_self _ _ _

theorem State.line_setLine_other (s : State) {i j : LineIdx} (other : j ≠ i) (r : LineRec) :
    (s.setLine i r).line j = s.line j := put_other _ (Ne.symm other) _

theorem State.setLine_self {s : State} {i : LineIdx} {r : LineRec} (h : s.line i = r) : s.setLine i r = s := by
  subst h
  exact congrArg (fun v => { s with ls := { s.ls with lines := v } }) (put_eq_self s.ls.lines i)

/-! ### The head of a Claim List -/

theorem State.evalHead_none {s : State} {i : LineIdx} (empty : s.headClaim i = none) (n : Nat) :
    State.evalHead n i s = s := by
  cases n
  · rfl
  · simp only [State.evalHead, empty]

theorem State.evalHead_cleared {s : State} {i : LineIdx} {c : Claim} (head : s.headClaim i = some c)
    (cleared : c.cleared = true) (n : Nat) : State.evalHead n i s = s := by
  cases n
  · rfl
  · simp only [State.evalHead, head, cleared, if_true]

theorem State.evalHead_waits {s : State} {i : LineIdx} {c : Claim} (head : s.headClaim i = some c)
    (fresh : c.cleared = false) (waits : (s.evalClaim i c).2 = false) (n : Nat) :
    State.evalHead (n + 1) i s = (s.evalClaim i c).1 := by
  simp only [State.evalHead, head, fresh, waits, Bool.false_eq_true, if_false]

theorem State.evalHead_served {s : State} {i : LineIdx} {c : Claim} (head : s.headClaim i = some c)
    (fresh : c.cleared = false) (served : (s.evalClaim i c).2 = true) (n : Nat) :
    State.evalHead (n + 1) i s = State.evalHead n i (s.evalClaim i c).1 := by
  simp only [State.evalHead, head, fresh, served, Bool.false_eq_true, if_false, if_true]

theorem State.evalIndex_none {s : State} {i : LineIdx} (empty : s.headClaim i = none) : s.evalIndex i = s :=
  State.evalHead_none empty _

/-- An index whose head claim is not served keeps it at its head. -/
theorem State.evalIndex_waits {s t : State} {i : LineIdx} {c : Claim} (head : s.headClaim i = some c)
    (fresh : c.cleared = false) (result : s.evalClaim i c = (t, false)) : s.evalIndex i = t := by
  rw [State.evalIndex, State.evalHead_waits head fresh (by rw [result]), result]

/-- An index whose head claim is served and leaves no claim behind. -/
theorem State.evalIndex_served {s t : State} {i : LineIdx} {c : Claim} (head : s.headClaim i = some c)
    (fresh : c.cleared = false) (result : s.evalClaim i c = (t, true)) (empty : t.headClaim i = none) :
    s.evalIndex i = t := by
  rw [State.evalIndex, State.evalHead_served head fresh (by rw [result]), result]
  exact State.evalHead_none empty _

theorem State.headClaim_nil {s : State} (empty : s.ls.claims = []) (i : LineIdx) : s.headClaim i = none := by
  rw [State.headClaim, empty]
  rfl

theorem State.evalIndex_nil {s : State} (empty : s.ls.claims = []) (i : LineIdx) : s.evalIndex i = s :=
  State.evalIndex_none (State.headClaim_nil empty i)

theorem State.headClaim_single {s : State} {c : Claim} (one : s.ls.claims = [c]) :
    s.headClaim (indexOf c.line) = some c := by
  rw [State.headClaim, one]
  simp [Claim.on]

/-! ### The demand of a castout -/

/-- A castout is demanded by marking the HELD record, and a candidate that was not demanded joins class 1 (R127). -/
theorem State.demand_eq {s : State} {i : LineIdx} {tag : LineTag} {band : Option BandId} {lanes : List Lane}
    {demand : Bool} (held : s.line i = .held tag band lanes demand) :
    s.demand i = { s with
      mpu := { s.mpu with class1 := s.mpu.class1 ++ joinsClass1 s i }
      ls := { s.ls with lines := put s.ls.lines i (.held tag band lanes true) } } := by
  cases demand
  case true =>
    have same := State.setLine_self held
    simp only [State.setLine] at same
    simp only [State.demand, joinsClass1, held, List.append_nil]
    exact same.symm
  case false =>
    simp only [State.demand, joinsClass1, held, State.isCandidate]
    cases band
    · simp [State.setLine]
    · simp only [State.bandResultOf]
      split <;> split <;> simp_all [State.setLine, State.joinClass1]

/-! ### Asking for the grant -/

theorem State.offerIfCleared_all {s : State} {p : Presented} (here : s.mpu.intake = some p)
    (all : (s.ls.claims.all fun c => !c.ofIntake || c.cleared) = true) :
    s.offerIfCleared = s.offer ⟨p.req.kind, 0⟩ := by
  simp only [State.offerIfCleared, here, all, if_true]

theorem State.offerIfCleared_not {s : State}
    (some_ : (s.ls.claims.all fun c => !c.ofIntake || c.cleared) = false) : s.offerIfCleared = s := by
  unfold State.offerIfCleared
  cases s.mpu.intake <;> simp [some_]

@[simp] theorem State.offerIfCleared_ls (s : State) : s.offerIfCleared.ls = s.ls := by
  unfold State.offerIfCleared
  split
  · rfl
  · split <;> rfl

end Sys2Proof.Machine
end

