-- ==== Sys2Proof/Proofs/Forwarding.lean ====
section
/-! PROOF. The forwarding check of a PASS or FOREIGN request (R129, R130): its claims are placed in address order and
each is evaluated against the record at its index. -/

namespace Sys2Proof.Machine

/-! ### The claims of a forwarded request -/

/-- The claim that a forwarded request places on a line: fresh, or cleared to go downstream. -/
def forwardClaim (cleared : Bool) (line : Nat) : Claim := ⟨line, .forward, cleared, false⟩

/-- The state in which a request is presented and the Claim Lists hold `claims`. -/
def forwarding (s : State) (r : UpRequest) (claims : List Claim) : State :=
  { presentedAs s r .claims s.mpu.class3 with ls := { s.ls with claims := claims } }

/-- The state in which it asks for its grant instead. -/
def forwardOffered (s : State) (r : UpRequest) (claims : List Claim) : State :=
  { presentedAs s r .offered (some ⟨r.kind, 0⟩) with ls := { s.ls with claims := claims } }

theorem addClaims_eq (lines : List Nat) (k : ClaimKind) (s : State) :
    lines.foldl (fun s l => s.addClaim l k) s =
      s.setClaims (s.ls.claims ++ lines.map fun l => ⟨l, k, false, false⟩) := by
  induction lines generalizing s with
  | nil => simp [State.setClaims]
  | cons l rest ih =>
    rw [List.foldl_cons, ih]
    simp [State.addClaim, State.setClaims]

theorem State.placeForward_eq {s : State} {r : UpRequest} (empty : s.ls.claims = []) :
    (presentedAs s r .sweep s.mpu.class3).placeForward r =
      r.linesTouched.foldl (fun s l => s.evalIndex (indexOf l))
        (forwarding s r (r.linesTouched.map (forwardClaim false))) := by
  rw [State.placeForward, addClaims_eq]
  simp only [State.presentedAs_setPhase]
  rw [show (presentedAs s r .claims s.mpu.class3).ls.claims = [] from empty]
  rfl

theorem State.headClaim_at {s : State} {i : LineIdx} {before after : List Claim} {c : Claim}
    (claims : s.ls.claims = before ++ c :: after) (apart : ∀ x ∈ before, x.on i = false) (here : c.on i = true) :
    s.headClaim i = some c := by
  rw [State.headClaim, claims, List.find?_append, List.find?_eq_none.mpr (by simpa using apart)]
  simp [here]

theorem modFirst_at {i : LineIdx} {before after : List Claim} {c : Claim} (f : Claim → Claim)
    (apart : ∀ x ∈ before, x.on i = false) (here : c.on i = true) :
    modFirst i f (before ++ c :: after) = before ++ f c :: after := by
  induction before with
  | nil => simp [modFirst, here]
  | cons x rest ih =>
    simp only [List.mem_cons, forall_eq_or_imp] at apart
    simp [modFirst, apart.1, ih apart.2]

theorem forwardClaim_on (cleared : Bool) (l : Nat) (i : LineIdx) :
    (forwardClaim cleared l).on i = decide (indexOf l = i) := by
  rfl

theorem forwardClaims_apart {cleared : Bool} {lines : List Nat} {i : LineIdx} (apart : i ∉ lines.map indexOf) :
    ∀ x ∈ lines.map (forwardClaim cleared), x.on i = false := by
  intro x hx
  obtain ⟨l, hl, rfl⟩ := List.mem_map.mp hx
  rw [forwardClaim_on, decide_eq_false_iff_not]
  rintro rfl
  exact apart (List.mem_map_of_mem hl)

/-! ### A line of which the Line Store holds no record -/

theorem forwarding_evalClaim_read {s : State} {r : UpRequest} {claims : List Claim} {l : Nat} (read : r.kind = .read)
    (absent : (s.line (indexOf l)).isAt l = false) :
    (forwarding s r claims).evalClaim (indexOf l) (forwardClaim false l) =
      (((forwarding s r claims).popClaim (indexOf l)).offerIfCleared, true) := by
  have kind : (forwarding s r claims).evalForward (indexOf l) l = (forwarding s r claims).evalForwardRead (indexOf l) l := by
    simp only [State.evalForward, forwarding, presentedAs, read]
  have away : ((forwarding s r claims).line (indexOf l)).isAt l = false := absent
  simp only [State.evalClaim, forwardClaim, kind, State.evalForwardRead, away, Bool.false_and, Bool.false_eq_true,
    if_false]

theorem forwarding_evalClaim_write {s : State} {r : UpRequest} {claims : List Claim} {l : Nat} {lanes : List Lane}
    (write : r.kind = .write lanes) (absent : (s.line (indexOf l)).isAt l = false) :
    (forwarding s r claims).evalClaim (indexOf l) (forwardClaim false l) =
      (((forwarding s r claims).clearClaim (indexOf l) false).offerIfCleared, false) := by
  have kind : (forwarding s r claims).evalForward (indexOf l) l =
      ((forwarding s r claims).evalForwardWrite (indexOf l) l r.first lanes, false) := by
    simp only [State.evalForward, forwarding, presentedAs, write]
  have away : ((forwarding s r claims).line (indexOf l)).isAt l = false := absent
  simp only [State.evalClaim, forwardClaim, kind, State.evalForwardWrite, away, Bool.false_eq_true, if_false]

theorem forwarding_offers {s : State} {r : UpRequest} {claims : List Claim} (all : ∀ c ∈ claims, c.cleared = true) :
    (forwarding s r claims).offerIfCleared = forwardOffered s r claims := by
  rw [State.offerIfCleared_all (p := { req := r, cls := (s.classify r).1, window := (s.classify r).2, stale := false
                                       phase := .claims, answer := none }) rfl]
  · rfl
  · simp only [forwarding, List.all_eq_true]
    intro c hc
    simp [all c hc]

theorem forwarding_waits {s : State} {r : UpRequest} {claims : List Claim} {l : Nat}
    (fresh : forwardClaim false l ∈ claims) : (forwarding s r claims).offerIfCleared = forwarding s r claims := by
  refine State.offerIfCleared_not ?_
  simp only [forwarding, List.all_eq_false]
  exact ⟨_, fresh, by simp [forwardClaim, Claim.ofIntake]⟩

/-- Each claim of a read that meets no record leaves its list, and with the last the read asks for its grant (R129). -/
theorem forwarding_read {s : State} {r : UpRequest} (read : r.kind = .read) (lines : List Nat) (some_ : lines ≠ [])
    (apart : (lines.map indexOf).Nodup) (absent : ∀ l ∈ lines, (s.line (indexOf l)).isAt l = false) :
    lines.foldl (fun s l => s.evalIndex (indexOf l)) (forwarding s r (lines.map (forwardClaim false))) =
      forwardOffered s r [] := by
  induction lines with
  | nil => exact absurd rfl some_
  | cons l rest ih =>
    simp only [List.map_cons, List.nodup_cons, List.mem_cons, forall_eq_or_imp] at apart absent
    have popped : (forwarding s r ((l :: rest).map (forwardClaim false))).popClaim (indexOf l) =
        forwarding s r (rest.map (forwardClaim false)) := by
      simp [State.popClaim, forwarding, State.setClaims, forwardClaim_on]
    have result := forwarding_evalClaim_read (claims := (l :: rest).map (forwardClaim false)) read absent.1
    rw [popped] at result
    have rests : (forwarding s r (rest.map (forwardClaim false))).offerIfCleared.headClaim (indexOf l) = none := by
      rw [State.headClaim, State.offerIfCleared_ls, List.find?_eq_none]
      intro x hx
      simp [forwardClaims_apart apart.1 x hx]
    rw [List.foldl_cons, State.evalIndex_served (s := forwarding s r ((l :: rest).map (forwardClaim false)))
      (State.headClaim_at (before := []) rfl (by simp) (by simp [forwardClaim_on])) rfl result rests]
    cases rest with
    | nil => exact forwarding_offers (by simp)
    | cons m rest =>
      rw [forwarding_waits (l := m) (by simp)]
      exact ih (by simp) apart.2 absent.2

/-- Each claim of a write that meets no record is cleared, and with the last the write asks for its grant (R130). -/
theorem forwarding_write {s : State} {r : UpRequest} {lanes : List Lane} (write : r.kind = .write lanes)
    (done lines : List Nat) (some_ : lines ≠ []) (apart : ((done ++ lines).map indexOf).Nodup)
    (absent : ∀ l ∈ lines, (s.line (indexOf l)).isAt l = false) :
    lines.foldl (fun s l => s.evalIndex (indexOf l))
        (forwarding s r (done.map (forwardClaim true) ++ lines.map (forwardClaim false))) =
      forwardOffered s r ((done ++ lines).map (forwardClaim true)) := by
  induction lines generalizing done with
  | nil => exact absurd rfl some_
  | cons l rest ih =>
    simp only [List.mem_cons, forall_eq_or_imp] at absent
    have before : ∀ x ∈ done.map (forwardClaim true), x.on (indexOf l) = false := by
      refine forwardClaims_apart fun hl => ?_
      rw [List.map_append, List.nodup_append] at apart
      exact apart.2.2 _ hl _ (by simp) rfl
    have here : (forwardClaim false l).on (indexOf l) = true := by simp [forwardClaim_on]
    have cleared : (forwarding s r (done.map (forwardClaim true) ++ (l :: rest).map (forwardClaim false))).clearClaim
        (indexOf l) false =
        forwarding s r ((done ++ [l]).map (forwardClaim true) ++ rest.map (forwardClaim false)) := by
      simp only [State.clearClaim, forwarding, State.setClaims, List.map_cons, modFirst_at _ before here]
      simp [forwardClaim]
    have result := forwarding_evalClaim_write
      (claims := done.map (forwardClaim true) ++ (l :: rest).map (forwardClaim false)) write absent.1
    rw [cleared] at result
    rw [List.foldl_cons, State.evalIndex_waits
      (s := forwarding s r (done.map (forwardClaim true) ++ (l :: rest).map (forwardClaim false)))
      (State.headClaim_at rfl before here) rfl result]
    cases rest with
    | nil =>
      rw [List.foldl_nil, List.map_nil, List.append_nil]
      exact forwarding_offers (List.forall_mem_map.mpr fun _ _ => rfl)
    | cons m rest =>
      rw [forwarding_waits (l := m) (by simp), ih (done ++ [l]) (by simp) (by simpa using apart) absent.2]
      simp

/-! ### The lines a request touches -/

/-- A request touches one line, or two neighbours (R1). -/
theorem UpRequest.crosses_next {r : UpRequest} (wf : r.wf = true) (crosses : r.crosses = true) :
    r.last / 256 = r.first / 256 + 1 := by
  simp only [UpRequest.wf, Bool.and_eq_true, decide_eq_true_eq] at wf
  obtain ⟨⟨⟨-, some_⟩, few⟩, -⟩ := wf
  simp only [UpRequest.crosses, decide_eq_true_eq] at crosses
  simp only [UpRequest.last, UpRequest.first] at *
  omega

theorem UpRequest.linesTouched_apart {r : UpRequest} (wf : r.wf = true) : (r.linesTouched.map indexOf).Nodup := by
  unfold UpRequest.linesTouched
  split
  · next crosses =>
    simp only [List.map_cons, List.map_nil, List.nodup_cons, List.mem_singleton, List.not_mem_nil, not_false_eq_true,
      List.nodup_nil, and_true]
    rw [UpRequest.crosses_next wf crosses]
    simp only [indexOf, Fin.ext_iff, Fin.val_ofNat]
    omega
  · simp

theorem UpRequest.linesTouched_some (r : UpRequest) : r.linesTouched ≠ [] := by
  unfold UpRequest.linesTouched
  split <;> simp

/-! ### A request of one line with a record at it -/

/-- The only claim of a request that does not cross, evaluated. -/
theorem State.placeForward_single {s t : State} {r : UpRequest} (empty : s.ls.claims = []) (whole : r.crosses = false)
    (result : (forwarding s r [forwardClaim false (r.first / 256)]).evalClaim (indexOf (r.first / 256))
      (forwardClaim false (r.first / 256)) = (t, false) ∨
      (forwarding s r [forwardClaim false (r.first / 256)]).evalClaim (indexOf (r.first / 256))
        (forwardClaim false (r.first / 256)) = (t, true) ∧ t.ls.claims = []) :
    (presentedAs s r .sweep s.mpu.class3).placeForward r = t := by
  have one : r.linesTouched = [r.first / 256] := by simp [UpRequest.linesTouched, whole]
  have head := State.headClaim_single (s := forwarding s r [forwardClaim false (r.first / 256)]) rfl
  rw [State.placeForward_eq empty, one, List.map_singleton, List.foldl_cons, List.foldl_nil]
  rcases result with waits | ⟨served, gone⟩
  · exact State.evalIndex_waits head rfl waits
  · exact State.evalIndex_served head rfl served (State.headClaim_nil gone _)

theorem LineRec.isAt_held {tag : LineTag} {line : Nat} (here : tag.line = line) (band : Option BandId)
    (lanes : List Lane) (demand : Bool) : (LineRec.held tag band lanes demand).isAt line = true := by
  simp [LineRec.isAt, LineRec.tag?, here]

theorem LineRec.isAt_clean {tag : LineTag} {line : Nat} (here : tag.line = line) (data : List Byte) :
    (LineRec.clean tag data).isAt line = true := by
  simp [LineRec.isAt, LineRec.tag?, here]

/-- A forwarded request that meets a HELD record of its line has its castout demanded and waits (R129, R130). -/
theorem State.evalForward_held {s : State} {p : Presented} {i : LineIdx} {line : Nat} {tag : LineTag}
    {band : Option BandId} {lanes : List Lane} {demand : Bool} (here : s.mpu.intake = some p)
    (held : s.line i = .held tag band lanes demand) (at_ : tag.line = line) :
    s.evalForward i line = (s.demand i, false) := by
  have isAt : (s.line i).isAt line = true := by rw [held]; exact LineRec.isAt_held at_ _ _ _
  simp only [State.evalForward, here]
  cases p.req.kind
  · simp only [State.evalForwardRead, isAt, show (s.line i).isHeld = true by rw [held]; rfl, Bool.and_self, if_true]
  · dsimp only
    rw [State.evalForwardWrite, if_pos isAt]
    simp only [held]

/-- A CLEAN record at the line of a read changes nothing (R129). -/
theorem State.evalForward_clean_read {s : State} {p : Presented} {i : LineIdx} {line : Nat} {tag : LineTag}
    {data : List Byte} (here : s.mpu.intake = some p) (read : p.req.kind = .read) (clean : s.line i = .clean tag data) :
    s.evalForward i line = ((s.popClaim i).offerIfCleared, true) := by
  simp only [State.evalForward, here, read, State.evalForwardRead, clean, LineRec.isHeld, LineRec.isCasting,
    Bool.and_false, Bool.false_eq_true, if_false]

/-- A CLEAN record at the line of a write follows the write-hit policy (R130). -/
theorem State.evalForward_clean_write {s : State} {p : Presented} {i : LineIdx} {line : Nat} {tag : LineTag}
    {data : List Byte} {lanes : List Lane} (here : s.mpu.intake = some p) (write : p.req.kind = .write lanes)
    (clean : s.line i = .clean tag data) (at_ : tag.line = line) :
    s.evalForward i line = ((match s.cru.settings.writeHit with
      | .invalidate => ((s.setLine i .invalid).clearClaim i false).offerIfCleared
      | .update => ((s.setLine i (.clean tag (mergeBytes data (linePart p.req.first lanes line)))).clearClaim i
          true).offerIfCleared), false) := by
  have isAt : (s.line i).isAt line = true := by rw [clean]; exact LineRec.isAt_clean at_ _
  simp only [State.evalForward, here, write]
  rw [State.evalForwardWrite, if_pos isAt]
  simp only [clean] <;> rfl

/-! ### The obligation -/

/-- A forwarded request that is presented, up to the end of its command. -/
theorem exec_upstreamRequest_forward {s : State} {r : UpRequest} (wf : r.wf = true) (free : s.canPresent = true)
    (port : s.mpu.port = []) (swept : s.ls.sweeping = false)
    (cls : (s.classify r).1 = .pass ∨ ∃ i, (s.classify r).1 = .foreign i) :
    exec (.upstreamRequest r) s = .next ((presentedAs s r .sweep s.mpu.class3).placeForward r).finish := by
  have done : (presentedAs s r .sweep s.mpu.class3).ls.sweeping = false := swept
  rw [exec_upstreamRequest_startPresented free port wf]
  rcases cls with pass | ⟨i, foreign_⟩
  · simp only [State.startPresented, pass, done, Bool.false_eq_true, if_false]
  · simp only [State.startPresented, foreign_, done, Bool.false_eq_true, if_false]

/-- Settles O23: the claims of a request that meets no record, and the single claim of one that meets its own. -/
theorem forwardingCheck : Obligations.ForwardingCheck := by
  intro r s wf free port quiet swept empty cls
  rw [exec_upstreamRequest_forward wf free port swept cls]
  refine ⟨fun absent => ?absent, fun whole tag band lanes held at_ => ?held, fun whole tag data clean at_ =>
    ⟨fun read => ?read, fun lanes write policy => ?invalidates, fun lanes write policy => ?updates⟩⟩
  case absent =>
    rw [State.placeForward_eq empty]
    cases kind : r.kind with
    | read =>
      rw [forwarding_read kind r.linesTouched (UpRequest.linesTouched_some r) (UpRequest.linesTouched_apart wf) absent,
        quiet.finish_presented (t := forwardOffered s r []) rfl rfl rfl rfl rfl rfl rfl]
      simp [forwardOffered, UpRequest.isWrite, kind]
    | write lanes =>
      have cleared := forwarding_write kind [] r.linesTouched (UpRequest.linesTouched_some r) (UpRequest.linesTouched_apart wf) absent
      simp only [List.map_nil, List.nil_append] at cleared
      rw [cleared, quiet.finish_presented (t := forwardOffered s r _) rfl rfl rfl rfl rfl rfl rfl]
      simp [forwardOffered, UpRequest.isWrite, kind, forwardClaim]
  case held =>
    have here : (forwarding s r [forwardClaim false (r.first / 256)]).line (indexOf (r.first / 256)) =
        .held tag band lanes false := held
    rw [State.placeForward_single empty whole (.inl (State.evalForward_held rfl here at_)), State.demand_eq here]
    refine ⟨_, rfl, ?_⟩
    rw [quiet.finish_presented]
    · refine ⟨put_self _ _ _, fun j other => put_other _ (Ne.symm other) _, rfl, rfl⟩
    all_goals rfl
  all_goals
    have here : (forwarding s r [forwardClaim false (r.first / 256)]).line (indexOf (r.first / 256)) =
      .clean tag data := clean
  case read =>
    have popped : (forwarding s r [forwardClaim false (r.first / 256)]).popClaim (indexOf (r.first / 256)) =
        forwarding s r [] := by
      simp [State.popClaim, forwarding, State.setClaims, forwardClaim_on]
    have result := State.evalForward_clean_read (line := r.first / 256) rfl read here
    rw [popped, forwarding_offers (by simp)] at result
    rw [State.placeForward_single empty whole (.inr ⟨result, rfl⟩),
      quiet.finish_presented (t := forwardOffered s r []) rfl rfl rfl rfl rfl rfl rfl]
    simp only [forwardOffered, read, ← empty]
    rfl
  all_goals
    have single : ∀ (x : LineRec) (updated : Bool),
        (((forwarding s r [forwardClaim false (r.first / 256)]).setLine (indexOf (r.first / 256)) x).clearClaim
          (indexOf (r.first / 256)) updated).offerIfCleared =
        forwardOffered (s.setLine (indexOf (r.first / 256)) x) r [⟨r.first / 256, .forward, true, updated⟩] := by
      intro x updated
      rw [← forwarding_offers (by simp)]
      simp [State.clearClaim, State.setClaims, forwarding, presentedAs, modFirst, forwardClaim, Claim.on]
      rfl
    have result := State.evalForward_clean_write (line := r.first / 256) rfl write here at_
    rw [show (forwarding s r [forwardClaim false (r.first / 256)]).cru.settings.writeHit = _ from policy] at result
    simp only [single] at result
    rw [State.placeForward_single empty whole (.inl result), quiet.finish_presented]
    · simp only [forwardOffered, write]
      rfl
    all_goals rfl

end Sys2Proof.Machine
end

