-- ==== Sys2Proof/Proofs/EventRules.lean ====
section
/-! SUPPORT. Raising an event: what it leaves unchanged, and what joins the Event Queue. -/

namespace Sys2Proof.Machine

/-! ### What raising an event leaves unchanged -/

/-- An event changes the Event Queue and the overflow mark at most (R182). -/
theorem State.raiseFor_eq (s : State) (x : Option (SlotId × Generation)) (e : Event) :
    s.raiseFor x e = { s with cru := { s.cru with
      events := (s.raiseFor x e).cru.events, overflow := (s.raiseFor x e).cru.overflow } } := by
  unfold State.raiseFor
  split
  · split <;> rfl
  · rfl

section
variable (s : State) (x : Option (SlotId × Generation)) (e : Event)

@[simp] theorem State.raiseFor_pending : (s.raiseFor x e).pending = s.pending := by rw [State.raiseFor_eq]
@[simp] theorem State.raiseFor_pins : (s.raiseFor x e).pins = s.pins := by rw [State.raiseFor_eq]
@[simp] theorem State.raiseFor_ports : (s.raiseFor x e).ports = s.ports := by rw [State.raiseFor_eq]
@[simp] theorem State.raiseFor_mpu : (s.raiseFor x e).mpu = s.mpu := by rw [State.raiseFor_eq]
@[simp] theorem State.raiseFor_slots : (s.raiseFor x e).slots = s.slots := by rw [State.raiseFor_eq]
@[simp] theorem State.raiseFor_ssu : (s.raiseFor x e).ssu = s.ssu := by rw [State.raiseFor_eq]
@[simp] theorem State.raiseFor_llc : (s.raiseFor x e).llc = s.llc := by rw [State.raiseFor_eq]
@[simp] theorem State.raiseFor_br : (s.raiseFor x e).br = s.br := by rw [State.raiseFor_eq]
@[simp] theorem State.raiseFor_pu : (s.raiseFor x e).pu = s.pu := by rw [State.raiseFor_eq]
@[simp] theorem State.raiseFor_ls : (s.raiseFor x e).ls = s.ls := by rw [State.raiseFor_eq]
@[simp] theorem State.raiseFor_er : (s.raiseFor x e).er = s.er := by rw [State.raiseFor_eq]
@[simp] theorem State.raiseFor_free : (s.raiseFor x e).free = s.free := by rw [State.raiseFor_eq]
@[simp] theorem State.raiseFor_settings : (s.raiseFor x e).cru.settings = s.cru.settings := by rw [State.raiseFor_eq]
@[simp] theorem State.raiseFor_shadow : (s.raiseFor x e).cru.shadow = s.cru.shadow := by rw [State.raiseFor_eq]
@[simp] theorem State.raiseFor_proc : (s.raiseFor x e).cru.proc = s.cru.proc := by rw [State.raiseFor_eq]
@[simp] theorem State.raiseFor_snapshot : (s.raiseFor x e).cru.snapshot = s.cru.snapshot := by rw [State.raiseFor_eq]
@[simp] theorem State.raiseFor_snapshotRepeat : (s.raiseFor x e).cru.snapshotRepeat = s.cru.snapshotRepeat := by
  rw [State.raiseFor_eq]
@[simp] theorem State.raiseFor_ringState : (s.raiseFor x e).cru.ringState = s.cru.ringState := by rw [State.raiseFor_eq]
@[simp] theorem State.raiseFor_produce : (s.raiseFor x e).cru.produce = s.cru.produce := by rw [State.raiseFor_eq]
@[simp] theorem State.raiseFor_recordWrite : (s.raiseFor x e).cru.recordWrite = s.cru.recordWrite := by
  rw [State.raiseFor_eq]
@[simp] theorem State.raiseFor_clock : (s.raiseFor x e).clock = s.clock := by rw [State.clock, State.raiseFor_ssu]; rfl
@[simp] theorem State.raiseFor_slot (i : SlotId) : (s.raiseFor x e).slot i = s.slot i := by
  rw [State.slot, State.raiseFor_slots]
  rfl
@[simp] theorem State.raiseFor_frame (i : SlotId) : (s.raiseFor x e).frame i = s.frame i := by
  rw [State.frame, State.raiseFor_slot]
  rfl
@[simp] theorem State.raiseFor_line (i : LineIdx) : (s.raiseFor x e).line i = s.line i := by
  rw [State.line, State.raiseFor_ls]
  rfl

end

/-! ### What joins the Event Queue -/

/-- An enabled event that finds room joins the queue with the overflow mark (R182). -/
theorem State.raiseFor_joins {s : State} {e : Event} (enabled : s.cru.settings.eventDisable.getLsbD e.code = false)
    (room : s.cru.events.length < 16) (x : Option (SlotId × Generation)) : s.raiseFor x e = { s with cru := { s.cru with
      events := s.cru.events ++ [⟨e, s.cru.overflow, x, s.clock⟩], overflow := false } } := by
  have on : s.eventEnabled e = true := by rw [State.eventEnabled, enabled]; rfl
  simp only [State.raiseFor, on, if_true, room]

theorem State.raiseFor_events {s : State} {e : Event} (enabled : s.cru.settings.eventDisable.getLsbD e.code = false)
    (room : s.cru.events.length < 16) (x : Option (SlotId × Generation)) :
    (s.raiseFor x e).cru.events = s.cru.events ++ [⟨e, s.cru.overflow, x, s.clock⟩] := by
  rw [State.raiseFor_joins enabled room]

theorem State.raiseFor_overflow {s : State} {e : Event} (enabled : s.cru.settings.eventDisable.getLsbD e.code = false)
    (room : s.cru.events.length < 16) (x : Option (SlotId × Generation)) :
    (s.raiseFor x e).cru.overflow = false := by
  rw [State.raiseFor_joins enabled room]

/-- An event of a disabled kind is discarded (R182). -/
theorem State.raiseFor_disabled {s : State} {e : Event} (disabled : s.cru.settings.eventDisable.getLsbD e.code = true)
    (x : Option (SlotId × Generation)) : s.raiseFor x e = s := by
  have off : s.eventEnabled e = false := by rw [State.eventEnabled, disabled]; rfl
  simp only [State.raiseFor, off, Bool.false_eq_true, if_false]

/-- An event adds one record at most. -/
theorem State.raiseFor_length (s : State) (x : Option (SlotId × Generation)) (e : Event) :
    (s.raiseFor x e).cru.events.length ≤ s.cru.events.length + 1 := by
  unfold State.raiseFor
  split
  · split <;> simp
  · simp

end Sys2Proof.Machine
end

