-- ==== Sys2Proof/Proofs/ReportWrites.lean ====
section
/-! PROOF. The completions of the report writes: the event record that leaves the queue, and the snapshot. -/

namespace Sys2Proof.Machine

/-! ### Commands that end with the reports alone -/

/-- Freeing an entry changes nothing of the reporting unit but what its procedure waits for (R16, R179). -/
theorem State.freeEntry_cru (s : State) (e : DownTag) :
    (s.freeEntry e).cru = { s.cru with proc := (s.freeEntry e).cru.proc } := rfl

theorem State.recordWriteDone_eq {s : State} {changed : Bool} (writing : s.cru.recordWrite = some changed)
    (st : Status) : s.recordWriteDone st = { s with cru := { s.cru with
      recordWrite := none, events := s.cru.events.drop 1
      produce := if st = .okay ∧ changed = false then (s.cru.produce + 1) % s.ringSize else s.cru.produce
      ringState := if st = .fault ∧ changed = false then .broken else s.cru.ringState
      overflow := s.cru.overflow || decide (st = .fault) } } := by
  simp only [State.recordWriteDone, writing]
  cases st <;> cases changed <;> simp [State.ringSize]

/-- Settles O37: the record leaves the queue, and the reports follow. -/
theorem recordWriteCompletes : Obligations.RecordWriteCompletes := by
  intro s e st position changed busy writing idle empty
  have run : exec (.eventRecordWriteCompletion e st) s = .next ((s.freeEntry e).recordWriteDone st).refreshReports := by
    simp only [exec, execEventRecordWriteCompletion, busy]
    rw [State.recordWriteDone_eq (s := s.freeEntry e) writing, State.finish_eq] <;> assumption
  refine ⟨_, run, ?_⟩
  rw [State.recordWriteDone_eq (s := s.freeEntry e) writing]
  exact ⟨rfl, rfl, rfl, rfl, rfl, rfl, rfl, rfl, rfl, rfl, s.freeEntry_busy e⟩

/-! ### Snapshots -/

theorem State.startSnapshot_none {s : State} (missing : s.cru.settings.snapshotAddr = none) :
    s.startSnapshot = s.raise (.commandRefused s.snapshotWord .noAddress true) := by
  simp only [State.startSnapshot, missing]

theorem State.startSnapshot_some {s : State} {a : Nat} (addr : s.cru.settings.snapshotAddr = some a) :
    s.startSnapshot = { s.refreshReports with
      cru := { s.cru with snapshot := some ⟨a, s.refreshReports.snapshotBytes, 0, false⟩ }
      mpu := { s.refreshReports.mpu with class5 := s.refreshReports.mpu.class5 ++ [.snapshot 0, .snapshot 1] } } := by
  simp only [State.startSnapshot, addr]
  rfl

theorem State.startSnapshot_snapshotRepeat (s : State) :
    s.startSnapshot.cru.snapshotRepeat = s.cru.snapshotRepeat := by
  cases addr : s.cru.settings.snapshotAddr with
  | none => rw [State.startSnapshot_none addr, State.raise, State.raiseFor_snapshotRepeat]
  | some a => rw [State.startSnapshot_some addr]

/-- What a new snapshot leaves in flight (R185). -/
theorem State.startSnapshot_snapshot (s : State) :
    match s.cru.settings.snapshotAddr with
    | none => s.startSnapshot.cru.snapshot = s.cru.snapshot
    | some a => ∃ bytes, s.startSnapshot.cru.snapshot = some ⟨a, bytes, 0, false⟩ := by
  cases addr : s.cru.settings.snapshotAddr with
  | none => rw [State.startSnapshot_none addr, State.raise, State.raiseFor_snapshot]
  | some a => exact ⟨_, by rw [State.startSnapshot_some addr]⟩

theorem Within.startSnapshot_events (s : State) : s.cru.events <+: s.startSnapshot.cru.events := by
  cases addr : s.cru.settings.snapshotAddr with
  | none => rw [State.startSnapshot_none addr]; exact (Within.raise _ _).events
  | some a => rw [State.startSnapshot_some addr]

/-- A new snapshot joins class 5 and nothing else of the Memory Path. -/
theorem State.startSnapshot_mpu (s : State) : s.startSnapshot.mpu = { s.mpu with
    class5 := s.startSnapshot.mpu.class5, starvation := s.startSnapshot.mpu.starvation } := by
  cases addr : s.cru.settings.snapshotAddr with
  | none => rw [State.startSnapshot_none addr, State.raise, State.raiseFor_mpu]
  | some a => rw [State.startSnapshot_some addr]; rfl

theorem State.startSnapshot_er (s : State) : s.startSnapshot.er = s.er := by
  cases addr : s.cru.settings.snapshotAddr with
  | none => rw [State.startSnapshot_none addr, State.raise, State.raiseFor_er]
  | some a => rw [State.startSnapshot_some addr]; rfl

/-- The first of the two snapshot writes (R185). -/
theorem State.snapshotWriteDone_first {s : State} {n : Snapshot} (flight : s.cru.snapshot = some n)
    (first : n.completed = 0) (st : Status) : s.snapshotWriteDone st = { s with cru := { s.cru with
      snapshot := some { n with completed := 1, fault := n.fault || decide (st = .fault) } } } := by
  simp only [State.snapshotWriteDone, flight, first]
  rfl

/-- The state in which SNAPSHOT_DONE has been raised and no snapshot is in flight. -/
def State.snapshotEnds (s : State) (n : Snapshot) (fault : Bool) : State :=
  ({ s with cru := { s.cru with snapshot := none, snapshotRepeat := false } }).raise (.snapshotDone n.addr fault)

/-- The second of the two snapshot writes (R185). -/
theorem State.snapshotWriteDone_second {s : State} {n : Snapshot} (flight : s.cru.snapshot = some n)
    (second : 1 ≤ n.completed) (st : Status) : s.snapshotWriteDone st =
      if s.cru.snapshotRepeat = true then (s.snapshotEnds n (n.fault || decide (st = .fault))).startSnapshot
      else s.snapshotEnds n (n.fault || decide (st = .fault)) := by
  simp only [State.snapshotWriteDone, flight, show ¬ n.completed + 1 < 2 by omega, if_false]
  rfl

theorem State.snapshotEnds_mpu (s : State) (n : Snapshot) (fault : Bool) : (s.snapshotEnds n fault).mpu = s.mpu := by
  rw [State.snapshotEnds, State.raise, State.raiseFor_mpu]

theorem State.snapshotEnds_er (s : State) (n : Snapshot) (fault : Bool) : (s.snapshotEnds n fault).er = s.er := by
  rw [State.snapshotEnds, State.raise, State.raiseFor_er]

theorem State.snapshotEnds_events {s : State} (enabled : s.cru.settings.eventDisable.getLsbD 20 = false)
    (room : s.cru.events.length < 16) (n : Snapshot) (fault : Bool) : (s.snapshotEnds n fault).cru.events =
      s.cru.events ++ [⟨.snapshotDone n.addr fault, s.cru.overflow, none, s.clock⟩] :=
  State.raiseFor_events (s := { s with cru := { s.cru with snapshot := none, snapshotRepeat := false } })
    (e := .snapshotDone n.addr fault) enabled room none

/-- A snapshot write changes class 5 and nothing else of the Memory Path. -/
theorem State.snapshotWriteDone_mpu (s : State) (st : Status) : (s.snapshotWriteDone st).mpu = { s.mpu with
    class5 := (s.snapshotWriteDone st).mpu.class5, starvation := (s.snapshotWriteDone st).mpu.starvation } := by
  cases flight : s.cru.snapshot with
  | none => simp only [State.snapshotWriteDone, flight]
  | some n =>
    rcases Nat.eq_zero_or_pos n.completed with first | second
    · rw [State.snapshotWriteDone_first flight first]
    · rw [State.snapshotWriteDone_second flight second]
      split
      · rw [State.startSnapshot_mpu, State.snapshotEnds_mpu]
      · rw [State.snapshotEnds_mpu]

theorem State.snapshotWriteDone_er (s : State) (st : Status) : (s.snapshotWriteDone st).er = s.er := by
  cases flight : s.cru.snapshot with
  | none => simp only [State.snapshotWriteDone, flight]
  | some n =>
    rcases Nat.eq_zero_or_pos n.completed with first | second
    · rw [State.snapshotWriteDone_first flight first]
    · rw [State.snapshotWriteDone_second flight second]
      split
      · rw [State.startSnapshot_er, State.snapshotEnds_er]
      · rw [State.snapshotEnds_er]

/-- Settles O38: the two writes of a snapshot, and a repeated request after the second. -/
theorem snapshotWriteCompletes : Obligations.SnapshotWriteCompletes := by
  intro s e st half n busy flight idle empty fault
  let u := s.freeEntry e
  have inFlight : u.cru.snapshot = some n := flight
  have run : exec (.snapshotWriteCompletion e st) s = .next (u.snapshotWriteDone st).refreshReports := by
    simp only [exec, execSnapshotWriteCompletion, busy]
    rw [State.finish_eq]
    · rw [State.snapshotWriteDone_mpu]
      exact idle
    · rw [State.snapshotWriteDone_er]
      exact empty
  refine ⟨_, run, fun x => ?busy, fun first => ?first, fun second room enabled => ?event, fun second once => ?ends,
    fun second again => ?again⟩
  case busy =>
    show ((u.snapshotWriteDone st).mpu.outstanding[x]).isSome = _
    rw [State.snapshotWriteDone_mpu]
    exact s.freeEntry_busy e x
  case first =>
    rw [State.refreshReports_cru, State.snapshotWriteDone_first inFlight first]
    exact ⟨rfl, rfl⟩
  all_goals
    have cru : (u.snapshotWriteDone st).refreshReports.cru = (u.snapshotWriteDone st).cru := rfl
    rw [cru, State.snapshotWriteDone_second inFlight second]
  case event =>
    have raised : (u.snapshotEnds n fault).cru.events = s.cru.events ++ [⟨.snapshotDone n.addr fault, s.cru.overflow,
        none, s.clock⟩] := State.snapshotEnds_events (s := u) enabled room n fault
    split
    · rw [← raised]
      exact Within.startSnapshot_events _
    · rw [← raised]
  case ends =>
    have stays : ¬ u.cru.snapshotRepeat = true := by
      show ¬ s.cru.snapshotRepeat = true
      simp [once]
    rw [if_neg stays, State.snapshotEnds, State.raise, State.raiseFor_snapshot]
  case again =>
    have repeats : u.cru.snapshotRepeat = true := again
    rw [if_pos repeats]
    refine ⟨?_, ?_⟩
    · rw [State.startSnapshot_snapshotRepeat, State.snapshotEnds, State.raise, State.raiseFor_snapshotRepeat]
    · have started := (u.snapshotEnds n fault).startSnapshot_snapshot
      have settings : (u.snapshotEnds n fault).cru.settings = s.cru.settings := State.raiseFor_settings _ _ _
      have gone : (u.snapshotEnds n fault).cru.snapshot = none := State.raiseFor_snapshot _ _ _
      rw [settings, gone] at started
      exact started

end Sys2Proof.Machine
end

