-- ==== Sys2Proof/Proofs/Handover.lean ====
section
/-! PROOF. The handover of a CONTROL write (R172, R173): the bytes in the shadow, and the one header word that each of
the word commands covers. -/

namespace Sys2Proof.Machine

/-! ### Numbers in memory -/

/-- The number in n bytes that hold the bytes of a value is the value modulo 256^n. -/
theorem readLE_leBytes {get : Nat → Byte} {n v a : Nat} (bytes : ∀ i, i < n → get (a + i) = (leBytes n v).getD i 0) :
    readLE get a n = v % 256 ^ n := by
  induction n generalizing v a with
  | zero => simp [readLE, Nat.mod_one]
  | succ n ih =>
    have low : get a = BitVec.ofNat 8 v := by simpa [leBytes] using bytes 0 (by omega)
    have high : readLE get (a + 1) n = v / 256 % 256 ^ n := ih fun i hi => by
      have next := bytes (i + 1) (by omega)
      simp only [leBytes, List.getD_cons_succ] at next
      rw [← next]
      congr 1
      omega
    rw [readLE, low, high, BitVec.toNat_ofNat, pow_succ' 256, Nat.mod_mul (a := 256)]

/-- A number read back after it was written (R172). -/
theorem Memory.number_writeLanes {m : Memory} (canonical : Memory.wf m) (a n v : Nat) :
    (m.writeLanes a ((leBytes n v).map some)).number a n = v % 256 ^ n := by
  refine readLE_leBytes fun i hi => ?_
  have inside : i < (leBytes n v).length := by rw [leBytes_length]; exact hi
  rw [Memory.read_writeLanes canonical, if_pos (by omega), show a + i - a = i by omega]
  simp [inside]

/-! ### Which header words a write covers -/

theorem State.handOver_on {s : State} (on : s.snoops = true) (w : ControlBytes) :
    s.handOver w = (s.handover w).finish := by
  rw [State.handOver, if_pos on]

theorem State.handOver_off {s : State} (off : s.snoops = false) (w : ControlBytes) : s.handOver w = s := by
  simp [State.handOver, off]

theorem State.handover_uncovered {s : State} {w : ControlBytes}
    (away : ∀ off ∈ [consumedOffset, commitOffset, commandOffset, snapshotOffset], coversAt w off = false) :
    s.handover w = shadowAfter s w.offset w.lanes := by
  simp only [List.mem_cons, List.not_mem_nil, or_false, forall_eq_or_imp, forall_eq] at away
  obtain ⟨consumed, commit, command, snapshot⟩ := away
  simp only [State.handover, State.whenCovered, consumed, commit, command, snapshot, Bool.false_eq_true, if_false]
  rfl

/-- A write beyond the header covers none of its words (R173). -/
theorem coversAt_beyond {w : ControlBytes} (beyond : 16 ≤ w.offset) :
    ∀ off ∈ [consumedOffset, commitOffset, commandOffset, snapshotOffset], coversAt w off = false := by
  intro off header
  have low : off ≤ 12 := by
    simp only [List.mem_cons, List.not_mem_nil, or_false, consumedOffset, commitOffset, commandOffset,
      snapshotOffset] at header
    omega
  simp only [coversAt, List.any_eq_false, List.mem_range]
  intro i hi
  simp only [Bool.and_eq_true, decide_eq_true_eq, not_and]
  omega

theorem State.handover_commit {s : State} {w : WordLanes} (covers : coversWord w = true) :
    s.handover ⟨commitOffset, w.toList⟩ = (shadowAfter s 0 w.toList).commit.finish := by
  simp only [State.handover, State.whenCovered, coversAt_word covers,
    coversAt_other (w := w) (off := commitOffset) (other := consumedOffset) (by decide),
    coversAt_other (w := w) (off := commitOffset) (other := commandOffset) (by decide),
    coversAt_other (w := w) (off := commitOffset) (other := snapshotOffset) (by decide), Bool.false_eq_true, if_false,
    if_true]
  rfl

theorem State.handover_snapshot {s : State} {w : WordLanes} (covers : coversWord w = true) :
    s.handover ⟨snapshotOffset, w.toList⟩ = (shadowAfter s 8 w.toList).requestSnapshot := by
  simp only [State.handover, State.whenCovered, coversAt_word covers,
    coversAt_other (w := w) (off := snapshotOffset) (other := consumedOffset) (by decide),
    coversAt_other (w := w) (off := snapshotOffset) (other := commandOffset) (by decide),
    coversAt_other (w := w) (off := snapshotOffset) (other := commitOffset) (by decide), Bool.false_eq_true, if_false,
    if_true]
  rfl

theorem State.handover_consumed (s : State) (w : WordLanes) : s.handover ⟨consumedOffset, w.toList⟩ =
    (shadowAfter s 4 w.toList).whenCovered ⟨consumedOffset, w.toList⟩ consumedOffset State.refreshReports := by
  simp only [State.handover, State.whenCovered,
    coversAt_other (w := w) (off := consumedOffset) (other := commitOffset) (by decide),
    coversAt_other (w := w) (off := consumedOffset) (other := commandOffset) (by decide),
    coversAt_other (w := w) (off := consumedOffset) (other := snapshotOffset) (by decide), Bool.false_eq_true, if_false]
  rfl

/-- The 4 bytes of a command cover the command word alone. -/
theorem coversAt_wordWrite (v : Nat) : coversAt (wordWrite commandOffset v) commandOffset = true ∧
    coversAt (wordWrite commandOffset v) consumedOffset = false ∧
    coversAt (wordWrite commandOffset v) commitOffset = false ∧
    coversAt (wordWrite commandOffset v) snapshotOffset = false := by
  simp [coversAt, wordWrite, commandOffset, consumedOffset, commitOffset, snapshotOffset, leBytes, List.range_succ]

theorem State.handover_command (s : State) (v : Nat) :
    s.handover (wordWrite commandOffset v) = (shadowAfter s 12 (wordLanes v)).command.finish := by
  obtain ⟨command, consumed, commit, snapshot⟩ := coversAt_wordWrite v
  simp only [State.handover, State.whenCovered, consumed, commit, command, snapshot, Bool.false_eq_true, if_false,
    if_true]
  rfl

/-! ### What the command word says -/

theorem shadowAfter_commandWord {s : State} (canonical : MemoriesOk s) {v : Nat} (word : v < 2 ^ 32) :
    (shadowAfter s 12 (wordLanes v)).commandWord = v := by
  refine (Memory.number_writeLanes canonical.1 12 4 v).trans (Nat.mod_eq_of_lt ?_)
  norm_num
  exact word

theorem State.command_none {s : State} (word : s.commandWord = 0) : s.command = s := by
  simp only [State.command, word]

theorem State.command_drain {s : State} (word : s.commandWord = 1) : s.command = s.unlessRefused State.startDrain := by
  simp only [State.command, word]

theorem State.command_reload {s : State} (word : s.commandWord = 2) : s.command = s.unlessRefused State.reload := by
  simp only [State.command, word]

theorem State.command_restart {s : State} (word : s.commandWord = 3) :
    s.command = s.unlessRefused State.restartLink := by
  simp only [State.command, word]

theorem State.command_unknown {s : State} (word : 3 < s.commandWord) :
    s.command = s.raise (.commandRefused s.commandWord .unknown false) := by
  unfold State.command
  split <;> first | omega | rfl

theorem State.unlessRefused_free {s : State} (free : s.cru.proc = .none) (act : State → State) :
    s.unlessRefused act = act s := by
  simp only [State.unlessRefused, free, Procedure.refusal]

theorem State.unlessRefused_busy {s : State} {reason : RefuseReason} (busy : s.cru.proc.refusal = some reason)
    (act : State → State) : s.unlessRefused act = s.raise (.commandRefused s.commandWord reason false) := by
  simp only [State.unlessRefused, busy]

/-! ### The command as a whole -/

/-- A command word that is handed over acts, and the end of the command comes (R173, R177). -/
theorem State.handOver_command {s : State} (on : s.snoops = true) (v : Nat) :
    s.handOver (wordWrite commandOffset v) = (shadowAfter s 12 (wordLanes v)).command.finish.finish := by
  rw [State.handOver_on on, State.handover_command]

/-- A command that only raises an event ends with the reports. -/
theorem State.finish_raise {s : State} (idle : s.mpu.intake = none) (empty : s.er.queue = []) (e : Event) :
    (s.raise e).finish = (s.raise e).refreshReports :=
  State.finish_eq (by rw [State.raise, State.raiseFor_mpu, idle]) (by rw [State.raise, State.raiseFor_er, empty])

/-- A refused command: COMMAND_REFUSED and nothing else (R177). -/
theorem State.handOver_refused {s : State} {v : Nat} {reason : RefuseReason} (on : s.snoops = true)
    (idle : s.mpu.intake = none) (empty : s.er.queue = [])
    (refused : (shadowAfter s 12 (wordLanes v)).command =
      (shadowAfter s 12 (wordLanes v)).raise (.commandRefused v reason false)) :
    s.handOver (wordWrite commandOffset v) =
      ((shadowAfter s 12 (wordLanes v)).raise (.commandRefused v reason false)).refreshReports := by
  rw [State.handOver_command on, refused, State.finish_again, State.finish_raise (s := shadowAfter s 12 _) idle empty]
  · rw [State.raise, State.raiseFor_mpu]; exact idle
  · rw [State.raise, State.raiseFor_er]; exact empty

/-! ### What a handover leaves unchanged -/

theorem State.handover_shadow (s : State) (w : ControlBytes) :
    (s.handover w).cru.shadow = s.cru.shadow.writeLanes w.offset w.lanes :=
  Keeps.obey (s.copyShadow w) w .shadow rfl

/-- Bytes beyond the consumed index leave C as it is (R183). -/
theorem shadowAfter_consumed {s : State} (canonical : MemoriesOk s) {off : Nat} (beyond : 8 ≤ off) (lanes : List Lane) :
    (shadowAfter s off lanes).consumed = s.consumed := by
  have same : (s.cru.shadow.writeLanes off lanes).number consumedOffset 4 = s.cru.shadow.number consumedOffset 4 := by
    refine Memory.number_agree _ _ fun a _ high => ?_
    have below : a < 8 := high
    rw [Memory.read_writeLanes canonical.1, if_neg (by omega)]
  simp only [State.consumed, State.ringSize, shadowAfter, same]

/-- A quiet state stays quiet when bytes beyond the consumed index are written. -/
theorem Quiet.shadowAfter {s : State} (quiet : Quiet s) (canonical : MemoriesOk s) {off : Nat} (beyond : 8 ≤ off)
    (lanes : List Lane) : Quiet (shadowAfter s off lanes) where
  intake := quiet.intake
  queue := quiet.queue
  reports := by
    have level : (Machine.shadowAfter s off lanes).attnLevel = s.attnLevel := by
      rw [State.attnLevel, shadowAfter_consumed canonical beyond]
      rfl
    have class5 : (Machine.shadowAfter s off lanes).class5Now = s.class5Now := by
      rw [State.class5Now, State.recordOffered, shadowAfter_consumed canonical beyond]
      rfl
    have before := s.refreshReports_self_iff.mp quiet.reports
    rw [State.refreshReports_self_iff, level, class5]
    exact before

/-! ### The obligations -/

/-- Settles O39: the bytes are copied first, and no header word after them touches the shadow. -/
theorem controlWriteCopiesBytes : Obligations.ControlWriteCopiesBytes := by
  intro w s wf
  have run : exec (.controlWrite w) s = .next (s.handOver w) := by simp only [exec, execControlWrite, wf, if_true]
  rw [run]
  refine ⟨fun on => ⟨_, rfl, ?_⟩, fun on beyond quiet canonical => ?_, fun off => ?_⟩
  · rw [State.handOver_on on]
    exact (State.finish_same _ .shadow nofun nofun nofun).trans (s.handover_shadow w)
  · rw [State.handOver_on on, State.handover_uncovered (coversAt_beyond beyond),
      (quiet.shadowAfter canonical (by omega) w.lanes).finish_self]
  · rw [State.handOver_off off]

/-- A consumed index word, covered or not, ends with the reports (R183). -/
theorem exec_consumedIndex {s : State} (on : s.snoops = true) (idle : s.mpu.intake = none) (empty : s.er.queue = [])
    (w : WordLanes) : exec (.consumedIndex w) s = .next (shadowAfter s 4 w.toList).refreshReports := by
  show Host.Outcome.next (s.handOver ⟨consumedOffset, w.toList⟩) = _
  rw [State.handOver_on on, State.handover_consumed, State.whenCovered]
  split
  · rw [State.finish_eq (s := (shadowAfter s 4 w.toList).refreshReports) idle empty, State.refreshReports_again]
  · rw [State.finish_eq (s := shadowAfter s 4 w.toList) idle empty]

/-- Settles O42: the reports after the word has been written, and ATTN_N by the ring state. -/
theorem consumedIndexTaken : Obligations.ConsumedIndexTaken := by
  intro w s on idle empty
  have run := exec_consumedIndex on idle empty w
  refine ⟨run, fun t answer => ?_⟩
  rw [run] at answer
  cases answer
  refine ⟨rfl, rfl, fun off => ?_, fun ring named set => ?_, fun broken => ?_⟩
  all_goals
    show (shadowAfter s 4 w.toList).attnLevel = _
    simp only [State.attnLevel, State.consumed, State.ringSize, shadowAfter]
  · simp [off]
  · simp [set, named, consumedOffset]
  · simp [broken]

/-- Settles O44: NONE writes its bytes, and an unknown value is refused. -/
theorem noneAndUnknownCommand : Obligations.NoneAndUnknownCommand := by
  intro s on canonical quiet
  refine ⟨?_, fun v unknown => ?_⟩
  · have word := shadowAfter_commandWord canonical (v := 0) (by decide)
    have after := quiet.shadowAfter canonical (off := 12) (by decide) (wordLanes 0)
    show Host.Outcome.next (s.handOver (wordWrite commandOffset 0)) = _
    rw [State.handOver_command on, State.command_none word, after.finish_self, after.finish_self]
  · have word := shadowAfter_commandWord canonical v.isLt
    show Host.Outcome.next (s.handOver (wordWrite commandOffset v.toNat)) = _
    rw [State.handOver_refused on quiet.intake quiet.queue (reason := .unknown)]
    rw [State.command_unknown (by rw [word]; exact unknown), word]

/-- Settles O45: the three commands, refused alike. -/
theorem commandsRefusedInProcedure : Obligations.CommandsRefusedInProcedure := by
  intro s reason on canonical idle empty busy
  have refusal : s.cru.proc.refusal = some reason := by
    rcases busy with ⟨⟨d, drain⟩, rfl⟩ | ⟨⟨l, entry⟩, rfl⟩
    · rw [drain]
      rfl
    · rw [entry]
      rfl
  have refused {v : Nat} (word : v < 2 ^ 32) (act : State → State) : (shadowAfter s 12 (wordLanes v)).unlessRefused act =
      (shadowAfter s 12 (wordLanes v)).raise (.commandRefused v reason false) := by
    rw [State.unlessRefused_busy (s := shadowAfter s 12 (wordLanes v)) refusal, shadowAfter_commandWord canonical word]
  have word {v : Nat} (small : v < 2 ^ 32) := shadowAfter_commandWord canonical small
  refine ⟨congrArg Host.Outcome.next (State.handOver_refused on idle empty ?_),
    congrArg Host.Outcome.next (State.handOver_refused on idle empty ?_),
    congrArg Host.Outcome.next (State.handOver_refused on idle empty ?_)⟩
  · rw [State.command_drain (word (by decide)), refused (by decide)]
  · rw [State.command_reload (word (by decide)), refused (by decide)]
  · rw [State.command_restart (word (by decide)), refused (by decide)]

/-! ### Snapshot requests -/

theorem exec_snapshotRequest {s : State} {w : WordLanes} (covers : coversWord w = true) (on : s.snoops = true) :
    exec (.snapshotRequest w) s = .next (shadowAfter s 8 w.toList).requestSnapshot.finish := by
  show Host.Outcome.next (s.handOver ⟨snapshotOffset, w.toList⟩) = _
  rw [State.handOver_on on, State.handover_snapshot covers]

theorem State.requestSnapshot_busy {s : State} {reason : RefuseReason} (busy : s.cru.proc.refusal = some reason) :
    s.requestSnapshot = s.raise (.commandRefused s.snapshotWord reason true) := by
  simp only [State.requestSnapshot, busy]

theorem State.requestSnapshot_free {s : State} (free : s.cru.proc = .none) : s.requestSnapshot =
    if s.cru.settings.snapshotAddr.isNone then s.startSnapshot
    else if s.cru.snapshot.isNone then s.startSnapshot
    else { s with cru := { s.cru with snapshotRepeat := true } } := by
  simp only [State.requestSnapshot, free, Procedure.refusal]

/-- A snapshot that starts leaves its two writes behind whatever else waits in class 5 (R18, R185). -/
theorem State.startSnapshot_class5 {s : State} {a : Nat} (addr : s.cru.settings.snapshotAddr = some a) :
    ∃ before, s.startSnapshot.refreshReports.mpu.class5 = before ++ [.snapshot 0, .snapshot 1] := by
  have offered : s.startSnapshot.recordOffered = s.recordOffered := by
    rw [State.startSnapshot_some addr]
    rfl
  have joined : s.startSnapshot.mpu.class5 = s.class5Now ++ [.snapshot 0, .snapshot 1] := by
    rw [State.startSnapshot_some addr]
    rfl
  show ∃ before, s.startSnapshot.class5Now = _
  rw [State.class5Now, offered, joined]
  split
  · next record =>
    have waits : ReportWrite.event ∈ s.class5Now := by
      rw [State.class5Now, if_pos record]
      split
      · next here => simpa using here
      · simp
    exact ⟨s.class5Now, if_pos (by simp [waits])⟩
  · exact ⟨s.class5Now.filter fun w => w != .event, by simp⟩

/-- Settles O43: the refusals, the snapshot that starts, and the repeat mark. -/
theorem snapshotRequestTaken : Obligations.SnapshotRequestTaken := by
  intro w s covers on idle empty m value
  have run : exec (.snapshotRequest w) s = .next m.requestSnapshot.finish := exec_snapshotRequest covers on
  have proc : m.cru.proc = s.cru.proc := rfl
  have same : m.cru.settings.snapshotAddr = s.cru.settings.snapshotAddr := rfl
  have snapshot : m.cru.snapshot = s.cru.snapshot := rfl
  have quiet : m.mpu.intake = none ∧ m.er.queue = [] := ⟨idle, empty⟩
  have events : m.cru.events = s.cru.events := rfl
  rw [run, ← proc, ← same, ← snapshot, ← events]
  clear_value m
  obtain ⟨idle, empty⟩ := quiet
  refine ⟨fun d drain => ?_, fun l entry => ?_, fun free missing => ?_, fun a free addr none => ?_,
    fun a n free addr flight => ?_⟩
  · rw [State.requestSnapshot_busy (reason := .draining) (by rw [drain]; rfl), State.finish_raise idle empty]
    rfl
  · rw [State.requestSnapshot_busy (reason := .bypassEntry) (by rw [entry]; rfl), State.finish_raise idle empty]
    rfl
  · rw [State.requestSnapshot_free free, if_pos (by rw [missing]; rfl), State.startSnapshot_none missing,
      State.finish_raise idle empty]
    rfl
  · have start : m.requestSnapshot = m.startSnapshot := by
      rw [State.requestSnapshot_free free, if_neg (by simp [addr]), if_pos (by rw [none]; rfl)]
    have ends : m.startSnapshot.finish = m.startSnapshot.refreshReports :=
      State.finish_eq (by rw [State.startSnapshot_mpu]; exact idle) (by rw [State.startSnapshot_er]; exact empty)
    refine ⟨_, rfl, ?_⟩
    rw [start, ends]
    refine ⟨?_, State.startSnapshot_class5 addr, ?_⟩
    · rw [State.refreshReports_cru, State.startSnapshot_some addr]
    · rw [State.refreshReports_cru, State.startSnapshot_some addr]
  · rw [State.requestSnapshot_free free, if_neg (by simp [addr]), if_neg (by simp [flight]), State.finish_eq]
    · exact idle
    · exact empty

end Sys2Proof.Machine
end

