-- ==== Sys2Proof/Proofs/CommitChecks.lean ====
section
/-! PROOF. The checks of a commit (R174): each executable check is the condition the spec gives, the lowest failing slot
is named, and a commit that fails one is rejected. -/

namespace Sys2Proof.Machine

/-! ### Each check is its condition -/

theorem within_iff (lo hi v : Nat) : within lo hi v = true ↔ lo ≤ v ∧ v ≤ hi := by
  simp [within]

theorem Region.inRange_iff (r : Region) : r.inRange = true ↔ (r.enabled = true →
    r.base % 256 = 0 ∧ r.size % 256 = 0 ∧ 256 ≤ r.size ∧ (r.base + r.size < 2 ^ 40 ∨
      (r.base + r.size = 2 ^ 40 ∧ Config.regionMayEndAtTop = true))) := by
  simp only [Region.inRange, Bool.or_eq_true, Bool.not_eq_true', Bool.and_eq_true, beq_iff_eq, decide_eq_true_eq,
    and_assoc]
  cases r.enabled <;> simp

/-- Order 1 of R174. -/
theorem settingsInRange_iff (m : Memory) : settingsInRange m = true ↔ SettingsFit m := by
  have code : m.read 0x050 = 2 ↔ (m.read 0x050).toNat = 2 := by
    rw [← BitVec.toNat_inj]
    rfl
  simp only [settingsInRange, SettingsFit, Bool.and_eq_true, within_iff, Region.inRange_iff, Bool.or_eq_true,
    bne_iff_ne, ne_eq, code, Fin.forall_fin_succ, IsEmpty.forall_iff, and_true, Nat.zero_le, true_and, and_assoc,
    ← imp_iff_not_or]
  rfl

/-- Order 2 of R174. -/
theorem ringOk_iff (m : Memory) : ringOk (shadowRing m) = true ↔ RingFits m := by
  unfold RingFits
  cases shadowRing m with
  | none => simp [ringOk]
  | some r => simp [ringOk]

/-- Order 3 of R174. -/
theorem snapshotOk_iff (m : Memory) : snapshotOk (shadowSnapshot m) = true ↔ SnapshotFits m := by
  unfold SnapshotFits
  cases shadowSnapshot m with
  | none => simp [snapshotOk]
  | some a => simp [snapshotOk]

theorem Window.geometryOk_iff (w : Window) : w.geometryOk = true ↔ w.meetsCheck .geometry := by
  simp only [Window.geometryOk, Window.meetsCheck, Bool.and_eq_true, within_iff, beq_iff_eq, and_assoc]
  cases w.centre with
  | none => simp
  | some c =>
    simp only [Bool.and_eq_true, decide_eq_true_eq, Option.some.injEq, forall_eq']
    constructor
    · rintro ⟨a, b, c, d, e, f, g, h, i, j⟩
      exact ⟨a, b, c, d, e, f, g, h, by omega, by omega⟩
    · rintro ⟨a, b, c, d, e, f, g, h, i, j⟩
      exact ⟨a, b, c, d, e, f, g, h, by omega, by omega⟩

theorem Window.pitchOk_iff (w : Window) : w.pitchOk = true ↔ w.meetsCheck .pitch := by
  simp only [Window.pitchOk, Window.meetsCheck, Bool.and_eq_true, within_iff, beq_iff_eq]

theorem Window.tagPlacementOk_iff (w : Window) : w.tagPlacementOk = true ↔ w.meetsCheck .tagPlacement := by
  simp only [Window.tagPlacementOk, Window.meetsCheck, Bool.and_eq_true, within_iff, beq_iff_eq, decide_eq_true_eq,
    and_assoc, Nat.zero_le, true_and]

theorem Window.readerSetOk_iff (w : Window) : w.readerSetOk = true ↔ w.meetsCheck .readerSet := by
  simp [Window.readerSetOk, Window.meetsCheck, Window.reads]

/-! ### The lowest slot -/

theorem find_allSlots_none {p : SlotId → Bool} (none : ∀ i, p i = false) : allSlots.find? p = Option.none :=
  List.find?_eq_none.mpr fun i _ => by simp [none i]

theorem allSlots_eq : allSlots = List.finRange 8 := by decide

theorem find_allSlots_some {p : SlotId → Bool} {i : SlotId} (found : p i = true)
    (lowest : ∀ j, j < i → p j = false) : allSlots.find? p = some i := by
  rw [allSlots_eq, List.find?_eq_some_iff_getElem]
  refine ⟨found, i.val, by simp, by simp, fun j hj => ?_⟩
  have below : (⟨j, by omega⟩ : SlotId) < i := hj
  simpa using lowest _ below

/-- A slot's shadow descriptor fails a check. -/
def failsCheck (m : Memory) (reason : CommitFault) (i : SlotId) : Prop :=
  ∃ w, shadowWindow m i = some w ∧ ¬ w.meetsCheck reason

theorem firstFailing_some {m : Memory} {ok : Window → Bool} {reason : CommitFault}
    (check : ∀ w, ok w = true ↔ w.meetsCheck reason) {i : SlotId} (fails : failsCheck m reason i)
    (lowest : ∀ j, j < i → ¬ failsCheck m reason j) : firstFailing m ok = some i := by
  refine find_allSlots_some ?_ fun j below => ?_
  · obtain ⟨w, here, bad⟩ := fails
    rw [← check] at bad
    simp only [here, bad]
    rfl
  · have fits := lowest j below
    cases here : shadowWindow m j with
    | none => rfl
    | some w =>
      have good : ok w = true := (check w).mpr (Classical.not_not.mp fun bad => fits ⟨w, here, bad⟩)
      simp only [good]
      rfl

theorem firstFailing_none {m : Memory} {ok : Window → Bool} {reason : CommitFault}
    (check : ∀ w, ok w = true ↔ w.meetsCheck reason) (fits : ∀ i, ¬ failsCheck m reason i) :
    firstFailing m ok = none := by
  refine find_allSlots_none fun i => ?_
  cases here : shadowWindow m i with
  | none => rfl
  | some w =>
    have good : ok w = true := (check w).mpr (Classical.not_not.mp fun bad => fits i ⟨w, here, bad⟩)
    simp only [good]
    rfl

/-! ### Overlaps -/

/-- Two ranges that do not wrap share a byte just when each begins below the other's end (log entry 15). -/
theorem Range.meets_iff (a b : Range) : a.meets b = true ↔ Shares a b := by
  simp only [Range.meets, overlaps, Bool.and_eq_true, decide_eq_true_eq, Shares]
  constructor
  · rintro ⟨⟨⟨left, right⟩, some₁⟩, some₂⟩
    exact ⟨max a.1 b.1, by omega, by omega, by omega, by omega⟩
  · rintro ⟨x, _, _, _, _⟩
    refine ⟨⟨⟨?_, ?_⟩, ?_⟩, ?_⟩ <;> omega

theorem Shares.symm {a b : Nat × Nat} : Shares a b ↔ Shares b a := by
  constructor <;> exact fun ⟨x, h₁, h₂, h₃, h₄⟩ => ⟨x, h₃, h₄, h₁, h₂⟩

theorem Range.meets?_iff (a : Range) (b : Option Range) : a.meets? b = true ↔ ∃ x, b = some x ∧ Shares a x := by
  cases b with
  | none => simp [Range.meets?]
  | some b => simp [Range.meets?, Range.meets_iff]

theorem Range.meets?_ring (a : Range) (m : Memory) : a.meets? (shadowRingRange m) = true ↔
    ∃ r, shadowRing m = some r ∧ Shares a (r.base, 32 * r.size) := by
  rw [Range.meets?_iff, shadowRingRange]
  cases shadowRing m <;> simp

theorem Range.meets?_snapshot (a : Range) (m : Memory) : a.meets? (shadowSnapshotRange m) = true ↔
    ∃ x, shadowSnapshot m = some x ∧ Shares a (x, 512) := by
  rw [Range.meets?_iff, shadowSnapshotRange]
  cases shadowSnapshot m <;> simp

theorem Range.meets?_extent (a : Range) (w : Option Window) : a.meets? (extentOf w) = true ↔
    ∃ v, w = some v ∧ Shares a (v.base, v.extent) := by
  rw [Range.meets?_iff, extentOf]
  cases w <;> simp

theorem any_allSlots {p : SlotId → Bool} : allSlots.any p = true ↔ ∃ i, p i = true := by
  rw [allSlots_eq]
  simp

theorem State.shadowOverlaps_iff (s : State) (i : SlotId) : s.shadowOverlaps i = true ↔
    ∃ w, shadowWindow s.cru.shadow i = some w ∧
      (Shares (w.base, w.extent) s.controlRange ∨
        (∃ r, shadowRing s.cru.shadow = some r ∧ Shares (w.base, w.extent) (r.base, 32 * r.size)) ∨
        (∃ a, shadowSnapshot s.cru.shadow = some a ∧ Shares (w.base, w.extent) (a, 512)) ∨
        ∃ (j : SlotId) (v : Window), j ≠ i ∧ (shadowWindow s.cru.shadow j = some v ∨ (s.slot j).committed = some v) ∧
          Shares (w.base, w.extent) (v.base, v.extent)) := by
  cases here : shadowWindow s.cru.shadow i with
  | none => simp [State.shadowOverlaps, here, extentOf]
  | some w =>
    have extent : extentOf (some w) = some (w.base, w.extent) := rfl
    simp only [State.shadowOverlaps, here, extent, Option.some.injEq, exists_eq_left', Bool.or_eq_true,
      Range.meets_iff, Range.meets?_ring, Range.meets?_snapshot, any_allSlots, Bool.and_eq_true, bne_iff_ne, or_assoc,
      State.committedRange, Range.meets?_extent, ← exists_or, ← or_and_right, exists_and_left]

theorem State.committedOverlaps_iff (s : State) (i : SlotId) : s.committedOverlaps i = true ↔
    ∃ w, (s.slot i).committed = some w ∧
      ((∃ r, shadowRing s.cru.shadow = some r ∧ Shares (w.base, w.extent) (r.base, 32 * r.size)) ∨
        (∃ a, shadowSnapshot s.cru.shadow = some a ∧ Shares (w.base, w.extent) (a, 512)) ∨
        ∃ (j : SlotId) (v : Window), j ≠ i ∧ shadowWindow s.cru.shadow j = some v ∧
          Shares (w.base, w.extent) (v.base, v.extent)) := by
  cases here : (s.slot i).committed with
  | none => simp [State.committedOverlaps, State.committedRange, here, extentOf]
  | some w =>
    have extent : extentOf (some w) = some (w.base, w.extent) := rfl
    simp only [State.committedOverlaps, State.committedRange, here, extent, Option.some.injEq, exists_eq_left',
      Bool.or_eq_true, Range.meets?_ring, Range.meets?_snapshot, any_allSlots, Bool.and_eq_true, bne_iff_ne, or_assoc,
      Range.meets?_extent, exists_and_left]

/-- A slot takes part in an overlap by its shadow extent or by its committed one (R174, log entry 21). -/
theorem State.takesPart_iff (s : State) (i : SlotId) :
    (s.shadowOverlaps i || s.committedOverlaps i) = true ↔ TakesPart s s.cru.shadow i := by
  rw [Bool.or_eq_true, State.shadowOverlaps_iff, State.committedOverlaps_iff]
  rfl

theorem State.areaOverlaps_iff (s : State) : s.areaOverlaps = true ↔ AreasOverlap s s.cru.shadow := by
  have control : (s.pins.ctlbase.toNat * 16777216, 4096) = s.controlRange := rfl
  cases ring : shadowRing s.cru.shadow <;> cases snapshot : shadowSnapshot s.cru.shadow <;>
    simp [State.areaOverlaps, AreasOverlap, shadowRingRange, shadowSnapshotRange, ring, snapshot, Range.meets?,
      Range.meets_iff, control, Shares.symm (a := s.controlRange), or_assoc]

theorem State.overlapFault_slot {s : State} {i : SlotId} (part : TakesPart s s.cru.shadow i)
    (lowest : ∀ j, j < i → ¬ TakesPart s s.cru.shadow j) : s.overlapFault = some (.overlap, some i) := by
  have found := find_allSlots_some (p := fun i => s.shadowOverlaps i || s.committedOverlaps i) (i := i)
    ((s.takesPart_iff i).mpr part) fun j below => by
      rw [← Bool.not_eq_true, s.takesPart_iff]
      exact lowest j below
  simp only [State.overlapFault, found]

theorem State.overlapFault_area {s : State} (apart : ∀ i, ¬ TakesPart s s.cru.shadow i) :
    s.overlapFault = if s.areaOverlaps = true then some (.overlap, none) else none := by
  have found := find_allSlots_none (p := fun i => s.shadowOverlaps i || s.committedOverlaps i) fun i => by
    rw [← Bool.not_eq_true, s.takesPart_iff]
    exact apart i
  simp only [State.overlapFault, found]

/-! ### The table -/

/-- `State.commitFault` is the table of R174. -/
theorem State.commitFault_table (s : State) : CommitTable s s.cru.shadow s.commitFault := by
  have ring := ringOk_iff s.cru.shadow
  have snapshot := snapshotOk_iff s.cru.shadow
  have settings := settingsInRange_iff s.cru.shadow
  unfold CommitTable
  refine ⟨fun bad => ?_, fun fit => ?_⟩
  · rw [← settings, Bool.not_eq_true] at bad
    simp only [State.commitFault, bad, Bool.not_false, if_true]
  rw [← settings] at fit
  refine ⟨fun bad => ?_, fun fits => ?_⟩
  · rw [← ring, Bool.not_eq_true] at bad
    simp [State.commitFault, fit, bad]
  rw [← ring] at fits
  refine ⟨fun bad => ?_, fun aligned => ?_⟩
  · rw [← snapshot, Bool.not_eq_true] at bad
    simp [State.commitFault, fit, fits, bad]
  rw [← snapshot] at aligned
  refine ⟨fun i fails lowest => ?_, fun geometry => ⟨fun i fails lowest => ?_, fun pitch => ⟨fun i fails lowest => ?_,
    fun placement => ⟨fun i fails lowest => ?_, fun readers => ⟨fun i part lowest => ?_, fun apart =>
      ⟨fun meet => ?_, fun apart' => ?_⟩⟩⟩⟩⟩⟩
  · simp [State.commitFault, fit, fits, aligned, firstFailing_some Window.geometryOk_iff fails lowest]
  all_goals have geometry := firstFailing_none Window.geometryOk_iff geometry
  · simp [State.commitFault, fit, fits, aligned, geometry, firstFailing_some Window.pitchOk_iff fails lowest]
  all_goals have pitch := firstFailing_none Window.pitchOk_iff pitch
  · simp [State.commitFault, fit, fits, aligned, geometry, pitch,
      firstFailing_some Window.tagPlacementOk_iff fails lowest]
  all_goals have placement := firstFailing_none Window.tagPlacementOk_iff placement
  · simp [State.commitFault, fit, fits, aligned, geometry, pitch, placement,
      firstFailing_some Window.readerSetOk_iff fails lowest]
  all_goals
    have readers := firstFailing_none Window.readerSetOk_iff readers
    have overlap : s.commitFault = s.overlapFault := by
      simp [State.commitFault, fit, fits, aligned, geometry, pitch, placement, readers]
    rw [overlap]
  · exact State.overlapFault_slot part lowest
  · rw [State.overlapFault_area apart, if_pos (s.areaOverlaps_iff.mpr meet)]
  · rw [State.overlapFault_area apart, if_neg fun meet => apart' (s.areaOverlaps_iff.mp meet)]

theorem State.commit_rejected {s : State} {reason : CommitFault} {slot : Option SlotId}
    (fault : s.commitFault = some (reason, slot)) : s.commit = s.raise (.commitRejected reason slot) := by
  unfold State.commit
  rw [fault]

theorem State.commit_accepted {s : State} (passes : s.commitFault = none) : s.commit = s.acceptCommit := by
  unfold State.commit
  rw [passes]

theorem exec_commit {s : State} {w : WordLanes} (covers : coversWord w = true) (on : s.snoops = true) :
    exec (.commit w) s = .next (shadowAfter s 0 w.toList).commit.finish.finish := by
  show Host.Outcome.next (s.handOver ⟨commitOffset, w.toList⟩) = _
  rw [State.handOver_on on, State.handover_commit covers]

/-- Settles O40: the table, and the rejection with the reason it gives. -/
theorem commitRejected : Obligations.CommitRejected := by
  intro w s covers on idle empty
  dsimp only
  refine ⟨State.commitFault_table (shadowAfter s 0 w.toList), fun reason slot fault => ?_⟩
  rw [exec_commit covers on, State.commit_rejected fault, State.finish_again, State.finish_raise]
  · exact idle
  · exact empty
  · rw [State.raise, State.raiseFor_mpu]
    exact idle
  · rw [State.raise, State.raiseFor_er]
    exact empty

end Sys2Proof.Machine
end

