-- ==== Sys2Proof/Proofs/HeldLoad.lean ====
section
/-! SUPPORT. The mode target and the held load: what evaluating the one leaves unchanged, and what triggering, starting
and failing the other make of the Profile Unit. -/

namespace Sys2Proof.Machine

/-! ### The mode target -/

/-- Evaluating the mode target changes it, and the Event Queue and the overflow mark at most (R76, R78). -/
theorem State.evalMode_eq (s : State) (requested : Bool) : s.evalMode requested = { s with
    llc := { s.llc with modeTarget := s.modeTargetNow }
    cru := { s.cru with events := (s.evalMode requested).cru.events, overflow := (s.evalMode requested).cru.overflow } } := by
  unfold State.evalMode
  dsimp only
  split
  · rw [State.raise, State.raiseFor_eq]
  · rfl

section
variable (s : State) (r : Bool)

@[simp] theorem State.evalMode_pending : (s.evalMode r).pending = s.pending := by rw [State.evalMode_eq]
@[simp] theorem State.evalMode_pins : (s.evalMode r).pins = s.pins := by rw [State.evalMode_eq]
@[simp] theorem State.evalMode_ports : (s.evalMode r).ports = s.ports := by rw [State.evalMode_eq]
@[simp] theorem State.evalMode_mpu : (s.evalMode r).mpu = s.mpu := by rw [State.evalMode_eq]
@[simp] theorem State.evalMode_slots : (s.evalMode r).slots = s.slots := by rw [State.evalMode_eq]
@[simp] theorem State.evalMode_ssu : (s.evalMode r).ssu = s.ssu := by rw [State.evalMode_eq]
@[simp] theorem State.evalMode_llc : (s.evalMode r).llc = { s.llc with modeTarget := s.modeTargetNow } := by
  rw [State.evalMode_eq]
@[simp] theorem State.evalMode_br : (s.evalMode r).br = s.br := by rw [State.evalMode_eq]
@[simp] theorem State.evalMode_pu : (s.evalMode r).pu = s.pu := by rw [State.evalMode_eq]
@[simp] theorem State.evalMode_ls : (s.evalMode r).ls = s.ls := by rw [State.evalMode_eq]
@[simp] theorem State.evalMode_er : (s.evalMode r).er = s.er := by rw [State.evalMode_eq]
@[simp] theorem State.evalMode_free : (s.evalMode r).free = s.free := by rw [State.evalMode_eq]
@[simp] theorem State.evalMode_settings : (s.evalMode r).cru.settings = s.cru.settings := by rw [State.evalMode_eq]
@[simp] theorem State.evalMode_shadow : (s.evalMode r).cru.shadow = s.cru.shadow := by rw [State.evalMode_eq]
@[simp] theorem State.evalMode_proc : (s.evalMode r).cru.proc = s.cru.proc := by rw [State.evalMode_eq]

end

/-- With a load held the mode target is NORMAL (R76). -/
theorem State.modeTargetNow_load {s : State} {ld : Load} (held : s.pu.load = some ld) : s.modeTargetNow = .normal := by
  simp [State.modeTargetNow, held]

/-- It raises one event at most. -/
theorem State.evalMode_length (s : State) (r : Bool) :
    (s.evalMode r).cru.events.length ≤ s.cru.events.length + 1 := by
  unfold State.evalMode
  dsimp only
  split
  · exact State.raiseFor_length _ _ _
  · exact Nat.le_succ _

/-! ### The held load -/

/-- An area as a load starts in it (R109). -/
def Area.begun (x : Area) : Area := { x with state := .loading, received := noBlocks }

/-- The Profile Unit after a load has been triggered: it starts in P0, or else in P1, or waits (R109). -/
def Pu.triggered (p : Pu) (target : LensIdentity) : Pu :=
  if p.p0.state = .free then { p with p0 := p.p0.begun, load := some { Load.pendingFor target with area := some .p0 } }
  else if p.p1.state = .free then
    { p with p1 := p.p1.begun, load := some { Load.pendingFor target with area := some .p1 } }
  else { p with load := some (.pendingFor target) }

/-- The Profile Unit after a load has ended in failure or abort (R114). -/
def Pu.dropped (p : Pu) (ld : Load) : Pu :=
  match ld.area with
  | none => { p with load := none }
  | some .p0 => { p with p0 := { p.p0 with state := .free }, load := none }
  | some .p1 => { p with p1 := { p.p1 with state := .free }, load := none }

@[simp] theorem Pu.dropped_load (p : Pu) (ld : Load) : (p.dropped ld).load = none := by
  unfold Pu.dropped
  split <;> rfl

/-- A triggered load is held with its target and nothing requested. -/
theorem Pu.triggered_load (p : Pu) (target : LensIdentity) :
    ∃ area, (p.triggered target).load = some { Load.pendingFor target with area := area } := by
  unfold Pu.triggered
  split
  · exact ⟨_, rfl⟩
  · split
    · exact ⟨_, rfl⟩
    · exact ⟨none, rfl⟩

theorem State.startLoad_pu (s : State) (ld : Load) (a : AreaId) : (s.startLoad ld a).pu =
    { (s.modArea a Area.begun).pu with load := some { Load.pendingFor ld.target with area := some a } } := by
  rw [State.startLoad, State.evalMode_pu]
  rfl

theorem State.startPending_free {s : State} {ld : Load} {a : AreaId} (held : s.pu.load = some ld)
    (waits : ld.area = none) (free : s.areaIn .free = some a) : s.startPending = s.startLoad ld a := by
  simp only [State.startPending, held, waits, free]

theorem State.startPending_full {s : State} (full : s.areaIn .free = none) : s.startPending = s := by
  cases held : s.pu.load with
  | none => simp only [State.startPending, held]
  | some ld => cases area : ld.area <;> simp only [State.startPending, held, area, full]

/-- The state in which a load is pending and the mode target NORMAL. -/
theorem State.triggerLoad_eq (s : State) (target : LensIdentity) : ∃ u : State,
    s.triggerLoad target = u.startPending ∧ u.pu = { s.pu with load := some (.pendingFor target) } ∧
      u.llc.modeTarget = .normal := by
  refine ⟨(s.setLoad (some (.pendingFor target))).evalMode false, rfl, State.evalMode_pu _ _, ?_⟩
  rw [State.evalMode_llc]
  exact State.modeTargetNow_load rfl

theorem State.triggerLoad_pu (s : State) (target : LensIdentity) :
    (s.triggerLoad target).pu = s.pu.triggered target := by
  obtain ⟨u, start, pending, -⟩ := s.triggerLoad_eq target
  have held : u.pu.load = some (.pendingFor target) := by rw [pending]
  rw [start]
  by_cases free₀ : s.pu.p0.state = .free
  · have area : u.areaIn .free = some .p0 := by simp [State.areaIn, pending, free₀]
    rw [State.startPending_free held rfl area, State.startLoad_pu]
    simp [Pu.triggered, free₀, State.modArea, pending, Load.pendingFor]
  · by_cases free₁ : s.pu.p1.state = .free
    · have area : u.areaIn .free = some .p1 := by simp [State.areaIn, pending, free₀, free₁]
      rw [State.startPending_free held rfl area, State.startLoad_pu]
      simp [Pu.triggered, free₀, free₁, State.modArea, pending, Load.pendingFor]
    · have area : u.areaIn .free = none := by simp [State.areaIn, pending, free₀, free₁]
      rw [State.startPending_full area, pending]
      simp [Pu.triggered, free₀, free₁]

/-- Triggering a load sets the mode target to NORMAL (R76). -/
theorem State.triggerLoad_modeTarget (s : State) (target : LensIdentity) :
    (s.triggerLoad target).llc.modeTarget = .normal := by
  obtain ⟨u, start, -, target⟩ := s.triggerLoad_eq target
  rw [start]
  unfold State.startPending
  split
  · exact target
  · split
    · rw [State.startLoad, State.evalMode_llc]
      exact State.modeTargetNow_load rfl
    · exact target

/-- The state in which the area of a failed load is FREE and no load is held (R114). -/
def State.dropLoad (s : State) (ld : Load) : State := { s with pu := s.pu.dropped ld }

theorem State.failLoad_none {s : State} (empty : s.pu.load = none) (reason : LoadReason) (check : Option FormatCheck)
    (block : Nat) : s.failLoad reason check block = s := by
  simp only [State.failLoad, empty]

/-- A failed load: its area is FREE, PROFILE_FAILED is raised, and the mode target is evaluated (R114). -/
theorem State.failLoad_some {s : State} {ld : Load} (held : s.pu.load = some ld) (reason : LoadReason)
    (check : Option FormatCheck) (block : Nat) : s.failLoad reason check block =
      ((s.dropLoad ld).raise (.profileFailed reason ld.area (some ld.target) check ld.known (s.blocksReceived ld)
        block)).evalMode false := by
  simp only [State.failLoad, held]
  congr 2
  unfold State.dropLoad Pu.dropped
  cases ld.area with
  | none => rfl
  | some a => cases a <;> rfl

theorem State.failLoad_pu {s : State} {ld : Load} (held : s.pu.load = some ld) (reason : LoadReason)
    (check : Option FormatCheck) (block : Nat) : (s.failLoad reason check block).pu = s.pu.dropped ld := by
  rw [State.failLoad_some held, State.evalMode_pu, State.raise, State.raiseFor_pu]
  rfl

theorem State.failLoad_load (s : State) (reason : LoadReason) (check : Option FormatCheck) (block : Nat) :
    (s.failLoad reason check block).pu.load = none := by
  cases held : s.pu.load with
  | none => rw [State.failLoad_none held, held]
  | some ld => rw [State.failLoad_pu held, Pu.dropped_load]

theorem State.supersedeLoad_pu {s : State} {ld : Load} (held : s.pu.load = some ld) (target : LensIdentity) :
    (s.supersedeLoad target).pu = (s.pu.dropped ld).triggered target := by
  rw [State.supersedeLoad, State.triggerLoad_pu, State.failLoad_pu held]

/-- PROFILE_FAILED is the first event that a failed load raises. -/
theorem State.failLoad_events {s : State} {ld : Load} (held : s.pu.load = some ld) {reason : LoadReason}
    {check : Option FormatCheck} {block : Nat} (room : s.cru.events.length < 16)
    (enabled : s.cru.settings.eventDisable.getLsbD 10 = false) :
    s.cru.events ++ [⟨.profileFailed reason ld.area (some ld.target) check ld.known (s.blocksReceived ld) block,
      s.cru.overflow, none, s.clock⟩] <+: (s.failLoad reason check block).cru.events := by
  have joins := State.raiseFor_events (s := s.dropLoad ld)
    (e := .profileFailed reason ld.area (some ld.target) check ld.known (s.blocksReceived ld) block) enabled room none
  rw [State.failLoad_some held]
  exact joins ▸ (Within.evalMode ((s.dropLoad ld).raise _) false).events

end Sys2Proof.Machine
end

