-- ==== Sys2Proof/Proofs/Reload.lean ====
section
/-! PROOF. RELOAD_PROFILE (R108, R109, R115). -/

namespace Sys2Proof.Machine

theorem State.reload_unidentified {s : State} (unknown : s.llc.identified = none) :
    s.reload = s.raise (.profileFailed .link none none none none 0 0) := by
  simp only [State.reload, unknown]

theorem State.reload_triggers {s : State} {l : LensIdentity} (identified : s.llc.identified = some l)
    (empty : s.pu.load = none) : s.reload = s.triggerLoad l := by
  simp only [State.reload, identified, empty, Option.isNone_none, if_true]

theorem State.reload_supersedes {s : State} {l : LensIdentity} {old : Load} (identified : s.llc.identified = some l)
    (held : s.pu.load = some old) : s.reload = s.supersedeLoad l := by
  simp only [State.reload, identified, held, Option.isNone_some, Bool.false_eq_true, if_false]

/-- The Profile Unit after RELOAD_PROFILE: the load held before, if any, is superseded (R108, R115). -/
def Pu.reloaded (p : Pu) (target : LensIdentity) : Pu :=
  match p.load with
  | none => p.triggered target
  | some old => (p.dropped old).triggered target

theorem State.reload_pu {s : State} {l : LensIdentity} (identified : s.llc.identified = some l) :
    s.reload.pu = s.pu.reloaded l := by
  unfold Pu.reloaded
  cases held : s.pu.load with
  | none => rw [State.reload_triggers identified held, State.triggerLoad_pu]
  | some old => rw [State.reload_supersedes identified held, State.supersedeLoad_pu held]

theorem State.reload_modeTarget {s : State} {l : LensIdentity} (identified : s.llc.identified = some l) :
    s.reload.llc.modeTarget = .normal := by
  cases held : s.pu.load with
  | none => rw [State.reload_triggers identified held, State.triggerLoad_modeTarget]
  | some old => rw [State.reload_supersedes identified held, State.supersedeLoad, State.triggerLoad_modeTarget]

/-- Where the load starts: in P0 when it is FREE or held by the superseded load, or else in P1, or nowhere yet. -/
theorem Pu.reloaded_starts (p : Pu) (target : LensIdentity) :
    let holds (a : AreaId) : Prop := ∃ old, p.load = some old ∧ old.area = some a
    ∃ ld, (p.reloaded target).load = some ld ∧ ld.target = target ∧ ld.requests = [] ∧ ld.known = none ∧
      (p.p0.state = .free ∨ holds .p0 → ld.area = some .p0 ∧ (p.reloaded target).p0 = p.p0.begun ∧
        (holds .p1 → (p.reloaded target).p1 = { p.p1 with state := .free }) ∧
        (¬ holds .p1 → (p.reloaded target).p1 = p.p1)) ∧
      (¬ (p.p0.state = .free ∨ holds .p0) → p.p1.state = .free ∨ holds .p1 →
        ld.area = some .p1 ∧ (p.reloaded target).p1 = p.p1.begun ∧ (p.reloaded target).p0 = p.p0) ∧
      (¬ (p.p0.state = .free ∨ holds .p0) → ¬ (p.p1.state = .free ∨ holds .p1) →
        ld.area = none ∧ (p.reloaded target).p0 = p.p0 ∧ (p.reloaded target).p1 = p.p1) := by
  intro holds
  obtain ⟨p₀, p₁, load⟩ := p
  cases load with
  | none =>
    by_cases free₀ : p₀.state = .free <;> by_cases free₁ : p₁.state = .free <;>
      simp [holds, Pu.reloaded, Pu.triggered, free₀, free₁, Load.pendingFor]
  | some old =>
    obtain ⟨_, area, _⟩ := old
    rcases area with _ | _ | _ <;> by_cases free₀ : p₀.state = .free <;> by_cases free₁ : p₁.state = .free <;>
      simp [holds, Pu.reloaded, Pu.triggered, Pu.dropped, Area.begun, free₀, free₁, Load.pendingFor]

/-- PROFILE_FAILED of the superseded load comes first. -/
theorem State.reload_events {s : State} {l : LensIdentity} {old : Load} (identified : s.llc.identified = some l)
    (held : s.pu.load = some old) (room : s.cru.events.length < 16)
    (enabled : s.cru.settings.eventDisable.getLsbD 10 = false) :
    s.cru.events ++ [⟨.profileFailed .superseded old.area (some old.target) none old.known (s.blocksReceived old) 0,
      s.cru.overflow, none, s.clock⟩] <+: s.reload.cru.events := by
  rw [State.reload_supersedes identified held]
  exact (State.failLoad_events held room enabled).trans (Within.triggerLoad _ _).events

/-- A reload, handed over, ends with the reports. -/
theorem exec_reloadProfile {s : State} (on : s.snoops = true) (canonical : MemoriesOk s) (free : s.cru.proc = .none)
    (idle : s.mpu.intake = none) (empty : s.er.queue = []) :
    exec .reloadProfile s = .next (shadowAfter s 12 (wordLanes 2)).reload.refreshReports := by
  have word := shadowAfter_commandWord canonical (v := 2) (by decide)
  have idle' : (shadowAfter s 12 (wordLanes 2)).reload.mpu.intake = none := (Within.reload _).idle idle
  have empty' : (shadowAfter s 12 (wordLanes 2)).reload.er.queue = [] :=
    List.eq_nil_of_length_eq_zero (Nat.le_zero.mp ((Within.reload _).queue.trans (by simp [shadowAfter, empty])))
  show Host.Outcome.next (s.handOver (wordWrite commandOffset 2)) = _
  rw [State.handOver_command on, State.command_reload word, State.unlessRefused_free (s := shadowAfter s 12 (wordLanes 2)) free,
    State.finish_again idle' empty', State.finish_eq idle' empty']

/-- Settles O47: with no lens the reload fails, and with one the load is triggered. -/
theorem reloadTaken : Obligations.ReloadTaken := by
  intro s on canonical free idle empty
  rw [exec_reloadProfile on canonical free idle empty]
  refine ⟨fun unknown => ?_, fun l identified => ?_⟩
  · rw [State.reload_unidentified (s := shadowAfter s 12 (wordLanes 2)) unknown]
  · let u := shadowAfter s 12 (wordLanes 2)
    have pu : u.reload.refreshReports.pu = s.pu.reloaded l := State.reload_pu (s := u) identified
    obtain ⟨ld, held, target, requests, known, p0, p1, full⟩ := s.pu.reloaded_starts l
    refine ⟨_, ld, rfl, ?_⟩
    rw [pu]
    refine ⟨held, target, requests, known, fun none free₀ => ?_, fun none held₀ held₁ => ?_, fun _ => ⟨p0, p1, full⟩,
      fun old superseded waits held₀ held₁ => ?_, fun old superseded room enabled => ?_, ?_⟩
    · obtain ⟨area, begun, -⟩ := p0 (.inl free₀)
      exact ⟨area, by rw [begun]; rfl⟩
    · exact (full (by simp [held₀, none]) (by simp [held₁, none])).1
    · exact (full (by simp [held₀, superseded, waits]) (by simp [held₁, superseded, waits])).1
    · exact State.reload_events (s := u) identified superseded room enabled
    · exact State.reload_modeTarget (s := u) identified

end Sys2Proof.Machine
end

