-- ==== Sys2Proof/Proofs/CommitAccepted.lean ====
section
/-! PROOF. An accepted commit (R174, R175, R183): what becomes of each slot's descriptor, of the ring and of the settings,
and the event that lists the slots. -/

namespace Sys2Proof.Machine

/-! ### One slot -/

/-- A slot at which a descriptor has applied (R38, R51, R57). -/
def Slot.applied (sl : Slot) (d : Option Window) : Slot :=
  let cleared : Slot := { sl with committed := d, pendingDesc := none, collection := emptyCollection, tagDeadline := none
                                  frame := { sl.frame with presented := none } }
  match d with
  | some _ => cleared.begin
  | none => { cleared with frame := cleared.frame.freed }

/-- A slot to which a changed descriptor has been offered, and its fate (R38, R39). -/
def Slot.offered (sl : Slot) (d : Option Window) : Slot × Fate :=
  if sl.frame.appliesAtOnce then (sl.applied d, .applied)
  else ({ sl with pendingDesc := some d, frame := { sl.frame with pendingTag := none } }, .pending)

/-- A slot after a commit whose shadow descriptor for it is `d`, and the fate of that descriptor (R175, log entry 11). -/
def Slot.commits (sl : Slot) (d : Option Window) : Slot × Fate :=
  match sl.pendingDesc with
  | none => if d = sl.committed then (sl, .unchanged) else sl.offered d
  | some p =>
    if d = p then (sl, .unchanged)
    else if d = sl.committed then ({ sl with pendingDesc := none }, .withdrawn)
    else sl.offered d

theorem State.slot_modSlot (s : State) (i j : SlotId) (f : Slot → Slot) :
    (s.modSlot i f).slot j = if i = j then f (s.slot j) else s.slot j := by
  rw [State.slot, State.modSlot_slots, put_get]
  split
  · next same => rw [same]
  · rfl

theorem State.slot_modSlot_self (s : State) (i : SlotId) (f : Slot → Slot) :
    (s.modSlot i f).slot i = f (s.slot i) := by
  rw [State.slot_modSlot, if_pos rfl]

theorem State.slot_modSlot_other (s : State) {i j : SlotId} (other : j ≠ i) (f : Slot → Slot) :
    (s.modSlot i f).slot j = s.slot j := by
  rw [State.slot_modSlot, if_neg (Ne.symm other)]

theorem State.slot_ofSlots {s t : State} (same : t.slots = s.slots) (i : SlotId) : t.slot i = s.slot i := by
  rw [State.slot, same, State.slot]

/-- An applied descriptor changes its own slot and no other. -/
theorem State.applyDescriptor_slots (s : State) (i : SlotId) (d : Option Window) :
    (s.applyDescriptor i d).slots = put s.slots i ((s.slot i).applied d) := by
  unfold State.applyDescriptor Slot.applied
  cases d with
  | none =>
    simp only [State.modFrame_slots, State.mapLines_slots, State.modSlot_slots, State.slot, put_put, put_self]
  | some w =>
    simp only [State.beginGen, State.mapLines_slots, State.modSlot_slots, State.slot, put_put, put_self]

theorem State.applyDescriptor_cru (s : State) (i : SlotId) (d : Option Window) :
    (s.applyDescriptor i d).cru = s.cru := by
  cases d <;> rfl

theorem State.applyDescriptor_er (s : State) (i : SlotId) (d : Option Window) : (s.applyDescriptor i d).er = s.er := by
  cases d <;> rfl

theorem State.applyDescriptor_ssu (s : State) (i : SlotId) (d : Option Window) :
    (s.applyDescriptor i d).ssu = s.ssu := by
  cases d <;> rfl

theorem State.offerDescriptor_slots (s : State) (i : SlotId) (d : Option Window) :
    (s.offerDescriptor i d).1.slots = put s.slots i ((s.slot i).offered d).1 ∧
      (s.offerDescriptor i d).2 = ((s.slot i).offered d).2 := by
  unfold State.offerDescriptor Slot.offered
  rw [State.frame]
  split
  · exact ⟨State.applyDescriptor_slots s i d, rfl⟩
  · exact ⟨rfl, rfl⟩

theorem State.offerDescriptor_same (s : State) (i : SlotId) (d : Option Window) :
    (s.offerDescriptor i d).1.cru = s.cru ∧ (s.offerDescriptor i d).1.er = s.er ∧
      (s.offerDescriptor i d).1.ssu = s.ssu ∧ Within s (s.offerDescriptor i d).1 := by
  unfold State.offerDescriptor
  split
  · exact ⟨State.applyDescriptor_cru s i d, State.applyDescriptor_er s i d, State.applyDescriptor_ssu s i d,
      .applyDescriptor s i d⟩
  · exact ⟨rfl, rfl, rfl, .ofSlots s _⟩

theorem State.put_slot_self (s : State) (i : SlotId) : put s.slots i (s.slot i) = s.slots := put_eq_self s.slots i

/-- One slot of a commit: its own slot changes as `Slot.commits` says, and nothing of the reporting unit. -/
theorem State.commitSlot_slots (s : State) (i : SlotId) :
    (s.commitSlot i).1.slots = put s.slots i ((s.slot i).commits (shadowWindow s.cru.shadow i)).1 ∧
      (s.commitSlot i).2 = ((s.slot i).commits (shadowWindow s.cru.shadow i)).2 := by
  cases pending : (s.slot i).pendingDesc with
  | none =>
    simp only [State.commitSlot, Slot.commits, pending]
    split
    · exact ⟨(s.put_slot_self i).symm, rfl⟩
    · exact State.offerDescriptor_slots s i _
  | some p =>
    simp only [State.commitSlot, Slot.commits, pending]
    split
    · exact ⟨(s.put_slot_self i).symm, rfl⟩
    · split
      · exact ⟨rfl, rfl⟩
      · exact State.offerDescriptor_slots s i _

theorem State.commitSlot_same (s : State) (i : SlotId) :
    (s.commitSlot i).1.cru = s.cru ∧ (s.commitSlot i).1.er = s.er ∧ (s.commitSlot i).1.ssu = s.ssu ∧
      Within s (s.commitSlot i).1 := by
  unfold State.commitSlot
  dsimp only
  split
  · split
    · exact ⟨rfl, rfl, rfl, .refl s⟩
    · exact State.offerDescriptor_same s i _
  · split
    · exact ⟨rfl, rfl, rfl, .refl s⟩
    · split
      · exact ⟨rfl, rfl, rfl, .ofSlots s _⟩
      · exact State.offerDescriptor_same s i _

/-! ### All slots -/

/-- What a commit makes of a slot. -/
def State.committing (s : State) (i : SlotId) : Slot × Fate := (s.slot i).commits (shadowWindow s.cru.shadow i)

/-- The slots of a commit, one after the other: each is compared as it stood, since a slot changes no other. -/
theorem commitSlots_fold (l : List SlotId) (once : l.Nodup) (s : State) (fates : List (SlotId × Fate))
    {r : State × List (SlotId × Fate)} (run : l.foldl (fun (acc : State × List (SlotId × Fate)) i =>
      ((acc.1.commitSlot i).1, acc.2 ++ [(i, (acc.1.commitSlot i).2)])) (s, fates) = r) :
    (∀ i, r.1.slot i = if i ∈ l then (s.committing i).1 else s.slot i) ∧
      r.2 = fates ++ l.map (fun i => (i, (s.committing i).2)) ∧
      r.1.cru = s.cru ∧ r.1.er = s.er ∧ r.1.ssu = s.ssu ∧ Within s r.1 := by
  induction l generalizing s fates with
  | nil =>
    subst run
    simpa using Within.refl s
  | cons k rest ih =>
    obtain ⟨slots, fate⟩ := s.commitSlot_slots k
    obtain ⟨cru, er, ssu, kept⟩ := s.commitSlot_same k
    obtain ⟨fresh, once⟩ := List.nodup_cons.mp once
    have slot (i : SlotId) : (s.commitSlot k).1.slot i = if k = i then (s.committing k).1 else s.slot i := by
      rw [State.slot, slots, put_get]
      rfl
    have later (i : SlotId) (hi : i ∈ rest) : (s.commitSlot k).1.committing i = s.committing i := by
      have other : k ≠ i := fun same => fresh (same ▸ hi)
      rw [State.committing, slot, if_neg other, cru]
      rfl
    obtain ⟨slots', fates', cru', er', ssu', kept'⟩ :=
      ih once (s.commitSlot k).1 (fates ++ [(k, (s.commitSlot k).2)]) run
    refine ⟨fun i => ?_, ?_, cru'.trans cru, er'.trans er, ssu'.trans ssu, kept.trans kept'⟩
    · rw [slots']
      by_cases hi : i ∈ rest
      · rw [if_pos hi, later i hi, if_pos (List.mem_cons_of_mem _ hi)]
      · rw [if_neg hi, slot]
        by_cases same : k = i
        · subst same
          simp
        · simp [same, hi, Ne.symm same]
    · rw [fates', fate, List.map_congr_left fun i hi => by rw [later i hi]]
      simp [State.committing]

theorem State.commitSlots_eq (s : State) :
    (∀ i, s.commitSlots.1.slot i = (s.committing i).1) ∧
      s.commitSlots.2 = allSlots.map (fun i => (i, (s.committing i).2)) ∧
      s.commitSlots.1.cru = s.cru ∧ s.commitSlots.1.er = s.er ∧ s.commitSlots.1.ssu = s.ssu ∧
      Within s s.commitSlots.1 := by
  obtain ⟨slots, fates, rest⟩ := commitSlots_fold allSlots (by decide) s [] (r := s.commitSlots) rfl
  refine ⟨fun i => ?_, by simpa using fates, rest⟩
  have all : i ∈ allSlots := by rw [allSlots_eq]; simp
  exact (slots i).trans (if_pos all)

theorem slotsOf_map (f : Fate) (g : SlotId → Fate) (l : List SlotId) :
    slotsOf f (l.map fun i => (i, g i)) = l.filter fun i => g i == f := by
  induction l with
  | nil => rfl
  | cons i rest ih =>
    unfold slotsOf at ih ⊢
    rw [List.map_cons, List.filter_cons, List.filter_cons]
    split <;> simp_all

/-! ### The ring and the whole commit -/

theorem State.takeRing_none {s : State} (none : s.cru.settings.ring = none) (old : Option Ring) :
    (s.takeRing old).cru.ringState = .none ∧ (s.takeRing old).cru.produce = 0 := by
  simp only [State.takeRing, none, and_self]

theorem State.takeRing_some {s : State} {r : Ring} (named : s.cru.settings.ring = some r) (old : Option Ring) :
    (s.takeRing old).cru.ringState = .set ∧ (s.takeRing old).cru.produce =
      if s.cru.ringState = .set ∧ old = some r then s.cru.produce else s.cru.shadow.number 4 4 % r.size := by
  simp only [State.takeRing, named]
  split
  · next same => exact ⟨same.1, rfl⟩
  · exact ⟨rfl, rfl⟩

/-- Taking the ring changes the ring's own fields alone. -/
theorem State.takeRing_eq (s : State) (old : Option Ring) : s.takeRing old = { s with cru := { s.cru with
    ringState := (s.takeRing old).cru.ringState, produce := (s.takeRing old).cru.produce
    recordWrite := (s.takeRing old).cru.recordWrite } } := by
  unfold State.takeRing
  split
  · rfl
  · split <;> rfl

/-- The state with the committed settings in force and the ring taken (R175 steps 1 and 2). -/
def State.settled (s : State) : State :=
  ({ s with cru := { s.cru with settings := shadowSettings s.cru.shadow } }).takeRing s.cru.settings.ring

theorem State.settled_eq (s : State) : s.settled = { s with cru := { s.cru with
    settings := shadowSettings s.cru.shadow, ringState := s.settled.cru.ringState, produce := s.settled.cru.produce
    recordWrite := s.settled.cru.recordWrite } } :=
  State.takeRing_eq _ _

/-- The event of an accepted commit (R175 step 4). -/
def State.appliedEvent (s : State) : Event :=
  .commitApplied (allSlots.filter fun i => (s.committing i).2 == .applied)
    (allSlots.filter fun i => (s.committing i).2 == .pending)
    (allSlots.filter fun i => (s.committing i).2 == .withdrawn)

theorem State.acceptCommit_eq (s : State) : ∃ requested, s.acceptCommit =
    (s.settled.commitSlots.1.raise s.settled.appliedEvent).evalMode requested := by
  obtain ⟨-, fates, -⟩ := s.settled.commitSlots_eq
  have event : (.commitApplied (slotsOf .applied s.settled.commitSlots.2) (slotsOf .pending s.settled.commitSlots.2)
      (slotsOf .withdrawn s.settled.commitSlots.2) : Event) = s.settled.appliedEvent := by
    rw [fates, slotsOf_map, slotsOf_map, slotsOf_map]
    rfl
  exact ⟨s.cru.settings.modeRequest == .normal && (shadowSettings s.cru.shadow).modeRequest == .fast, by
    rw [← event]; rfl⟩

/-! ### What became of a slot -/

theorem FrameRecord.appliesAtOnce_iff (f : FrameRecord) : f.appliesAtOnce = true ↔
    (f.state = .free ∨ f.state = .complete ∨ (f.state = .armed ∧ f.held = 0 ∧ f.successor = none)) := by
  unfold FrameRecord.appliesAtOnce
  cases f.state <;> simp

/-- A descriptor that applies begins a new generation, or leaves the record FREE (R26, R38). -/
theorem Slot.applied_fields (sl : Slot) (d : Option Window) :
    (sl.applied d).committed = d ∧ (sl.applied d).pendingDesc = none ∧
      (sl.applied d).collection = Vector.replicate 64 none ∧ (sl.applied d).tagDeadline = none ∧
      (sl.applied d).frame.presented = none ∧
      (d = none → (sl.applied d).frame = { sl.frame with state := .free, presented := none }) ∧
      (d.isSome = true → (sl.applied d).frame.state = .armed ∧
        (sl.applied d).frame.generation = sl.frame.generation + 1) := by
  cases d with
  | none => exact ⟨rfl, rfl, rfl, rfl, rfl, fun _ => rfl, nofun⟩
  | some w =>
    refine ⟨rfl, rfl, rfl, rfl, ?_, nofun, fun _ => ?_⟩
    all_goals
      simp only [Slot.applied, Slot.begin, FrameRecord.begin]
      cases sl.frame.successor
    · rfl
    · rfl
    · exact ⟨rfl, rfl⟩
    · exact ⟨rfl, rfl⟩

theorem Slot.offered_now {sl : Slot} (now : sl.frame.appliesAtOnce = true) (d : Option Window) :
    sl.offered d = (sl.applied d, .applied) := by
  rw [Slot.offered, if_pos now]

theorem Slot.offered_later {sl : Slot} (later : sl.frame.appliesAtOnce = false) (d : Option Window) : sl.offered d =
    ({ sl with pendingDesc := some d, frame := { sl.frame with pendingTag := none } }, .pending) := by
  simp [Slot.offered, later]

theorem Slot.commits_free {sl : Slot} (free : sl.pendingDesc = none) (d : Option Window) :
    sl.commits d = if d = sl.committed then (sl, .unchanged) else sl.offered d := by
  simp only [Slot.commits, free]

theorem Slot.commits_pending {sl : Slot} {p : Option Window} (pending : sl.pendingDesc = some p) (d : Option Window) :
    sl.commits d = if d = p then (sl, .unchanged)
      else if d = sl.committed then ({ sl with pendingDesc := none }, .withdrawn) else sl.offered d := by
  simp only [Slot.commits, pending]

theorem Slot.offered_fate (sl : Slot) (d : Option Window) :
    (sl.offered d).2 = if sl.frame.appliesAtOnce then .applied else .pending := by
  unfold Slot.offered
  split <;> rfl

/-- The shadow descriptor counts as changed (log entry 11). -/
def Slot.changes (sl : Slot) (d : Option Window) : Bool :=
  match sl.pendingDesc with
  | none => decide (d ≠ sl.committed)
  | some p => decide (d ≠ p ∧ d ≠ sl.committed)

/-- The shadow descriptor withdraws the pending one. -/
def Slot.withdraws (sl : Slot) (d : Option Window) : Bool :=
  match sl.pendingDesc with
  | none => false
  | some p => decide (d ≠ p ∧ d = sl.committed)

/-- A descriptor that neither counts as changed nor withdraws the pending one is the pending one. -/
theorem eq_of_not_changed {d p committed : Option Window} (kept : ¬ (d ≠ p ∧ d ≠ committed))
    (stays : ¬ (d ≠ p ∧ d = committed)) : d = p :=
  Classical.not_not.mp fun other => kept ⟨other, fun same => stays ⟨other, same⟩⟩

/-- The fate of a descriptor, from whether it counts as changed and whether it withdraws the pending one. -/
theorem Slot.commits_fate (sl : Slot) (d : Option Window) : (sl.commits d).2 =
    if sl.changes d = true then (if sl.frame.appliesAtOnce = true then .applied else .pending)
    else if sl.withdraws d = true then .withdrawn else .unchanged := by
  cases pending : sl.pendingDesc with
  | none =>
    rw [Slot.commits_free pending]
    simp only [Slot.changes, Slot.withdraws, pending, decide_eq_true_eq]
    split
    · next same => simp [same]
    · simp [Slot.offered_fate]
  | some p =>
    rw [Slot.commits_pending pending]
    simp only [Slot.changes, Slot.withdraws, pending, decide_eq_true_eq]
    split
    · next same => simp [same]
    · split
      · next other same => simp [← same, other]
      · next other changed => simp [other, changed, Slot.offered_fate]

theorem Slot.withdraws_not_changes {sl : Slot} {d : Option Window} (gone : sl.withdraws d = true) :
    sl.changes d = false := by
  cases pending : sl.pendingDesc <;> simp_all [Slot.changes, Slot.withdraws]

theorem Slot.commits_applied (sl : Slot) (d : Option Window) :
    ((sl.commits d).2 == .applied) = (sl.changes d && sl.frame.appliesAtOnce) := by
  rw [Slot.commits_fate]
  cases sl.changes d <;> cases sl.frame.appliesAtOnce <;> cases sl.withdraws d <;> rfl

theorem Slot.commits_left (sl : Slot) (d : Option Window) :
    ((sl.commits d).2 == .pending) = (sl.changes d && !sl.frame.appliesAtOnce) := by
  rw [Slot.commits_fate]
  cases sl.changes d <;> cases sl.frame.appliesAtOnce <;> cases sl.withdraws d <;> rfl

theorem Slot.commits_withdrawn (sl : Slot) (d : Option Window) : ((sl.commits d).2 == .withdrawn) = sl.withdraws d := by
  rw [Slot.commits_fate]
  cases gone : sl.withdraws d with
  | true => rw [Slot.withdraws_not_changes gone]; rfl
  | false => cases sl.changes d <;> cases sl.frame.appliesAtOnce <;> rfl

/-! ### The obligation -/

/-- What an accepted commit makes of the reporting unit (R175, R183): COMMIT_APPLIED is the first event it raises. -/
theorem State.acceptCommit_cru (s : State) : s.acceptCommit.cru.shadow = s.cru.shadow ∧
    s.acceptCommit.cru.settings = shadowSettings s.cru.shadow ∧
    s.acceptCommit.cru.ringState = s.settled.cru.ringState ∧ s.acceptCommit.cru.produce = s.settled.cru.produce ∧
    (s.cru.events.length < 16 → (shadowSettings s.cru.shadow).eventDisable.getLsbD 14 = false →
      s.cru.events ++ [⟨s.settled.appliedEvent, s.cru.overflow, none, s.clock⟩] <+: s.acceptCommit.cru.events) := by
  obtain ⟨requested, accepts⟩ := s.acceptCommit_eq
  obtain ⟨-, -, cru, -, ssu, -⟩ := s.settled.commitSlots_eq
  have same := s.settled_eq
  generalize s.settled.commitSlots.1 = v at accepts cru ssu
  have kept : Within v s.acceptCommit := by
    rw [accepts]
    exact (Within.raise v _).trans (Within.evalMode _ _)
  have settings : v.cru.settings = shadowSettings s.cru.shadow := by rw [cru, same]
  have events : v.cru.events = s.cru.events := by rw [cru, same]
  have overflow : v.cru.overflow = s.cru.overflow := by rw [cru, same]
  have clock : v.clock = s.clock := by rw [State.clock, ssu, same]; rfl
  refine ⟨by rw [kept.shadow, cru, same], by rw [kept.settings, settings], by rw [kept.ringState, cru],
    by rw [kept.produce, cru], fun room enabled => ?_⟩
  have joins := State.raiseFor_events (s := v) (e := s.settled.appliedEvent) (by rw [settings]; exact enabled)
    (by rw [events]; exact room) none
  rw [events, overflow, clock] at joins
  rw [accepts, ← joins]
  exact (Within.evalMode _ _).events

/-- An accepted commit, handed over, ends with the reports. -/
theorem exec_commit_accepted {s : State} {w : WordLanes} (covers : coversWord w = true) (on : s.snoops = true)
    (idle : s.mpu.intake = none) (empty : s.er.queue = []) (passes : (shadowAfter s 0 w.toList).commitFault = none) :
    exec (.commit w) s = .next (shadowAfter s 0 w.toList).acceptCommit.refreshReports := by
  obtain ⟨requested, accepts⟩ := (shadowAfter s 0 w.toList).acceptCommit_eq
  have same := (shadowAfter s 0 w.toList).settled_eq
  obtain ⟨-, -, -, er, -, kept⟩ := (shadowAfter s 0 w.toList).settled.commitSlots_eq
  have idle' : (shadowAfter s 0 w.toList).acceptCommit.mpu.intake = none := by
    rw [accepts, State.evalMode_mpu, State.raise, State.raiseFor_mpu]
    refine kept.idle ?_
    rw [same]
    exact idle
  have empty' : (shadowAfter s 0 w.toList).acceptCommit.er.queue = [] := by
    rw [accepts, State.evalMode_er, State.raise, State.raiseFor_er, er, same]
    exact empty
  rw [exec_commit covers on, State.commit_accepted passes, State.finish_again idle' empty',
    State.finish_eq idle' empty']

/-- Settles O41: the settings and the ring, the slots one by one, and the event that lists them. -/
theorem commitAccepted : Obligations.CommitAccepted := by
  intro w s covers on idle empty passes m
  let u := shadowAfter s 0 w.toList
  refine ⟨_, exec_commit_accepted covers on idle empty passes, ?_⟩
  obtain ⟨requested, accepts⟩ := u.acceptCommit_eq
  obtain ⟨slots, -, cru, -, ssu, -⟩ := u.settled.commitSlots_eq
  have same := u.settled_eq
  have committing (i : SlotId) : u.settled.committing i = (s.slot i).commits (shadowWindow m i) := by
    rw [State.committing, same]
    rfl
  have slot (i : SlotId) : u.acceptCommit.refreshReports.slot i = ((s.slot i).commits (shadowWindow m i)).1 := by
    have kept : u.acceptCommit.slots = u.settled.commitSlots.1.slots := by
      rw [accepts, State.evalMode_slots, State.raise, State.raiseFor_slots]
    rw [State.slot, State.refreshReports_slots, kept, ← State.slot, slots, committing]
  have frame (i : SlotId) : u.acceptCommit.refreshReports.frame i =
      ((s.slot i).commits (shadowWindow m i)).1.frame := by rw [State.frame, slot]
  obtain ⟨shadow, settings, ringState, produce, events⟩ := u.acceptCommit_cru
  refine ⟨shadow, settings, fun off => ?off, fun ring named => ?ring, fun i => (s.frame i).appliesAtOnce_iff,
    ⟨fun i pending => ?pending, fun room enabled => ?event⟩, fun i free => ?free⟩
  case off =>
    rw [State.refreshReports_cru, ringState, produce]
    exact State.takeRing_none off _
  case ring =>
    rw [State.refreshReports_cru, ringState, produce]
    exact State.takeRing_some (s := { u with cru := { u.cru with settings := shadowSettings m } }) named _
  case pending =>
    obtain ⟨p, pending⟩ := Option.isSome_iff_exists.mp pending
    rw [slot, Slot.commits_pending pending]
    simp only [pending, decide_eq_true_eq, decide_eq_false_iff_not]
    refine ⟨fun kept stays => ?_, fun gone => ?_, fun changed later => ?_, fun changed now => ?_⟩
    · rw [if_pos (eq_of_not_changed kept stays)]
    · rw [if_neg gone.1, if_pos gone.2]
    · rw [if_neg changed.1, if_neg changed.2, Slot.offered_later later]
      rfl
    · obtain ⟨committed, cleared, -⟩ := (s.slot i).applied_fields (shadowWindow m i)
      rw [if_neg changed.1, if_neg changed.2, Slot.offered_now now]
      exact ⟨committed, cleared⟩
  case event =>
    have listed : u.settled.appliedEvent = .commitApplied
        (allSlots.filter fun i => (s.slot i).changes (shadowWindow m i) && (s.frame i).appliesAtOnce)
        (allSlots.filter fun i => (s.slot i).changes (shadowWindow m i) && !(s.frame i).appliesAtOnce)
        (allSlots.filter fun i => (s.slot i).withdraws (shadowWindow m i)) := by
      simp only [State.appliedEvent, committing, Slot.commits_applied, Slot.commits_left, Slot.commits_withdrawn,
        State.frame]
    have raised := events room enabled
    rw [listed] at raised
    exact raised
  case free =>
    rw [slot, frame, Slot.commits_free free]
    obtain ⟨committed, cleared, collection, deadline, presented, disabled, enabled⟩ :=
      (s.slot i).applied_fields (shadowWindow m i)
    refine ⟨fun now => ?_, fun later => ?_, fun kept => by rw [if_pos kept], fun now changed => ?_⟩
    · split
      · next kept => exact kept.symm
      · rw [Slot.offered_now now]
        exact committed
    · split
      · next kept => exact ⟨rfl, free⟩
      · rw [Slot.offered_later later]
        exact ⟨rfl, rfl⟩
    · rw [if_neg changed, Slot.offered_now now]
      exact ⟨collection, deadline, presented, disabled, enabled⟩

end Sys2Proof.Machine
end

