-- ==== Sys2Proof/Proofs/FrameSteps.lean ====
section
/-! SUPPORT. What the resolution of bands leaves unchanged: the relation `OnFrames`, one lemma per operation, and what it
makes of the record of its slot, `Slot.BandsTaken`. -/

namespace Sys2Proof.Machine

/-- From `s` to `t` only slots, class 1, the mode target, the profile areas and the Event Queue have changed. -/
structure OnFrames (s t : State) : Prop where
  within : Within s t
  ports : t.ports = s.ports
  mpu : t.mpu = { s.mpu with class1 := t.mpu.class1 }
  ssu : t.ssu = s.ssu
  ls : t.ls = s.ls
  er : t.er = s.er
  free : t.free = s.free
  cru : t.cru = { s.cru with events := t.cru.events, overflow := t.cru.overflow }

theorem OnFrames.refl (s : State) : OnFrames s s := ⟨.refl s, rfl, rfl, rfl, rfl, rfl, rfl, rfl⟩

theorem OnFrames.trans {s t u : State} (a : OnFrames s t) (b : OnFrames t u) : OnFrames s u where
  within := a.within.trans b.within
  ports := b.ports.trans a.ports
  mpu := by rw [b.mpu, a.mpu]
  ssu := b.ssu.trans a.ssu
  ls := b.ls.trans a.ls
  er := b.er.trans a.er
  free := b.free.trans a.free
  cru := by rw [b.cru, a.cru]

section
variable {s t : State} (a : OnFrames s t)
include a

theorem OnFrames.clock : t.clock = s.clock := a.within.clock
theorem OnFrames.proc : t.cru.proc = s.cru.proc := by rw [a.cru]
theorem OnFrames.settings : t.cru.settings = s.cru.settings := a.within.settings
theorem OnFrames.inDrain : t.inDrain = s.inDrain := by rw [State.inDrain, a.proc, State.inDrain]
theorem OnFrames.inBypassEntry : t.inBypassEntry = s.inBypassEntry := by
  rw [State.inBypassEntry, a.proc, State.inBypassEntry]
theorem OnFrames.line (i : LineIdx) : t.line i = s.line i := by rw [State.line, a.ls, State.line]
theorem OnFrames.intake : t.mpu.intake = s.mpu.intake := by rw [a.mpu]

end

/-! ### The operations -/

theorem OnFrames.modSlot (s : State) (i : SlotId) (f : Slot → Slot) : OnFrames s (s.modSlot i f) :=
  ⟨.modSlot s i f, rfl, rfl, rfl, rfl, rfl, rfl, rfl⟩

theorem OnFrames.modFrame (s : State) (i : SlotId) (f : FrameRecord → FrameRecord) : OnFrames s (s.modFrame i f) :=
  .modSlot s i _

theorem OnFrames.raiseFor (s : State) (x : Option (SlotId × Generation)) (e : Event) : OnFrames s (s.raiseFor x e) where
  within := .raiseFor s x e
  ports := by simp
  mpu := by simp
  ssu := by simp
  ls := by simp
  er := by simp
  free := by simp
  cru := by rw [State.raiseFor_eq]

theorem OnFrames.raiseSlot (s : State) (i : SlotId) (e : Event) : OnFrames s (s.raiseSlot i e) := .raiseFor s _ e

theorem OnFrames.raise (s : State) (e : Event) : OnFrames s (s.raise e) := .raiseFor s _ e

theorem OnFrames.raiseIf (s : State) (x : Option (SlotId × Generation)) (e : Option Event) :
    OnFrames s (s.raiseIf x e) := by
  cases e with
  | none => exact .refl s
  | some e => exact .raiseFor s x e

theorem OnFrames.joinDemanded (s : State) (i : SlotId) (g : Generation) (b : BandId) :
    OnFrames s (s.joinDemanded i g b) :=
  ⟨.joinDemanded s i g b, rfl, rfl, rfl, rfl, rfl, rfl, rfl⟩

theorem OnFrames.evalMode (s : State) (requested : Bool) : OnFrames s (s.evalMode requested) := by
  refine ⟨.evalMode s _, ?_, ?_, ?_, ?_, ?_, ?_, ?_⟩ <;> rw [State.evalMode_eq]

theorem OnFrames.modArea (s : State) (a : AreaId) (f : Area → Area) (bytes : ∀ x, (f x).bytes = x.bytes) :
    OnFrames s (s.modArea a f) := by
  cases a with
  | p0 => exact ⟨.modArea s .p0 f bytes, rfl, rfl, rfl, rfl, rfl, rfl, rfl⟩
  | p1 => exact ⟨.modArea s .p1 f bytes, rfl, rfl, rfl, rfl, rfl, rfl, rfl⟩

theorem OnFrames.startLoad (s : State) (ld : Load) (a : AreaId) : OnFrames s (s.startLoad ld a) := by
  unfold State.startLoad
  refine .trans ?_ (.evalMode _ _)
  refine (OnFrames.modArea s a (fun x => { x with state := .loading, received := noBlocks }) fun _ => rfl).trans ?_
  refine ⟨.setLoad _ _ fun _ => Load.short_some (by simp [Load.pendingFor]), rfl, rfl, rfl, rfl, rfl, rfl, rfl⟩

theorem OnFrames.startPending (s : State) : OnFrames s s.startPending := by
  cases held : s.pu.load with
  | none => simpa [State.startPending, held] using OnFrames.refl s
  | some ld =>
    unfold State.startPending
    simp only [held]
    split
    · exact .startLoad s _ _
    · exact .refl s

theorem OnFrames.releaseArea (s : State) (a : Option AreaId) : OnFrames s (s.releaseArea a) := by
  cases a with
  | none => exact .refl s
  | some a =>
    unfold State.releaseArea
    dsimp only
    have released := OnFrames.modArea s a (fun x => { x with refs := x.refs - 1 }) fun _ => rfl
    split
    · have freed := released.trans (.modArea _ a (fun x => { x with state := .free }) fun _ => rfl)
      split
      · exact freed
      · exact freed.trans (.startPending _)
    · exact released

/-! ### The slots -/

theorem State.startPending_slots (s : State) : s.startPending.slots = s.slots := by
  cases held : s.pu.load with
  | none => simp [State.startPending, held]
  | some ld =>
    unfold State.startPending
    simp only [held]
    split
    · next a _ _ => cases a <;> simp [State.startLoad, State.modArea]
    · rfl

@[simp] theorem State.modArea_slots (s : State) (a : AreaId) (f : Area → Area) : (s.modArea a f).slots = s.slots := by
  cases a <;> rfl

@[simp] theorem State.releaseArea_slots (s : State) (a : Option AreaId) : (s.releaseArea a).slots = s.slots := by
  cases a with
  | none => rfl
  | some a =>
    unfold State.releaseArea
    dsimp only
    split
    · split
      · simp
      · rw [State.startPending_slots, State.modArea_slots, State.modArea_slots]
    · simp

@[simp] theorem State.raiseIf_slots (s : State) (x : Option (SlotId × Generation)) (e : Option Event) :
    (s.raiseIf x e).slots = s.slots := by
  cases e with
  | none => rfl
  | some e => exact State.raiseFor_slots ..

theorem State.frame_modFrame_self (s : State) (i : SlotId) (f : FrameRecord → FrameRecord) :
    (s.modFrame i f).frame i = f (s.frame i) := by
  rw [State.frame, State.modFrame, State.slot_modSlot_self, State.frame]

theorem State.slot_modFrame_self (s : State) (i : SlotId) (f : FrameRecord → FrameRecord) :
    (s.modFrame i f).slot i = { s.slot i with frame := f (s.frame i) } := State.slot_modSlot_self s i _

theorem State.slot_modFrame_other (s : State) {i j : SlotId} (other : j ≠ i) (f : FrameRecord → FrameRecord) :
    (s.modFrame i f).slot j = s.slot j := State.slot_modSlot_other s other _

/-- A record that enters RESOLVED; in the bypass entry sequence one without end-of-frame is truncated (R33, R42). -/
def FrameRecord.entered (f : FrameRecord) (bypass : Bool) : FrameRecord :=
  { f with state := .resolved
           flags := { f.flags with truncated := f.flags.truncated || (bypass && !f.eofSeen) } }

theorem OnFrames.enterResolved (s : State) (i : SlotId) : OnFrames s (s.enterResolved i) :=
  (OnFrames.modFrame s i _).trans (.releaseArea _ _)

theorem State.enterResolved_slots (s : State) (i : SlotId) : (s.enterResolved i).slots =
    put s.slots i { s.slot i with frame := (s.frame i).entered s.inBypassEntry } := by
  rw [State.enterResolved, State.releaseArea_slots]
  rfl

theorem State.slot_enterResolved_self (s : State) (i : SlotId) : (s.enterResolved i).slot i =
    { s.slot i with frame := (s.frame i).entered s.inBypassEntry } := by
  rw [State.slot, State.enterResolved_slots]
  exact put_self _ _ _

theorem State.slot_enterResolved_other (s : State) {i j : SlotId} (other : j ≠ i) :
    (s.enterResolved i).slot j = s.slot j := by
  rw [State.slot, State.enterResolved_slots, put_get, if_neg (Ne.symm other), State.slot]

/-! ### One band -/

/-- What bands taken one after the other make of a slot: a record that waits for none of its bands stays; else bands gain
results, their times and deadlines stay, and with all 8 RESOLVED the record enters RESOLVED. -/
structure Slot.BandsTaken (bypass : Bool) (a b : Slot) : Prop where
  rest : b = { a with
    frame := { a.frame with
      state := b.frame.state, bands := b.frame.bands
      flags := { a.frame.flags with magClamped := b.frame.flags.magClamped, truncated := b.frame.flags.truncated } }
    reportedLate := b.reportedLate, reportedOld := b.reportedOld, reportedLost := b.reportedLost }
  times : ∀ x : BandId, (b.frame.bands[x]).time = (a.frame.bands[x]).time ∧
    (b.frame.bands[x]).deadline = (a.frame.bands[x]).deadline
  kept : ∀ x : BandId, (a.frame.bands[x]).result.isSome = true → b.frame.bands[x] = a.frame.bands[x]
  done : a.frame.state ≠ .tagged ∨ a.frame.allResolved = true → b = a
  enters : a.frame.state = .tagged → a.frame.allResolved = false →
    b.frame.state = (if b.frame.allResolved then .resolved else .tagged) ∧
    b.frame.flags.truncated = (a.frame.flags.truncated || (b.frame.allResolved && bypass && !a.frame.eofSeen))

theorem FrameRecord.allResolved_iff (f : FrameRecord) :
    f.allResolved = true ↔ ∀ b : BandId, (f.bands[b]).result.isSome = true := by
  rw [FrameRecord.allResolved, List.all_eq_true]
  constructor
  · intro all b
    exact all _ (by simp)
  · intro all x member
    obtain ⟨n, lt, rfl⟩ := List.mem_iff_getElem.mp member
    have := all ⟨n, by simpa using lt⟩
    simpa using this

theorem FrameRecord.allResolved_false_iff (f : FrameRecord) :
    f.allResolved = false ↔ ∃ b : BandId, (f.bands[b]).result = none := by
  rw [← Bool.not_eq_true, FrameRecord.allResolved_iff]
  simp

theorem Slot.BandsTaken.refl (bypass : Bool) (a : Slot) : Slot.BandsTaken bypass a a where
  rest := rfl
  times := fun _ => ⟨rfl, rfl⟩
  kept := fun _ _ => rfl
  done := fun _ => rfl
  enters := fun tagged waits => by simp [tagged, waits]

theorem Slot.BandsTaken.trans {bypass : Bool} {a b c : Slot} (h : Slot.BandsTaken bypass a b)
    (k : Slot.BandsTaken bypass b c) : Slot.BandsTaken bypass a c where
  rest := by rw [k.rest, h.rest]
  times := fun x => ⟨(k.times x).1.trans (h.times x).1, (k.times x).2.trans (h.times x).2⟩
  kept := fun x result => by
    rw [k.kept x (by rw [h.kept x result]; exact result), h.kept x result]
  done := fun stays => by
    have same := h.done stays
    rw [k.done (by rw [same]; exact stays), same]
  enters := fun tagged waits => by
    obtain ⟨state, truncated⟩ := h.enters tagged waits
    have eof : b.frame.eofSeen = a.frame.eofSeen := by rw [h.rest]
    cases all : b.frame.allResolved with
    | true =>
      have same := k.done (.inr all)
      rw [same, state, truncated, all]
      exact ⟨rfl, rfl⟩
    | false =>
      have still : b.frame.state = .tagged := by rw [state, all]; rfl
      obtain ⟨state', truncated'⟩ := k.enters still all
      refine ⟨state', ?_⟩
      rw [truncated', truncated, all, eof]
      simp

end Sys2Proof.Machine
end

