-- ==== Sys2Proof/Proofs/BandSteps.lean ====
section
/-! SUPPORT. The resolution of one band and of all bands of a generation: what becomes of the slot, and where the completion
test comes in. -/

namespace Sys2Proof.Machine

/-! ### Writing one band -/

/-- A slot with a band's result written, in RESOLVED once all 8 are (R33, R97). -/
def Slot.resolvesBand (sl : Slot) (bypass : Bool) (b : BandId) (r : BandResult) (clamped : Bool) : Slot :=
  let written := sl.writeResult b r clamped
  if written.frame.allResolved then { written with frame := written.frame.entered bypass } else written

/-- The state with a band's result written, before the completion test and the hand-on (R97). -/
def State.bandTaken (s : State) (i : SlotId) (b : BandId) (kind : ResKind) (src : Source) : State :=
  let t := s.modSlot i fun sl => sl.writeResult b (s.bandResult i kind src).1 (s.bandResult i kind src).2
  if (t.frame i).allResolved then t.enterResolved i else t

/-- A band is handed on: the demanded lines join class 1 and the report is raised (R98, R99). -/
def State.bandHanded (s : State) (i : SlotId) (g : Generation) (b : BandId) (report : Option Event) : State :=
  (s.joinDemanded i g b).raiseIf (some (i, g)) report

theorem OnFrames.bandHanded (s : State) (i : SlotId) (g : Generation) (b : BandId) (report : Option Event) :
    OnFrames s (s.bandHanded i g b report) := (OnFrames.joinDemanded s i g b).trans (.raiseIf _ _ _)

@[simp] theorem State.bandHanded_slots (s : State) (i : SlotId) (g : Generation) (b : BandId) (report : Option Event) :
    (s.bandHanded i g b report).slots = s.slots := by
  rw [State.bandHanded, State.raiseIf_slots, State.joinDemanded_slots]

theorem OnFrames.bandTaken (s : State) (i : SlotId) (b : BandId) (kind : ResKind) (src : Source) :
    OnFrames s (s.bandTaken i b kind src) := by
  unfold State.bandTaken
  dsimp only
  split
  · exact (OnFrames.modSlot s i _).trans (.enterResolved _ _)
  · exact .modSlot s i _

theorem State.slot_bandTaken_self (s : State) (i : SlotId) (b : BandId) (kind : ResKind) (src : Source) :
    (s.bandTaken i b kind src).slot i = (s.slot i).resolvesBand s.inBypassEntry b (s.bandResult i kind src).1
      (s.bandResult i kind src).2 := by
  unfold State.bandTaken Slot.resolvesBand
  have written (f : Slot → Slot) : ((s.modSlot i f).frame i) = (f (s.slot i)).frame := by
    rw [State.frame, State.slot_modSlot_self]
  simp only [written]
  split
  · rw [State.slot_enterResolved_self, State.frame, State.slot_modSlot_self]
    rfl
  · rw [State.slot_modSlot_self]

theorem State.slot_bandTaken_other (s : State) {i j : SlotId} (other : j ≠ i) (b : BandId) (kind : ResKind) (src : Source) :
    (s.bandTaken i b kind src).slot j = s.slot j := by
  unfold State.bandTaken
  dsimp only
  split
  · rw [State.slot_enterResolved_other _ other, State.slot_modSlot_other _ other]
  · rw [State.slot_modSlot_other _ other]

theorem Slot.allResolved_resolvesBand (sl : Slot) (bypass : Bool) (b : BandId) (r : BandResult) (c : Bool) :
    (sl.resolvesBand bypass b r c).frame.allResolved = (sl.writeResult b r c).frame.allResolved := by
  unfold Slot.resolvesBand
  dsimp only
  split <;> rfl

theorem State.writeBand_eq (s : State) (complete : SlotId → State → State) (i : SlotId) (b : BandId) (kind : ResKind)
    (src : Source) : s.writeBand complete i b kind src =
      (let v := s.bandTaken i b kind src
       if (v.frame i).allResolved then complete i v else v).bandHanded i (s.frame i).generation b
        ((s.slot i).report kind b src.stamp) := by
  have all : ((s.bandTaken i b kind src).frame i).allResolved =
      ((s.modSlot i fun sl => sl.writeResult b (s.bandResult i kind src).1 (s.bandResult i kind src).2).frame
        i).allResolved := by
    rw [State.frame, State.slot_bandTaken_self, Slot.allResolved_resolvesBand, State.frame, State.slot_modSlot_self]
  unfold State.writeBand State.bandHanded
  dsimp only
  rw [all]
  unfold State.bandTaken
  dsimp only
  split <;> rfl

/-! ### The slot -/

theorem Slot.bands_resolvesBand (sl : Slot) (bypass : Bool) (b x : BandId) (r : BandResult) (c : Bool) :
    (sl.resolvesBand bypass b r c).frame.bands[x] =
      if b = x then { sl.frame.bands[x] with result := some r } else sl.frame.bands[x] := by
  have bands : (sl.resolvesBand bypass b r c).frame.bands =
      put sl.frame.bands b { sl.frame.bands[b] with result := some r } := by
    unfold Slot.resolvesBand
    dsimp only
    split <;> rfl
  rw [bands, put_get]
  split
  · next same => rw [same]
  · rfl

theorem Slot.BandsTaken.resolvesBand {sl : Slot} (bypass : Bool) {b : BandId} (tagged : sl.frame.state = .tagged)
    (waits : (sl.frame.bands[b]).result = none) (r : BandResult) (c : Bool) :
    Slot.BandsTaken bypass sl (sl.resolvesBand bypass b r c) where
  rest := by
    unfold Slot.resolvesBand
    dsimp only
    split <;> rfl
  times := fun x => by
    rw [Slot.bands_resolvesBand]
    split <;> exact ⟨rfl, rfl⟩
  kept := fun x result => by
    rw [Slot.bands_resolvesBand, if_neg]
    rintro rfl
    rw [waits] at result
    cases result
  done := fun stays => by
    rcases stays with untagged | all
    · exact absurd tagged untagged
    · have := (FrameRecord.allResolved_iff _).mp all b
      rw [waits] at this
      cases this
  enters := fun _ _ => by
    rw [Slot.allResolved_resolvesBand]
    unfold Slot.resolvesBand
    dsimp only
    cases (sl.writeResult b r c).frame.allResolved with
    | true => exact ⟨rfl, by simp [FrameRecord.entered, Slot.writeResult]⟩
    | false => exact ⟨tagged, by simp [Slot.writeResult]⟩

/-- Bands of slot `i` alone have been taken from `s` to `t`, with no completion test. -/
structure BandsTaken (i : SlotId) (s t : State) : Prop where
  on : OnFrames s t
  other : ∀ j, j ≠ i → t.slot j = s.slot j
  slot : Slot.BandsTaken s.inBypassEntry (s.slot i) (t.slot i)

theorem BandsTaken.refl (i : SlotId) (s : State) : BandsTaken i s s := ⟨.refl s, fun _ _ => rfl, .refl _ _⟩

theorem BandsTaken.trans {i : SlotId} {s t u : State} (a : BandsTaken i s t) (b : BandsTaken i t u) :
    BandsTaken i s u where
  on := a.on.trans b.on
  other := fun j other => (b.other j other).trans (a.other j other)
  slot := a.slot.trans (a.on.inBypassEntry ▸ b.slot)

theorem BandsTaken.bandTaken {s : State} {i : SlotId} {b : BandId} (tagged : (s.frame i).state = .tagged)
    (waits : ((s.frame i).bands[b]).result = none) (kind : ResKind) (src : Source) :
    BandsTaken i s (s.bandTaken i b kind src) where
  on := .bandTaken s i b kind src
  other := fun _ other => State.slot_bandTaken_other s other b kind src
  slot := by
    rw [State.slot_bandTaken_self]
    exact .resolvesBand _ tagged waits _ _

theorem BandsTaken.bandHanded (s : State) (i : SlotId) (g : Generation) (b : BandId) (report : Option Event) :
    BandsTaken i s (s.bandHanded i g b report) where
  on := .bandHanded s i g b report
  other := fun j _ => State.slot_ofSlots (State.bandHanded_slots s i g b report) j
  slot := by
    rw [State.slot_ofSlots (State.bandHanded_slots s i g b report) i]
    exact .refl _ _

/-! ### One event at the bands -/

/-- The completion test that is never made. -/
def noTest : SlotId → State → State := fun _ s => s

/-- A band that an event finds WAITING in a TAGGED generation and settles is written. -/
theorem State.takeBand_settles {s : State} {i : SlotId} {b : BandId} {e : BandEvent} {kind : ResKind} {src : Source}
    (tagged : (s.frame i).state = .tagged) (waits : ((s.frame i).bands[b]).result = none)
    (chosen : s.choose i ((s.frame i).bands[b]).time e = some (kind, src)) (complete : SlotId → State → State) :
    s.takeBand complete e i (s.frame i).generation b = s.writeBand complete i b kind src := by
  unfold State.takeBand
  dsimp only
  rw [if_pos ⟨tagged, rfl, waits⟩, chosen]

/-- Else nothing happens. -/
theorem State.takeBand_idle {s : State} {i : SlotId} {g : Generation} {b : BandId}
    (idle : (s.frame i).state ≠ .tagged ∨ (s.frame i).generation ≠ g ∨ ((s.frame i).bands[b]).result.isSome = true)
    (complete : SlotId → State → State) (e : BandEvent) : s.takeBand complete e i g b = s := by
  unfold State.takeBand
  dsimp only
  rw [if_neg]
  rintro ⟨tagged, same, waits⟩
  rcases idle with h | h | h
  · exact h tagged
  · exact h same
  · rw [waits] at h
    cases h

theorem State.takeBand_unsettled {s : State} {i : SlotId} {g : Generation} {b : BandId} {e : BandEvent}
    (unsettled : s.choose i ((s.frame i).bands[b]).time e = none) (complete : SlotId → State → State) :
    s.takeBand complete e i g b = s := by
  unfold State.takeBand
  dsimp only
  rw [unsettled]
  exact ite_self s

/-- What an event can do at a band. -/
theorem State.takeBand_cases (s : State) (complete : SlotId → State → State) (e : BandEvent) (i : SlotId)
    (g : Generation) (b : BandId) :
    s.takeBand complete e i g b = s ∨ ((s.frame i).state = .tagged ∧ (s.frame i).generation = g ∧
      ((s.frame i).bands[b]).result = none ∧ ∃ kind src, s.choose i ((s.frame i).bands[b]).time e = some (kind, src) ∧
        s.takeBand complete e i g b = s.writeBand complete i b kind src) := by
  by_cases reached : (s.frame i).state = .tagged ∧ (s.frame i).generation = g ∧ ((s.frame i).bands[b]).result = none
  · obtain ⟨tagged, same, waits⟩ := reached
    cases chosen : s.choose i ((s.frame i).bands[b]).time e with
    | none => exact .inl (State.takeBand_unsettled chosen complete)
    | some r =>
      exact .inr ⟨tagged, same, waits, r.1, r.2, rfl, same ▸ State.takeBand_settles tagged waits chosen complete⟩
  · refine .inl (State.takeBand_idle ?_ complete e)
    rw [Option.isSome_iff_ne_none]
    tauto

theorem BandsTaken.writeBand {s : State} {i : SlotId} {b : BandId} (tagged : (s.frame i).state = .tagged)
    (waits : ((s.frame i).bands[b]).result = none) (kind : ResKind) (src : Source) :
    BandsTaken i s (s.writeBand noTest i b kind src) := by
  rw [State.writeBand_eq]
  refine (BandsTaken.bandTaken tagged waits kind src).trans ?_
  dsimp only [noTest]
  rw [ite_self]
  exact .bandHanded _ _ _ _ _

theorem BandsTaken.takeBand (s : State) (e : BandEvent) (i : SlotId) (g : Generation) (b : BandId) :
    BandsTaken i s (s.takeBand noTest e i g b) := by
  rcases s.takeBand_cases noTest e i g b with same | ⟨tagged, _, waits, kind, src, _, written⟩
  · rw [same]
    exact .refl i s
  · rw [written]
    exact .writeBand tagged waits kind src

theorem BandsTaken.foldl {i : SlotId} {f : State → BandId → State} (step : ∀ s b, BandsTaken i s (f s b))
    (l : List BandId) (s : State) : BandsTaken i s (l.foldl f s) := by
  induction l generalizing s with
  | nil => exact .refl i s
  | cons b l ih => exact (step s b).trans (ih _)

theorem BandsTaken.takeBands (s : State) (e : BandEvent) (i : SlotId) :
    BandsTaken i s (s.takeBands noTest e i) := .foldl (fun _ _ => .takeBand _ _ _ _ _) _ _

theorem BandsTaken.expireBand (s : State) (i : SlotId) (g : Generation) (b : BandId) :
    BandsTaken i s (s.expireBand noTest i g b) := by
  unfold State.expireBand
  split
  · exact .takeBand s _ i g b
  · exact .refl i s

end Sys2Proof.Machine
end

