-- ==== Sys2Proof/Proofs/CompletionTest.lean ====
section
/-! SUPPORT. The completion test: where it does nothing, and how the last band of a generation leads to it. -/

namespace Sys2Proof.Machine

/-! ### Where the test does nothing -/

/-- A generation that no band resolution can bring to its end: it holds a line, has ended, or is not closed with no
procedure in progress that would end or close it. -/
def State.lingers (s : State) (i : SlotId) : Prop :=
  (s.frame i).held ≠ 0 ∨ (s.frame i).ended = true ∨
    (s.inDrain = false ∧ s.inBypassEntry = false ∧ (s.frame i).closed = false)

/-- A completion test that leaves such generations. -/
def Patient (complete : SlotId → State → State) : Prop := ∀ i s, s.lingers i → complete i s = s

theorem State.tryComplete_stays {s : State} {i : SlotId}
    (stays : (s.frame i).state ≠ .resolved ∨ (s.frame i).held ≠ 0 ∨ (s.frame i).ended = true ∨
      (s.inDrain = false ∧ (s.frame i).closed = false)) (n : Nat) : s.tryComplete n i = s := by
  cases n with
  | zero => rfl
  | succ n =>
    unfold State.tryComplete
    dsimp only
    split
    · next ends =>
      obtain ⟨resolved, none_, going⟩ := ends
      rcases stays with h | h | h | ⟨off, h⟩
      · exact absurd resolved h
      · exact absurd none_ h
      · rw [going] at h
        cases h
      · rw [if_neg (by simp [off]), if_neg (by simp [h])]
    · rfl

theorem Patient.tryComplete (n : Nat) : Patient (State.tryComplete n) := fun i s stays => by
  refine State.tryComplete_stays ?_ n
  rcases stays with h | h | ⟨off, _, h⟩
  · exact .inr (.inl h)
  · exact .inr (.inr (.inl h))
  · exact .inr (.inr (.inr ⟨off, h⟩))

theorem Patient.testComplete : Patient State.testComplete := .tryComplete 4

theorem BandsTaken.lingers {i : SlotId} {s t : State} (taken : BandsTaken i s t) (stays : s.lingers i) : t.lingers i := by
  have held : (t.frame i).held = (s.frame i).held := by rw [State.frame, taken.slot.rest, State.frame]
  have ended : (t.frame i).ended = (s.frame i).ended := by rw [State.frame, taken.slot.rest, State.frame]
  have eof : (t.frame i).eofSeen = (s.frame i).eofSeen := by rw [State.frame, taken.slot.rest, State.frame]
  rcases stays with h | h | ⟨drain, bypass, h⟩
  · exact .inl (by rw [held]; exact h)
  · exact .inr (.inl (by rw [ended]; exact h))
  · refine .inr (.inr ⟨by rw [taken.on.inDrain, drain], by rw [taken.on.inBypassEntry, bypass], ?_⟩)
    have same : (t.frame i).flags.truncated = (s.frame i).flags.truncated := by
      by_cases stays : (s.slot i).frame.state ≠ .tagged ∨ (s.slot i).frame.allResolved = true
      · rw [State.frame, taken.slot.done stays, State.frame]
      · rw [not_or, not_not, Bool.not_eq_true] at stays
        rw [State.frame, (taken.slot.enters stays.1 stays.2).2, bypass]
        simp [State.frame]
    rw [FrameRecord.closed, eof, same]
    exact h

section
variable {complete : SlotId → State → State} (patient : Patient complete)
include patient

theorem State.writeBand_lingers {s : State} {i : SlotId} {b : BandId} (stays : s.lingers i)
    (tagged : (s.frame i).state = .tagged) (waits : ((s.frame i).bands[b]).result = none) (kind : ResKind) (src : Source) :
    s.writeBand complete i b kind src = s.writeBand noTest i b kind src := by
  rw [State.writeBand_eq, State.writeBand_eq]
  dsimp only [noTest]
  rw [patient i _ ((BandsTaken.bandTaken tagged waits kind src).lingers stays)]

theorem State.takeBand_lingers {s : State} {i : SlotId} (stays : s.lingers i) (e : BandEvent) (g : Generation)
    (b : BandId) : s.takeBand complete e i g b = s.takeBand noTest e i g b := by
  unfold State.takeBand
  dsimp only
  split
  · next reached =>
    cases s.choose i ((s.frame i).bands[b]).time e with
    | none => rfl
    | some r => exact State.writeBand_lingers patient stays reached.1 reached.2.2 r.1 r.2
  · rfl

theorem State.expireBand_lingers {s : State} {i : SlotId} (stays : s.lingers i) (g : Generation) (b : BandId) :
    s.expireBand complete i g b = s.expireBand noTest i g b := by
  unfold State.expireBand
  split
  · exact State.takeBand_lingers patient stays _ _ _
  · rfl

theorem State.takeBands_lingers {s : State} {i : SlotId} (stays : s.lingers i) (e : BandEvent) :
    s.takeBands complete e i = s.takeBands noTest e i := by
  have along (g : Generation) (l : List BandId) : ∀ s : State, s.lingers i →
      l.foldl (fun s b => s.takeBand complete e i g b) s = l.foldl (fun s b => s.takeBand noTest e i g b) s := by
    induction l with
    | nil => exact fun _ _ => rfl
    | cons b l ih =>
      intro s stays
      simp only [List.foldl_cons]
      rw [State.takeBand_lingers patient stays]
      exact ih _ ((BandsTaken.takeBand s e i g b).lingers stays)
  exact along _ _ s stays

theorem State.expireBands_lingers {i : SlotId} (g : Generation) (l : List BandId) : ∀ s : State, s.lingers i →
    l.foldl (fun s b => s.expireBand complete i g b) s = l.foldl (fun s b => s.expireBand noTest i g b) s := by
  induction l with
  | nil => exact fun _ _ => rfl
  | cons b l ih =>
    intro s stays
    simp only [List.foldl_cons]
    rw [State.expireBand_lingers patient stays]
    exact ih _ ((BandsTaken.expireBand s i g b).lingers stays)

end

/-! ### Events that settle every band -/

theorem mem_allBands : ∀ b : BandId, b ∈ allBands := by decide

/-- An event that gives every WAITING band a result of one kind (R88, R89). -/
def BandEvent.Settles (e : BandEvent) (k : ResKind) : Prop :=
  ∀ (s : State) (i : SlotId) (time : Option Stamp), ∃ src, s.choose i time e = some (k, src)

theorem BandEvent.forced_settles : BandEvent.forced.Settles .forced := fun _ _ _ => ⟨_, rfl⟩
theorem BandEvent.untagged_settles : BandEvent.untagged.Settles .untagged := fun _ _ _ => ⟨_, rfl⟩
theorem BandEvent.linkDown_settles : BandEvent.linkDown.Settles .lensLost := fun _ _ _ => ⟨_, rfl⟩

theorem State.bandResult_kind (s : State) (i : SlotId) (kind : ResKind) (src : Source) :
    (s.bandResult i kind src).1.kind = kind := by
  unfold State.bandResult
  split <;> rfl

/-- The WAITING bands of `a` that `b` has resolved have results of one kind. -/
def Slot.ofKind (k : ResKind) (a b : Slot) : Prop :=
  ∀ x : BandId, (a.frame.bands[x]).result = none → (b.frame.bands[x]).result = none ∨
    (b.frame.bands[x]).result.map BandResult.kind = some k

theorem Slot.ofKind.refl (k : ResKind) (a : Slot) : Slot.ofKind k a a := fun _ waits => .inl waits

theorem Slot.ofKind.trans {k : ResKind} {bypass : Bool} {a b c : Slot} (h : Slot.ofKind k a b) (h' : Slot.ofKind k b c)
    (kept : Slot.BandsTaken bypass b c) : Slot.ofKind k a c := fun x waits => by
  rcases h x waits with still | now
  · exact h' x still
  · have result : (b.frame.bands[x]).result.isSome = true := by
      cases r : (b.frame.bands[x]).result with
      | none => rw [r] at now; cases now
      | some _ => rfl
    exact .inr (by rw [kept.kept x result]; exact now)

theorem State.bands_writeBand {s : State} {i : SlotId} (b x : BandId) (kind : ResKind) (src : Source) :
    ((s.writeBand noTest i b kind src).frame i).bands[x] =
      if b = x then { (s.frame i).bands[x] with result := some (s.bandResult i kind src).1 }
      else (s.frame i).bands[x] := by
  rw [State.writeBand_eq]
  dsimp only [noTest]
  rw [ite_self, State.frame, State.slot_ofSlots (State.bandHanded_slots ..), State.slot_bandTaken_self,
    Slot.bands_resolvesBand, State.frame]

theorem Slot.ofKind.writeBand {s : State} {i : SlotId} (b : BandId) (kind : ResKind) (src : Source) :
    Slot.ofKind kind (s.slot i) ((s.writeBand noTest i b kind src).slot i) := fun x waits => by
  have := State.bands_writeBand (s := s) (i := i) b x kind src
  rw [State.frame, State.frame] at this
  rw [this]
  split
  · exact .inr (by simp [State.bandResult_kind])
  · exact .inl waits

/-- One band of a TAGGED generation at an event that settles every band. -/
theorem State.takeBand_settled {s : State} {i : SlotId} {e : BandEvent} {k : ResKind} (settles : e.Settles k)
    (tagged : (s.frame i).state = .tagged) (b : BandId) :
    ((((s.takeBand noTest e i (s.frame i).generation b).frame i).bands[b]).result.isSome = true) ∧
      Slot.ofKind k (s.slot i) ((s.takeBand noTest e i (s.frame i).generation b).slot i) := by
  cases result : ((s.frame i).bands[b]).result with
  | some r =>
    rw [State.takeBand_idle (.inr (.inr (by rw [result]; rfl))), result]
    exact ⟨rfl, .refl k _⟩
  | none =>
    obtain ⟨src, chosen⟩ := settles s i ((s.frame i).bands[b]).time
    rw [State.takeBand_settles tagged result chosen, State.bands_writeBand, if_pos rfl]
    exact ⟨rfl, .writeBand b k src⟩

theorem BandsTaken.generation {i : SlotId} {s t : State} (taken : BandsTaken i s t) :
    (t.frame i).generation = (s.frame i).generation := by
  rw [State.frame, taken.slot.rest, State.frame]

theorem BandsTaken.allResolved {i : SlotId} {s t : State} (taken : BandsTaken i s t)
    (all : (s.frame i).allResolved = true) : (t.frame i).allResolved = true := by
  rw [FrameRecord.allResolved_iff] at all ⊢
  intro b
  rw [State.frame, taken.slot.kept b (all b)]
  exact all b

/-- A TAGGED record with a band WAITING is RESOLVED exactly when all bands are. -/
theorem BandsTaken.tagged_or_resolved {i : SlotId} {s t : State} (taken : BandsTaken i s t)
    (tagged : (s.frame i).state = .tagged) (waits : (s.frame i).allResolved = false) :
    ((t.frame i).state = .tagged ∧ (t.frame i).allResolved = false) ∨
      ((t.frame i).state = .resolved ∧ (t.frame i).allResolved = true) := by
  have state := (taken.slot.enters tagged waits).1
  cases all : (t.slot i).frame.allResolved with
  | true => exact .inr ⟨by rw [State.frame, state, all]; rfl, all⟩
  | false => exact .inl ⟨by rw [State.frame, state, all]; rfl, all⟩

/-- An event that settles every band leaves none WAITING, and no result of another kind is new. -/
theorem State.takeBands_settled {s : State} {i : SlotId} {e : BandEvent} {k : ResKind} (settles : e.Settles k)
    (tagged : (s.frame i).state = .tagged) :
    ((s.takeBands noTest e i).frame i).allResolved = true ∧ Slot.ofKind k (s.slot i) ((s.takeBands noTest e i).slot i) := by
  have along (g : Generation) (l : List BandId) : ∀ s : State, (s.frame i).generation = g →
      ((s.frame i).state = .tagged ∨ (s.frame i).allResolved = true) →
      (∀ b ∈ l, (((l.foldl (fun s b => s.takeBand noTest e i g b) s).frame i).bands[b]).result.isSome = true) ∧
      Slot.ofKind k (s.slot i) ((l.foldl (fun s b => s.takeBand noTest e i g b) s).slot i) := by
    induction l with
    | nil => exact fun s _ _ => ⟨by simp, .refl k _⟩
    | cons b l ih =>
      intro s same stage
      simp only [List.foldl_cons]
      have once := BandsTaken.takeBand s e i g b
      have here : (((s.takeBand noTest e i g b).frame i).bands[b]).result.isSome = true ∧
          Slot.ofKind k (s.slot i) ((s.takeBand noTest e i g b).slot i) := by
        rcases stage with tagged | all
        · exact same ▸ State.takeBand_settled settles tagged b
        · have result := (FrameRecord.allResolved_iff _).mp all b
          rw [State.takeBand_idle (.inr (.inr result))]
          exact ⟨result, .refl k _⟩
      have stage' : ((s.takeBand noTest e i g b).frame i).state = .tagged ∨
          ((s.takeBand noTest e i g b).frame i).allResolved = true := by
        cases all : (s.frame i).allResolved with
        | true => exact .inr (once.allResolved all)
        | false =>
          rcases stage with tagged | all'
          · exact (once.tagged_or_resolved tagged all).imp And.left And.right
          · rw [all] at all'
            cases all'
      have rest := ih _ (once.generation.trans same) stage'
      have later := BandsTaken.foldl (f := fun s b => s.takeBand noTest e i g b)
        (fun s b => .takeBand s e i g b) l (s.takeBand noTest e i g b)
      refine ⟨fun x member => ?_, here.2.trans rest.2 later.slot⟩
      rcases List.mem_cons.mp member with rfl | member
      · exact (congrArg (fun b : BandRecord => b.result.isSome) (later.slot.kept x here.1)).trans here.1
      · exact rest.1 x member
  have whole := along (s.frame i).generation allBands s rfl (.inl tagged)
  exact ⟨(FrameRecord.allResolved_iff _).mpr fun b => whole.1 b (mem_allBands b), whole.2⟩

end Sys2Proof.Machine
end

