-- ==== Sys2Proof/Proofs/LastBand.lean ====
section
/-! SUPPORT. The last WAITING band of a generation: the one place where the resolution of its bands comes to the completion
test. -/

namespace Sys2Proof.Machine

/-! ### Resolutions that raise nothing -/

/-- With no load held, no load is held after and the reporting unit has not changed. -/
def Calm (s t : State) : Prop := s.pu.load = none → t.pu.load = none ∧ t.cru = s.cru

theorem Calm.refl (s : State) : Calm s s := fun free => ⟨free, rfl⟩

theorem Calm.trans {s t u : State} (a : Calm s t) (b : Calm t u) : Calm s u := fun free =>
  ⟨(b (a free).1).1, ((b (a free).1).2).trans (a free).2⟩

theorem Calm.modSlot (s : State) (i : SlotId) (f : Slot → Slot) : Calm s (s.modSlot i f) := fun free => ⟨free, rfl⟩

theorem Calm.modArea (s : State) (a : AreaId) (f : Area → Area) : Calm s (s.modArea a f) := by
  cases a <;> exact fun free => ⟨free, rfl⟩

theorem Calm.startPending (s : State) : Calm s s.startPending := fun free => by
  simp only [State.startPending, free, and_self]

theorem Calm.releaseArea (s : State) (a : Option AreaId) : Calm s (s.releaseArea a) := by
  cases a with
  | none => exact .refl s
  | some a =>
    unfold State.releaseArea
    dsimp only
    have freed (f : Area → Area) : Calm s ((s.modArea a f).modArea a fun x => { x with state := .free }) :=
      (Calm.modArea s a f).trans (.modArea _ a _)
    split
    · split
      · exact freed _
      · exact (freed _).trans (.startPending _)
    · exact .modArea s a _

theorem Calm.bandTaken (s : State) (i : SlotId) (b : BandId) (kind : ResKind) (src : Source) :
    Calm s (s.bandTaken i b kind src) := by
  unfold State.bandTaken
  dsimp only
  split
  · exact (Calm.modSlot s i _).trans ((Calm.modSlot _ i _).trans (.releaseArea _ _))
  · exact .modSlot s i _

theorem Calm.bandHanded (s : State) (i : SlotId) (g : Generation) (b : BandId) :
    Calm s (s.bandHanded i g b none) := fun free => ⟨free, rfl⟩

/-- The kinds that no report names (R99). -/
def ResKind.silent (k : ResKind) : Prop := k ≠ .late ∧ k ≠ .old ∧ k ≠ .lensLost

theorem Slot.report_silent {k : ResKind} (silent : k.silent) (sl : Slot) (b : BandId) (source : Option Stamp) :
    sl.report k b source = none := by
  obtain ⟨late, old, lost⟩ := silent
  cases k with
  | late => exact absurd rfl late
  | old => exact absurd rfl old
  | lensLost => exact absurd rfl lost
  | _ => rfl

theorem Calm.writeBand {k : ResKind} (silent : k.silent) (s : State) (i : SlotId) (b : BandId) (src : Source) :
    Calm s (s.writeBand noTest i b k src) := by
  rw [State.writeBand_eq, Slot.report_silent silent]
  dsimp only [noTest]
  rw [ite_self]
  exact (Calm.bandTaken s i b k src).trans (.bandHanded _ _ _ _)

/-! ### The last band -/

/-- The bands of a generation from which an event has nothing more to take. -/
theorem State.takeBands_idle {s : State} {i : SlotId} {g : Generation}
    (idle : (s.frame i).state ≠ .tagged ∨ (s.frame i).generation ≠ g) (complete : SlotId → State → State) (e : BandEvent)
    (l : List BandId) : l.foldl (fun s b => s.takeBand complete e i g b) s = s := by
  induction l with
  | nil => rfl
  | cons b l ih => rw [List.foldl_cons, State.takeBand_idle (idle.imp_right .inl), ih]

/-- Writing a band while another waits leads to no completion test. -/
theorem State.writeBand_other {s : State} {i : SlotId} {b c : BandId} (other : c ≠ b)
    (waits : ((s.frame i).bands[c]).result = none) (complete : SlotId → State → State) (kind : ResKind) (src : Source) :
    s.writeBand complete i b kind src = s.writeBand noTest i b kind src := by
  have unfinished : ((s.bandTaken i b kind src).frame i).allResolved = false := by
    rw [FrameRecord.allResolved_false_iff]
    refine ⟨c, ?_⟩
    rw [State.frame, State.slot_bandTaken_self, Slot.bands_resolvesBand, if_neg (Ne.symm other)]
    exact waits
  rw [State.writeBand_eq, State.writeBand_eq]
  dsimp only
  rw [unfinished]
  rfl

/-- From `s` to `v` the bands of slot `i` have all been resolved, the WAITING ones with one kind, and no completion test has
been made. -/
structure AllSettled (k : ResKind) (i : SlotId) (s v : State) : Prop where
  taken : BandsTaken i s v
  resolved : (v.frame i).state = .resolved
  all : (v.frame i).allResolved = true
  kinds : Slot.ofKind k (s.slot i) (v.slot i)
  calm : k.silent → Calm s v

theorem AllSettled.from_earlier {k : ResKind} {i : SlotId} {s t v : State} (taken : BandsTaken i s t)
    (kinds : Slot.ofKind k (s.slot i) (t.slot i)) (calm : k.silent → Calm s t) (last : AllSettled k i t v) :
    AllSettled k i s v where
  taken := taken.trans last.taken
  resolved := last.resolved
  all := last.all
  kinds := kinds.trans last.kinds last.taken.slot
  calm := fun silent => (calm silent).trans (last.calm silent)

theorem AllSettled.bandTaken {k : ResKind} {i : SlotId} {s : State} {b : BandId} (tagged : (s.frame i).state = .tagged)
    (waits : ((s.frame i).bands[b]).result = none)
    (last : ∀ c, c ≠ b → ((s.frame i).bands[c]).result.isSome = true) (src : Source) :
    AllSettled k i s (s.bandTaken i b k src) := by
  have taken := BandsTaken.bandTaken tagged waits k src
  have bands (x : BandId) : ((s.bandTaken i b k src).frame i).bands[x] =
      if b = x then { (s.frame i).bands[x] with result := some (s.bandResult i k src).1 }
      else (s.frame i).bands[x] := by
    rw [State.frame, State.slot_bandTaken_self, Slot.bands_resolvesBand, State.frame]
  have all : ((s.bandTaken i b k src).frame i).allResolved = true := by
    rw [FrameRecord.allResolved_iff]
    intro x
    rw [bands]
    split
    · rfl
    · next other => exact last x (Ne.symm other)
  refine ⟨taken, ?_, all, fun x waits => ?_, fun _ => .bandTaken s i b k src⟩
  · have unfinished : (s.frame i).allResolved = false := (FrameRecord.allResolved_false_iff _).mpr ⟨b, waits⟩
    rcases taken.tagged_or_resolved tagged unfinished with ⟨_, some_⟩ | ⟨resolved, _⟩
    · rw [all] at some_
      cases some_
    · exact resolved
  · have new := bands x
    rw [State.frame] at new
    rw [new]
    split
    · exact .inr (congrArg some (State.bandResult_kind ..))
    · exact .inl waits

/-- An event that settles every band of a TAGGED generation resolves them one after the other; the completion test comes
once, at the last one, before its hand-on. -/
theorem State.takeBands_last {s : State} {i : SlotId} {e : BandEvent} {k : ResKind} (settles : e.Settles k)
    (tagged : (s.frame i).state = .tagged) (waits : (s.frame i).allResolved = false)
    {complete : SlotId → State → State}
    (after : ∀ v, AllSettled k i s v →
      ((complete i v).frame i).state ≠ .tagged ∨ ((complete i v).frame i).generation ≠ (s.frame i).generation) :
    ∃ v b report, AllSettled k i s v ∧ (k.silent → report = none) ∧
      s.takeBands complete e i = (complete i v).bandHanded i (s.frame i).generation b report := by
  have along (l : List BandId) : ∀ u : State, (u.frame i).state = .tagged → l.Nodup →
      (u.frame i).generation = (s.frame i).generation →
      (∃ b ∈ l, ((u.frame i).bands[b]).result = none) →
      (∀ b, b ∉ l → ((u.frame i).bands[b]).result.isSome = true) →
      (∀ v, AllSettled k i u v →
        ((complete i v).frame i).state ≠ .tagged ∨ ((complete i v).frame i).generation ≠ (s.frame i).generation) →
      ∃ v b report, AllSettled k i u v ∧ (k.silent → report = none) ∧
        l.foldl (fun s' b => s'.takeBand complete e i (s.frame i).generation b) u =
          (complete i v).bandHanded i (s.frame i).generation b report := by
    induction l with
    | nil => exact fun _ _ _ _ waits => absurd waits (by simp)
    | cons x l ih =>
      intro u tagged once same waits rest after
      obtain ⟨fresh, once⟩ := List.nodup_cons.mp once
      rw [List.foldl_cons]
      cases result : ((u.frame i).bands[x]).result with
      | some r =>
        rw [State.takeBand_idle (.inr (.inr (by rw [result]; rfl)))]
        refine ih u tagged once same ?_ (fun b outside => ?_) after
        · obtain ⟨b, member, waits⟩ := waits
          rcases List.mem_cons.mp member with rfl | member
          · rw [result] at waits
            cases waits
          · exact ⟨b, member, waits⟩
        · by_cases here : b = x
          · rw [here, result]
            rfl
          · exact rest b (by simp [here, outside])
      | none =>
        obtain ⟨src, chosen⟩ := settles u i ((u.frame i).bands[x]).time
        rw [← same, State.takeBand_settles tagged result chosen]
        by_cases more : ∃ c ∈ l, ((u.frame i).bands[c]).result = none
        · obtain ⟨c, member, waits⟩ := more
          have other : c ≠ x := fun h => fresh (h ▸ member)
          rw [State.writeBand_other other waits]
          have taken := BandsTaken.writeBand tagged result k src
          have bands (y : BandId) := State.bands_writeBand (s := u) (i := i) x y k src
          have still : (((u.writeBand noTest i x k src).frame i).bands[c]).result = none := by
            rw [bands, if_neg (Ne.symm other)]
            exact waits
          have stage : ((u.writeBand noTest i x k src).frame i).state = .tagged := by
            rcases taken.tagged_or_resolved tagged ((FrameRecord.allResolved_false_iff _).mpr ⟨x, result⟩) with
              h | h
            · exact h.1
            · have := (FrameRecord.allResolved_iff _).mp h.2 c
              rw [still] at this
              cases this
          rw [same]
          obtain ⟨v, b, report, last, silent, equation⟩ := ih _ stage once (taken.generation.trans same)
            ⟨c, member, still⟩
            (fun b outside => by
              rw [bands]
              split
              · rfl
              · next apart => exact rest b (by simp [Ne.symm apart, outside]))
            (fun v last => after v (last.from_earlier taken (.writeBand x k src) fun silent => .writeBand silent u i x src))
          exact ⟨v, b, report, last.from_earlier taken (.writeBand x k src) fun silent => .writeBand silent u i x src,
            silent, equation⟩
        · have resolved (c : BandId) (other : c ≠ x) : ((u.frame i).bands[c]).result.isSome = true := by
            by_cases member : c ∈ l
            · rw [Option.isSome_iff_ne_none]
              exact fun waits => more ⟨c, member, waits⟩
            · exact rest c (by simp [other, member])
          have last := AllSettled.bandTaken (k := k) tagged result resolved src
          refine ⟨_, x, (u.slot i).report k x src.stamp, last, fun silent => Slot.report_silent silent _ _ _, ?_⟩
          rw [State.writeBand_eq]
          dsimp only
          rw [last.all, if_pos rfl]
          refine State.takeBands_idle ?_ complete e l
          rw [State.frame, State.slot_ofSlots (State.bandHanded_slots ..), ← State.frame, same]
          exact after _ last
  obtain ⟨b, first⟩ := (FrameRecord.allResolved_false_iff _).mp waits
  exact along allBands s tagged (by decide) rfl ⟨b, mem_allBands b, first⟩
    (fun c outside => absurd (mem_allBands c) outside) after

section
variable {k : ResKind} {i : SlotId} {s v : State} (settled : AllSettled k i s v)
include settled

theorem AllSettled.frame : v.frame i = { s.frame i with
    state := .resolved, bands := (v.frame i).bands
    flags := { (s.frame i).flags with
      magClamped := (v.frame i).flags.magClamped, truncated := (v.frame i).flags.truncated } } := by
  have rest := congrArg Slot.frame settled.taken.slot.rest
  dsimp only at rest
  rw [← State.frame, ← State.frame, settled.resolved] at rest
  exact rest

theorem AllSettled.truncated (tagged : (s.frame i).state = .tagged) (waits : (s.frame i).allResolved = false) :
    (v.frame i).flags.truncated = ((s.frame i).flags.truncated || (s.inBypassEntry && !(s.frame i).eofSeen)) := by
  have truncated := (settled.taken.slot.enters tagged waits).2
  rw [← State.frame, ← State.frame, settled.all, Bool.true_and] at truncated
  exact truncated

/-- A closed generation stays closed; in the bypass entry sequence any is (R42). -/
theorem AllSettled.closed (tagged : (s.frame i).state = .tagged) (waits : (s.frame i).allResolved = false)
    (closed : (s.frame i).closed = true ∨ s.inBypassEntry = true) : (v.frame i).closed = true := by
  have eof : (v.frame i).eofSeen = (s.frame i).eofSeen := by rw [settled.frame]
  rw [FrameRecord.closed, eof, settled.truncated tagged waits]
  rw [FrameRecord.closed] at closed
  cases eof' : (s.frame i).eofSeen with
  | true => rfl
  | false => simpa [eof'] using closed

end

theorem Calm.takeBands {e : BandEvent} {k : ResKind} (settles : e.Settles k) (silent : k.silent) (s : State) (i : SlotId) :
    Calm s (s.takeBands noTest e i) := by
  have along (g : Generation) (l : List BandId) : ∀ u : State,
      Calm u (l.foldl (fun u b => u.takeBand noTest e i g b) u) := by
    induction l with
    | nil => exact fun u => .refl u
    | cons b l ih =>
      intro u
      refine Calm.trans ?_ (ih _)
      dsimp only
      rcases u.takeBand_cases noTest e i g b with same | ⟨_, _, _, kind, src, chosen, written⟩
      · rw [same]
        exact .refl u
      · obtain ⟨src', chosen'⟩ := settles u i ((u.frame i).bands[b]).time
        rw [chosen'] at chosen
        cases chosen
        rw [written]
        exact .writeBand silent u i b _
  exact along _ _ s

/-- An event that settles every band leaves a generation that lingers RESOLVED. -/
theorem State.takeBands_settles {s : State} {i : SlotId} {e : BandEvent} {k : ResKind} (settles : e.Settles k)
    (tagged : (s.frame i).state = .tagged) (waits : (s.frame i).allResolved = false)
    {complete : SlotId → State → State} (patient : Patient complete) (stays : s.lingers i) :
    AllSettled k i s (s.takeBands complete e i) := by
  rw [State.takeBands_lingers patient stays]
  have taken := BandsTaken.takeBands s e i
  obtain ⟨all, kinds⟩ := State.takeBands_settled settles tagged
  refine ⟨taken, ?_, all, kinds, fun silent => .takeBands settles silent s i⟩
  rcases taken.tagged_or_resolved tagged waits with h | h
  · rw [all] at h
    cases h.2
  · exact h.1

end Sys2Proof.Machine
end

