-- ==== Sys2Proof/Proofs/GenerationSteps.lean ====
section
/-! SUPPORT. The steps a generation is taken through, and a principle for relations that each of them respects: what holds of
the steps holds of the completion test and of everything that leads to it. -/

namespace Sys2Proof.Machine

/-! ### The entry into TAGGED -/

/-- A generation that has entered TAGGED captures the profile area, and its lines take their bands (R31, R106, R126). -/
def State.caught (s : State) (i : SlotId) : State := (s.capture i).linesTakeBand i

/-- A slot whose generation enters TAGGED with a tag (R31, R57). -/
def Slot.tagged (sl : Slot) (tag : FrameTag) : Slot :=
  { sl with tagDeadline := none, frame := { sl.frame with state := .tagged, tagSequence := some tag.sequence } }

/-- The exposure start of a tag that is applied, with the state it leaves (R52, R53). -/
def State.started (s : State) (i : SlotId) (tag : FrameTag) (decodeStamp : Stamp) : Stamp × State :=
  (s.modSlot i fun sl => sl.tagged tag).exposureStart i tag decodeStamp (s.heightOf i)

/-- The current generation enters TAGGED with a tag, before an event reaches its bands (R31, R52–R56). -/
def State.entersTagged (s : State) (i : SlotId) (tag : FrameTag) (decodeStamp : Stamp) : State :=
  let r := s.started i tag decodeStamp
  let time := bandTime tag r.1 (s.heightOf i)
  State.caught (r.2.modFrame i fun f =>
    f.withTimes time fun b => stampAdd (time b) r.2.cru.settings.resolveDeadline) i

/-- A record that enters TAGGED without a tag, but for the profile area it captures (R32). -/
def FrameRecord.untagged (f : FrameRecord) (stamp : Stamp) : FrameRecord :=
  { f with state := .tagged }.withTimes (fun _ => stamp) (fun _ => stamp)

/-- The slot's generation enters TAGGED without a tag (R32, R57). -/
def State.untaggedAt (s : State) (i : SlotId) (stamp : Stamp) : State :=
  s.modSlot i fun sl => { sl with tagDeadline := none, frame := sl.frame.untagged stamp }

/-- TAG_MISSING of a record (R32). -/
def FrameRecord.missingEvent (f : FrameRecord) : Event := .tagMissing f.firstIngest f.beats f.eofSeen

/-- The current generation enters TAGGED without a tag, before an event reaches its bands (R29, R32). -/
def State.entersUntagged (s : State) (i : SlotId) (stamp : Stamp) (missing : Bool) : State :=
  let u := s.untaggedAt i stamp
  State.caught (if missing then u.raiseSlot i (u.frame i).missingEvent else u) i

theorem State.applyTag_eq (s : State) (complete : SlotId → State → State) (i : SlotId) (tag : FrameTag) (d : Stamp) :
    s.applyTag complete i tag d =
      allBands.foldl (fun u b => u.expireBand complete i ((s.entersTagged i tag d).frame i).generation b)
        ((s.entersTagged i tag d).takeBands complete .attempt i) := rfl

theorem State.enterUntagged_eq (s : State) (complete : SlotId → State → State) (i : SlotId) (stamp : Stamp)
    (missing : Bool) : s.enterUntagged complete i stamp missing =
      (s.entersUntagged i stamp missing).takeBands complete .untagged i := rfl

/-! ### Relations that the steps respect -/

/-- A drain counts a generation that ends (R193, R194). -/
def State.countEnded (s : State) : State := s.modDrain fun d => { d with generations := d.generations + 1 }

/-- The report of a band is not TAG_MISSING (R32, R99). -/
theorem Slot.report_ne_tagMissing (sl : Slot) (kind : ResKind) (b : BandId) (source : Option Stamp) (first : Option Stamp)
    (beats : Nat) (eof : Bool) : sl.report kind b source ≠ some (.tagMissing first beats eof) := by
  cases kind <;> simp only [Slot.report, ne_eq, reduceCtorEq, not_false_eq_true]
  all_goals split <;> simp

/-- A relation between states that each step of a generation of slot `i` respects. -/
structure Respected (i : SlotId) (R : State → State → Prop) : Prop where
  refl : ∀ s, R s s
  trans : ∀ {s t u}, R s t → R t u → R s u
  bandTaken : ∀ {s : State} {b : BandId} (kind : ResKind) (src : Source), (s.frame i).state = .tagged →
    ((s.frame i).bands[b]).result = none → R s (s.bandTaken i b kind src)
  bandHanded : ∀ (s : State) (g : Generation) (b : BandId) (report : Option Event),
    (∀ first beats eof, report ≠ some (.tagMissing first beats eof)) → R s (s.bandHanded i g b report)
  tagged : ∀ (s : State) (tag : FrameTag) (d : Stamp), R s (s.entersTagged i tag d)
  untagged : ∀ (s : State) (stamp : Stamp) (missing : Bool), (missing = true → s.inDrain = false) →
    R s (s.entersUntagged i stamp missing)
  begins : ∀ s : State, R s (s.beginGen i)
  armed : ∀ s : State, s.inDrain = false → (s.frame i).successor.isSome = true → R s ((s.beginGen i).setTagDeadline i)
  applies : ∀ s : State, s.inDrain = false → R s (s.applyPending i)
  completes : ∀ s : State, s.inDrain = false →
    R s ((s.markComplete i).raiseSlot i ((s.markComplete i).frame i).doneEvent)
  counted : ∀ s : State, R s s.countEnded
  ended : ∀ s : State, R s (s.modFrame i fun f => { f with ended := true })

section
variable {i : SlotId} {R : State → State → Prop} (r : Respected i R)
include r

theorem Respected.foldl {f : State → BandId → State} (step : ∀ s b, R s (f s b)) (l : List BandId) (s : State) :
    R s (l.foldl f s) := by
  induction l generalizing s with
  | nil => exact r.refl s
  | cons b l ih => exact r.trans (step s b) (ih _)

section
variable {complete : SlotId → State → State} (test : ∀ s, R s (complete i s))
include test

theorem Respected.takeBand (s : State) (e : BandEvent) (g : Generation) (b : BandId) :
    R s (s.takeBand complete e i g b) := by
  rcases s.takeBand_cases complete e i g b with same | ⟨tagged, _, waits, kind, src, _, written⟩
  · rw [same]
    exact r.refl s
  · rw [written, State.writeBand_eq]
    refine r.trans (r.bandTaken kind src tagged waits) (r.trans ?_ (r.bandHanded _ _ _ _ (Slot.report_ne_tagMissing _ _ _ _)))
    dsimp only
    split
    · exact test _
    · exact r.refl _

theorem Respected.takeBands (s : State) (e : BandEvent) : R s (s.takeBands complete e i) :=
  r.foldl (fun s b => r.takeBand test s e _ b) _ _

theorem Respected.expireBand (s : State) (g : Generation) (b : BandId) : R s (s.expireBand complete i g b) := by
  unfold State.expireBand
  split
  · exact r.takeBand test s _ g b
  · exact r.refl s

theorem Respected.applyTag (s : State) (tag : FrameTag) (d : Stamp) : R s (s.applyTag complete i tag d) := by
  rw [State.applyTag_eq]
  exact r.trans (r.tagged s tag d) (r.trans (r.takeBands test _ _) (r.foldl (fun s b => r.expireBand test s _ b) _ _))

theorem Respected.enterUntagged (s : State) (stamp : Stamp) {missing : Bool} (off : missing = true → s.inDrain = false) :
    R s (s.enterUntagged complete i stamp missing) := by
  rw [State.enterUntagged_eq]
  exact r.trans (r.untagged s stamp missing off) (r.takeBands test _ _)

theorem Respected.expireTag (s : State) (off : s.inDrain = false) : R s (s.expireTag complete i) := by
  unfold State.expireTag
  split
  · split
    · exact r.enterUntagged test s _ fun _ => off
    · exact r.refl s
  · exact r.refl s

theorem Respected.completeGen (s : State) (off : s.inDrain = false) : R s (s.completeGen complete i) := by
  unfold State.completeGen
  dsimp only
  refine r.trans (r.completes s off) ?_
  have off' : ((s.markComplete i).raiseSlot i ((s.markComplete i).frame i).doneEvent).inDrain = false := by
    rw [(OnFrames.raiseSlot _ _ _).inDrain]
    exact off
  revert off'
  generalize (s.markComplete i).raiseSlot i ((s.markComplete i).frame i).doneEvent = t
  intro off
  unfold State.afterComplete
  dsimp only
  cases (t.frame i).pendingTag with
  | some p => exact r.trans (r.begins t) (r.applyTag test _ _ _)
  | none =>
    cases successor : (t.frame i).successor with
    | none => exact r.applies t off
    | some n =>
      dsimp only
      split
      · exact r.trans (r.begins t) (r.enterUntagged test _ _ fun h => absurd h (by decide))
      · exact r.trans (r.armed t off (by rw [successor]; rfl)) (r.expireTag test _ off)

theorem Respected.endGen (s : State) : R s (s.endGen complete i) := by
  unfold State.endGen
  dsimp only
  refine r.trans (r.counted s) ?_
  unfold State.countEnded
  split
  · exact r.ended _
  · exact r.trans (r.begins _) (r.enterUntagged test _ _ fun h => absurd h (by decide))

end

theorem Respected.tryComplete (n : Nat) : ∀ s, R s (State.tryComplete n i s) := by
  induction n with
  | zero => exact r.refl
  | succ n ih =>
    intro s
    unfold State.tryComplete
    dsimp only
    split
    · split
      · exact r.endGen ih s
      · next off =>
        split
        · exact r.completeGen ih s (by simpa using off)
        · exact r.refl s
    · exact r.refl s

theorem Respected.testComplete (s : State) : R s (State.testComplete i s) := r.tryComplete 4 s

end

end Sys2Proof.Machine
end

