-- ==== Sys2Proof/Proofs/SlotFrames.lean ====
section
/-! SUPPORT. The relation `OnSlot`: an operation of the frame table on one slot, with everything it leaves unchanged. -/

namespace Sys2Proof.Machine

/-- An operation of the frame table on slot `i`, from `s` to `t`. -/
structure OnSlot (i : SlotId) (s t : State) : Prop where
  within : Within s t
  other : ∀ j, j ≠ i → t.slot j = s.slot j
  ports : t.ports = s.ports
  er : t.er = s.er
  claims : t.ls.claims = s.ls.claims
  free : t.free = s.free
  mpu : t.mpu = { s.mpu with class1 := t.mpu.class1, intake := t.mpu.intake, outstanding := t.mpu.outstanding }
  drain : ∀ d, s.cru.proc = .drain d → ∃ n, t.cru.proc = .drain { d with generations := n }

theorem OnSlot.refl (i : SlotId) (s : State) : OnSlot i s s :=
  ⟨.refl s, fun _ _ => rfl, rfl, rfl, rfl, rfl, rfl, fun d h => ⟨d.generations, h⟩⟩

theorem OnSlot.trans {i : SlotId} {s t u : State} (a : OnSlot i s t) (b : OnSlot i t u) : OnSlot i s u where
  within := a.within.trans b.within
  other := fun j other => (b.other j other).trans (a.other j other)
  ports := b.ports.trans a.ports
  er := b.er.trans a.er
  claims := b.claims.trans a.claims
  free := b.free.trans a.free
  mpu := by rw [b.mpu, a.mpu]
  drain := fun d h => by
    obtain ⟨n, h'⟩ := a.drain d h
    obtain ⟨m, h''⟩ := b.drain _ h'
    exact ⟨m, h''⟩

/-- What changes the slots at `i` alone, class 1, the mode target, the profile areas and the events. -/
theorem OnFrames.onSlot {i : SlotId} {s t : State} (on : OnFrames s t) (other : ∀ j, j ≠ i → t.slot j = s.slot j) :
    OnSlot i s t where
  within := on.within
  other := other
  ports := on.ports
  er := on.er
  claims := by rw [on.ls]
  free := on.free
  mpu := by rw [on.mpu]
  drain := fun d h => ⟨d.generations, on.proc.trans h⟩

theorem BandsTaken.onSlot {i : SlotId} {s t : State} (taken : BandsTaken i s t) : OnSlot i s t :=
  taken.on.onSlot taken.other

theorem OnSlot.modSlot (s : State) (i : SlotId) (f : Slot → Slot) : OnSlot i s (s.modSlot i f) :=
  (OnFrames.modSlot s i f).onSlot fun _ other => State.slot_modSlot_other s other f

theorem OnSlot.modFrame (s : State) (i : SlotId) (f : FrameRecord → FrameRecord) : OnSlot i s (s.modFrame i f) :=
  .modSlot s i _

theorem OnSlot.raiseFor (s : State) (i : SlotId) (x : Option (SlotId × Generation)) (e : Event) :
    OnSlot i s (s.raiseFor x e) :=
  (OnFrames.raiseFor s x e).onSlot fun j _ => by simp

theorem OnSlot.raiseSlot (s : State) (i j : SlotId) (e : Event) : OnSlot i s (s.raiseSlot j e) := .raiseFor s i _ e

theorem OnSlot.raise (s : State) (i : SlotId) (e : Event) : OnSlot i s (s.raise e) := .raiseFor s i _ e

theorem OnSlot.capture (s : State) (i : SlotId) : OnSlot i s (s.capture i) := by
  unfold State.capture
  split
  · exact .modFrame s i _
  · next a _ =>
    refine .trans ?_ (.modFrame _ i _)
    exact (OnFrames.modArea s a (fun x => { x with refs := x.refs + 1 }) fun _ => rfl).onSlot fun j _ =>
      State.slot_ofSlots (State.modArea_slots s a _) j

theorem OnSlot.linesTakeBand (s : State) (i : SlotId) : OnSlot i s (s.linesTakeBand i) := by
  refine ⟨.linesTakeBand s i, ?_, ?_, ?_, ?_, ?_, ?_, ?_⟩ <;> unfold State.linesTakeBand <;>
    cases (s.slot i).committed
  all_goals first | rfl | exact fun _ _ => rfl | exact fun d h => ⟨d.generations, h⟩

theorem OnSlot.exposureStart (s : State) (i : SlotId) (tag : FrameTag) (d : Stamp) (h : Nat) :
    OnSlot i s (s.exposureStart i tag d h).2 := by
  have within := Within.exposureStart s i tag d h
  unfold State.exposureStart at within ⊢
  cases matched : matchStrobe tag.sequence s.ssu.exposures with
  | none =>
    dsimp only
    exact .raiseSlot s i i _
  | some x =>
    simp only [matched] at within
    exact ⟨within, fun _ _ => rfl, rfl, rfl, rfl, rfl, rfl, fun d h => ⟨d.generations, h⟩⟩

theorem OnSlot.caught (s : State) (i : SlotId) : OnSlot i s (s.caught i) :=
  (OnSlot.capture s i).trans (.linesTakeBand _ i)

theorem OnSlot.entersTagged (s : State) (i : SlotId) (tag : FrameTag) (d : Stamp) : OnSlot i s (s.entersTagged i tag d) := by
  unfold State.entersTagged
  dsimp only
  refine .trans ?_ (.caught _ i)
  refine .trans ?_ (.modFrame _ i _)
  exact (OnSlot.modSlot s i _).trans (.exposureStart _ i _ _ _)

theorem OnSlot.entersUntagged (s : State) (i : SlotId) (stamp : Stamp) (missing : Bool) :
    OnSlot i s (s.entersUntagged i stamp missing) := by
  unfold State.entersUntagged
  dsimp only
  refine .trans ?_ (.caught _ i)
  split
  · exact (OnSlot.modSlot s i _).trans (.raiseSlot _ i i _)
  · exact .modSlot s i _

theorem OnSlot.countEnded (s : State) (i : SlotId) : OnSlot i s s.countEnded := by
  unfold State.countEnded
  cases proc : s.cru.proc with
  | drain d =>
    refine ⟨.modDrain s _, ?_, ?_, ?_, ?_, ?_, ?_, ?_⟩ <;> simp only [State.modDrain, proc]
    · exact fun _ _ => rfl
    · rintro _ ⟨⟩
      exact ⟨_, rfl⟩
  | none => simpa only [State.modDrain, proc] using OnSlot.refl i s
  | bypassEntry l => simpa only [State.modDrain, proc] using OnSlot.refl i s

theorem OnSlot.beginGen (s : State) (i : SlotId) : OnSlot i s (s.beginGen i) := .modSlot s i _

theorem OnSlot.setTagDeadline (s : State) (i : SlotId) : OnSlot i s (s.setTagDeadline i) := by
  unfold State.setTagDeadline
  exact .modSlot s i _

theorem OnSlot.applyDescriptor (s : State) (i : SlotId) (d : Option Window) : OnSlot i s (s.applyDescriptor i d) := by
  refine ⟨.applyDescriptor s i d, fun j other => ?_, ?_, ?_, ?_, ?_, ?_, ?_⟩
  · rw [State.slot, State.applyDescriptor_slots, put_get, if_neg (Ne.symm other), State.slot]
  all_goals cases d
  all_goals first | rfl | exact fun d h => ⟨d.generations, h⟩

theorem OnSlot.applyPending (s : State) (i : SlotId) : OnSlot i s (s.applyPending i) := by
  unfold State.applyPending
  cases (s.slot i).pendingDesc with
  | none => exact .refl i s
  | some d => exact (OnSlot.applyDescriptor s i d).trans (.raise _ i _)

theorem OnSlot.respected (i : SlotId) : Respected i (OnSlot i) where
  refl := .refl i
  trans := .trans
  bandTaken := fun kind src tagged waits => (BandsTaken.bandTaken tagged waits kind src).onSlot
  bandHanded := fun s g b report _ => (BandsTaken.bandHanded s i g b report).onSlot
  tagged := fun s tag d => .entersTagged s i tag d
  untagged := fun s stamp missing _ => .entersUntagged s i stamp missing
  begins := fun s => .beginGen s i
  armed := fun s _ _ => (OnSlot.beginGen s i).trans (.setTagDeadline _ i)
  applies := fun s _ => .applyPending s i
  completes := fun s _ => (OnSlot.modFrame s i _).trans (.raiseSlot _ i i _)
  counted := fun s => .countEnded s i
  ended := fun s => .modFrame s i _

theorem OnSlot.testComplete (s : State) (i : SlotId) : OnSlot i s (State.testComplete i s) :=
  (OnSlot.respected i).testComplete s

/-! ### What follows from it -/

theorem Procedure.core_none {p : Procedure} : p.core = Procedure.none.core ↔ p = .none := by
  cases p <;> simp [Procedure.core]

section
variable {i : SlotId} {s t : State}

theorem Within.proc_none (w : Within s t) (free : s.cru.proc = .none) : t.cru.proc = .none := by
  rw [← Procedure.core_none, w.proc, free]

theorem Within.inDrain (w : Within s t) : t.inDrain = s.inDrain := by
  have core := w.proc
  unfold State.inDrain
  cases h : s.cru.proc <;> cases h' : t.cru.proc <;> simp [h, h', Procedure.core] at core ⊢

theorem Within.inBypassEntry (w : Within s t) : t.inBypassEntry = s.inBypassEntry := by
  have core := w.proc
  unfold State.inBypassEntry
  cases h : s.cru.proc <;> cases h' : t.cru.proc <;> simp [h, h', Procedure.core] at core ⊢

end

/-! ### The reports at the end of a command -/

theorem State.slot_refreshReports (s : State) (i : SlotId) : s.refreshReports.slot i = s.slot i := rfl

theorem State.frame_refreshReports (s : State) (i : SlotId) : s.refreshReports.frame i = s.frame i := rfl

theorem State.line_refreshReports (s : State) (i : LineIdx) : s.refreshReports.line i = s.line i := rfl

end Sys2Proof.Machine
end

