-- ==== Sys2Proof/Proofs/Completion.lean ====
section
/-! SUPPORT. The completion test, case by case, and the slot of a generation that enters TAGGED or COMPLETE. -/

namespace Sys2Proof.Machine

/-! ### The end of a generation -/

/-- The beats a slot's generation is judged by (R35). -/
def Slot.expected (sl : Slot) : Nat :=
  match sl.committed with
  | none => 0
  | some w => w.expectedBeats

/-- A record that enters COMPLETE (R35); the bypass entry sequence drops its pending tag (R42). -/
def FrameRecord.completed (f : FrameRecord) (expected tolerance : Nat) (bypass : Bool) : FrameRecord :=
  { f with state := .complete, presented := some f.magnifications, flags := f.judgeBeats expected tolerance
           pendingTag := if bypass then none else f.pendingTag }

theorem FrameRecord.completed_pendingTag {f : FrameRecord} {bypass : Bool} (untagged : f.pendingTag = none ∨ bypass = true)
    (expected tolerance : Nat) : (f.completed expected tolerance bypass).pendingTag = none := by
  rcases untagged with h | h <;> simp [FrameRecord.completed, h]

/-- A generation completes, before what follows it (R35 steps 1 to 3). -/
def State.completed (s : State) (i : SlotId) : State :=
  (s.markComplete i).raiseSlot i ((s.markComplete i).frame i).doneEvent

theorem State.markComplete_eq (s : State) (i : SlotId) : s.markComplete i = s.modFrame i fun f =>
    f.completed (s.slot i).expected s.cru.settings.tolerance s.inBypassEntry := by
  unfold State.markComplete Slot.expected FrameRecord.completed
  rfl

theorem State.frame_markComplete (s : State) (i : SlotId) : (s.markComplete i).frame i =
    (s.frame i).completed (s.slot i).expected s.cru.settings.tolerance s.inBypassEntry := by
  rw [State.markComplete_eq, State.frame_modFrame_self]

theorem OnFrames.completed (s : State) (i : SlotId) : OnFrames s (s.completed i) :=
  (OnFrames.modFrame s i _).trans (.raiseSlot _ _ _)

theorem State.completed_slots (s : State) (i : SlotId) : (s.completed i).slots = put s.slots i { s.slot i with
    frame := (s.frame i).completed (s.slot i).expected s.cru.settings.tolerance s.inBypassEntry } := by
  rw [State.completed, State.raiseSlot, State.raiseFor_slots, State.markComplete_eq]
  rfl

theorem State.slot_completed (s : State) (i : SlotId) : (s.completed i).slot i = { s.slot i with
    frame := (s.frame i).completed (s.slot i).expected s.cru.settings.tolerance s.inBypassEntry } := by
  rw [State.slot, State.completed_slots]
  exact put_self _ _ _

theorem State.frame_completed (s : State) (i : SlotId) : (s.completed i).frame i =
    (s.frame i).completed (s.slot i).expected s.cru.settings.tolerance s.inBypassEntry := by
  rw [State.frame, State.slot_completed]

/-- FRAME_DONE joins the Event Queue (R36). -/
theorem State.completed_events {s : State} {i : SlotId} (room : s.cru.events.length < 16)
    (enabled : s.cru.settings.eventDisable.getLsbD 1 = false) : (s.completed i).cru.events = s.cru.events ++
      [⟨((s.completed i).frame i).doneEvent, s.cru.overflow, some (i, (s.frame i).generation), s.clock⟩] := by
  have same : (s.completed i).frame i = (s.markComplete i).frame i := by
    rw [State.frame_completed, State.frame_markComplete]
  have generation : ((s.markComplete i).frame i).generation = (s.frame i).generation := by
    rw [State.frame_markComplete]
    rfl
  rw [same, State.completed, State.raiseSlot, generation]
  exact State.raiseFor_events (s := s.markComplete i) (e := ((s.markComplete i).frame i).doneEvent) enabled room _

section
variable {s : State} {i : SlotId} (resolved : (s.frame i).state = .resolved) (clear : (s.frame i).held = 0)
  (going : (s.frame i).ended = false)
include resolved clear going

/-- A closed generation with no line held completes outside a drain (R35). -/
theorem State.tryComplete_closed (off : s.inDrain = false) (closed : (s.frame i).closed = true) (n : Nat) :
    State.tryComplete (n + 1) i s = (s.completed i).afterComplete (State.tryComplete n) i := by
  rw [State.tryComplete]
  rw [if_pos ⟨resolved, clear, going⟩, if_neg (by simp [off]), if_pos closed]
  rfl

/-- During a drain it ends (R41, R193). -/
theorem State.tryComplete_drain (on : s.inDrain = true) (n : Nat) :
    State.tryComplete (n + 1) i s = s.endGen (State.tryComplete n) i := by
  rw [State.tryComplete]
  rw [if_pos ⟨resolved, clear, going⟩, if_pos on]

end

/-- A count of the drain changes no slot. -/
theorem State.countEnded_slots (s : State) : s.countEnded.slots = s.slots := by
  unfold State.countEnded State.modDrain
  split <;> rfl

theorem State.frame_countEnded (s : State) (i : SlotId) : s.countEnded.frame i = s.frame i := by
  rw [State.frame, State.slot_ofSlots s.countEnded_slots, State.frame]

theorem State.endGen_last {s : State} {i : SlotId} (last : (s.frame i).successor = none)
    (complete : SlotId → State → State) :
    s.endGen complete i = s.countEnded.modFrame i fun f => { f with ended := true } := by
  unfold State.endGen
  change (match (s.countEnded.frame i).successor with
    | none => s.countEnded.modFrame i fun f => { f with ended := true }
    | some _ => (s.countEnded.beginGen i).enterUntagged complete i s.countEnded.clock false) = _
  rw [State.frame_countEnded, last]

theorem State.endGen_successor {s : State} {i : SlotId} {n : Successor} (next : (s.frame i).successor = some n)
    (complete : SlotId → State → State) :
    s.endGen complete i = (s.countEnded.beginGen i).enterUntagged complete i s.clock false := by
  have clock : s.countEnded.clock = s.clock := (OnSlot.countEnded s i).within.clock
  unfold State.endGen
  change (match (s.countEnded.frame i).successor with
    | none => s.countEnded.modFrame i fun f => { f with ended := true }
    | some _ => (s.countEnded.beginGen i).enterUntagged complete i s.countEnded.clock false) = _
  rw [State.frame_countEnded, next, clock]

section
variable {s : State} {i : SlotId} (complete : SlotId → State → State) (untagged : (s.frame i).pendingTag = none)
include untagged

/-- Without a pending tag and a successor a pending descriptor applies after a completion (R35). -/
theorem State.afterComplete_last (last : (s.frame i).successor = none) : s.afterComplete complete i = s.applyPending i := by
  unfold State.afterComplete
  dsimp only
  rw [untagged, last]

/-- In the bypass entry sequence a successor is resolved UNTAGGED (R42). -/
theorem State.afterComplete_bypass (on : s.inBypassEntry = true) {n : Successor} (next : (s.frame i).successor = some n) :
    s.afterComplete complete i = (s.beginGen i).enterUntagged complete i s.clock false := by
  unfold State.afterComplete
  dsimp only
  rw [untagged, next]
  exact if_pos on

end

theorem State.applyPending_none {s : State} {i : SlotId} (kept : (s.slot i).pendingDesc = none) :
    s.applyPending i = s := by
  rw [State.applyPending, kept]

theorem State.applyPending_some {s : State} {i : SlotId} {d : Option Window} (pending : (s.slot i).pendingDesc = some d) :
    s.applyPending i = (s.applyDescriptor i d).raise (.commitApplied [i] [] []) := by
  rw [State.applyPending, pending]

/-- A closed generation with no line held, no successor, no pending tag and no pending descriptor completes, and nothing
follows (R35). -/
theorem State.tryComplete_completes {s : State} {i : SlotId} (resolved : (s.frame i).state = .resolved)
    (clear : (s.frame i).held = 0) (going : (s.frame i).ended = false) (off : s.inDrain = false)
    (closed : (s.frame i).closed = true) (last : (s.frame i).successor = none)
    (untagged : (s.frame i).pendingTag = none ∨ s.inBypassEntry = true) (kept : (s.slot i).pendingDesc = none) (n : Nat) :
    State.tryComplete (n + 1) i s = s.completed i := by
  have slot := State.slot_completed s i
  rw [State.tryComplete_closed resolved clear going off closed, State.afterComplete_last, State.applyPending_none]
  · rw [slot]
    exact kept
  · rw [State.frame, slot]
    exact FrameRecord.completed_pendingTag untagged _ _
  · rw [State.frame, slot]
    exact last

/-- An event that settles every band of a TAGGED generation with no line held that is closed then: the generation completes
at its last band, before the band's hand-on. -/
theorem State.takeBands_completes {s : State} {i : SlotId} {e : BandEvent} {k : ResKind} (settles : e.Settles k)
    (tagged : (s.frame i).state = .tagged) (waits : (s.frame i).allResolved = false)
    (clear : (s.frame i).held = 0) (going : (s.frame i).ended = false) (off : s.inDrain = false)
    (closed : (s.frame i).closed = true ∨ s.inBypassEntry = true) (last : (s.frame i).successor = none)
    (untagged : (s.frame i).pendingTag = none ∨ s.inBypassEntry = true) (kept : (s.slot i).pendingDesc = none) (n : Nat) :
    ∃ v b report, AllSettled k i s v ∧ (k.silent → report = none) ∧ s.takeBands (State.tryComplete (n + 1)) e i =
      (v.completed i).bandHanded i (s.frame i).generation b report := by
  have completes (v : State) (settled : AllSettled k i s v) : State.tryComplete (n + 1) i v = v.completed i := by
    refine State.tryComplete_completes settled.resolved ?_ ?_ ?_ (settled.closed tagged waits closed) ?_ ?_ ?_ n
    · rw [settled.frame]
      exact clear
    · rw [settled.frame]
      exact going
    · rw [settled.taken.on.inDrain, off]
    · rw [settled.frame]
      exact last
    · rw [settled.frame, settled.taken.on.inBypassEntry]
      exact untagged
    · rw [settled.taken.slot.rest]
      exact kept
  obtain ⟨v, b, report, settled, silent, taken⟩ := State.takeBands_last settles tagged waits
    (complete := State.tryComplete (n + 1)) fun v settled => by
      rw [completes v settled, State.frame_completed]
      exact .inl (by simp [FrameRecord.completed])
  exact ⟨v, b, report, settled, silent, by rw [taken, completes v settled]⟩

/-! ### The entry into TAGGED -/

theorem State.slot_capture (s : State) (i : SlotId) : ∃ area x y,
    (s.capture i).slot i = { s.slot i with frame := { s.frame i with area := area, offsetX := x, offsetY := y } } := by
  unfold State.capture
  split
  · exact ⟨none, 0, 0, State.slot_modFrame_self s i _⟩
  · next a _ =>
    refine ⟨some a, (s.area a).offset.1, (s.area a).offset.2, ?_⟩
    dsimp only
    rw [State.slot_modFrame_self, State.frame, State.slot_ofSlots (State.modArea_slots ..), State.frame]

theorem State.linesTakeBand_slots (s : State) (i : SlotId) : (s.linesTakeBand i).slots = s.slots := by
  unfold State.linesTakeBand
  split <;> rfl

theorem FrameRecord.withTimes_band (f : FrameRecord) (time deadline : BandId → Stamp) (b : BandId) :
    (f.withTimes time deadline).bands[b] = ⟨none, some (time b), some (deadline b)⟩ := by
  fin_cases b <;> rfl

theorem State.slot_caught {s : State} {i : SlotId} {sl : Slot} (before : s.slot i = sl) : ∃ area x y,
    (s.caught i).slot i = { sl with frame := { sl.frame with area := area, offsetX := x, offsetY := y } } := by
  rw [State.caught, State.slot_ofSlots (State.linesTakeBand_slots _ i), ← before]
  exact State.slot_capture s i

theorem State.slot_untaggedAt (s : State) (i : SlotId) (stamp : Stamp) : (s.untaggedAt i stamp).slot i =
    { s.slot i with tagDeadline := none, frame := (s.frame i).untagged stamp } := State.slot_modSlot_self s i _

theorem State.slot_entersUntagged (s : State) (i : SlotId) (stamp : Stamp) (missing : Bool) : ∃ area x y,
    (s.entersUntagged i stamp missing).slot i = { s.slot i with
      tagDeadline := none
      frame := { (s.frame i).untagged stamp with area := area, offsetX := x, offsetY := y } } := by
  have before : (if missing = true then (s.untaggedAt i stamp).raiseSlot i ((s.untaggedAt i stamp).frame i).missingEvent
      else s.untaggedAt i stamp).slot i = { s.slot i with tagDeadline := none, frame := (s.frame i).untagged stamp } := by
    rw [← State.slot_untaggedAt]
    split
    · exact State.slot_ofSlots (State.raiseFor_slots ..) i
    · rfl
  exact State.slot_caught before

theorem State.entersUntagged_waits (s : State) (i : SlotId) (stamp : Stamp) (missing : Bool) :
    ((s.entersUntagged i stamp missing).frame i).state = .tagged ∧
      (∀ b : BandId, ((s.entersUntagged i stamp missing).frame i).bands[b] = ⟨none, some stamp, some stamp⟩) ∧
      ((s.entersUntagged i stamp missing).frame i).allResolved = false := by
  obtain ⟨area, x, y, slot⟩ := s.slot_entersUntagged i stamp missing
  have bands (b : BandId) : ((s.entersUntagged i stamp missing).frame i).bands[b] = ⟨none, some stamp, some stamp⟩ := by
    rw [State.frame, slot]
    exact FrameRecord.withTimes_band { s.frame i with state := .tagged } (fun _ => stamp) (fun _ => stamp) b
  refine ⟨by rw [State.frame, slot]; rfl, bands, (FrameRecord.allResolved_false_iff _).mpr ⟨0, ?_⟩⟩
  rw [bands]

theorem State.exposureStart_slots (s : State) (i : SlotId) (tag : FrameTag) (d : Stamp) (h : Nat) :
    (s.exposureStart i tag d h).2.slots = s.slots := by
  unfold State.exposureStart
  cases matchStrobe tag.sequence s.ssu.exposures with
  | some x => rfl
  | none => exact State.raiseFor_slots ..

theorem State.slot_started (s : State) (i : SlotId) (tag : FrameTag) (d : Stamp) :
    (s.started i tag d).2.slot i = (s.slot i).tagged tag :=
  (State.slot_ofSlots (State.exposureStart_slots ..) i).trans (State.slot_modSlot_self s i _)

/-- A slot whose generation enters TAGGED with a tag, its band times set (R55, R56). -/
def Slot.timed (sl : Slot) (tag : FrameTag) (start : Stamp) (height deadline : Nat) : Slot :=
  { sl.tagged tag with
    frame := (sl.tagged tag).frame.withTimes (bandTime tag start height) (fun b =>
      stampAdd (bandTime tag start height b) deadline) }

theorem State.slot_entersTagged (s : State) (i : SlotId) (tag : FrameTag) (d : Stamp) : ∃ area x y,
    (s.entersTagged i tag d).slot i =
      { (s.slot i).timed tag (s.started i tag d).1 (s.heightOf i) s.cru.settings.resolveDeadline with
        frame := { ((s.slot i).timed tag (s.started i tag d).1 (s.heightOf i) s.cru.settings.resolveDeadline).frame with
          area := area, offsetX := x, offsetY := y } } := by
  have settings : (s.started i tag d).2.cru.settings = s.cru.settings :=
    (Within.exposureStart _ i tag d (s.heightOf i)).settings
  have before : ((s.started i tag d).2.modFrame i fun f =>
      f.withTimes (bandTime tag (s.started i tag d).1 (s.heightOf i)) fun b =>
        stampAdd (bandTime tag (s.started i tag d).1 (s.heightOf i) b)
          (s.started i tag d).2.cru.settings.resolveDeadline).slot i =
      (s.slot i).timed tag (s.started i tag d).1 (s.heightOf i) s.cru.settings.resolveDeadline := by
    rw [State.slot_modFrame_self, State.frame, State.slot_started, settings]
    rfl
  exact State.slot_caught before

/-! ### What the capture leaves -/

theorem State.caught_cru (s : State) (i : SlotId) : (s.caught i).cru = s.cru := by
  have lines (t : State) : (t.linesTakeBand i).cru = t.cru := by
    unfold State.linesTakeBand
    split <;> rfl
  rw [State.caught, lines]
  unfold State.capture
  split
  · rfl
  · next a _ => cases a <;> rfl

theorem State.capture_ls (s : State) (i : SlotId) : (s.capture i).ls = s.ls := by
  unfold State.capture
  split
  · rfl
  · next a _ => cases a <;> rfl

/-- A HELD line with band pending of the captured generation takes the band of its row (R31, R126). -/
theorem State.line_caught {s : State} {i : SlotId} {x : LineIdx} {tag : LineTag} {lanes : List Lane} {demand : Bool}
    {w : Window} (window : (s.slot i).committed = some w) (pending : s.line x = .held tag none lanes demand)
    (own : tag.slot = i) (current : tag.generation = (s.frame i).generation) :
    (s.caught i).line x = .held tag (some (w.bandOfLine tag.line)) lanes demand := by
  obtain ⟨area, ox, oy, captured⟩ := s.slot_capture i
  have generation : ((s.capture i).frame i).generation = (s.frame i).generation := by rw [State.frame, captured]
  unfold State.caught State.linesTakeBand
  rw [captured]
  dsimp only
  rw [window]
  dsimp only
  rw [State.line, State.mapLines_ls, mapTable_get, State.capture_ls, ← State.line, pending, generation]
  exact if_pos ⟨own, current⟩

end Sys2Proof.Machine
end

