-- ==== Sys2Proof/Proofs/BandExpiry.lean ====
section
/-! PROOF. The expiry of a resolve deadline (R56, R89–R99): the row of the table that it meets, the result by its source,
and what it leaves unchanged. -/

namespace Sys2Proof.Machine

/-! ### The row of the table -/

theorem State.usableArea_iff (s : State) (i : SlotId) (a : AreaId) : s.usableArea i = some a ↔
    (s.frame i).area = some a ∧ s.llc.identified = some (s.area a).identity := by
  unfold State.usableArea
  cases (s.frame i).area with
  | none => simp
  | some x =>
    dsimp only
    split
    · next same => constructor
                   · rintro ⟨⟩
                     exact ⟨rfl, same⟩
                   · rintro ⟨⟨⟩, _⟩
                     rfl
    · next other => constructor
                    · rintro ⟨⟩
                    · rintro ⟨⟨⟩, same⟩
                      exact absurd same other

/-- The last entry that meets a condition. -/
theorem getLast_filter_eq_some {α : Type} {p : α → Bool} {l : List α} {x : α} (last : (l.filter p).getLast? = some x) :
    ∃ before after, l = before ++ x :: after ∧ p x = true ∧ ∀ z ∈ after, p z = false := by
  rw [List.getLast?_eq_head?_reverse, ← List.filter_reverse, List.head?_filter, List.find?_eq_some_iff_append] at last
  obtain ⟨here, after, before, split, fails⟩ := last
  refine ⟨before.reverse, after.reverse, ?_, here, fun z member => by simpa using fails z (List.mem_reverse.mp member)⟩
  have := congrArg List.reverse split
  simpa using this

theorem getLast_filter_eq_none {α : Type} {p : α → Bool} {l : List α} :
    (l.filter p).getLast? = none ↔ ¬ ∃ x ∈ l, p x = true := by
  rw [List.getLast?_eq_none_iff, List.filter_eq_nil_iff]
  simp

theorem atOrBefore_iff (a b : Stamp) : atOrBefore a b = true ↔ (a - b).toInt ≤ 0 := decide_eq_true_iff

theorem atOrBefore_false_iff (a b : Stamp) : atOrBefore a b = false ↔ ¬ (a - b).toInt ≤ 0 := decide_eq_false_iff_not

theorem bracket_eq_some {history : List Sample} {t : Stamp} {x y : Sample} (found : bracket history t = some (x, y)) :
    (∃ l r, history = l ++ x :: r ∧ (x.stamp - t).toInt ≤ 0 ∧ ∀ z ∈ r, ¬ (z.stamp - t).toInt ≤ 0) ∧
      ∃ l r, history = l ++ y :: r ∧ (t - y.stamp).toInt ≤ 0 ∧ ∀ z ∈ l, ¬ (t - z.stamp).toInt ≤ 0 := by
  unfold bracket at found
  cases low : (history.filter fun x => atOrBefore x.stamp t).getLast? with
  | none => simp [low] at found
  | some a =>
    cases high : history.find? fun x => atOrBefore t x.stamp with
    | none => simp [low, high] at found
    | some b =>
      simp only [low, high, Option.some.injEq, Prod.mk.injEq] at found
      obtain ⟨rfl, rfl⟩ := found
      obtain ⟨l, r, split, here, after⟩ := getLast_filter_eq_some low
      rw [List.find?_eq_some_iff_append] at high
      obtain ⟨here', l', r', split', before⟩ := high
      simp only [atOrBefore_iff, atOrBefore_false_iff, Bool.not_eq_true'] at here after here' before
      exact ⟨⟨l, r, split, here, after⟩, l', r', split', here', before⟩

theorem bracket_eq_none {history : List Sample} {t : Stamp} : bracket history t = none ↔
    ¬ ((∃ x ∈ history, (x.stamp - t).toInt ≤ 0) ∧ ∃ x ∈ history, (t - x.stamp).toInt ≤ 0) := by
  have low := getLast_filter_eq_none (p := fun x : Sample => atOrBefore x.stamp t) (l := history)
  have high : history.find? (fun x => atOrBefore t x.stamp) = none ↔ ¬ ∃ x ∈ history, (t - x.stamp).toInt ≤ 0 := by
    rw [List.find?_eq_none]
    simp [atOrBefore_iff]
  simp only [atOrBefore_iff] at low
  rw [not_and_or, ← low, ← high]
  unfold bracket
  split
  · next some_ some' => simp [some_, some']
  · next none_ =>
    simp only [true_iff]
    by_contra both
    rw [not_or] at both
    obtain ⟨x, hx⟩ := Option.ne_none_iff_exists'.mp both.1
    obtain ⟨y, hy⟩ := Option.ne_none_iff_exists'.mp both.2
    exact none_ x y hx hy

/-- An expiry always settles a band (R89). -/
theorem State.choose_expiry (s : State) (i : SlotId) (time : Option Stamp) :
    ∃ kind src, s.choose i time .expiry = some (kind, src) := by
  rw [State.choose]
  split
  · exact ⟨_, _, rfl⟩
  · cases time.bind (settle s.br.history) with
    | some r => exact ⟨r.1, r.2, rfl⟩
    | none => cases s.br.history.getLast? with
      | some newest => exact ⟨_, _, rfl⟩
      | none => cases s.br.lastKnown <;> exact ⟨_, _, rfl⟩

theorem State.choose_unusable {s : State} {i : SlotId} (unusable : s.usableArea i = none) (time : Option Stamp) :
    s.choose i time .expiry = some (.noProfile, .absent) := by
  simp [State.choose, unusable]

theorem State.choose_usable {s : State} {i : SlotId} {a : AreaId} (usable : s.usableArea i = some a) (time : Stamp) :
    s.choose i (some time) .expiry = match settle s.br.history time, s.br.history.getLast?, s.br.lastKnown with
      | some r, _, _ => some r
      | none, some newest, _ => some (.late, .one newest)
      | none, none, some x => some (.lensLost, .one x)
      | none, none, none => some (.noSample, .absent) := by
  simp only [State.choose, usable, Option.isNone_some, Bool.false_eq_true, if_false, Option.bind_some] <;> rfl

/-- What the Band Resolver chooses at an expiry is the row of the table that the history meets (R89). -/
theorem State.choose_row {s : State} {i : SlotId} {time : Stamp} {kind : ResKind} {src : Source}
    (chosen : s.choose i (some time) .expiry = some (kind, src)) : ExpiryRow s i time kind src := by
  have usable (a : AreaId) : s.usableArea i = some a ↔ _ := s.usableArea_iff i a
  cases area : s.usableArea i with
  | none =>
    have unusable : ¬ ∃ a, (s.frame i).area = some a ∧ s.llc.identified = some (s.area a).identity := by
      rintro ⟨a, here⟩
      rw [(usable a).mpr here] at area
      cases area
    rw [State.choose_unusable area] at chosen
    cases chosen
    refine ⟨fun _ => ⟨rfl, rfl⟩, ?_, ?_, ?_, ?_⟩ <;> intros <;> contradiction
  | some a =>
    rw [State.choose_usable area] at chosen
    refine ⟨fun unusable => absurd ⟨a, (usable a).mp area⟩ unusable, fun _ around => ?_, fun oldest newest _ apart first last => ?_,
      fun x _ empty known => ?_, fun _ empty known => ?_⟩
    · cases found : bracket s.br.history time with
      | none => exact absurd around (bracket_eq_none.mp found)
      | some pair =>
        simp only [settle, found, Option.some.injEq, Prod.mk.injEq] at chosen
        obtain ⟨rfl, rfl⟩ := chosen
        exact ⟨rfl, pair.1, pair.2, rfl, bracket_eq_some found⟩
    · have found := bracket_eq_none.mpr apart
      simp only [settle, found, first, last] at chosen
      constructor
      · intro late
        have after : later oldest.stamp time = true := decide_eq_true late
        simp only [after, if_true, Option.some.injEq, Prod.mk.injEq] at chosen
        exact ⟨chosen.1.symm, chosen.2.symm⟩
      · intro early
        have before : later oldest.stamp time = false := decide_eq_false (not_lt.mpr early)
        simp only [before, Bool.false_eq_true, if_false, Option.some.injEq, Prod.mk.injEq] at chosen
        exact ⟨chosen.1.symm, chosen.2.symm⟩
    · have found : bracket s.br.history time = none := bracket_eq_none.mpr (by simp [empty])
      rw [empty] at found
      simp only [settle, found, empty, List.head?_nil, List.getLast?_nil, known, Option.some.injEq, Prod.mk.injEq] at chosen
      exact ⟨chosen.1.symm, chosen.2.symm⟩
    · have found : bracket s.br.history time = none := bracket_eq_none.mpr (by simp [empty])
      rw [empty] at found
      simp only [settle, found, empty, List.head?_nil, List.getLast?_nil, known, Option.some.injEq, Prod.mk.injEq] at chosen
      exact ⟨chosen.1.symm, chosen.2.symm⟩

/-! ### The result by its source -/

theorem roundHalfUp_unique {num q : Int} {den : Nat} (pos : 0 < den) (above : 2 * num - den < 2 * den * q)
    (below : 2 * den * q ≤ 2 * num + den) : roundHalfUp num den = q := by
  obtain ⟨above', below'⟩ := roundHalfUp_bounds num pos
  have positive : (0 : Int) < den := by exact_mod_cast pos
  rcases lt_trichotomy (roundHalfUp num den) q with less | same | more
  · nlinarith
  · exact same
  · nlinarith

/-- R90's formula for two samples in order. -/
theorem interpolateFocus_eq {a b : Sample} {t : Stamp} {focus : Nat} (apart : a.stamp ≠ b.stamp)
    (order : 0 < (b.stamp - a.stamp).toInt)
    (above : 2 * (a.focus.toNat * (b.stamp - a.stamp).toInt + ((b.focus.toNat : Int) - a.focus.toNat) * (t - a.stamp).toInt) -
      (b.stamp - a.stamp).toInt < 2 * (b.stamp - a.stamp).toInt * focus)
    (below : 2 * (b.stamp - a.stamp).toInt * focus ≤
      2 * (a.focus.toNat * (b.stamp - a.stamp).toInt + ((b.focus.toNat : Int) - a.focus.toNat) * (t - a.stamp).toInt) +
        (b.stamp - a.stamp).toInt) : interpolateFocus a b t = focus := by
  unfold interpolateFocus stampDiff
  rw [if_neg apart, if_neg (not_le.mpr order)]
  generalize (b.stamp - a.stamp).toInt = step at *
  generalize ((b.focus.toNat : Int) - a.focus.toNat) * (t - a.stamp).toInt = num at *
  have den : (step.toNat : Int) = step := Int.toNat_of_nonneg order.le
  have rounded : roundHalfUp num step.toNat = focus - a.focus.toNat := by
    refine roundHalfUp_unique (by omega) ?_ ?_ <;> rw [den] <;> nlinarith
  rw [rounded]
  omega

theorem State.bandResult_identity {s : State} {i : SlotId} {src : Source} (kind : ResKind)
    (without : s.usableArea i = none ∨ src.focus s.br.newestFocus = none) :
    (s.bandResult i kind src).1 = ⟨kind, 65536, Vector.replicate 64 16384⟩ := by
  unfold State.bandResult
  split
  · next found found' =>
    rcases without with h | h
    · rw [h] at found
      cases found
    · rw [h] at found'
      cases found'
  · rfl

theorem State.bandResult_magnified {s : State} {i : SlotId} {src : Source} {focus : Nat} (kind : ResKind)
    (used : src.focus s.br.newestFocus = some focus) {a : AreaId}
    (usable : (s.frame i).area = some a ∧ s.llc.identified = some (s.area a).identity) :
    (s.bandResult i kind src).1.kind = kind ∧ (s.bandResult i kind src).1.magnification =
      max 52429 (min 81920 (roundHalfUp (fieldAt (s.area a).breathing focus * 65536 : Nat)
        (framingTarget s.cru.settings.framing (s.area a).breathing)).toNat) := by
  have area := (s.usableArea_iff i a).mpr usable
  refine ⟨State.bandResult_kind s i kind src, ?_⟩
  unfold State.bandResult
  rw [area, used]
  rfl

/-- A focus between those of two samples in the wrong order (log entry 55). -/
theorem interpolateFocus_between {a b : Sample} {t : Stamp} (apart : a.stamp ≠ b.stamp)
    (order : (b.stamp - a.stamp).toInt ≤ 0) :
    min a.focus.toNat b.focus.toNat ≤ interpolateFocus a b t ∧
      interpolateFocus a b t ≤ max a.focus.toNat b.focus.toNat := by
  unfold interpolateFocus stampDiff
  rw [if_neg apart, if_pos order]
  dsimp only
  have := Nat.mod_lt (Config.crossedFocus a.stamp b.stamp t a.focus b.focus)
    (show 0 < max a.focus.toNat b.focus.toNat - min a.focus.toNat b.focus.toNat + 1 by omega)
  omega

/-- The result of a band by its kind and its source (R87, R89–R92, R95). -/
theorem State.bandResult_from (s : State) (i : SlotId) (kind : ResKind) (src : Source) :
    ResultFrom s i kind src (s.bandResult i kind src).1 := by
  have used {focus : Nat} (h : src.focus s.br.newestFocus = some focus) (a : AreaId) (usable : _ ∧ _) :=
    State.bandResult_magnified (s := s) (i := i) (a := a) kind h usable
  have unused (h : src.focus s.br.newestFocus = none) := State.bandResult_identity (i := i) kind (.inr h)
  have newest (h : src.focus s.br.newestFocus = s.br.newestFocus.map BitVec.toNat) :
      (∀ f, s.br.newestFocus = some f → ∀ a, _ ∧ _ → _ ∧ _) ∧ (s.br.newestFocus = none → _) :=
    ⟨fun f known => used (h.trans (by rw [known]; rfl)), fun unknown => unused (h.trans (by rw [unknown]; rfl))⟩
  refine ⟨?_, ?_, ?_⟩
  · rintro (unusable | rfl)
    · refine State.bandResult_identity kind (.inl ?_)
      cases area : s.usableArea i with
      | none => rfl
      | some a => exact absurd ((s.usableArea_iff i a).mp area) (unusable a)
    · exact unused rfl
  · rintro x rfl
    exact ⟨fun valid => used (by simp [Source.focus, valid]), fun invalid => newest (by simp [Source.focus, invalid])⟩
  · rintro x y time rfl
    refine ⟨fun left right => used (by simp [Source.focus, left, right]),
      fun left right => used (by simp [Source.focus, left, right]),
      fun left right => newest (by simp [Source.focus, left, right]), fun left right => ?_⟩
    have between : (Source.pair x y time).focus s.br.newestFocus = some (interpolateFocus x y time) := by
      simp [Source.focus, left, right]
    refine ⟨fun same => used (by rw [between, interpolateFocus, if_pos same]), ?_, fun apart order =>
      ⟨interpolateFocus x y time, used between, interpolateFocus_between apart order⟩⟩
    intro focus step offset exact_ _ _ order above below
    have apart : x.stamp ≠ y.stamp := by
      intro same
      have : step = 0 := by simp [step, same]
      omega
    exact used (by rw [between, interpolateFocus_eq apart order above below])

/-! ### One band of several -/

/-- With another band WAITING only the slot is written. -/
theorem State.bandTaken_other {s : State} {i : SlotId} {b c : BandId} (other : c ≠ b)
    (waits : ((s.frame i).bands[c]).result = none) (kind : ResKind) (src : Source) :
    s.bandTaken i b kind src = s.modSlot i fun sl =>
      sl.writeResult b (s.bandResult i kind src).1 (s.bandResult i kind src).2 := by
  have unfinished : ((s.modSlot i fun sl =>
      sl.writeResult b (s.bandResult i kind src).1 (s.bandResult i kind src).2).frame i).allResolved = false := by
    rw [FrameRecord.allResolved_false_iff]
    refine ⟨c, ?_⟩
    rw [State.frame, State.slot_modSlot_self]
    change ((put (s.slot i).frame.bands b _)[c]).result = none
    rw [put_get, if_neg (Ne.symm other)]
    exact waits
  unfold State.bandTaken
  dsimp only
  rw [if_neg (by rw [unfinished]; exact Bool.false_ne_true)]

/-- An expiry that has not come changes nothing. -/
theorem State.expireBand_idle {s : State} {i : SlotId} {b : BandId}
    (idle : (s.frame i).state ≠ .tagged ∨ ((s.frame i).bands[b]).result.isSome = true ∨
      due s.ssu.clock ((s.frame i).bands[b]).deadline = false) (complete : SlotId → State → State) :
    s.expireBand complete i (s.frame i).generation b = s := by
  unfold State.expireBand
  split
  · next come =>
    rcases idle with h | h | h
    · exact State.takeBand_idle (.inl h) _ _
    · exact State.takeBand_idle (.inr (.inr h)) _ _
    · rw [State.clock, h] at come
      cases come
  · rfl

theorem exec_resolveDeadlineExpiry {s : State} (live : s.pins.resetN = true) (i : SlotId) (b : BandId) :
    exec (.resolveDeadlineExpiry i b) s =
      .next (s.expireBand State.testComplete i (s.frame i).generation b).finish := by
  change execResolveDeadlineExpiry i b s = _
  rw [execResolveDeadlineExpiry, State.whenLive, if_pos live]

/-- A report that a band's hand-on raises joins the Event Queue (R99, R182). -/
theorem State.bandHanded_joins {s : State} {i : SlotId} {g : Generation} {b : BandId} {e : Event}
    (enabled : s.cru.settings.eventDisable.getLsbD e.code = false) (room : s.cru.events.length < 16) :
    (s.bandHanded i g b (some e)).cru.events = s.cru.events ++ [⟨e, s.cru.overflow, some (i, g), s.clock⟩] :=
  State.raiseFor_events (s := s.joinDemanded i g b) enabled room _

/-- Settles O53: the Band Resolver settles the band, its record alone is written, and its report follows. -/
theorem bandDeadlineExpires : Obligations.BandDeadlineExpires := by
  intro s i b live quiet
  rw [exec_resolveDeadlineExpiry live]
  refine ⟨fun idle => by rw [State.expireBand_idle idle, quiet.finish_self], fun tagged waits come ⟨c, other, waits'⟩ => ?_⟩
  obtain ⟨kind, src, chosen⟩ := s.choose_expiry i ((s.frame i).bands[b]).time
  have written : s.expireBand State.testComplete i (s.frame i).generation b = s.writeBand noTest i b kind src := by
    rw [State.expireBand, if_pos (by exact come), State.takeBand_settles tagged waits chosen,
      State.writeBand_other other waits']
  have taken := BandsTaken.writeBand tagged waits kind src
  have band (x : BandId) := State.bands_writeBand (s := s) (i := i) b x kind src
  have handed : s.writeBand noTest i b kind src = (s.modSlot i fun sl =>
      sl.writeResult b (s.bandResult i kind src).1 (s.bandResult i kind src).2).bandHanded i (s.frame i).generation b
        ((s.slot i).report kind b src.stamp) := by
    rw [State.writeBand_eq, State.bandTaken_other other waits']
    dsimp only [noTest]
    rw [ite_self]
  have slot : (s.writeBand noTest i b kind src).slot i =
      (s.slot i).writeResult b (s.bandResult i kind src).1 (s.bandResult i kind src).2 := by
    rw [handed, State.slot_ofSlots (State.bandHanded_slots ..), State.slot_modSlot_self]
  have still : ((s.writeBand noTest i b kind src).frame i).state = .tagged := by
    rw [State.frame, slot]
    exact tagged
  have silent (h : (s.slot i).report kind b src.stamp = none) :
      (s.writeBand noTest i b kind src).cru.events = s.cru.events := by
    rw [handed, h]
    rfl
  have tells (e : Event) (h : (s.slot i).report kind b src.stamp = some e)
      (enabled : s.cru.settings.eventDisable.getLsbD e.code = false) (room : s.cru.events.length < 16) :
      (s.writeBand noTest i b kind src).cru.events =
        s.cru.events ++ [⟨e, s.cru.overflow, some (i, (s.frame i).generation), s.clock⟩] := by
    rw [handed, h]
    exact State.bandHanded_joins enabled room
  have finished : (s.writeBand noTest i b kind src).finish = (s.writeBand noTest i b kind src).refreshReports :=
    State.finish_eq (by rw [taken.on.intake, quiet.intake]) (by rw [taken.on.er, quiet.queue])
  rw [written, finished]
  refine ⟨_, kind, src, rfl, chosen, ?_, ?_, ?_, still, taken.generation, taken.other, taken.on.ls,
    fun time known => State.choose_row (known ▸ chosen), ?_, ?_⟩
  · refine (congrArg BandRecord.result (band b)).trans ?_
    rw [if_pos rfl]
  · refine (congrArg BandRecord.time (band b)).trans ?_
    rw [if_pos rfl]
  · intro x apart
    refine (band x).trans ?_
    rw [if_neg (Ne.symm apart)]
  · intro r result
    have : some (s.bandResult i kind src).1 = some r := by
      rw [← result]
      refine ((congrArg BandRecord.result (band b)).trans ?_).symm
      rw [if_pos rfl]
    cases this
    exact s.bandResult_from i kind src
  · dsimp only
    refine ⟨fun other => silent ?_, ?_, ?_, ?_, ?_, ?_⟩
    · simp only [List.mem_cons, List.not_mem_nil, or_false, not_or] at other
      exact Slot.report_silent other _ _ _
    · rintro rfl reported
      exact silent (if_pos reported)
    · rintro rfl reported
      exact silent (if_pos reported)
    · rintro rfl reported
      exact silent (if_pos reported)
    · rintro room enabled rfl reported
      refine ⟨tells _ (if_neg (by rw [reported]; exact Bool.false_ne_true)) enabled room, ?_⟩
      refine (congrArg Slot.reportedLate slot).trans ?_
      simp [Slot.writeResult, State.bandResult_kind]
    · rintro room enabled (⟨rfl, reported⟩ | ⟨rfl, reported⟩)
      · exact tells _ (if_neg (by rw [reported]; exact Bool.false_ne_true)) enabled room
      · exact tells _ (if_neg (by rw [reported]; exact Bool.false_ne_true)) enabled room

end Sys2Proof.Machine
end

