-- ==== Sys2Proof/Proofs/TagExpiry.lean ====
section
/-! PROOF. The expiry of a tag deadline (R32, R58): the generation enters TAGGED without a tag, its bands resolve UNTAGGED, and
one that is closed with no line held completes. -/

namespace Sys2Proof.Machine

/-! ### A slot with no tag deadline and no successor -/

/-- What has no tag deadline and no successor gains neither. -/
def Unarmed (i : SlotId) (s t : State) : Prop :=
  (s.slot i).tagDeadline = none → (s.slot i).frame.successor = none →
    (t.slot i).tagDeadline = none ∧ (t.slot i).frame.successor = none

theorem Unarmed.ofSlot {i : SlotId} {s t : State} (deadline : (t.slot i).tagDeadline = (s.slot i).tagDeadline)
    (successor : (t.slot i).frame.successor = (s.slot i).frame.successor) : Unarmed i s t :=
  fun h h' => ⟨deadline.trans h, successor.trans h'⟩

theorem Unarmed.ofSlots {i : SlotId} {s t : State} (same : t.slots = s.slots) : Unarmed i s t :=
  .ofSlot (by rw [State.slot_ofSlots same]) (by rw [State.slot_ofSlots same])

theorem Unarmed.trans {i : SlotId} {s t u : State} (a : Unarmed i s t) (b : Unarmed i t u) : Unarmed i s u := fun h h' =>
  b (a h h').1 (a h h').2

theorem Unarmed.beginGen (i : SlotId) (s : State) : Unarmed i s (s.beginGen i) := fun _ last => by
  rw [State.beginGen, State.slot_modSlot_self]
  refine ⟨rfl, ?_⟩
  change (s.slot i).frame.begin.successor = none
  unfold FrameRecord.begin
  rw [last]
  rfl

theorem Unarmed.applyPending (i : SlotId) (s : State) : Unarmed i s (s.applyPending i) := by
  cases pending : (s.slot i).pendingDesc with
  | none =>
    rw [State.applyPending_none pending]
    exact .ofSlots rfl
  | some d =>
    rw [State.applyPending_some pending]
    refine .trans (fun none_ last => ?_) (.ofSlots (State.raiseFor_slots ..))
    rw [State.slot, State.applyDescriptor_slots, put_self]
    cases d with
    | none => exact ⟨rfl, last⟩
    | some w =>
      refine ⟨rfl, ?_⟩
      change (FrameRecord.begin _).successor = none
      unfold FrameRecord.begin
      rw [last]
      rfl

theorem Unarmed.respected (i : SlotId) : Respected i (Unarmed i) where
  refl := fun _ => .ofSlots rfl
  trans := .trans
  bandTaken := fun kind src tagged waits => by
    have rest := (BandsTaken.bandTaken tagged waits kind src).slot.rest
    exact .ofSlot (by rw [rest]) (by rw [rest])
  bandHanded := fun s g b report _ => .ofSlots (State.bandHanded_slots s i g b report)
  tagged := fun s tag d => by
    obtain ⟨area, x, y, slot⟩ := s.slot_entersTagged i tag d
    exact fun _ last => by rw [slot]; exact ⟨rfl, last⟩
  untagged := fun s stamp missing _ => by
    obtain ⟨area, x, y, slot⟩ := s.slot_entersUntagged i stamp missing
    exact fun _ last => by rw [slot]; exact ⟨rfl, last⟩
  begins := .beginGen i
  armed := fun s _ some_ _ last => by
    rw [State.frame, last] at some_
    cases some_
  applies := fun s _ => .applyPending i s
  completes := fun s _ => .ofSlot (by rw [← State.completed, State.slot_completed])
    (by rw [← State.completed, State.slot_completed]; rfl)
  counted := fun s => .ofSlots s.countEnded_slots
  ended := fun s => .ofSlot (by rw [State.slot_modFrame_self]) (by rw [State.slot_modFrame_self]; rfl)

/-! ### The obligation -/

theorem State.expireTag_due {s : State} {i : SlotId} {d : Stamp} (deadline : (s.slot i).tagDeadline = some d)
    (come : reached s.ssu.clock d = true) (armed : (s.frame i).state = .armed) (complete : SlotId → State → State) :
    s.expireTag complete i = (s.entersUntagged i d true).takeBands complete .untagged i := by
  rw [State.expireTag, deadline]
  exact if_pos ⟨come, armed⟩

theorem State.expireTag_idle {s : State} {i : SlotId} (idle : ∀ d, (s.slot i).tagDeadline = some d →
    reached s.ssu.clock d = false ∨ (s.frame i).state ≠ .armed) (complete : SlotId → State → State) :
    s.expireTag complete i = s := by
  unfold State.expireTag
  cases deadline : (s.slot i).tagDeadline with
  | none => rfl
  | some d =>
    refine if_neg ?_
    rintro ⟨come, armed⟩
    rcases idle d deadline with h | h
    · rw [State.clock, h] at come
      cases come
    · exact h armed

theorem exec_tagDeadlineExpiry {s : State} (live : s.pins.resetN = true) (i : SlotId) :
    exec (.tagDeadlineExpiry i) s = .next (s.expireTag State.testComplete i).finish := by
  change execTagDeadlineExpiry i s = _
  rw [execTagDeadlineExpiry, State.whenLive, if_pos live]

/-- TAG_MISSING joins the Event Queue (R32). -/
theorem State.entersUntagged_events {s : State} {i : SlotId} {d : Stamp} (room : s.cru.events.length < 16)
    (enabled : s.cru.settings.eventDisable.getLsbD 2 = false) : (s.entersUntagged i d true).cru.events =
      s.cru.events ++ [⟨.tagMissing (s.frame i).firstIngest (s.frame i).beats (s.frame i).eofSeen, s.cru.overflow,
        some (i, (s.frame i).generation), s.clock⟩] := by
  have frame : (s.untaggedAt i d).frame i = (s.frame i).untagged d := by rw [State.frame, State.slot_untaggedAt]
  rw [State.entersUntagged]
  rw [State.caught_cru, if_pos rfl, State.raiseSlot, frame]
  exact State.raiseFor_events (s := s.untaggedAt i d) (e := ((s.frame i).untagged d).missingEvent) enabled room _

/-- Its bands are all UNTAGGED once all are resolved (R32). -/
theorem Slot.untagged_kind {bypass : Bool} {a b : Slot} (kinds : Slot.ofKind .untagged a b)
    (taken : Slot.BandsTaken bypass a b) (all : b.frame.allResolved = true) {d : Stamp}
    (waits : ∀ x : BandId, a.frame.bands[x] = ⟨none, some d, some d⟩) (x : BandId) :
    (b.frame.bands[x]).time = some d ∧ (b.frame.bands[x]).deadline = some d ∧
      (b.frame.bands[x]).result.map BandResult.kind = some .untagged := by
  have times := taken.times x
  have kind := kinds x (by rw [waits])
  have result := (FrameRecord.allResolved_iff _).mp all x
  rw [waits] at times
  rcases kind with h | h
  · rw [h] at result
    cases result
  · exact ⟨times.1, times.2, h⟩

theorem State.line_entersUntagged {s : State} {i : SlotId} {x : LineIdx} {tag : LineTag} {lanes : List Lane}
    {demand : Bool} {w : Window} (window : (s.slot i).committed = some w) (pending : s.line x = .held tag none lanes demand)
    (own : tag.slot = i) (current : tag.generation = (s.frame i).generation) (stamp : Stamp) (missing : Bool) :
    (s.entersUntagged i stamp missing).line x = .held tag (some (w.bandOfLine tag.line)) lanes demand := by
  have slot := s.slot_untaggedAt i stamp
  have raised (e : Event) : ((s.untaggedAt i stamp).raiseSlot i e).slot i = (s.untaggedAt i stamp).slot i :=
    State.slot_ofSlots (State.raiseFor_slots ..) i
  rw [State.entersUntagged]
  cases missing with
  | true =>
    refine State.line_caught ?_ ?_ own ?_
    · rw [if_pos rfl, raised, slot]
      exact window
    · rw [if_pos rfl, State.line, (OnFrames.raiseSlot _ _ _).ls]
      exact pending
    · rw [if_pos rfl, State.frame, raised, slot]
      exact current
  | false =>
    refine State.line_caught ?_ ?_ own ?_
    · rw [if_neg Bool.false_ne_true, slot]
      exact window
    · exact pending
    · rw [if_neg Bool.false_ne_true, State.frame, slot]
      exact current

/-- Settles O54: the generation enters TAGGED without a tag; it lingers, or completes at its last band. -/
theorem tagDeadlineExpires : Obligations.TagDeadlineExpires := by
  intro s i live quiet
  rw [exec_tagDeadlineExpiry live]
  refine ⟨fun d free deadline come armed => ?_, fun idle => by rw [State.expireTag_idle idle, quiet.finish_self]⟩
  rw [State.expireTag_due deadline come armed]
  have enters := OnSlot.entersUntagged s i d true
  obtain ⟨area, ox, oy, slot⟩ := s.slot_entersUntagged i d true
  obtain ⟨tagged, bands, waits⟩ := s.entersUntagged_waits i d true
  have events := State.entersUntagged_events (s := s) (i := i) (d := d)
  have lines (x : LineIdx) (tag : LineTag) (lanes : List Lane) (demand : Bool) (w : Window)
      (window : (s.slot i).committed = some w) (pending : s.line x = .held tag none lanes demand) (own : tag.slot = i)
      (current : tag.generation = (s.frame i).generation) :=
    State.line_entersUntagged window pending own current d true
  generalize s.entersUntagged i d true = u at *
  have off : u.inDrain = false := by rw [enters.within.inDrain, State.inDrain, free]
  have outside : u.inBypassEntry = false := by rw [enters.within.inBypassEntry, State.inBypassEntry, free]
  have frame : u.frame i = { (s.frame i).untagged d with area := area, offsetX := ox, offsetY := oy } := by
    rw [State.frame, slot]
  have takes := (OnSlot.respected i).takeBands (fun s => .testComplete s i) u .untagged
  have unarmed := (Unarmed.respected i).takeBands (fun s => (Unarmed.respected i).testComplete s) u .untagged
  have finished : (u.takeBands State.testComplete .untagged i).finish =
      (u.takeBands State.testComplete .untagged i).refreshReports :=
    State.finish_eq ((enters.trans takes).within.idle quiet.intake) (by rw [(enters.trans takes).er, quiet.queue])
  have stays (h : (s.frame i).closed = false ∨ (s.frame i).held ≠ 0) :
      AllSettled .untagged i u (u.takeBands State.testComplete .untagged i) := by
    refine State.takeBands_settles BandEvent.untagged_settles tagged waits .testComplete ?_
    rcases h with h | h
    · exact .inr (.inr ⟨off, outside, by rw [frame]; exact h⟩)
    · exact .inl (by rw [frame]; exact h)
  have done (closed : (s.frame i).closed = true) (clear : (s.frame i).held = 0) (going : (s.frame i).ended = false)
      (last : (s.frame i).successor = none) (untagged : (s.frame i).pendingTag = none)
      (kept : (s.slot i).pendingDesc = none) : ∃ v b report, AllSettled .untagged i u v ∧
        u.takeBands State.testComplete .untagged i = (v.completed i).bandHanded i (u.frame i).generation b report := by
    obtain ⟨v, b, report, settled, _, taken⟩ := State.takeBands_completes (i := i) BandEvent.untagged_settles tagged waits
      (by rw [frame]; exact clear) (by rw [frame]; exact going) off (.inl (by rw [frame]; exact closed))
      (by rw [frame]; exact last) (.inl (by rw [frame]; exact untagged)) (by rw [slot]; exact kept) 3
    exact ⟨v, b, report, settled, taken⟩
  have handed (v : State) (b : BandId) (report : Option Event) :
      ((v.completed i).bandHanded i (u.frame i).generation b report).frame i =
        (v.frame i).completed (v.slot i).expected v.cru.settings.tolerance v.inBypassEntry := by
    rw [State.frame, State.slot_ofSlots (State.bandHanded_slots ..), ← State.frame, State.frame_completed]
  rw [finished]
  generalize u.takeBands State.testComplete .untagged i = t at *
  dsimp only
  refine ⟨t.refreshReports, rfl, ?_, ?_, ?_, ?_, ?_, ?_⟩
  · intro quietly
    change (t.slot i).tagDeadline = none
    rw [← or_assoc] at quietly
    rcases quietly with h | last
    · rw [(stays h).taken.slot.rest, slot]
    · exact (unarmed (by rw [slot]) (by rw [slot]; exact last)).1
  · intro room enabled
    exact (events room enabled) ▸ takes.within.events
  · exact fun j other => (takes.other j other).trans (enters.other j other)
  · intro h
    have settled := stays h
    refine ⟨settled.resolved, ?_, fun x tag lanes demand w window pending own current => ?_⟩
    · change (t.frame i).presented = _
      rw [settled.frame, frame]
      rfl
    · exact (settled.taken.on.line x).trans (lines x tag lanes demand w window pending own current)
  · intro closed clear going last untagged kept
    obtain ⟨v, b, report, settled, rfl⟩ := done closed clear going last untagged kept
    have complete := handed v b report
    exact ⟨congrArg FrameRecord.state complete, congrArg (fun f : FrameRecord => f.presented.isSome) complete⟩
  · intro h
    rw [← or_assoc] at h
    have whole : ∃ v, AllSettled .untagged i u v ∧ (t.frame i).tagSequence = (v.frame i).tagSequence ∧
        (t.frame i).generation = (v.frame i).generation ∧ (t.frame i).held = (v.frame i).held ∧
        (t.frame i).beats = (v.frame i).beats ∧ (t.frame i).eofSeen = (v.frame i).eofSeen ∧
        (t.frame i).successor = (v.frame i).successor ∧ (t.frame i).bands = (v.frame i).bands := by
      rcases h with h | ⟨going, last, untagged, kept⟩
      · exact ⟨t, stays h, rfl, rfl, rfl, rfl, rfl, rfl, rfl⟩
      · by_cases h : (s.frame i).closed = false ∨ (s.frame i).held ≠ 0
        · exact ⟨t, stays h, rfl, rfl, rfl, rfl, rfl, rfl, rfl⟩
        · rw [not_or, not_not, Bool.not_eq_false] at h
          obtain ⟨v, b, report, settled, rfl⟩ := done h.1 h.2 going last untagged kept
          refine ⟨v, settled, ?_⟩
          rw [handed v b report]
          exact ⟨rfl, rfl, rfl, rfl, rfl, rfl, rfl⟩
    obtain ⟨v, settled, sequence, generation, held, beats, eof, successor, allBands⟩ := whole
    have fields := settled.frame
    rw [frame] at fields
    refine ⟨sequence.trans (by rw [fields]; rfl), generation.trans (by rw [fields]; rfl), held.trans (by rw [fields]; rfl),
      beats.trans (by rw [fields]; rfl), eof.trans (by rw [fields]; rfl), successor.trans (by rw [fields]; rfl), fun x => ?_⟩
    change ((t.frame i).bands[x]).time = some d ∧ ((t.frame i).bands[x]).deadline = some d ∧
      ((t.frame i).bands[x]).result.map BandResult.kind = some .untagged
    rw [allBands]
    exact Slot.untagged_kind settled.kinds settled.taken.slot settled.all bands x

end Sys2Proof.Machine
end

