-- ==== Sys2Proof/Proofs/Castouts.lean ====
section
/-! PROOF. The completion of a castout (R128, R35, R41, R193, R194): what becomes of the record and of the line count, and the
generation whose last line it was. -/

namespace Sys2Proof.Machine

/-- A castout has completed: the drain counts it, the record changes, a FAULT is reported; the line count and the completion
test follow (R128, R194). -/
def State.castoutLeft (s : State) (i : LineIdx) (st : Status) (tag : LineTag) (band : Option BandId) (lanes : List Lane)
    (demand : Bool) : State :=
  let failed := decide (st = .fault)
  let s := s.modDrain fun d => { d with castouts := d.castouts + 1, faulted := d.faulted + bit failed }
  let s := s.setLine i (if failed then .invalid else castoutLeaves tag lanes)
  if failed then
    s.raiseFor (some (tag.slot, tag.generation)) (.writebackFault (tag.line * 256) band (maskCount lanes) demand)
  else s

section
variable (s : State) (i : LineIdx) (st : Status) (tag : LineTag) (band : Option BandId) (lanes : List Lane) (demand : Bool)

theorem State.modDrain_slots (f : Drain → Drain) : (s.modDrain f).slots = s.slots := by
  unfold State.modDrain
  split <;> rfl

theorem State.modDrain_ls (f : Drain → Drain) : (s.modDrain f).ls = s.ls := by
  unfold State.modDrain
  split <;> rfl

theorem State.modDrain_events (f : Drain → Drain) : (s.modDrain f).cru.events = s.cru.events ∧
    (s.modDrain f).cru.overflow = s.cru.overflow ∧ (s.modDrain f).cru.settings = s.cru.settings ∧
    (s.modDrain f).clock = s.clock := by
  unfold State.modDrain
  split <;> exact ⟨rfl, rfl, rfl, rfl⟩

theorem State.modDrain_proc {d : Drain} (draining : s.cru.proc = .drain d) (f : Drain → Drain) :
    (s.modDrain f).cru.proc = .drain (f d) := by
  simp only [State.modDrain, draining]

theorem State.modDrain_off (off : s.cru.proc = .none) (f : Drain → Drain) : s.modDrain f = s := by
  simp only [State.modDrain, off]

theorem State.castoutLeft_slots : (s.castoutLeft i st tag band lanes demand).slots = s.slots := by
  unfold State.castoutLeft
  dsimp only
  split <;> simp [State.modDrain_slots]

theorem State.castoutLeft_ls : (s.castoutLeft i st tag band lanes demand).ls = { s.ls with
    lines := put s.ls.lines i (if st = .okay ∧ lanes.all Option.isSome = true then
      .clean tag (lanes.map fun l => l.getD 0) else .invalid) } := by
  unfold State.castoutLeft
  cases st <;> simp [State.modDrain_ls, castoutLeaves]

theorem State.castoutLeft_proc : (s.castoutLeft i st tag band lanes demand).cru.proc =
    (s.modDrain fun d => { d with
      castouts := d.castouts + 1, faulted := d.faulted + (if st = .fault then 1 else 0) }).cru.proc := by
  unfold State.castoutLeft
  cases st <;> simp [bit]

/-- A FAULT is reported with the byte count of the line and its demand mark (R128, R182). -/
theorem State.castoutLeft_events (room : s.cru.events.length < 16) (enabled : s.cru.settings.eventDisable.getLsbD 17 = false) :
    (s.castoutLeft i .fault tag band lanes demand).cru.events = s.cru.events ++
      [⟨.writebackFault (tag.line * 256) band (lanes.countP Option.isSome) demand, s.cru.overflow,
        some (tag.slot, tag.generation), s.clock⟩] := by
  unfold State.castoutLeft
  dsimp only
  obtain ⟨events, overflow, settings, clock⟩ := s.modDrain_events fun d =>
    { d with castouts := d.castouts + 1, faulted := d.faulted + bit (decide (Status.fault = .fault)) }
  generalize (s.modDrain fun d =>
    { d with castouts := d.castouts + 1, faulted := d.faulted + bit (decide (Status.fault = .fault)) }) = u at *
  rw [if_pos (by rfl)]
  rw [State.raiseFor_events (s := u.setLine i _) (by rw [← settings] at enabled; exact enabled)
    (by rw [← events] at room; exact room)]
  have clock' (r : LineRec) : (u.setLine i r).clock = s.clock := clock
  rw [State.setLine_cru, events, overflow, clock']
  rfl

theorem State.castoutLeft_okay_events :
    (s.castoutLeft i .okay tag band lanes demand).cru.events = s.cru.events ∧
      (s.castoutLeft i .okay tag band lanes demand).cru.overflow = s.cru.overflow ∧
      (s.castoutLeft i .okay tag band lanes demand).cru.settings = s.cru.settings ∧
      (s.castoutLeft i .okay tag band lanes demand).clock = s.clock :=
  s.modDrain_events _

end

theorem State.failReads_nil {s : State} (empty : s.ls.claims = []) : s.failReads [] = s := by
  have same : s.setClaims [] = s := by rw [← empty, State.setClaims]
  unfold State.failReads
  dsimp only [List.foldl_nil]
  rw [empty]
  exact same

/-- The completion of a castout in its order (R128, log entry 58). -/
theorem State.castoutDone_left {s : State} {i : LineIdx} {tag : LineTag} {band : Option BandId} {lanes : List Lane}
    {demand : Bool} (here : s.line i = .casting tag band lanes demand) (st : Status) : s.castoutDone i st =
      (if decide (st = .fault) then (State.testComplete tag.slot
        ((s.castoutLeft i st tag band lanes demand).modFrame tag.slot fun f => f.lineGone tag.generation)).failReads
          ((State.testComplete tag.slot ((s.castoutLeft i st tag band lanes demand).modFrame tag.slot fun f =>
            f.lineGone tag.generation)).readsWaiting tag.line)
      else State.testComplete tag.slot
        ((s.castoutLeft i st tag band lanes demand).modFrame tag.slot fun f => f.lineGone tag.generation)).evalIndex i := by
  unfold State.castoutDone
  rw [here]
  rfl

/-- With no read abandoned by it and no claim anywhere, a completed castout ends with the completion test (R128). -/
theorem State.castoutDone_eq {s : State} {i : LineIdx} {tag : LineTag} {band : Option BandId} {lanes : List Lane}
    {demand : Bool} (here : s.line i = .casting tag band lanes demand) (empty : s.ls.claims = []) (st : Status) :
    s.castoutDone i st = State.testComplete tag.slot ((s.castoutLeft i st tag band lanes demand).modFrame tag.slot fun f =>
      f.lineGone tag.generation) := by
  have claims : (State.testComplete tag.slot ((s.castoutLeft i st tag band lanes demand).modFrame tag.slot fun f =>
      f.lineGone tag.generation)).ls.claims = [] := by
    rw [(OnSlot.testComplete _ _).claims, State.modFrame_ls, State.castoutLeft_ls]
    exact empty
  rw [State.castoutDone_left here]
  generalize State.testComplete tag.slot
    ((s.castoutLeft i st tag band lanes demand).modFrame tag.slot fun f => f.lineGone tag.generation) = t at *
  have waiting : t.readsWaiting tag.line = [] := by rw [State.readsWaiting, claims, List.filterMap_nil]
  rw [waiting, State.failReads_nil claims, ite_self, State.evalIndex_nil claims]

/-! ### The obligations -/

/-- The completion of a castout with nothing else in the part, up to its reports. -/
theorem exec_castoutCompletion {s : State} {e : DownTag} {i : LineIdx} (busy : s.mpu.outstanding[e] = some (.castout i))
    (idle : s.mpu.intake = none) (queue : s.er.queue = []) (st : Status) :
    exec (.castoutCompletion e st) s = .next ((s.freeEntry e).castoutDone i st).refreshReports := by
  have within := Within.castoutDone (s.freeEntry e) i st
  change execCastoutCompletion e st s = _
  rw [execCastoutCompletion, busy]
  dsimp only
  rw [State.finish_eq (within.idle idle)]
  have short := within.queue
  rw [State.freeEntry_er, queue] at short
  exact List.eq_nil_of_length_eq_zero (Nat.le_zero.mp short)

/-- What a finished command leaves BUSY is what its last operation left (R16). -/
theorem Within.finish_busy {s t : State} (w : Within s t) (x : DownTag) :
    (t.finish.mpu.outstanding[x]).isSome = (s.mpu.outstanding[x]).isSome := (w.trans (.settled t)).busy x

theorem State.freeEntry_drain {s : State} {d : Drain} (draining : s.cru.proc = .drain d) (e : DownTag) :
    (s.freeEntry e).cru.proc = .drain { d with waitFor := d.waitFor.erase e } := by
  simp only [State.freeEntry, draining]

theorem FrameRecord.lineGone_current {f : FrameRecord} {g : Generation} (current : f.generation = g) :
    f.lineGone g = { f with held := f.held - 1 } := if_pos current

section
variable {s : State} {e : DownTag} {st : Status} {i : LineIdx} {tag : LineTag} {band : Option BandId} {lanes : List Lane}
  {demand : Bool} (current : (s.frame tag.slot).generation = tag.generation)
include current

/-- The slot of a line whose castout has completed, before the completion test (R37). -/
theorem State.slot_castoutGone : (((s.freeEntry e).castoutLeft i st tag band lanes demand).modFrame tag.slot fun f =>
    f.lineGone tag.generation).slot tag.slot = { s.slot tag.slot with
      frame := { s.frame tag.slot with held := (s.frame tag.slot).held - 1 } } := by
  have same : ((s.freeEntry e).castoutLeft i st tag band lanes demand).slot tag.slot = s.slot tag.slot :=
    State.slot_ofSlots (State.castoutLeft_slots (s.freeEntry e) i st tag band lanes demand) tag.slot
  rw [State.slot_modFrame_self, State.frame, same, ← State.frame, FrameRecord.lineGone_current current]

end

/-- Settles O34: the record and the count change; the completion test does nothing, or ends the generation in a drain. -/
theorem castoutCompletes : Obligations.CastoutCompletes := by
  intro s e st i tag band lanes demand busy here
  have here' : (s.freeEntry e).line i = .casting tag band lanes demand := here
  refine ⟨⟨((s.freeEntry e).castoutDone i st).finish, ?_, fun x => ?_⟩, fun idle queue empty current more => ?_,
    fun d draining idle queue empty current one resolved going last => ?_⟩
  · change execCastoutCompletion e st s = _
    rw [execCastoutCompletion, busy]
  · rw [(Within.castoutDone _ i st).finish_busy x]
    exact s.freeEntry_busy e x
  · rw [exec_castoutCompletion busy idle queue, State.castoutDone_eq here' empty]
    have slot := State.slot_castoutGone (e := e) (st := st) (i := i) (band := band) (lanes := lanes) (demand := demand) current
    have frame := congrArg Slot.frame slot
    rw [State.testComplete, State.tryComplete_stays (.inr (.inl (by rw [State.frame, frame]; dsimp only; omega)))]
    refine ⟨_, rfl, ?_, ?_, frame, ?_, ?_, ?_, ?_⟩
    · change ((s.freeEntry e).castoutLeft i st tag band lanes demand).ls.lines[i] = _
      rw [State.castoutLeft_ls]
      exact put_self _ _ _
    · intro j other
      change ((s.freeEntry e).castoutLeft i st tag band lanes demand).ls.lines[j] = _
      rw [State.castoutLeft_ls, put_get, if_neg (Ne.symm other)]
      rfl
    · intro j other
      rw [State.slot_refreshReports, State.slot_modFrame_other _ other]
      exact State.slot_ofSlots (State.castoutLeft_slots (s.freeEntry e) i st tag band lanes demand) j
    · rintro rfl room enabled
      exact State.castoutLeft_events (s.freeEntry e) i tag band lanes demand room enabled
    · rintro rfl
      exact ((s.freeEntry e).castoutLeft_okay_events i tag band lanes demand).1
    · intro d draining
      refine ((s.freeEntry e).castoutLeft_proc i st tag band lanes demand).trans ?_
      rw [State.modDrain_proc _ (State.freeEntry_drain draining e)]
  · rw [exec_castoutCompletion busy idle queue, State.castoutDone_eq here' empty]
    have slot := State.slot_castoutGone (e := e) (st := st) (i := i) (band := band) (lanes := lanes) (demand := demand) current
    have proc : (((s.freeEntry e).castoutLeft i st tag band lanes demand).modFrame tag.slot fun f =>
        f.lineGone tag.generation).cru.proc = .drain { d with
          castouts := d.castouts + 1, faulted := d.faulted + (if st = .fault then 1 else 0)
          waitFor := d.waitFor.erase e } := by
      refine ((s.freeEntry e).castoutLeft_proc i st tag band lanes demand).trans ?_
      rw [State.modDrain_proc _ (State.freeEntry_drain draining e)]
    have events (okay : st = .okay) : (((s.freeEntry e).castoutLeft i st tag band lanes demand).modFrame tag.slot fun f =>
        f.lineGone tag.generation).cru.events = s.cru.events := by
      subst okay
      exact ((s.freeEntry e).castoutLeft_okay_events i tag band lanes demand).1
    generalize ((s.freeEntry e).castoutLeft i st tag band lanes demand).modFrame tag.slot (fun f =>
      f.lineGone tag.generation) = v at *
    have frame : v.frame tag.slot = { s.frame tag.slot with held := (s.frame tag.slot).held - 1 } := by
      rw [State.frame, slot]
    rw [State.testComplete, State.tryComplete_drain (by rw [frame]; exact resolved) (by rw [frame]; dsimp only; omega)
      (by rw [frame]; exact going) (by rw [State.inDrain, proc]), State.endGen_last (by rw [frame]; exact last)]
    refine ⟨_, rfl, ?_, ?_, fun okay => ?_⟩
    · rw [State.frame_refreshReports, State.frame_modFrame_self, State.frame_countEnded, frame]
      dsimp only
      rw [one]
    · exact State.modDrain_proc v proc _
    · exact (State.modDrain_events v _).1.trans (events okay)

/-- Settles O35: the last castout leads to the completion test, and the generation completes with its event. -/
theorem generationCompletes : Obligations.GenerationCompletes := by
  intro s e i tag band lanes demand w busy here idle queue empty free window kept current one resolved closed going last
    untagged room enabled
  have here' : (s.freeEntry e).line i = .casting tag band lanes demand := here
  dsimp only
  rw [exec_castoutCompletion busy idle queue, State.castoutDone_eq here' empty]
  have slot := State.slot_castoutGone (e := e) (st := .okay) (i := i) (band := band) (lanes := lanes) (demand := demand) current
  have okay := (s.freeEntry e).castoutLeft_okay_events i tag band lanes demand
  have proc : (((s.freeEntry e).castoutLeft i .okay tag band lanes demand).modFrame tag.slot fun f =>
      f.lineGone tag.generation).cru.proc = .none := by
    refine ((s.freeEntry e).castoutLeft_proc i .okay tag band lanes demand).trans ?_
    have free' : (s.freeEntry e).cru.proc = .none := by simp only [State.freeEntry, free]
    rw [State.modDrain_off _ free', free']
  have stands : (((s.freeEntry e).castoutLeft i .okay tag band lanes demand).modFrame tag.slot fun f =>
      f.lineGone tag.generation).cru.events = s.cru.events ∧
      (((s.freeEntry e).castoutLeft i .okay tag band lanes demand).modFrame tag.slot fun f =>
        f.lineGone tag.generation).cru.settings = s.cru.settings ∧
      (((s.freeEntry e).castoutLeft i .okay tag band lanes demand).modFrame tag.slot fun f =>
        f.lineGone tag.generation).clock = s.clock := ⟨okay.1, okay.2.2.1, okay.2.2.2⟩
  generalize ((s.freeEntry e).castoutLeft i .okay tag band lanes demand).modFrame tag.slot (fun f =>
    f.lineGone tag.generation) = v at *
  obtain ⟨events, settings, clock⟩ := stands
  have frame : v.frame tag.slot = { s.frame tag.slot with held := 0 } := by
    rw [State.frame, slot, one]
  have off : v.inDrain = false := by rw [State.inDrain, proc]
  have outside : v.inBypassEntry = false := by rw [State.inBypassEntry, proc]
  have expected : (v.slot tag.slot).expected = w.height * w.width * 2 / 16 := by
    rw [slot, Slot.expected, window]
    rfl
  rw [State.testComplete, State.tryComplete_completes (by rw [frame]; exact resolved) (by rw [frame])
    (by rw [frame]; exact going) off (by rw [frame]; exact closed) (by rw [frame]; exact last)
    (.inl (by rw [frame]; exact untagged)) (by rw [slot]; exact kept)]
  have completed := v.frame_completed tag.slot
  rw [frame, expected, settings, outside] at completed
  have told := State.completed_events (s := v) (i := tag.slot) (by rw [events]; exact room) (by rw [settings]; exact enabled)
  rw [events] at told
  refine ⟨_, rfl, completed, _, told, ?_, clock, ?_⟩
  · rw [frame]
    exact congrArg (fun g => some (tag.slot, g)) current
  · rw [State.frame_refreshReports, completed]
    rfl

end Sys2Proof.Machine
end

