-- ==== Sys2Proof/Proofs/Fills.lean ====
section
/-! PROOF. The completion of a fill part (R132, R165–R167): what becomes of the record, and of a read that waits on it. -/

namespace Sys2Proof.Machine

/-! ### The end of a command with one read -/

/-- At the end of a command with nothing presented the Egress Queue is answered and the reports follow. -/
theorem State.finish_answers {s : State} (idle : s.mpu.intake = none) : s.finish = (s.answerReads 16).refreshReports := by
  have settled : State.settleIntake 8 s = s := by
    unfold State.settleIntake
    rw [idle]
  rw [State.finish, settled]

theorem State.answerReads_empty {s : State} (empty : s.er.queue = []) (n : Nat) : State.answerReads n s = s := by
  cases n with
  | zero => rfl
  | succ n =>
    unfold State.answerReads
    rw [empty]

/-- A GATHERING read at the head waits (R166). -/
theorem State.answerReads_gathering {s : State} {r : EgressEntry} {rest : List EgressEntry} (head : s.er.queue = r :: rest)
    (gathering : r.state = .gathering) (n : Nat) : State.answerReads n s = s := by
  cases n with
  | zero => rfl
  | succ n =>
    unfold State.answerReads
    rw [head]
    dsimp only
    rw [gathering]

/-- A single READY read is answered OKAY (R166). -/
theorem State.answerReads_ready {s : State} {r : EgressEntry} {data : List Byte} (single : s.er.queue = [r])
    (ready : r.state = .ready data) (n : Nat) : State.answerReads (n + 1) s = s.popRead.complete (r.okay data) := by
  have empty : (s.popRead.complete (r.okay data)).er.queue = [] := by
    simp [State.popRead, single]
  rw [State.answerReads, single]
  dsimp only
  rw [ready]
  exact State.answerReads_empty empty n

/-- A single FAILED read is answered FAULT (R166, R167). -/
theorem State.answerReads_failed {s : State} {r : EgressEntry} (single : s.er.queue = [r])
    (failed : r.state = .failed) (n : Nat) : State.answerReads (n + 1) s = s.popRead.complete r.fault := by
  have empty : (s.popRead.complete r.fault).er.queue = [] := by
    simp [State.popRead, single]
  rw [State.answerReads, single]
  dsimp only
  rw [failed]
  exact State.answerReads_empty empty n

/-! ### The record -/

section
variable {s : State} {x : FillPart} {tag : LineTag} {old : List Byte} {parts : Nat} {faulted : List FillPartKind}
  (filling : s.line (indexOf x.line) = .filling tag old parts faulted)
include filling

/-- While a part is outstanding the record stays FILLING (R132). -/
theorem State.fillDone_more (more : 1 < parts) (st : Status) (bytes : List Byte) : s.fillDone x st bytes =
    s.setLine (indexOf x.line) (.filling tag (overlay old (16 * x.firstBeat) (16 * x.beats) bytes) (parts - 1)
      (if st = .okay then faulted else faulted ++ [x.kind])) := by
  unfold State.fillDone
  dsimp only
  rw [filling]
  exact if_pos more

/-- At the last part of a fill with no fault the record is CLEAN (R132). -/
theorem State.fillDone_clean (last : parts ≤ 1) {st : Status}
    (good : (if st = .okay then faulted else faulted ++ [x.kind]) = []) (bytes : List Byte) : s.fillDone x st bytes =
    (s.setLine (indexOf x.line) (.clean tag (overlay old (16 * x.firstBeat) (16 * x.beats) bytes))).evalIndex
      (indexOf x.line) := by
  unfold State.fillDone
  dsimp only
  rw [filling]
  dsimp only
  rw [if_neg (not_lt.mpr last), good]
  rfl

/-- At the last part of a fill with a fault the fill fails (R132). -/
theorem State.fillDone_fails (last : parts ≤ 1) {st : Status}
    (bad : (if st = .okay then faulted else faulted ++ [x.kind]) ≠ []) (bytes : List Byte) : s.fillDone x st bytes =
    s.failFill (indexOf x.line) tag (if st = .okay then faulted else faulted ++ [x.kind]) := by
  unfold State.fillDone
  dsimp only
  rw [filling]
  dsimp only
  rw [if_neg (not_lt.mpr last), if_neg (by simpa using bad)]

end

/-- A record becomes INVALID and FILL_FAULT is raised (R132, R167). -/
def State.fillFailed (s : State) (i : LineIdx) (tag : LineTag) (faulted : List FillPartKind) (reads : Nat) : State :=
  (s.setLine i .invalid).raiseFor (some (tag.slot, tag.generation)) (.fillFault (tag.line * 256) faulted reads)

theorem State.setClaims_self {s : State} {l : List Claim} (same : s.ls.claims = l) : s.setClaims l = s := by
  rw [← same, State.setClaims]

theorem State.failFill_nil {s : State} (empty : s.ls.claims = []) (i : LineIdx) (tag : LineTag)
    (faulted : List FillPartKind) : s.failFill i tag faulted = s.fillFailed i tag faulted 0 := by
  have claims : (s.fillFailed i tag faulted 0).ls.claims = [] := by
    rw [State.fillFailed, State.raiseFor_ls]
    exact empty
  have waiting : s.readsWaiting tag.line = [] := by rw [State.readsWaiting, empty, List.filterMap_nil]
  unfold State.failFill
  dsimp only
  rw [waiting]
  change (((s.fillFailed i tag faulted 0).setClaims ((s.fillFailed i tag faulted 0).ls.claims.filter _)).failReads
    []).evalIndex i = _
  rw [claims, List.filter_nil, State.setClaims_self claims, State.failReads_nil claims, State.evalIndex_nil claims]

/-! ### A read that waits on the fill -/

section
variable {s : State} {line : Nat} {r : EgressEntry} {j : SlotId} {g : Generation} {beat : Nat}
  (single : s.er.queue = [r]) (waits : s.ls.claims = [⟨line, .need r.id j g beat, false, false⟩])
include single waits

/-- The need is served from the record that has become CLEAN (R131, R165). -/
theorem State.evalIndex_serves {tag : LineTag} {data : List Byte} (clean : s.line (indexOf line) = .clean tag data)
    (own : tag.line = line) : s.evalIndex (indexOf line) = { s with
      ls := { s.ls with claims := [] }, er := { s.er with queue := [r.serve line data] } } := by
  have popped : (s.popClaim (indexOf line)).ls.claims = [] := by
    simp [waits, Claim.on]
  have served : s.evalClaim (indexOf line) ⟨line, .need r.id j g beat, false, false⟩ =
      ((s.popClaim (indexOf line)).modRead r.id fun e => e.serve line data, true) := by
    simp only [State.evalClaim, State.evalNeed, clean, own, if_true]
  rw [State.evalIndex_served (State.headClaim_single waits) rfl served (State.headClaim_nil popped _)]
  simp [State.modRead, State.popClaim, State.setClaims, single, waits, Claim.on]

/-- The read is failed with the fill (R132, R167). -/
theorem State.failFill_read {tag : LineTag} (own : tag.line = line) (faulted : List FillPartKind) :
    s.failFill (indexOf line) tag faulted = { s.fillFailed (indexOf line) tag faulted 1 with
      ls := { (s.fillFailed (indexOf line) tag faulted 1).ls with claims := [] }
      er := { s.er with queue := [r.fail] } } := by
  have waiting : s.readsWaiting tag.line = [r.id] := by simp [State.readsWaiting, waits, own]
  have er : (s.fillFailed (indexOf line) tag faulted 1).er = s.er := by
    rw [State.fillFailed, State.raiseFor_er, State.setLine_er]
  have claims : (s.fillFailed (indexOf line) tag faulted 1).ls.claims.filter (fun c =>
      !(c.line == tag.line && !c.ofIntake)) = [] := by
    rw [State.fillFailed, State.raiseFor_ls, State.setLine_ls, waits, own]
    simp [Claim.ofIntake]
  unfold State.failFill
  dsimp only
  rw [waiting]
  change (((s.fillFailed (indexOf line) tag faulted 1).setClaims ((s.fillFailed (indexOf line) tag faulted 1).ls.claims.filter
    fun c => !(c.line == tag.line && !c.ofIntake))).failReads [r.id]).evalIndex (indexOf line) = _
  rw [claims]
  generalize s.fillFailed (indexOf line) tag faulted 1 = u at *
  have failed : (u.setClaims []).failReads [r.id] =
      { u with ls := { u.ls with claims := [] }, er := { s.er with queue := [r.fail] } } := by
    simp [State.failReads, State.modRead, State.setClaims, State.evalIndices, er, single]
  rw [failed]
  exact State.evalIndex_nil rfl _

end

/-! ### The obligation -/

theorem State.fillFailed_events {s : State} (room : s.cru.events.length < 16)
    (enabled : s.cru.settings.eventDisable.getLsbD 18 = false) (i : LineIdx) (tag : LineTag) (faulted : List FillPartKind)
    (reads : Nat) : (s.fillFailed i tag faulted reads).cru.events = s.cru.events ++
      [⟨.fillFault (tag.line * 256) faulted reads, s.cru.overflow, some (tag.slot, tag.generation), s.clock⟩] :=
  State.raiseFor_events (s := s.setLine i .invalid) (e := .fillFault (tag.line * 256) faulted reads) enabled room _

theorem State.fillFailed_ls (s : State) (i : LineIdx) (tag : LineTag) (faulted : List FillPartKind) (reads : Nat) :
    (s.fillFailed i tag faulted reads).ls = { s.ls with lines := put s.ls.lines i .invalid } := by
  rw [State.fillFailed, State.raiseFor_ls, State.setLine_ls]

theorem State.fillFailed_slots (s : State) (i : LineIdx) (tag : LineTag) (faulted : List FillPartKind) (reads : Nat) :
    (s.fillFailed i tag faulted reads).slots = s.slots := by
  rw [State.fillFailed, State.raiseFor_slots, State.setLine_slots]

theorem State.fillFailed_mpu (s : State) (i : LineIdx) (tag : LineTag) (faulted : List FillPartKind) (reads : Nat) :
    (s.fillFailed i tag faulted reads).mpu = s.mpu := by
  rw [State.fillFailed, State.raiseFor_mpu, State.setLine_mpu]

/-- The completion of a fill part with nothing presented, up to its reports. -/
theorem exec_fillCompletion {s : State} {e : DownTag} {x : FillPart} (busy : s.mpu.outstanding[e] = some (.fill x))
    (idle : s.mpu.intake = none) (st : Status) (data : List Byte) : exec (.fillCompletion e st data) s =
      .next (State.answerReads 16 ((s.freeEntry e).fillDone x st data)).refreshReports := by
  change execFillCompletion e st data s = _
  rw [execFillCompletion, busy]
  dsimp only
  rw [State.finish_answers ((Within.fillDone (s.freeEntry e) x st data).idle idle)]

theorem State.fillDone_empty {s : State} {x : FillPart} {tag : LineTag} {old : List Byte} {parts : Nat}
    {faulted marks : List FillPartKind} (filling : s.line (indexOf x.line) = .filling tag old parts faulted)
    (empty : s.ls.claims = []) {st : Status} (marked : (if st = .okay then faulted else faulted ++ [x.kind]) = marks)
    (data : List Byte) : s.fillDone x st data =
      let new := overlay old (16 * x.firstBeat) (16 * x.beats) data
      if 1 < parts ∨ marks = [] then
        s.setLine (indexOf x.line) (if 1 < parts then .filling tag new (parts - 1) marks else .clean tag new)
      else s.fillFailed (indexOf x.line) tag marks 0 := by
  dsimp only
  by_cases more : 1 < parts
  · rw [State.fillDone_more filling more, marked, if_pos (Or.inl more), if_pos more]
  · by_cases good : marks = []
    · rw [State.fillDone_clean filling (not_lt.mp more) (marked.trans good),
        State.evalIndex_nil (by rw [State.setLine_ls]; exact empty), if_pos (Or.inr good), if_neg more]
    · rw [State.fillDone_fails filling (not_lt.mp more) (by rw [marked]; exact good), marked, State.failFill_nil empty,
        if_neg (not_or.mpr ⟨more, good⟩)]

theorem fillDone_withoutRead {s : State} {e : DownTag} {st : Status} {data : List Byte} {x : FillPart} {tag : LineTag}
    {old : List Byte} {parts : Nat} {faulted : List FillPartKind} (busy : s.mpu.outstanding[e] = some (.fill x))
    (filling : s.line (indexOf x.line) = .filling tag old parts faulted) (idle : s.mpu.intake = none)
    (queue : s.er.queue = []) (claims : s.ls.claims = []) :
    let new := overlay old (16 * x.firstBeat) (16 * x.beats) data
    let marks := if st = .okay then faulted else faulted ++ [x.kind]
    ∃ t, exec (.fillCompletion e st data) s = .next t ∧
      t.line (indexOf x.line) = (if 1 < parts then .filling tag new (parts - 1) marks
        else if marks = [] then .clean tag new else .invalid) ∧
      (∀ j, j ≠ indexOf x.line → t.line j = s.line j) ∧
      t.slots = s.slots ∧
      (∀ y : DownTag, (t.mpu.outstanding[y]).isSome = ((s.mpu.outstanding[y]).isSome && decide (y ≠ e))) ∧
      ((1 < parts ∨ marks = []) → t.cru.events = s.cru.events) ∧
      (parts ≤ 1 → marks ≠ [] → s.cru.events.length < 16 → s.cru.settings.eventDisable.getLsbD 18 = false →
        t.cru.events = s.cru.events ++ [{
          event := .fillFault (tag.line * 256) marks 0, overflow := s.cru.overflow
          slot := some (tag.slot, tag.generation), stamp := s.clock }]) := by
  dsimp only
  have filling' : (s.freeEntry e).line (indexOf x.line) = .filling tag old parts faulted := filling
  have freed := s.freeEntry_busy e
  rw [exec_fillCompletion busy idle, State.fillDone_empty filling' claims rfl]
  dsimp only
  generalize (if st = .okay then faulted else faulted ++ [x.kind]) = marks
  generalize overlay old (16 * x.firstBeat) (16 * x.beats) data = new
  by_cases kept : 1 < parts ∨ marks = []
  · rw [if_pos kept, State.answerReads_empty (by exact queue)]
    refine ⟨_, rfl, ?_, fun j other => ?_, rfl, freed, fun _ => rfl, fun last bad => ?_⟩
    · rw [State.line_refreshReports, State.line_setLine_self]
      split
      · rfl
      · next last => rw [if_pos (kept.resolve_left last)]
    · rw [State.line_refreshReports, State.line_setLine_other _ other]
      rfl
    · exact absurd kept (by rw [not_or]; exact ⟨not_lt.mpr last, bad⟩)
  · rw [if_neg kept, State.answerReads_empty (by
      rw [State.fillFailed, State.raiseFor_er]
      exact queue)]
    rw [not_or] at kept
    refine ⟨_, rfl, ?_, fun j other => ?_, State.fillFailed_slots .., fun y => ?_, fun h => absurd h (not_or.mpr kept),
      fun _ _ room enabled => State.fillFailed_events (s := s.freeEntry e) room enabled ..⟩
    · rw [State.line_refreshReports, if_neg kept.1, if_neg kept.2, State.line, State.fillFailed_ls]
      exact put_self _ _ _
    · rw [State.line_refreshReports, State.line, State.fillFailed_ls, put_get, if_neg (Ne.symm other)]
      rfl
    · change (((s.freeEntry e).fillFailed (indexOf x.line) tag marks 0).mpu.outstanding[y]).isSome = _
      rw [State.fillFailed_mpu]
      exact freed y

/-- A read with its needs served from the data of a line (R165). -/
theorem EgressEntry.serve_eq (r : EgressEntry) (line : Nat) (data : List Byte) :
    let needs := r.needs.map fun n =>
      if n.line = line then { n with taken := some (r.setting.taken r.addr.toNat r.beats line data) } else n
    r.serve line data = if needs.all (fun n => n.taken.isSome) = true then
      { r with needs := needs, state := .ready (r.setting.beats r.addr.toNat r.beats
        (needs.flatMap fun n => n.taken.getD [])) }
      else { r with needs := needs } := by
  unfold EgressEntry.serve EgressEntry.readyIfServed
  rfl

/-- Settles O36: the record by the parts still outstanding and their faults, with and without a read that waits. -/
theorem fillCompletes : Obligations.FillCompletes := by
  intro s e st data x tag old parts faulted busy filling idle
  refine ⟨fillDone_withoutRead busy filling idle, fun r i g beat single gathering own waits => ?_⟩
  dsimp only
  have filling' : (s.freeEntry e).line (indexOf x.line) = .filling tag old parts faulted := filling
  rw [exec_fillCompletion busy idle]
  by_cases more : 1 < parts
  · rw [State.fillDone_more filling' more, State.answerReads_gathering (by exact single) gathering]
    refine ⟨_, rfl, rfl, fun _ => ⟨State.line_setLine_self .., rfl, rfl, rfl⟩, fun last => ?_, fun last => ?_⟩ <;> omega
  · have last := not_lt.mp more
    by_cases good : (if st = .okay then faulted else faulted ++ [x.kind]) = []
    · rw [State.fillDone_clean filling' last good]
      generalize overlay old (16 * x.firstBeat) (16 * x.beats) data = new
      rw [State.evalIndex_serves (s := (s.freeEntry e).setLine (indexOf x.line) (.clean tag new)) single waits
        (State.line_setLine_self ..) own]
      have served := r.serve_eq x.line new
      dsimp only at served
      generalize r.needs.map (fun n =>
        if n.line = x.line then { n with taken := some (r.setting.taken r.addr.toNat r.beats x.line new) } else n) =
        needs at *
      cases all : needs.all fun n => n.taken.isSome with
      | true =>
        rw [all, if_pos rfl] at served
        rw [served, State.answerReads_ready (by rfl) (by rfl)]
        exact ⟨_, rfl, rfl, fun h => absurd h more, fun _ _ => ⟨State.line_setLine_self .., rfl, fun _ => ⟨rfl, rfl⟩,
          fun h => absurd h (by decide)⟩, fun _ bad => absurd good bad⟩
      | false =>
        rw [all, if_neg Bool.false_ne_true] at served
        rw [served, State.answerReads_gathering (r := { r with needs := needs }) (by rfl) gathering]
        exact ⟨_, rfl, rfl, fun h => absurd h more, fun _ _ => ⟨State.line_setLine_self .., rfl,
          fun h => absurd h (by decide), fun _ => ⟨rfl, rfl⟩⟩, fun _ bad => absurd good bad⟩
    · rw [State.fillDone_fails filling' last good, State.failFill_read (s := s.freeEntry e) single waits own,
        State.answerReads_failed (by rfl) (by rfl)]
      have ls := State.fillFailed_ls (s.freeEntry e) (indexOf x.line) tag
        (if st = .okay then faulted else faulted ++ [x.kind]) 1
      have ports : ((s.freeEntry e).fillFailed (indexOf x.line) tag
          (if st = .okay then faulted else faulted ++ [x.kind]) 1).ports = s.ports := by
        rw [State.fillFailed, State.raiseFor_ports]
        rfl
      have events (room : s.cru.events.length < 16) (enabled : s.cru.settings.eventDisable.getLsbD 18 = false) :=
        State.fillFailed_events (s := s.freeEntry e) room enabled (indexOf x.line) tag
          (if st = .okay then faulted else faulted ++ [x.kind]) 1
      have slots := State.fillFailed_slots (s.freeEntry e) (indexOf x.line) tag
        (if st = .okay then faulted else faulted ++ [x.kind]) 1
      generalize (s.freeEntry e).fillFailed (indexOf x.line) tag
        (if st = .okay then faulted else faulted ++ [x.kind]) 1 = u at *
      refine ⟨_, rfl, slots, fun h => absurd h more, fun _ h => absurd h good, fun _ _ => ⟨?_, rfl, rfl, ?_, events⟩⟩
      · change u.ls.lines[indexOf x.line] = _
        rw [ls]
        exact put_self _ _ _
      · change u.ports.ump ++ _ = _
        rw [ports]
        rfl

end Sys2Proof.Machine
end

