-- ==== Sys2Proof/Proofs/ReadSteps.lean ====
section
/-! SUPPORT. With nothing presented the evaluation of claims is the reads' alone: what it, the withdrawal of reads and the
answers of the Egress Queue leave unchanged. -/

namespace Sys2Proof.Machine

/-- From `s` to `t` only the Line Store, classes 1 and 2, the Egress Queue and the upstream completions have changed. -/
structure OnReads (s t : State) : Prop where
  within : Within s t
  mpu : t.mpu = { s.mpu with class1 := t.mpu.class1, class2 := t.mpu.class2 }
  slots : t.slots = s.slots
  ssu : t.ssu = s.ssu
  llc : t.llc = s.llc
  pu : t.pu = s.pu
  cru : t.cru = s.cru

theorem OnReads.refl (s : State) : OnReads s s := ⟨.refl s, rfl, rfl, rfl, rfl, rfl, rfl⟩

theorem OnReads.trans {s t u : State} (a : OnReads s t) (b : OnReads t u) : OnReads s u where
  within := a.within.trans b.within
  mpu := by rw [b.mpu, a.mpu]
  slots := b.slots.trans a.slots
  ssu := b.ssu.trans a.ssu
  llc := b.llc.trans a.llc
  pu := b.pu.trans a.pu
  cru := b.cru.trans a.cru

section
variable {s t : State} (a : OnReads s t)
include a

theorem OnReads.intake : t.mpu.intake = s.mpu.intake := by rw [a.mpu]
theorem OnReads.class3 : t.mpu.class3 = s.mpu.class3 := by rw [a.mpu]
theorem OnReads.outstanding : t.mpu.outstanding = s.mpu.outstanding := by rw [a.mpu]
theorem OnReads.slot (i : SlotId) : t.slot i = s.slot i := State.slot_ofSlots a.slots i
theorem OnReads.frame (i : SlotId) : t.frame i = s.frame i := by rw [State.frame, a.slot, State.frame]

end

/-! ### The operations -/

theorem OnReads.setClaims (s : State) (l : List Claim) : OnReads s (s.setClaims l) :=
  ⟨.setClaims s l, rfl, rfl, rfl, rfl, rfl, rfl⟩

theorem OnReads.popClaim (s : State) (i : LineIdx) : OnReads s (s.popClaim i) := .setClaims s _

theorem OnReads.modRead (s : State) (r : Nat) (f : EgressEntry → EgressEntry) (fixed : ∀ e, (f e).fixed = e.fixed) :
    OnReads s (s.modRead r f) := ⟨.modRead s r f fixed, rfl, rfl, rfl, rfl, rfl, rfl⟩

theorem OnReads.popRead (s : State) : OnReads s s.popRead := ⟨.popRead s, rfl, rfl, rfl, rfl, rfl, rfl⟩

theorem OnReads.complete (s : State) (c : UpCompletion) : OnReads s (s.complete c) :=
  ⟨.complete s c, rfl, rfl, rfl, rfl, rfl, rfl⟩

theorem OnReads.demand (s : State) (i : LineIdx) : OnReads s (s.demand i) := by
  refine ⟨.demand s i, ?_, ?_, ?_, ?_, ?_, ?_⟩ <;> unfold State.demand <;> dsimp only <;> split
  all_goals first | rfl | (split <;> rfl)

theorem OnReads.startFill (s : State) (i : LineIdx) (line : Nat) (slot : SlotId) (g : Generation) (beat : Nat)
    (here : indexOf line = i) : OnReads s (s.startFill i line slot g beat) :=
  ⟨.startFill s i line slot g beat here, rfl, rfl, rfl, rfl, rfl, rfl⟩

theorem OnReads.evalNeed (s : State) (i : LineIdx) (line read : Nat) (slot : SlotId) (g : Generation) (beat : Nat)
    (here : indexOf line = i) : OnReads s (s.evalNeed i line read slot g beat).1 := by
  unfold State.evalNeed
  cases s.line i with
  | clean tag data =>
    dsimp only
    split
    · exact (OnReads.popClaim s i).trans (.modRead _ _ _ fun e => EgressEntry.fixed_serve e line data)
    · exact .startFill s i line slot g beat here
  | invalid => exact .startFill s i line slot g beat here
  | held => exact .demand s i
  | filling => exact .refl s
  | casting => exact .refl s

/-- With nothing presented a claim of the Intake Stage is not evaluated. -/
theorem OnReads.evalClaim {s : State} (idle : s.mpu.intake = none) (i : LineIdx) (c : Claim)
    (here : indexOf c.line = i) : OnReads s (s.evalClaim i c).1 := by
  unfold State.evalClaim
  cases c.kind with
  | ingest =>
    dsimp only
    rw [State.evalIngest, idle]
    exact .refl s
  | forward =>
    dsimp only
    rw [State.evalForward, idle]
    exact .refl s
  | need read slot g beat => exact .evalNeed s i c.line read slot g beat here

theorem OnReads.evalHead (n : Nat) (i : LineIdx) : ∀ {s : State}, s.mpu.intake = none →
    OnReads s (State.evalHead n i s) := by
  induction n with
  | zero => exact fun _ => .refl _
  | succ n ih =>
    intro s idle
    unfold State.evalHead
    cases head : s.headClaim i with
    | none => exact .refl s
    | some c =>
      have once := OnReads.evalClaim idle i c (State.headClaim_on head)
      dsimp only
      split
      · exact .refl s
      · split
        · exact once.trans (ih (by rw [once.intake, idle]))
        · exact once

theorem OnReads.evalIndex {s : State} (idle : s.mpu.intake = none) (i : LineIdx) : OnReads s (s.evalIndex i) :=
  .evalHead _ i idle

theorem OnReads.evalIndices (l : List Claim) : ∀ {s : State}, s.mpu.intake = none → OnReads s (s.evalIndices l) := by
  induction l with
  | nil => exact fun _ => .refl _
  | cons c l ih =>
    intro s idle
    have once := OnReads.evalIndex idle (indexOf c.line)
    exact once.trans (ih (by rw [once.intake, idle]))

theorem OnReads.withdrawRead {s : State} (idle : s.mpu.intake = none) (read : Nat) : OnReads s (s.withdrawRead read) :=
  (OnReads.setClaims s _).trans (.evalIndices _ idle)

theorem OnReads.answerReads (n : Nat) : ∀ s : State, OnReads s (State.answerReads n s) := by
  induction n with
  | zero => exact fun s => .refl s
  | succ n ih =>
    intro s
    unfold State.answerReads
    split
    · exact .refl s
    · split
      · exact .refl s
      · exact ((OnReads.popRead s).trans (.complete _ _)).trans (ih _)
      · exact ((OnReads.popRead s).trans (.complete _ _)).trans (ih _)

/-- The end of a command that leaves nothing presented: reads are answered, and the reports follow. -/
theorem OnReads.finish {s : State} (idle : s.mpu.intake = none) : ∃ t, OnReads s t ∧ s.finish = t.refreshReports :=
  ⟨_, .answerReads 16 s, State.finish_answers idle⟩

end Sys2Proof.Machine
end

