-- ==== Sys2Proof/Proofs/ForwardGrant.lean ====
section
/-! PROOF. The grant of the forwarded request (R3, R13, R16, R27, R149): what it issues, what it takes, how a written-through
INGEST write is accounted, and ILLEGAL_SPAN. -/

namespace Sys2Proof.Machine

/-! ### ILLEGAL_SPAN -/

theorem overlaps_iff (base1 size1 base2 size2 : Nat) : overlaps base1 size1 base2 size2 = true ↔
    ∃ x, base1 ≤ x ∧ x < base1 + size1 ∧ base2 ≤ x ∧ x < base2 + size2 := by
  simp only [overlaps, Bool.and_eq_true, decide_eq_true_eq]
  constructor
  · rintro ⟨⟨⟨a, b⟩, c⟩, d⟩
    exact ⟨max base1 base2, by omega, by omega, by omega, by omega⟩
  · rintro ⟨x, a, b, c, d⟩
    omega

theorem State.touchesArea_iff (s : State) (r : UpRequest) : s.touchesArea r = true ↔ TouchesPart s r := by
  have base : s.controlBase = s.pins.ctlbase.toNat * 2 ^ 24 := rfl
  unfold TouchesPart State.touchesArea
  rw [Bool.or_eq_true, overlaps_iff, any_allSlots, base]
  constructor
  · rintro (⟨a, above, below, low, high⟩ | ⟨i, inside⟩)
    · exact ⟨a, above, below, .inl ⟨low, high⟩⟩
    · cases window : (s.slot i).committed with
      | none =>
        rw [window] at inside
        cases inside
      | some w =>
        rw [window] at inside
        obtain ⟨a, above, below, low, high⟩ := (overlaps_iff _ _ _ _).mp inside
        exact ⟨a, above, below, .inr ⟨i, w, window, low, high⟩⟩
  · rintro ⟨a, above, below, ⟨low, high⟩ | ⟨i, w, window, low, high⟩⟩
    · exact .inl ⟨a, above, below, low, high⟩
    · refine .inr ⟨i, ?_⟩
      rw [window]
      exact (overlaps_iff _ _ _ _).mpr ⟨a, above, below, low, high⟩

theorem State.reportSpan_same {s : State} {r : UpRequest} (plain : r.crosses = false ∨ ¬ TouchesPart s r) :
    s.reportSpan r = s := by
  unfold State.reportSpan
  refine if_neg ?_
  rw [Bool.and_eq_true, State.touchesArea_iff]
  rcases plain with h | h
  · simp [h]
  · exact fun both => h both.2

theorem State.reportSpan_raises {s : State} {r : UpRequest} (crosses : r.crosses = true) (touches : TouchesPart s r) :
    s.reportSpan r = s.raise (.illegalSpan r.addr r.master r.tag r.beats) := by
  unfold State.reportSpan
  rw [if_pos]
  rw [crosses, (State.touchesArea_iff s r).mpr touches]
  rfl

/-! ### The accounting -/

section
variable {i : SlotId} {R : State → State → Prop} (r : Respected i R) (frame : ∀ s f, R s (s.modFrame i f))
  (deadline : ∀ s, R s (s.setTagDeadline i))
include r frame deadline

theorem Respected.accountOpen (s : State) (beats : Nat) (eof : Bool) : R s (s.accountOpen i beats eof) := by
  unfold State.accountOpen
  dsimp only
  refine r.trans (frame s fun f => f.accountCurrent beats eof s.clock) ?_
  generalize s.modFrame i (fun f => f.accountCurrent beats eof s.clock) = u
  split
  · exact r.trans (deadline u) (r.testComplete _)
  · exact r.testComplete _

theorem Respected.account (s : State) (beats : Nat) (eof counted : Bool) : R s (s.account i beats eof counted) := by
  unfold State.account
  dsimp only
  split
  · split
    · exact r.trans (r.begins s) (r.accountOpen frame deadline _ _ _)
    · split
      · exact frame s _
      · exact r.accountOpen frame deadline _ _ _
  · exact r.refl s

end

theorem OnSlot.account (s : State) (i : SlotId) (beats : Nat) (eof counted : Bool) :
    OnSlot i s (s.account i beats eof counted) :=
  (OnSlot.respected i).account (fun s f => .modFrame s i f) (fun s => .setTagDeadline s i) s beats eof counted

/-- A write that is not accounted changes nothing. -/
theorem State.account_uncounted (s : State) (i : SlotId) (beats : Nat) (eof : Bool) : s.account i beats eof false = s := rfl

/-- A write of an open generation that is not ARMED raises its counts, and the completion test follows (R27, R28). -/
theorem State.account_open {s : State} {i : SlotId} (open_ : (s.frame i).closed = false)
    (stage : (s.frame i).state = .tagged ∨ (s.frame i).state = .resolved) (beats : Nat) (eof : Bool) :
    s.account i beats eof true =
      State.testComplete i (s.modFrame i fun f => f.accountCurrent beats eof s.clock) := by
  have other : (s.frame i).state ≠ .complete ∧ (s.frame i).state ≠ .armed := by
    rcases stage with h | h <;> rw [h] <;> decide
  unfold State.account
  dsimp only
  rw [if_pos rfl, if_neg other.1, if_neg (by rw [open_]; exact Bool.false_ne_true)]
  unfold State.accountOpen
  dsimp only
  rw [if_neg]
  simp [other.2]

/-! ### The origin of an entry -/

/-- An entry of the upstream origin keeps it, but for its stale mark. -/
def KeepsOrigin (s t : State) : Prop := ∀ (e : DownTag) req cls updated stale,
  s.mpu.outstanding[e] = some (.upstream req cls updated stale) →
    ∃ stale', t.mpu.outstanding[e] = some (.upstream req cls updated stale')

theorem KeepsOrigin.ofOutstanding {s t : State} (same : t.mpu.outstanding = s.mpu.outstanding) : KeepsOrigin s t :=
  fun e _ _ _ stale origin => ⟨stale, by rw [same]; exact origin⟩

theorem KeepsOrigin.trans {s t u : State} (a : KeepsOrigin s t) (b : KeepsOrigin t u) : KeepsOrigin s u :=
  fun e req cls updated stale origin => by
    obtain ⟨stale', origin'⟩ := a e req cls updated stale origin
    exact b e req cls updated stale' origin'

theorem KeepsOrigin.ofOnFrames {s t : State} (on : OnFrames s t) : KeepsOrigin s t := .ofOutstanding (by rw [on.mpu])

theorem KeepsOrigin.applyDescriptor (s : State) (i : SlotId) (d : Option Window) : KeepsOrigin s (s.applyDescriptor i d) := by
  have outstanding : (s.applyDescriptor i d).mpu.outstanding = mapTable s.mpu.outstanding (Origin.markStale i) := by
    cases d <;> rfl
  intro e req cls updated stale origin
  rw [outstanding, mapTable_get, origin]
  exact ⟨_, rfl⟩

theorem capture_outstanding (s : State) (i : SlotId) : (s.capture i).mpu.outstanding = s.mpu.outstanding := by
  unfold State.capture
  split
  · rfl
  · next a _ =>
    change (s.modArea a fun x => { x with refs := x.refs + 1 }).mpu.outstanding = _
    rw [(OnFrames.modArea s a (fun x => { x with refs := x.refs + 1 }) fun _ => rfl).mpu]

theorem linesTakeBand_outstanding (s : State) (i : SlotId) : (s.linesTakeBand i).mpu.outstanding = s.mpu.outstanding := by
  unfold State.linesTakeBand
  cases (s.slot i).committed <;> rfl

theorem caught_outstanding (s : State) (i : SlotId) : (s.caught i).mpu.outstanding = s.mpu.outstanding :=
  (linesTakeBand_outstanding _ i).trans (capture_outstanding s i)

theorem exposureStart_outstanding (s : State) (i : SlotId) (tag : FrameTag) (d : Stamp) (h : Nat) :
    (s.exposureStart i tag d h).2.mpu.outstanding = s.mpu.outstanding := by
  unfold State.exposureStart
  cases matchStrobe tag.sequence s.ssu.exposures with
  | none =>
    dsimp only
    rw [(OnFrames.raiseSlot s i _).mpu]
  | some x => rfl

theorem entersTagged_outstanding (s : State) (i : SlotId) (tag : FrameTag) (d : Stamp) :
    (s.entersTagged i tag d).mpu.outstanding = s.mpu.outstanding :=
  (caught_outstanding _ i).trans (exposureStart_outstanding _ i tag d _)

theorem entersUntagged_outstanding (s : State) (i : SlotId) (stamp : Stamp) (missing : Bool) :
    (s.entersUntagged i stamp missing).mpu.outstanding = s.mpu.outstanding := by
  refine (caught_outstanding _ i).trans ?_
  split
  · rw [(OnFrames.raiseSlot _ i _).mpu]
    rfl
  · rfl

theorem countEnded_outstanding (s : State) : s.countEnded.mpu.outstanding = s.mpu.outstanding := by
  unfold State.countEnded State.modDrain
  split <;> rfl

theorem KeepsOrigin.respected (i : SlotId) : Respected i KeepsOrigin where
  refl := fun _ => .ofOutstanding rfl
  trans := .trans
  bandTaken := fun kind src _ _ => .ofOnFrames (.bandTaken _ i _ kind src)
  bandHanded := fun s g b report _ => .ofOnFrames (.bandHanded s i g b report)
  tagged := fun s tag d => .ofOutstanding (entersTagged_outstanding s i tag d)
  untagged := fun s stamp missing _ => .ofOutstanding (entersUntagged_outstanding s i stamp missing)
  begins := fun s => .ofOutstanding rfl
  armed := fun s _ _ => .ofOutstanding rfl
  applies := fun s _ => by
    cases pending : (s.slot i).pendingDesc with
    | none =>
      rw [State.applyPending_none pending]
      exact .ofOutstanding rfl
    | some d =>
      rw [State.applyPending_some pending]
      exact (KeepsOrigin.applyDescriptor s i d).trans (.ofOnFrames (.raise _ _))
  completes := fun s _ => .ofOnFrames (.completed s i)
  counted := fun s => .ofOutstanding (countEnded_outstanding s)
  ended := fun s => .ofOutstanding rfl


/-! ### The accounting at the grant -/

/-- The clamped count of a written-through write is added when the generation of its evaluation is still the slot's
current one (R149). -/
def State.addClamped (s : State) (i : SlotId) (answer : FtAnswer) (clamped : Nat) : State :=
  match answer with
  | .resolved g _ => if (s.frame i).generation = g then s.modFrame i fun r => r.addSaturated clamped else s
  | _ => s

theorem State.addClamped_slots (s : State) (i : SlotId) (g : Generation) (b : BandId) (n : Nat) :
    (s.addClamped i (.resolved g b) n).slots = put s.slots i { s.slot i with frame := { s.frame i with
      saturated := if (s.frame i).generation = g then min 4294967295 ((s.frame i).saturated + n)
        else (s.frame i).saturated } } := by
  unfold State.addClamped
  dsimp only
  split
  · rfl
  · exact (State.put_slot_self s i).symm

theorem OnFrames.addClamped (s : State) (i : SlotId) (answer : FtAnswer) (n : Nat) :
    OnFrames s (s.addClamped i answer n) := by
  unfold State.addClamped
  split
  · split
    · exact .modFrame s i _
    · exact .refl s
  · exact .refl s

theorem State.addClamped_cru (s : State) (i : SlotId) (answer : FtAnswer) (n : Nat) :
    (s.addClamped i answer n).cru = s.cru := by
  unfold State.addClamped
  split
  · split <;> rfl
  · rfl

theorem State.addClamped_other (s : State) (i : SlotId) (answer : FtAnswer) (n : Nat) (j : SlotId) (other : j ≠ i) :
    (s.addClamped i answer n).slot j = s.slot j := by
  unfold State.addClamped
  split
  · split
    · exact State.slot_modFrame_other s other _
    · rfl
  · rfl

theorem State.accountGranted_plain {p : Presented} (plain : ∀ i, p.cls ≠ .ingest i) (s : State) (f : Forward) :
    s.accountGranted p f = s := by
  unfold State.accountGranted
  split
  · next cls _ _ => exact absurd cls (plain _)
  · rfl

theorem State.accountGranted_ingest {p : Presented} {i : SlotId} {w : Window} {answer : FtAnswer}
    (cls : p.cls = .ingest i) (window : p.window = some w) (answered : p.answer = some answer) (s : State) (f : Forward) :
    s.accountGranted p f = (s.addClamped i answer f.clamped).account i p.req.beats (marksEndOfFrame w p.req)
      (decide (answer ≠ .noGeneration)) := by
  unfold State.accountGranted
  rw [cls, window, answered]
  cases answer <;> rfl

theorem KeepsOrigin.account (s : State) (i : SlotId) (beats : Nat) (eof counted : Bool) :
    KeepsOrigin s (s.account i beats eof counted) :=
  (KeepsOrigin.respected i).account (fun _ _ => .ofOutstanding rfl) (fun _ => .ofOutstanding rfl) s beats eof counted

/-- What the accounting of any class leaves unchanged. -/
theorem State.accountGranted_keeps (s : State) (p : Presented) (f : Forward) :
    ∃ i, OnSlot i s (s.accountGranted p f) ∧ KeepsOrigin s (s.accountGranted p f) := by
  unfold State.accountGranted
  split
  · next i w answer _ _ _ =>
    have clamped := OnFrames.addClamped s i answer f.clamped
    exact ⟨i, (clamped.onSlot (State.addClamped_other s i answer f.clamped)).trans (.account _ i _ _ _),
      (KeepsOrigin.ofOnFrames clamped).trans (.account _ i _ _ _)⟩
  · exact ⟨0, .refl 0 s, .ofOutstanding rfl⟩

theorem marksEndOfFrame_eq (w : Window) (r : UpRequest) :
    marksEndOfFrame w r = decide (r.first ≤ w.lastImageByte ∧ w.lastImageByte ≤ r.last) := by
  rw [marksEndOfFrame, Bool.decide_and]

theorem GrantAccounted.accountGranted (s : State) {p : Presented} {f : Forward} {i : SlotId} {w : Window}
    {answer : FtAnswer} (cls : p.cls = .ingest i) (window : p.window = some w) (answered : p.answer = some answer) :
    GrantAccounted s (s.accountGranted p f) i w p.req f.clamped answer := by
  rw [State.accountGranted_ingest cls window answered, marksEndOfFrame_eq]
  unfold GrantAccounted
  dsimp only
  generalize decide (p.req.first ≤ w.lastImageByte ∧ w.lastImageByte ≤ p.req.last) = eof
  refine ⟨?_, ?_⟩
  · rintro rfl
    rfl
  · rintro g b rfl off goes
    have drain : s.inDrain = false := by rw [State.inDrain, off]
    have on := OnFrames.addClamped s i (.resolved g b) f.clamped
    have others := State.addClamped_other s i (.resolved g b) f.clamped
    have slots := State.addClamped_slots s i g b f.clamped
    have cru := State.addClamped_cru s i (.resolved g b) f.clamped
    rw [decide_eq_true (by simp : FtAnswer.resolved g b ≠ .noGeneration)]
    generalize s.addClamped i (.resolved g b) f.clamped = v at on others slots cru ⊢
    have slot : v.slot i = { s.slot i with frame := { s.frame i with
      saturated := if (s.frame i).generation = g then min 4294967295 ((s.frame i).saturated + f.clamped)
        else (s.frame i).saturated } } := by
      rw [State.slot, slots]
      exact put_self _ _ _
    have frame : v.frame i = { s.frame i with
      saturated := if (s.frame i).generation = g then min 4294967295 ((s.frame i).saturated + f.clamped)
        else (s.frame i).saturated } := by rw [State.frame, slot]
    have taken : (v.modFrame i fun r => r.accountCurrent p.req.beats eof v.clock).slot i =
        { s.slot i with frame := { s.frame i with
            beats := min 16777215 ((s.frame i).beats + p.req.beats)
            firstIngest := some ((s.frame i).firstIngest.getD s.ssu.clock)
            eofSeen := (s.frame i).eofSeen || eof
            saturated := if (s.frame i).generation = g then min 4294967295 ((s.frame i).saturated + f.clamped)
              else (s.frame i).saturated } } := by
      rw [State.slot_modFrame_self, frame, slot, on.clock]
      rfl
    have accounted := State.account_open (s := v) (i := i) (by rw [frame]; exact goes) (beats := p.req.beats) (eof := eof)
    have cru' : (v.modFrame i fun r => r.accountCurrent p.req.beats eof v.clock).cru = s.cru := cru
    have clock' : (v.modFrame i fun r => r.accountCurrent p.req.beats eof v.clock).clock = s.clock := on.clock
    have drain' : (v.modFrame i fun r => r.accountCurrent p.req.beats eof v.clock).inDrain = false := by
      rw [State.inDrain, cru', off]
    have bypass' : (v.modFrame i fun r => r.accountCurrent p.req.beats eof v.clock).inBypassEntry = false := by
      rw [State.inBypassEntry, cru', off]
    refine ⟨fun j other => ?_, fun stays => ?_, fun x resolved clear going final last untagged kept committed => ?_⟩
    · rw [(OnSlot.account v i _ _ _).other j other, others j other]
    · rw [accounted (by rw [frame]; exact stays.imp_right fun h => h.1), State.testComplete, State.tryComplete_stays, taken]
      rw [State.frame, taken]
      rcases stays with h | ⟨_, h | h⟩
      · exact .inl (by rw [h]; decide)
      · exact .inr (.inl h)
      · refine .inr (.inr (.inr ⟨drain', ?_⟩))
        rw [h, Bool.or_false]
        exact goes
    · rw [accounted (by rw [frame]; exact .inr resolved), State.testComplete]
      generalize (v.modFrame i fun r => r.accountCurrent p.req.beats eof v.clock) = c at taken cru' clock' drain' bypass' ⊢
      have record : c.frame i = (c.slot i).frame := rfl
      rw [State.tryComplete_completes (by rw [record, taken]; exact resolved) (by rw [record, taken]; exact clear)
        (by rw [record, taken]; exact going) drain' (by rw [record, taken, final, FrameRecord.closed, Bool.or_true]; rfl)
        (by rw [record, taken]; exact last) (.inl (by rw [record, taken]; exact untagged)) (by rw [taken]; exact kept)]
      have expected : (c.slot i).expected = x.height * x.width * 2 / 16 := by
        rw [Slot.expected, taken]
        dsimp only
        rw [committed]
        rfl
      refine ⟨?_, fun room enabled => ?_⟩
      · rw [State.slot_completed, expected, record, taken, cru', bypass']
        rfl
      · rw [State.completed_events (by rw [cru']; exact room) (by rw [cru']; exact enabled), State.frame_completed, expected,
          record, taken, cru', bypass', clock']
        rfl

/-! ### The grant -/

/-- The state after the request is issued and taken, before it is accounted. -/
def State.issuedForward (s : State) (e : DownTag) (p : Presented) (f : Forward) : State :=
  ((s.countStarvation.issue e (.upstream p.req p.cls (((s.ls.claims.filter Claim.ofIntake).filter Claim.updated).map
    Claim.line) p.stale) p.req.first p.req.beats f.kind).emptyIntake).setClaims (s.ls.claims.filter fun c => !c.ofIntake)

theorem exec_forwardedGrant {s : State} {p : Presented} {f : Forward} {e : DownTag}
    (next : s.nextGrant = some (.forward f)) (free : s.freeTag = some e) (presented : s.mpu.intake = some p) :
    exec .forwardedGrant s = .next ((((s.issuedForward e p f).accountGranted p f).reportSpan p.req).evalIndices
      (s.ls.claims.filter Claim.ofIntake)).finish := by
  simp only [exec, execForwardedGrant, next, free, State.grantForward, presented]
  rfl

theorem State.issuedForward_origin (s : State) (e : DownTag) (p : Presented) (f : Forward) :
    (s.issuedForward e p f).mpu.outstanding[e] = some (.upstream p.req p.cls
      ((s.ls.claims.filter fun c => c.updated && c.ofIntake).map Claim.line) p.stale) := by
  refine (put_self _ _ _).trans ?_
  rw [List.filter_filter]

theorem State.reportSpan_keeps (s : State) (r : UpRequest) : OnFrames s (s.reportSpan r) ∧ (s.reportSpan r).slots = s.slots := by
  unfold State.reportSpan
  split
  · exact ⟨.raise s _, State.raiseFor_slots ..⟩
  · exact ⟨.refl s, rfl⟩

theorem GrantAccounted.congr {s t u : State} {i : SlotId} {w : Window} {r : UpRequest} {clamped : Nat} {answer : FtAnswer}
    (slots : u.slots = t.slots) (cru : u.cru = t.cru) (h : GrantAccounted s t i w r clamped answer) :
    GrantAccounted s u i w r clamped answer := by
  unfold GrantAccounted at h ⊢
  rw [slots, cru]
  simp only [State.slot_ofSlots slots]
  exact h

/-- Settles O28: what is issued stands before the accounting, which keeps the origin of the entry; a crossing request is
not accounted as one write here, and ILLEGAL_SPAN follows the accounting. -/
theorem forwardedGrantIssues : Obligations.ForwardedGrantIssues := by
  intro s p f e next free presented
  rw [exec_forwardedGrant next free presented]
  obtain ⟨j, on, origin⟩ := State.accountGranted_keeps (s.issuedForward e p f) p f
  have accounted (i w answer) (cls : p.cls = .ingest i) (window : p.window = some w) (answered : p.answer = some answer) :=
    GrantAccounted.accountGranted (s.issuedForward e p f) (f := f) cls window answered
  have plain (h : ∀ i, p.cls ≠ .ingest i) := State.accountGranted_plain h (s.issuedForward e p f) f
  generalize (s.issuedForward e p f).accountGranted p f = u at *
  have onSpan := (State.reportSpan_keeps u p.req).1
  have spanSlots := (State.reportSpan_keeps u p.req).2
  have same (h : p.req.crosses = false ∨ ¬ TouchesPart u p.req) := State.reportSpan_same h
  have raises (a : p.req.crosses = true) (b : TouchesPart u p.req) := State.reportSpan_raises a b
  generalize u.reportSpan p.req = v at *
  have idle : v.mpu.intake = none := (onSpan.within.idle (on.within.idle rfl))
  have evals := OnReads.evalIndices (s.ls.claims.filter Claim.ofIntake) idle
  obtain ⟨x, finishes, ends⟩ := OnReads.finish (evals.intake.trans idle)
  have reads := evals.trans finishes
  rw [ends]
  refine ⟨x.refreshReports, rfl, reads.within.idle idle, ?_, ?_, fun y => ?_, ?_, ?_, ?_⟩
  · change x.mpu.class3 = none
    rw [reads.class3, onSpan.mpu, on.mpu]
    rfl
  · change x.ports.dmp = _
    rw [reads.within.dmp, onSpan.within.dmp, on.within.dmp]
    rfl
  · change (x.mpu.outstanding[y]).isSome = _
    rw [reads.within.busy, onSpan.within.busy, on.within.busy]
    change ((put s.mpu.outstanding e (some _))[y]).isSome = _
    by_cases same : y = e
    · rw [same, put_self, decide_eq_true rfl, Bool.or_true]
      rfl
    · rw [put_other _ (Ne.symm same), decide_eq_false same, Bool.or_false]
  · have recorded : x.mpu.outstanding = u.mpu.outstanding := by rw [reads.outstanding, onSpan.mpu]
    have issued := State.issuedForward_origin s e p f
    obtain ⟨stale, kept⟩ := origin _ _ _ _ _ issued
    refine ⟨stale, ?_, fun other => ?_⟩
    · exact (congrArg (fun o => o[e]) recorded).trans kept
    · rw [plain other, issued] at kept
      injection kept with kept
      injection kept with _ _ _ kept
      exact kept.symm
  · intro i w answer cls window answered single
    refine GrantAccounted.congr (t := u) ?_ ?_ (accounted i w answer cls window answered)
    · exact reads.slots.trans spanSlots
    · exact reads.cru.trans (by rw [same (.inl single)])
  · intro other
    have before := plain other
    have touches : TouchesPart u p.req ↔ TouchesPart s p.req := by rw [before]; rfl
    refine ⟨reads.slots.trans (spanSlots.trans (by rw [before]; rfl)), fun h => ?_, fun crosses inside room enabled => ?_⟩
    · change x.cru.events = _
      rw [reads.cru, same (h.imp_right fun h => mt touches.mp h), before]
      rfl
    · change x.cru.events = _
      rw [reads.cru, raises crosses (touches.mpr inside), before, State.raise,
        State.raiseFor_events (by exact enabled) (by exact room)]
      rfl

end Sys2Proof.Machine
end

