-- ==== Sys2Proof/Proofs/TagCollection.lean ====
section
/-! SUPPORT. The collection of a tag (R49, R50) and how the frame record takes a decoded one (R30, R31, R34, R39). -/

namespace Sys2Proof.Machine

/-! ### The collection -/

theorem tagLanes_get (w : Window) (addr : Nat) (lanes : List Lane) (k : Fin 64) :
    (tagLanes w addr lanes).getD k.val none = tagLane w addr lanes k := by
  simp [tagLanes, k.isLt]

theorem tagLanes_any (w : Window) (addr : Nat) (lanes : List Lane) :
    (tagLanes w addr lanes).any Option.isSome = true ↔ ∃ k : Fin 64, (tagLane w addr lanes k).isSome = true := by
  rw [tagLanes, List.any_map, List.any_eq_true]
  constructor
  · rintro ⟨k, small, some_⟩
    exact ⟨⟨k, List.mem_range.mp small⟩, some_⟩
  · rintro ⟨k, some_⟩
    exact ⟨k, List.mem_range.mpr k.isLt, some_⟩

theorem collect_get (old : Vector Lane 64) (new : List Lane) (k : Fin 64) :
    (collect old new)[k] = if (new.getD k none).isSome then new.getD k none else old[k] := by
  simp [collect, k.isLt]

theorem collected_iff (v : Vector Lane 64) : collected v = true ↔ ∀ k : Fin 64, (v[k]).isSome = true := by
  rw [collected, List.all_eq_true]
  constructor
  · intro all k
    exact all v[k] (by simp)
  · intro all x member
    obtain ⟨n, lt, rfl⟩ := List.mem_iff_getElem.mp member
    have := all ⟨n, by simpa using lt⟩
    simpa using this

theorem collectionBytes_eq (v : Vector Lane 64) :
    collectionBytes v = (List.finRange 64).map fun k => (v[k]).getD 0 := by
  refine List.ext_getElem (by rw [collectionBytes, List.length_map, List.length_map, List.length_finRange,
    Vector.length_toList]) fun n h h' => ?_
  rw [List.getElem_map, List.getElem_finRange]
  simp only [collectionBytes, List.getElem_map, Vector.getElem_toList]
  rfl

/-! ### The exposure start -/

theorem exposureStart_ofSsu {s t : State} (same : t.ssu = s.ssu) (i : SlotId) (tag : FrameTag) (d : Stamp) (h : Nat) :
    (t.exposureStart i tag d h).1 = (s.exposureStart i tag d h).1 ∧
      (t.exposureStart i tag d h).2.ssu = (s.exposureStart i tag d h).2.ssu := by
  unfold State.exposureStart
  rw [same]
  cases matchStrobe tag.sequence s.ssu.exposures with
  | some x => exact ⟨rfl, by dsimp only⟩
  | none => exact ⟨rfl, by dsimp only; rw [(OnFrames.raiseSlot t i _).ssu, (OnFrames.raiseSlot s i _).ssu, same]⟩

theorem State.caught_ssu (s : State) (i : SlotId) : (s.caught i).ssu = s.ssu := by
  have lines (t : State) : (t.linesTakeBand i).ssu = t.ssu := by
    unfold State.linesTakeBand
    split <;> rfl
  rw [State.caught, lines]
  unfold State.capture
  split
  · rfl
  · next a _ => cases a <;> rfl

theorem State.entersTagged_ssu (s : State) (i : SlotId) (tag : FrameTag) (d : Stamp) :
    (s.entersTagged i tag d).ssu = (s.exposureStart i tag d (s.heightOf i)).2.ssu :=
  (State.caught_ssu _ i).trans (exposureStart_ofSsu (s := s) (t := s.modSlot i fun sl => sl.tagged tag) rfl i tag d _).2

theorem State.started_start (s : State) (i : SlotId) (tag : FrameTag) (d : Stamp) :
    (s.started i tag d).1 = (s.exposureStart i tag d (s.heightOf i)).1 :=
  (exposureStart_ofSsu (s := s) (t := s.modSlot i fun sl => sl.tagged tag) rfl i tag d _).1

/-! ### A tag that is applied -/

/-- Of a generation that lingers the bands are taken, and no completion follows (R31, R56, R89). -/
theorem State.applyTag_lingers {s : State} {i : SlotId} {tag : FrameTag} {d : Stamp} {complete : SlotId → State → State}
    (patient : Patient complete) (stays : (s.entersTagged i tag d).lingers i) :
    BandsTaken i (s.entersTagged i tag d) (s.applyTag complete i tag d) := by
  rw [State.applyTag_eq, State.takeBands_lingers patient stays]
  have taken := BandsTaken.takeBands (s.entersTagged i tag d) .attempt i
  rw [State.expireBands_lingers patient _ _ _ (taken.lingers stays)]
  exact taken.trans (.foldl (fun s b => .expireBand s i _ b) _ _)

/-- The state `t` after a tag has been applied to slot `i`, in `s`, of a generation that lingers. -/
structure TagApplied (s t : State) (i : SlotId) (tag : FrameTag) (d : Stamp) : Prop where
  generation : (t.frame i).generation = (s.frame i).generation
  sequence : (t.frame i).tagSequence = some tag.sequence
  presented : (t.frame i).presented = (s.frame i).presented
  stage : (t.frame i).state = if (t.frame i).allResolved then .resolved else .tagged
  unarmed : (t.slot i).tagDeadline = none
  exposures : t.ssu.exposures = (s.exposureStart i tag d (s.heightOf i)).2.ssu.exposures
  bands : ∀ b : BandId,
    ((t.frame i).bands[b]).time = some (bandTime tag (s.exposureStart i tag d (s.heightOf i)).1 (s.heightOf i) b) ∧
    ((t.frame i).bands[b]).deadline = some (stampAdd
      (bandTime tag (s.exposureStart i tag d (s.heightOf i)).1 (s.heightOf i) b) s.cru.settings.resolveDeadline)

theorem TagApplied.applyTag {s : State} {i : SlotId} (closed : (s.frame i).closed = false) (free : s.cru.proc = .none)
    (tag : FrameTag) (d : Stamp) : TagApplied s (s.applyTag State.testComplete i tag d) i tag d := by
  have enters := OnSlot.entersTagged s i tag d
  have ssu := State.entersTagged_ssu s i tag d
  have started := State.started_start s i tag d
  obtain ⟨area, x, y, slot⟩ := State.slot_entersTagged s i tag d
  have free' := enters.within.proc_none free
  have stays : (s.entersTagged i tag d).lingers i := by
    refine .inr (.inr ⟨by rw [State.inDrain, free'], by rw [State.inBypassEntry, free'], ?_⟩)
    rw [State.frame, slot]
    exact closed
  have taken := State.applyTag_lingers .testComplete stays
  rw [started] at slot
  generalize s.applyTag State.testComplete i tag d = t at *
  generalize s.entersTagged i tag d = u at *
  have rest := taken.slot.rest
  have band (b : BandId) : (u.frame i).bands[b] = ⟨none,
      some (bandTime tag (s.exposureStart i tag d (s.heightOf i)).1 (s.heightOf i) b),
      some (stampAdd (bandTime tag (s.exposureStart i tag d (s.heightOf i)).1 (s.heightOf i) b)
        s.cru.settings.resolveDeadline)⟩ := by
    rw [State.frame, slot]
    exact FrameRecord.withTimes_band ((s.slot i).tagged tag).frame
      (bandTime tag (s.exposureStart i tag d (s.heightOf i)).1 (s.heightOf i)) (fun b => stampAdd
        (bandTime tag (s.exposureStart i tag d (s.heightOf i)).1 (s.heightOf i) b) s.cru.settings.resolveDeadline) b
  have waits : (u.slot i).frame.allResolved = false := by
    refine (FrameRecord.allResolved_false_iff _).mpr ⟨0, ?_⟩
    rw [← State.frame, band]
  refine ⟨?_, ?_, ?_, ?_, ?_, ?_, fun b => ?_⟩
  · rw [State.frame, rest, slot]
    rfl
  · rw [State.frame, rest, slot]
    rfl
  · rw [State.frame, rest, slot]
    rfl
  · exact (taken.slot.enters (by rw [slot]; rfl) waits).1
  · rw [rest, slot]
    rfl
  · rw [taken.on.ssu, ssu]
  · obtain ⟨time, deadline⟩ := taken.slot.times b
    rw [State.frame, time, deadline, ← State.frame, band]
    exact ⟨rfl, rfl⟩

/-! ### A truncation -/

/-- What the pending tag of a truncated or closed record becomes (R34, R39). -/
def Slot.laterTag (sl : Slot) (t : PendingTag) : Option PendingTag :=
  if sl.pendingDesc.isSome then sl.frame.pendingTag else some t

section
variable {bypass : Bool} {a b : Slot} (taken : Slot.BandsTaken bypass a b)
include taken

theorem Slot.BandsTaken.generation : b.frame.generation = a.frame.generation := by rw [taken.rest]
theorem Slot.BandsTaken.held : b.frame.held = a.frame.held := by rw [taken.rest]
theorem Slot.BandsTaken.laterTag (t : PendingTag) : b.laterTag t = a.laterTag t := by
  rw [taken.rest]
  rfl

end

/-- A record with TRUNCATED set (R34). -/
def FrameRecord.cut (f : FrameRecord) : FrameRecord := { f with flags := { f.flags with truncated := true } }

def Slot.cut (sl : Slot) : Slot := { sl with frame := sl.frame.cut }

theorem Slot.laterTag_cut (sl : Slot) (t : PendingTag) : sl.cut.laterTag t = sl.laterTag t := rfl

theorem State.slot_cut (s : State) (i : SlotId) : (s.modFrame i FrameRecord.cut).slot i = (s.slot i).cut :=
  State.slot_modFrame_self s i _

/-- The bands of a record that is truncated, taken FORCED (R34). -/
def State.truncatedBands (s : State) (i : SlotId) : State :=
  (s.modFrame i FrameRecord.cut).takeBands noTest .forced i

theorem State.truncate_eq (s : State) (i : SlotId) (t : PendingTag) : s.truncate i t = State.testComplete i
    (if ((s.truncatedBands i).slot i).pendingDesc.isSome then s.truncatedBands i
      else (s.truncatedBands i).modFrame i fun f => { f with pendingTag := some t }) := rfl

/-- With a line held no completion follows. -/
theorem State.frame_truncate {s : State} {i : SlotId} (held : ((s.truncatedBands i).frame i).held ≠ 0) (t : PendingTag) :
    (s.truncate i t).frame i = { (s.truncatedBands i).frame i with
      pendingTag := ((s.truncatedBands i).slot i).laterTag t } := by
  rw [State.truncate_eq, State.testComplete]
  generalize s.truncatedBands i = v at *
  unfold Slot.laterTag
  split
  · rw [State.tryComplete_stays (.inr (.inl held))]
    rfl
  · rw [State.tryComplete_stays (.inr (.inl _)), State.frame_modFrame_self]
    rw [State.frame_modFrame_self]
    exact held

theorem OnSlot.takeTag (s : State) (i : SlotId) (t : PendingTag) : OnSlot i s (s.takeTag i t) := by
  have applied (s : State) (tag : FrameTag) (d : Stamp) : OnSlot i s (s.applyTag State.testComplete i tag d) :=
    (OnSlot.respected i).applyTag (fun s => .testComplete s i) s tag d
  have closes : OnSlot i s (if (s.slot i).pendingDesc.isSome then s
      else s.modFrame i fun f => { f with pendingTag := some t }) := by
    split
    · exact .refl i s
    · exact .modFrame s i _
  have truncates : OnSlot i s (s.truncate i t) := by
    rw [State.truncate_eq]
    have bands : OnSlot i s (s.truncatedBands i) := (OnSlot.modFrame s i _).trans (BandsTaken.takeBands _ _ i).onSlot
    refine bands.trans (.trans ?_ (.testComplete _ i))
    split
    · exact .refl i _
    · exact .modFrame _ i _
  unfold State.takeTag
  dsimp only
  split
  · exact .refl i s
  · exact applied s _ _
  · exact (OnSlot.beginGen s i).trans (applied _ _ _)
  all_goals
    split
    · exact closes
    · exact truncates

end Sys2Proof.Machine
end

