-- ==== Sys2Proof/Proofs/ForwardCompletion.lean ====
section
/-! PROOF. The completion of a forwarded request (R10–R12, R17, R48–R51): the answer, the shadow and the tag. -/

namespace Sys2Proof.Machine

/-! ### The frame record takes the tag -/

theorem State.truncatedBands_resolved {s : State} {i : SlotId} (resolved : (s.frame i).state = .resolved) :
    s.truncatedBands i = s.modFrame i FrameRecord.cut := by
  have frame := State.frame_modFrame_self s i FrameRecord.cut
  unfold State.truncatedBands State.takeBands
  generalize s.modFrame i FrameRecord.cut = v at *
  refine State.takeBands_idle (s := v) (.inl ?_) noTest .forced allBands
  rw [frame]
  exact fun tagged => absurd (resolved.symm.trans tagged) (by decide)

theorem State.truncatedBands_settled {s : State} {i : SlotId} (tagged : (s.frame i).state = .tagged)
    (waits : (s.frame i).allResolved = false) (held : (s.frame i).held ≠ 0) :
    AllSettled .forced i (s.modFrame i FrameRecord.cut) (s.truncatedBands i) := by
  have frame := State.frame_modFrame_self s i FrameRecord.cut
  unfold State.truncatedBands
  generalize s.modFrame i FrameRecord.cut = v at *
  exact State.takeBands_settles BandEvent.forced_settles (by rw [frame]; exact tagged) (by rw [frame]; exact waits)
    (fun _ _ _ => rfl) (.inl (by rw [frame]; exact held))

/-- The record of a truncated generation whose bands have been taken FORCED (R34). -/
theorem AllSettled.ofCut {s v : State} {i : SlotId} (tagged : (s.frame i).state = .tagged)
    (waits : (s.frame i).allResolved = false) (settled : AllSettled .forced i (s.modFrame i FrameRecord.cut) v) :
    (v.frame i).generation = (s.frame i).generation ∧ (v.frame i).held = (s.frame i).held ∧
      (v.frame i).flags.truncated = true ∧ (∀ t, (v.slot i).laterTag t = (s.slot i).laterTag t) ∧
      ∀ b : BandId, (((v.frame i).bands[b]).time = ((s.frame i).bands[b]).time ∧
          ((v.frame i).bands[b]).deadline = ((s.frame i).bands[b]).deadline) ∧
        (((s.frame i).bands[b]).result.isSome = true →
          ((v.frame i).bands[b]).result = ((s.frame i).bands[b]).result) ∧
        (((s.frame i).bands[b]).result = none →
          ((v.frame i).bands[b]).result.map BandResult.kind = some .forced) := by
  have slot := State.slot_cut s i
  have frame : (s.modFrame i FrameRecord.cut).frame i = (s.frame i).cut := congrArg Slot.frame slot
  have truncated := settled.truncated (by rw [frame]; exact tagged) (by rw [frame]; exact waits)
  rw [frame] at truncated
  have taken := settled.taken.slot
  have kinds := settled.kinds
  rw [slot] at taken kinds
  refine ⟨taken.generation, taken.held, truncated, fun t => by rw [taken.laterTag, Slot.laterTag_cut], fun b =>
    ⟨taken.times b, fun h => congrArg BandRecord.result (taken.kept b h), fun waiting => ?_⟩⟩
  rcases kinds b waiting with none_ | kind
  · have := (FrameRecord.allResolved_iff _).mp settled.all b
    rw [State.frame, none_] at this
    cases this
  · exact kind

/-- A tag that truncates a TAGGED or RESOLVED generation with a line held (R34). -/
theorem State.frame_takeTag_truncates {s : State} {i : SlotId}
    (stage : (s.frame i).state = .resolved ∨ ((s.frame i).state = .tagged ∧ (s.frame i).allResolved = false))
    (closed : (s.frame i).closed = false) (held : (s.frame i).held ≠ 0) (t : PendingTag) :
    let g := (s.takeTag i t).frame i
    g.state = .resolved ∧ g.generation = (s.frame i).generation ∧ g.held = (s.frame i).held ∧
      g.flags.truncated = true ∧ g.pendingTag = (s.slot i).laterTag t ∧
      ∀ b : BandId, ((g.bands[b]).time = ((s.frame i).bands[b]).time ∧
          (g.bands[b]).deadline = ((s.frame i).bands[b]).deadline) ∧
        ((s.frame i).state = .resolved ∨ ((s.frame i).bands[b]).result.isSome = true →
          (g.bands[b]).result = ((s.frame i).bands[b]).result) ∧
        ((s.frame i).state = .tagged → ((s.frame i).bands[b]).result = none →
          (g.bands[b]).result.map BandResult.kind = some .forced) := by
  have runs : s.takeTag i t = s.truncate i t := by
    unfold State.takeTag
    dsimp only
    rcases stage with h | ⟨h, _⟩ <;> rw [h] <;> dsimp only <;> rw [closed] <;> exact if_neg Bool.false_ne_true
  rw [runs]
  rcases stage with resolved | ⟨tagged, waits⟩
  · have bands := State.truncatedBands_resolved resolved
    have slot : (s.truncatedBands i).slot i = (s.slot i).cut := by rw [bands, State.slot_cut]
    have frame : (s.truncatedBands i).frame i = (s.frame i).cut := congrArg Slot.frame slot
    have later : ((s.truncatedBands i).slot i).laterTag t = (s.slot i).laterTag t := by rw [slot, Slot.laterTag_cut]
    rw [State.frame_truncate (by rw [frame]; exact held), frame, later]
    generalize (s.slot i).laterTag t = later
    refine ⟨resolved, rfl, rfl, rfl, rfl, fun b => ⟨⟨rfl, rfl⟩, fun _ => rfl, fun tagged => ?_⟩⟩
    rw [resolved] at tagged
    cases tagged
  · have settled := State.truncatedBands_settled tagged waits held
    obtain ⟨generation, heldSame, truncated, later, bands⟩ := settled.ofCut tagged waits
    have resolved := settled.resolved
    rw [State.frame_truncate (by rw [heldSame]; exact held), later]
    clear settled
    generalize s.truncatedBands i = v at *
    refine ⟨resolved, generation, heldSame, truncated, rfl, fun b => ⟨(bands b).1, fun h => ?_, fun _ => (bands b).2.2⟩⟩
    refine (bands b).2.1 (h.resolve_left ?_)
    rw [tagged]
    decide

/-- A tag for a closed generation waits (R34, R39). -/
theorem State.takeTag_closed {s : State} {i : SlotId} (stage : (s.frame i).state = .tagged ∨ (s.frame i).state = .resolved)
    (closed : (s.frame i).closed = true) (t : PendingTag) :
    (s.takeTag i t).frame i = { s.frame i with pendingTag := (s.slot i).laterTag t } := by
  have runs : s.takeTag i t = if (s.slot i).pendingDesc.isSome then s
      else s.modFrame i fun f => { f with pendingTag := some t } := by
    unfold State.takeTag
    dsimp only
    rcases stage with h | h <;> rw [h] <;> exact if_pos closed
  rw [runs]
  unfold Slot.laterTag
  split
  · rfl
  · rw [State.frame_modFrame_self]

/-- A generation that has begun without a successor is not closed. -/
theorem State.beginGen_open {s : State} {i : SlotId} (last : (s.frame i).successor = none) :
    ((s.beginGen i).frame i).closed = false := by
  unfold State.beginGen
  rw [State.frame, State.slot_modSlot_self, Slot.begin, FrameRecord.begin, ← State.frame, last]
  rfl

/-- What the frame record makes of the tag, where `u` differs from `s` in the collected bytes of the slot alone, and `t` from
the state in which the tag has been taken in what is no concern of the record. -/
theorem TagTaken.takeTag {s u t : State} {i : SlotId} {tag : FrameTag} (frame : u.frame i = s.frame i)
    (pending : (u.slot i).pendingDesc = (s.slot i).pendingDesc) (committed : (u.slot i).committed = (s.slot i).committed)
    (ssu : u.ssu = s.ssu) (cru : u.cru.settings = s.cru.settings) (free : u.cru.proc = .none)
    (after : t.frame i = (u.takeTag i ⟨tag, s.clock⟩).frame i)
    (unarmed : (t.slot i).tagDeadline = ((u.takeTag i ⟨tag, s.clock⟩).slot i).tagDeadline)
    (exposures : t.ssu.exposures = (u.takeTag i ⟨tag, s.clock⟩).ssu.exposures) : TagTaken s t i tag := by
  have later : (u.slot i).laterTag ⟨tag, s.clock⟩ =
      if (s.slot i).pendingDesc.isSome then (s.frame i).pendingTag else some ⟨tag, s.clock⟩ := by
    rw [Slot.laterTag, pending, ← State.frame, frame]
  have height : u.heightOf i = s.heightOf i := by
    unfold State.heightOf
    rw [committed]
  unfold TagTaken
  dsimp only
  rw [after, ← later]
  refine ⟨fun empty => ?_, fun stage closed => ?_, fun stage open_ held => ?_, fun stage => ?_⟩
  · unfold State.takeTag
    dsimp only
    rw [frame, empty]
    exact frame
  · rw [State.takeTag_closed (by rw [frame]; exact stage) (by rw [frame]; exact closed), frame]
  · have truncates := State.frame_takeTag_truncates (s := u) (i := i) (by
      rw [frame]
      exact stage.imp_right fun h => ⟨h.1, (FrameRecord.allResolved_false_iff _).mpr h.2⟩) (by rw [frame]; exact open_)
      (by rw [frame]; exact held) ⟨tag, s.clock⟩
    rw [frame] at truncates
    exact truncates
  · rw [unarmed, exposures]
    obtain ⟨v, start, settings, same, generation, presented, applied⟩ : ∃ v, v.ssu = s.ssu ∧
        v.cru.settings = s.cru.settings ∧ v.heightOf i = s.heightOf i ∧
        (v.frame i).generation = (if (s.frame i).state = .armed then (s.frame i).generation
          else (s.frame i).generation + 1) ∧ (v.frame i).presented = (s.frame i).presented ∧
        TagApplied v (u.takeTag i ⟨tag, s.clock⟩) i tag s.clock := by
      unfold State.takeTag
      dsimp only
      rw [frame]
      rcases stage with ⟨armed, open_⟩ | ⟨complete, last⟩
      · rw [armed, if_pos rfl]
        exact ⟨u, ssu, cru, height, by rw [frame], by rw [frame], .applyTag (by rw [frame]; exact open_) free tag s.clock⟩
      · rw [complete, if_neg (by decide)]
        have begun : (u.beginGen i).slot i = (u.slot i).begin := State.slot_modSlot_self u i _
        have record : (u.beginGen i).frame i = (s.frame i).begin := by
          rw [State.frame, begun, ← frame]
          rfl
        refine ⟨u.beginGen i, ssu, cru, ?_, ?_, ?_, .applyTag (State.beginGen_open (by rw [frame]; exact last)) free tag s.clock⟩
        · rw [← height]
          unfold State.heightOf
          rw [begun]
          rfl
        · rw [record, FrameRecord.begin, last]
          rfl
        · rw [record, FrameRecord.begin, last]
    have exposure := exposureStart_ofSsu start i tag s.clock (s.heightOf i)
    have bands := applied.bands
    have edges := applied.exposures
    rw [same, exposure.1, settings] at bands
    rw [same, exposure.2] at edges
    refine ⟨applied.generation.trans generation, applied.sequence, applied.presented.trans presented, applied.stage,
      applied.unarmed, edges, fun b => ⟨(bands b).1, (bands b).2.trans ?_⟩⟩
    rw [stampAdd, BitVec.ofInt_natCast]

/-! ### The handover of a TAG write -/

/-- The collection of a slot after a TAG write is handed over (R49). -/
def Slot.gathered (sl : Slot) (w : Window) (addr : Nat) (lanes : List Lane) : Slot :=
  { sl with collection := collect sl.collection (tagLanes w addr lanes) }

theorem Slot.gathered_get (sl : Slot) (w : Window) (addr : Nat) (lanes : List Lane) (k : Fin 64) :
    (sl.gathered w addr lanes).collection[k] =
      if (tagLane w addr lanes k).isSome then tagLane w addr lanes k else sl.collection[k] := by
  rw [Slot.gathered, collect_get, tagLanes_get]

theorem State.tagHandover_idle {s : State} {i : SlotId} {addr : Nat} {lanes : List Lane} {stale : Bool}
    (idle : stale = true ∨ (s.slot i).committed = none) : s.tagHandover i addr lanes stale = s := by
  unfold State.tagHandover
  rcases idle with rfl | none_
  · split
    · rfl
    · rfl
  · rw [none_]

section
variable {s : State} {i : SlotId} {w : Window} {addr : Nat} {lanes : List Lane} (window : (s.slot i).committed = some w)
include window

theorem State.tagHandover_outside (outside : ∀ k : Fin 64, tagLane w addr lanes k = none) :
    s.tagHandover i addr lanes false = s := by
  have nothing : (tagLanes w addr lanes).any Option.isSome = false := by
    rw [← Bool.not_eq_true, tagLanes_any]
    rintro ⟨k, some_⟩
    rw [outside] at some_
    cases some_
  unfold State.tagHandover
  rw [window]
  dsimp only
  rw [nothing]
  rfl

theorem State.tagHandover_gathers (inside : ∃ k : Fin 64, (tagLane w addr lanes k).isSome = true) :
    s.tagHandover i addr lanes false =
      if collected ((s.slot i).gathered w addr lanes).collection then
        (s.modSlot i fun sl => sl.gathered w addr lanes).decodeAttempt i
      else s.modSlot i fun sl => sl.gathered w addr lanes := by
  have slot := State.slot_modSlot_self s i fun sl => sl.gathered w addr lanes
  have some_ := (tagLanes_any w addr lanes).mpr inside
  unfold State.tagHandover
  rw [window]
  dsimp only
  rw [some_, ← slot]
  rfl

end

theorem State.decodeAttempt_fault {s : State} {i : SlotId} {fault : TagFault}
    (bad : decodeTag (collectionBytes (s.slot i).collection) = .error fault) :
    s.decodeAttempt i = if (s.slot i).invalidReported then s else
      (s.modSlot i fun sl => { sl with invalidReported := true }).raiseSlot i
        (.tagInvalid fault (tagSequenceWord (collectionBytes (s.slot i).collection)) s.clock) := by
  unfold State.decodeAttempt
  dsimp only
  rw [bad]

/-- TAG_INVALID is raised once in a generation (R48, R50). -/
theorem State.decodeAttempt_reports {s : State} {i : SlotId} {fault : TagFault}
    (bad : decodeTag (collectionBytes (s.slot i).collection) = .error fault)
    (first : (s.slot i).invalidReported = false) :
    (s.decodeAttempt i).slot i = { s.slot i with invalidReported := true } ∧
      (s.cru.events.length < 16 → s.cru.settings.eventDisable.getLsbD 3 = false →
        (s.decodeAttempt i).cru.events = s.cru.events ++
          [⟨.tagInvalid fault (tagSequenceWord (collectionBytes (s.slot i).collection)) s.clock, s.cru.overflow,
            some (i, (s.frame i).generation), s.clock⟩]) := by
  have marked := State.slot_modSlot_self s i fun sl => { sl with invalidReported := true }
  rw [State.decodeAttempt_fault bad, first, if_neg Bool.false_ne_true, State.raiseSlot]
  refine ⟨by rw [State.raiseFor_slot, marked], fun room enabled => ?_⟩
  rw [State.raiseFor_events (by exact enabled) (by exact room), State.frame, marked]
  rfl

theorem State.decodeAttempt_tag {s : State} {i : SlotId} {tag : FrameTag}
    (good : decodeTag (collectionBytes (s.slot i).collection) = .ok tag) :
    s.decodeAttempt i = (if s.inProcedure then s else s.takeTag i ⟨tag, s.clock⟩).clearCollection i := by
  unfold State.decodeAttempt
  dsimp only
  rw [good]

theorem OnSlot.decodeAttempt (s : State) (i : SlotId) : OnSlot i s (s.decodeAttempt i) := by
  cases decoded : decodeTag (collectionBytes (s.slot i).collection) with
  | error fault =>
    rw [State.decodeAttempt_fault decoded]
    split
    · exact .refl i s
    · exact (OnSlot.modSlot s i _).trans (.raiseSlot _ i i _)
  | ok tag =>
    rw [State.decodeAttempt_tag decoded]
    split
    · exact .modSlot s i _
    · exact (OnSlot.takeTag s i _).trans (.modSlot _ i _)

theorem OnSlot.tagHandover (s : State) (i : SlotId) (addr : Nat) (lanes : List Lane) (stale : Bool) :
    OnSlot i s (s.tagHandover i addr lanes stale) := by
  unfold State.tagHandover
  split
  · exact .refl i s
  · dsimp only
    split
    · split
      · exact (OnSlot.modSlot s i _).trans (.decodeAttempt _ i)
      · exact .modSlot s i _
    · exact .refl i s

/-! ### The completion as a whole -/

theorem dropIfFault_keeps (s : State) (st : Status) (l : List Nat) : OnReads s (s.dropIfFault st l) := by
  have drop (s : State) (line : Nat) : OnReads s (s.dropUpdated line) := by
    have within := Within.dropUpdated s line
    unfold State.dropUpdated at within ⊢
    split
    · split
      · next held same =>
        rw [held] at within
        dsimp only at within
        rw [if_pos same] at within
        exact ⟨within, rfl, rfl, rfl, rfl, rfl, rfl⟩
      · exact .refl s
    · exact .refl s
  unfold State.dropIfFault
  cases st with
  | okay => exact .refl s
  | fault =>
    induction l generalizing s with
    | nil => exact .refl s
    | cons x l ih => exact (drop s x).trans (ih _)

/-- The state in which the bytes of a completed request are handed on. -/
def State.answered (s : State) (e : DownTag) (st : Status) (data : List Byte) (r : UpRequest) (u : List Nat) : State :=
  ((s.freeEntry e).dropIfFault st u).complete (answerTo r st data)

theorem exec_upstreamOriginCompletion {s : State} {e : DownTag} {r : UpRequest} {c : Cls} {u : List Nat} {stale : Bool}
    (busy : s.mpu.outstanding[e] = some (.upstream r c u stale)) (st : Status) (data : List Byte) :
    exec (.upstreamOriginCompletion e st data) s = .next ((s.answered e st data r u).handOn r c stale st).finish := by
  simp only [exec, execUpstreamOriginCompletion, busy]
  rfl

theorem answered_reads (s : State) (e : DownTag) (st : Status) (data : List Byte) (r : UpRequest) (u : List Nat) :
    OnReads (s.freeEntry e) (s.answered e st data r u) := (dropIfFault_keeps _ st u).trans (.complete _ _)

theorem answered_ump (s : State) (e : DownTag) (st : Status) (data : List Byte) (r : UpRequest) (u : List Nat) :
    (s.answered e st data r u).ports.ump = s.ports.ump ++ [answerTo r st data] := by
  have ports (s : State) : (s.dropIfFault st u).ports = s.ports := by
    unfold State.dropIfFault
    cases st with
    | okay => rfl
    | fault =>
      induction u generalizing s with
      | nil => rfl
      | cons x l ih =>
        refine (ih _).trans ?_
        unfold State.dropUpdated
        split
        · split <;> rfl
        · rfl
  change ((s.freeEntry e).dropIfFault st u).ports.ump ++ _ = _
  rw [ports]
  rfl

theorem answerTo_eq (r : UpRequest) (st : Status) (data : List Byte) :
    answerTo r st data = ⟨r.master, r.tag, st, if r.isWrite then [] else data⟩ := by
  unfold answerTo UpRequest.isWrite
  cases r.kind <;> rfl

theorem State.freeEntry_procedure (s : State) (e : DownTag) : (s.freeEntry e).cru.proc = .none ↔ s.cru.proc = .none := by
  unfold State.freeEntry
  cases s.cru.proc <;> simp

theorem State.handOn_control {s : State} {r : UpRequest} {lanes : List Lane} (written : r.kind = .write lanes) (stale : Bool) :
    s.handOn r .control stale .okay = s.handover ⟨r.first - s.controlBase, lanes⟩ := by
  unfold State.handOn
  rw [written]

theorem State.handOn_tag {s : State} {r : UpRequest} {lanes : List Lane} (written : r.kind = .write lanes) (i : SlotId)
    (stale : Bool) : s.handOn r (.tag i) stale .okay = s.tagHandover i r.first lanes stale := by
  unfold State.handOn
  rw [written]

theorem State.handOn_nothing (s : State) {r : UpRequest} {st : Status} (nothing : st = .fault ∨ r.kind = .read) (c : Cls)
    (stale : Bool) : s.handOn r c stale st = s := by
  unfold State.handOn
  rcases nothing with rfl | h
  · rfl
  · rw [h]
    cases st <;> cases c <;> rfl

theorem Within.handOn (s : State) {r : UpRequest} {c : Cls} {st : Status}
    (other : st = .fault ∨ c ≠ .control ∨ r.kind = .read) (stale : Bool) : Within s (s.handOn r c stale st) := by
  rcases other with h | h | h
  · rw [State.handOn_nothing s (.inl h)]
    exact .refl s
  · unfold State.handOn
    split
    · exact absurd rfl h
    · exact .tagHandover s _ _ _ _
    · exact .refl s
  · rw [State.handOn_nothing s (.inr h)]
    exact .refl s

theorem OnSlot.handOn (s : State) (r : UpRequest) (i : SlotId) (stale : Bool) (st : Status) :
    OnSlot i s (s.handOn r (.tag i) stale st) := by
  cases st with
  | fault =>
    rw [State.handOn_nothing s (.inl rfl)]
    exact .refl i s
  | okay =>
    cases kind : r.kind with
    | read =>
      rw [State.handOn_nothing s (.inr kind)]
      exact .refl i s
    | write lanes =>
      rw [State.handOn_tag kind]
      exact .tagHandover s i _ _ _

/-- Settles O32: the answer and the shadow by what the handing on keeps; the tag by the bytes that are there. -/
theorem forwardedCompletionReturned : Obligations.ForwardedCompletionReturned := by
  intro s e st data r c u stale busy
  rw [exec_upstreamOriginCompletion busy]
  have reads := answered_reads s e st data r u
  have ump := answered_ump s e st data r u
  rw [answerTo_eq] at ump
  generalize s.answered e st data r u = v at *
  have slots : v.slots = s.slots := reads.slots
  have shadow : v.cru.shadow = s.cru.shadow := by rw [reads.cru, State.freeEntry_cru]
  have settings : v.cru.settings = s.cru.settings := by rw [reads.cru, State.freeEntry_cru]
  have handed := Keeps.handOn v r c stale st
  refine ⟨_, rfl, ?_, fun x => ?_, ?_, fun other => ?_, ?_⟩
  · rw [← ump]
    exact (handed .ump rfl).trans (State.finish_same (v.handOn r c stale st) .ump nofun nofun nofun)
  · rw [State.finish_same (v.handOn r c stale st) .busy nofun nofun nofun x, handed .busy rfl x, reads.outstanding,
      State.freeEntry_busy]
  · rintro lanes rfl rfl written
    refine (State.finish_same _ .shadow nofun nofun nofun).trans ?_
    have base : v.controlBase = s.controlBase := by
      rw [State.controlBase, reads.within.pins]
      rfl
    rw [State.handOn_control written, State.handover_shadow, shadow, base]
  · have within := Within.handOn v other stale
    exact ⟨(State.finish_same (v.handOn r c stale st) .shadow nofun nofun nofun).trans (within.shadow.trans shadow),
      (State.finish_same (v.handOn r c stale st) .settings nofun nofun nofun).trans (within.settings.trans settings)⟩
  · rintro i rfl idle
    have on := OnSlot.handOn v r i stale st
    obtain ⟨x, onx, ends⟩ := OnReads.finish (on.within.idle (reads.intake.trans idle))
    have slot : v.slot i = s.slot i := State.slot_ofSlots slots i
    have frame : v.frame i = s.frame i := congrArg Slot.frame slot
    have cruEq := reads.cru
    have ssu : v.ssu = s.ssu := reads.ssu
    rw [ends]
    have after (j : SlotId) : x.refreshReports.slot j = (v.handOn r (.tag i) stale st).slot j := onx.slot j
    have whole (stays : v.handOn r (.tag i) stale st = v) : x.refreshReports.slots = s.slots :=
      onx.slots.trans (by rw [stays, slots])
    refine ⟨fun j other => ?_, fun nothing => whole ?_, fun lanes w done written fresh window => ?_⟩
    · rw [after, on.other j other, State.slot_ofSlots slots]
    · rcases nothing with h | h | h | h
      · exact State.handOn_nothing v (.inl h) _ _
      · exact State.handOn_nothing v (.inr h) _ _
      · cases st with
        | fault => exact State.handOn_nothing v (.inl rfl) _ _
        | okay =>
          cases kind : r.kind with
          | read => exact State.handOn_nothing v (.inr kind) _ _
          | write lanes => rw [State.handOn_tag kind, State.tagHandover_idle (.inl h)]
      · cases st with
        | fault => exact State.handOn_nothing v (.inl rfl) _ _
        | okay =>
          cases kind : r.kind with
          | read => exact State.handOn_nothing v (.inr kind) _ _
          | write lanes => rw [State.handOn_tag kind, State.tagHandover_idle (.inr (by rw [slot]; exact h))]
    · subst done fresh
      have window' : (v.slot i).committed = some w := by rw [slot, window]
      rw [State.handOn_tag written] at on onx after whole
      dsimp only
      have got (k : Fin 64) := Slot.gathered_get (s.slot i) w r.first lanes k
      have gathered : (v.modSlot i fun sl => sl.gathered w r.first lanes).slot i = (s.slot i).gathered w r.first lanes := by
        rw [State.slot_modSlot_self, slot]
      refine ⟨fun outside => whole (State.tagHandover_outside window' outside), fun missing => ?_, fun inside all => ?_⟩
      · obtain ⟨k, none_⟩ := missing
        by_cases inside : ∃ k : Fin 64, (tagLane w r.first lanes k).isSome = true
        · have partial_ : collected ((v.slot i).gathered w r.first lanes).collection = false := by
            rw [← Bool.not_eq_true, collected_iff, slot]
            intro all
            have here := all k
            rw [(got k).trans none_] at here
            cases here
          rw [after, State.tagHandover_gathers window' inside, partial_, if_neg Bool.false_ne_true, gathered]
          exact ⟨rfl, got⟩
        · have outside (k : Fin 64) : tagLane w r.first lanes k = none := by
            rw [← Option.not_isSome_iff_eq_none]
            exact fun h => inside ⟨k, h⟩
          rw [after, State.tagHandover_outside window' outside, slot]
          refine ⟨rfl, fun k => ?_⟩
          refine (if_neg ?_).symm
          have := outside k
          unfold tagLane at this
          rw [this]
          decide
      · have full : collected ((v.slot i).gathered w r.first lanes).collection = true := by
          rw [collected_iff, slot]
          intro k
          rw [got k]
          exact all k
        have runs := State.tagHandover_gathers window' inside
        rw [full, if_pos rfl] at runs
        have bytes := (collectionBytes_eq ((s.slot i).gathered w r.first lanes).collection).trans
          (List.map_congr_left fun k _ => congrArg (fun l : Lane => l.getD 0) (got k))
        rw [← gathered] at bytes
        rw [runs] at on onx after
        have cru : (v.modSlot i fun sl => sl.gathered w r.first lanes).cru = (s.freeEntry e).cru := cruEq
        have ssu' : (v.modSlot i fun sl => sl.gathered w r.first lanes).ssu = s.ssu := ssu
        generalize (v.modSlot i fun sl => sl.gathered w r.first lanes) = y at *
        have clock : y.clock = s.clock := congrArg Ssu.clock ssu'
        have record : y.frame i = s.frame i := by
          rw [State.frame, gathered]
          rfl
        have same : y.cru.events = s.cru.events ∧ y.cru.overflow = s.cru.overflow ∧ y.cru.settings = s.cru.settings := by
          rw [cru]
          exact ⟨rfl, rfl, rfl⟩
        obtain ⟨sameEvents, sameOverflow, sameSettings⟩ := same
        have procedure : y.cru.proc = .none ↔ s.cru.proc = .none := by rw [cru, State.freeEntry_procedure]
        have cruAfter : x.refreshReports.cru = (y.decodeAttempt i).cru := onx.cru
        have ssuAfter : x.refreshReports.ssu = (y.decodeAttempt i).ssu := onx.ssu
        refine ⟨fun fault bad => ?_, fun tag good => ?_⟩
        · have bad' : decodeTag (collectionBytes (y.slot i).collection) = .error fault := by
            rw [bytes]
            exact bad
          rw [after, cruAfter]
          cases marked : (s.slot i).invalidReported with
          | true =>
            rw [State.decodeAttempt_fault bad', gathered, if_pos (by exact marked), gathered, sameEvents]
            refine ⟨?_, got, fun _ => rfl, fun h => absurd h (by decide)⟩
            rw [Slot.gathered, ← marked]
          | false =>
            obtain ⟨slotAfter, events⟩ := State.decodeAttempt_reports bad' (by rw [gathered]; exact marked)
            rw [slotAfter, gathered]
            refine ⟨rfl, got, fun h => absurd h (by decide), fun _ room enabled => ?_⟩
            rw [events (by rw [sameEvents]; exact room) (by rw [sameSettings]; exact enabled), bytes, sameEvents, sameOverflow,
              record, clock]
            rfl
        · have good' : decodeTag (collectionBytes (y.slot i).collection) = .ok tag := by
            rw [bytes]
            exact good
          have attempt := State.decodeAttempt_tag good'
          have slotAfter : (y.decodeAttempt i).slot i =
              { (if y.inProcedure then y else y.takeTag i ⟨tag, y.clock⟩).slot i with collection := emptyCollection } := by
            rw [attempt]
            exact State.slot_modSlot_self _ i _
          refine ⟨?_, fun busy => ?_, fun free => ?_⟩
          · rw [after, slotAfter]
            rfl
          · have on : y.inProcedure = true := decide_eq_true (mt procedure.mp busy)
            rw [after, slotAfter, on, if_pos rfl, gathered]
            rfl
          · have off : y.inProcedure = false := decide_eq_false (not_not_intro (procedure.mpr free))
            rw [off, if_neg Bool.false_ne_true, clock] at slotAfter attempt
            refine TagTaken.takeTag (u := y) record (by rw [gathered]; rfl) (by rw [gathered]; rfl) ssu' sameSettings
              (procedure.mpr free) ?_ ?_ ?_
            · rw [State.frame, after, slotAfter, State.frame]
            · rw [after, slotAfter]
            · rw [ssuAfter, attempt]
              rfl

end Sys2Proof.Machine
end

