-- ==== Sys2Proof/Proofs/IngestQuestion.lean ====
section
/-! SUPPORT. An INGEST write at the Line Store (R120, R121): the question to the Frame Table, the end of its command, and the
accounting of a write that no completion follows. -/

namespace Sys2Proof.Machine

/-! ### The question -/

/-- The INGEST write `r` of slot `i` waits for its claims with an answer of the Frame Table. -/
def State.asked (s : State) (r : UpRequest) (i : SlotId) (w : Window) (answer : FtAnswer) : State :=
  { s with
    mpu := { s.mpu with intake := some { req := r, cls := .ingest i, window := some w, stale := false, phase := .claims
                                         answer := some answer } }
    ls := { s.ls with claims := [⟨r.first / 256, .ingest, false, false⟩] } }

/-- The INGEST write as it is presented. -/
def ingestOf (r : UpRequest) (i : SlotId) (w : Window) : Presented :=
  { req := r, cls := .ingest i, window := some w, stale := false, phase := .claims, answer := none }

/-- The state in which its claim is placed. -/
def State.asks (s : State) (r : UpRequest) (i : SlotId) (w : Window) : State :=
  { s with
    mpu := { s.mpu with intake := some (ingestOf r i w) }
    ls := { s.ls with claims := [⟨r.first / 256, .ingest, false, false⟩] } }

/-- An INGEST claim evaluated with an answer of the Frame Table (R121). -/
def State.evalAnswered (s : State) (x : LineIdx) (line : Nat) (p : Presented) (i : SlotId) (w : Window)
    (answer : FtAnswer) : State × Bool :=
  match answer with
  | .refused => (s.forceFull i, false)
  | .noGeneration => s.resolvedWrite x line p i w none
  | .resolved g b => s.resolvedWrite x line p i w (some (g, b))
  | .waiting g b => s.unresolvedWrite x line p i w g (some b)
  | .pendingBand g => s.unresolvedWrite x line p i w g none

theorem State.evalIngest_eq {s : State} {p : Presented} {i : SlotId} {w : Window} {line : Nat} {answer : FtAnswer}
    (here : s.mpu.intake = some p) (cls : p.cls = .ingest i) (window : p.window = some w)
    (asked : s.ftAnswer i p.stale (w.bandOfLine line) = answer) (x : LineIdx) : s.evalIngest x line =
      (s.modIntake fun p => { p with answer := some answer }).evalAnswered x line p i w answer := by
  unfold State.evalIngest
  rw [here]
  dsimp only
  rw [cls, window]
  dsimp only
  rw [asked]
  cases answer <;> rfl

theorem State.asks_evalClaim (s : State) (r : UpRequest) (i : SlotId) (w : Window) {answer : FtAnswer}
    (asked : s.ftAnswer i false (w.bandOfLine (r.first / 256)) = answer) :
    (s.asks r i w).evalClaim (indexOf (r.first / 256)) ⟨r.first / 256, .ingest, false, false⟩ =
      (s.asked r i w answer).evalAnswered (indexOf (r.first / 256)) (r.first / 256) (ingestOf r i w) i w answer :=
  State.evalIngest_eq (s := s.asks r i w) (p := ingestOf r i w) rfl rfl rfl asked (indexOf (r.first / 256))

/-- The command that presents an INGEST write, up to its end. -/
theorem exec_upstreamRequest_ingest {s : State} {r : UpRequest} {i : SlotId} {w : Window} (wf : r.wf = true)
    (free : s.canPresent = true) (port : s.mpu.port = []) (swept : s.ls.sweeping = false) (none_ : s.ls.claims = [])
    (cls : s.classify r = (.ingest i, some w)) :
    exec (.upstreamRequest r) s = .next ((s.asks r i w).evalIndex (indexOf (r.first / 256))).finish := by
  have done : (presentedAs s r .sweep s.mpu.class3).ls.sweeping = false := swept
  rw [exec_upstreamRequest_startPresented free port wf]
  simp only [State.startPresented, cls, done, Bool.false_eq_true, if_false, State.presentedAs_setPhase]
  unfold presentedAs
  rw [cls, State.addClaim]
  dsimp only
  rw [none_]
  rfl

theorem State.ftAnswer_ofSlots {s t : State} (slots : t.slots = s.slots) (i : SlotId) (stale : Bool) (b : BandId) :
    t.ftAnswer i stale b = s.ftAnswer i stale b := by
  have slot := State.slot_ofSlots slots i
  unfold State.ftAnswer State.frame
  rw [slot]

/-- At the end of a command nothing is settled where the Frame Table answers as before. -/
theorem State.settleIntake_answered {s : State} {p : Presented} {i : SlotId} {w : Window} {answer : FtAnswer}
    (here : s.mpu.intake = some p) (cls : p.cls = .ingest i) (window : p.window = some w)
    (answered : p.answer = some answer) (same : s.ftAnswer i p.stale (w.bandOfLine (p.req.first / 256)) = answer)
    (n : Nat) : s.settleIntake n = s := by
  cases n
  · rfl
  · unfold State.settleIntake
    simp only [here, cls, window, answered, same, if_true]

theorem State.asks_head (s : State) (r : UpRequest) (i : SlotId) (w : Window) :
    (s.asks r i w).headClaim (indexOf (r.first / 256)) = some ⟨r.first / 256, .ingest, false, false⟩ :=
  State.headClaim_single (c := ⟨r.first / 256, .ingest, false, false⟩) rfl

section
variable {s t : State} {r : UpRequest} {i : SlotId} {w : Window} {answer : FtAnswer} (quiet : Quiet s)
include quiet

/-- A claim that is not served: the write waits, at its claim or for its grant. -/
theorem ingest_waits (asked : s.ftAnswer i false (w.bandOfLine (r.first / 256)) = answer) (evaluated : (s.asks r i w).evalClaim (indexOf (r.first / 256))
      ⟨r.first / 256, .ingest, false, false⟩ = (t, false))
    {phase : Phase} (intake : t.mpu.intake = some { req := r, cls := .ingest i, window := some w, stale := false
                                                    phase := phase, answer := some answer })
    (slots : t.slots = s.slots) (class5 : t.mpu.class5 = s.mpu.class5) (starvation : t.mpu.starvation = s.mpu.starvation)
    (er : t.er = s.er) (pins : t.pins = s.pins) (cru : t.cru = s.cru) :
    ((s.asks r i w).evalIndex (indexOf (r.first / 256))).finish = t := by
  rw [State.evalIndex_waits (State.asks_head s r i w) rfl evaluated]
  refine quiet.finish_settled ?_ class5 starvation er pins cru
  refine State.settleIntake_answered intake rfl rfl rfl ?_ 8
  rw [State.ftAnswer_ofSlots slots]
  exact asked

/-- A claim that is served: the write has been taken. -/
theorem ingest_served (evaluated : (s.asks r i w).evalClaim (indexOf (r.first / 256))
      ⟨r.first / 256, .ingest, false, false⟩ = (t, true))
    (intake : t.mpu.intake = none) (claims : t.ls.claims = []) (class5 : t.mpu.class5 = s.mpu.class5)
    (starvation : t.mpu.starvation = s.mpu.starvation) (er : t.er = s.er) (pins : t.pins = s.pins) (cru : t.cru = s.cru) :
    ((s.asks r i w).evalIndex (indexOf (r.first / 256))).finish = t := by
  rw [State.evalIndex_served (State.asks_head s r i w) rfl evaluated (State.headClaim_nil claims _)]
  refine quiet.finish_settled ?_ class5 starvation er pins cru
  unfold State.settleIntake
  rw [intake]

end

/-! ### The accounting that no completion follows -/

/-- A slot whose current generation accounts a write (R27, R28, R57). -/
def Slot.accountedOpen (sl : Slot) (beats : Nat) (eof : Bool) (clock : Stamp) (duration : Nat) : Slot :=
  { sl with
    frame := sl.frame.accountCurrent beats eof clock
    tagDeadline := if sl.frame.state = .armed ∧ sl.frame.firstIngest = none then some (stampAdd clock duration)
      else sl.tagDeadline }

/-- A slot that accounts a write, by the state of its record (R27). -/
def Slot.accounted (sl : Slot) (beats : Nat) (eof : Bool) (clock : Stamp) (duration : Nat) : Slot :=
  if sl.frame.state = .complete then sl.begin.accountedOpen beats eof clock duration
  else if sl.frame.closed then { sl with frame := sl.frame.accountSuccessor beats eof clock }
  else sl.accountedOpen beats eof clock duration

theorem State.modSlot_congr {s : State} {i : SlotId} {f g : Slot → Slot} (same : f (s.slot i) = g (s.slot i)) :
    s.modSlot i f = s.modSlot i g := congrArg (fun sl => { s with slots := put s.slots i sl }) same

theorem State.modSlot_modSlot (s : State) (i : SlotId) (f g : Slot → Slot) :
    (s.modSlot i f).modSlot i g = s.modSlot i fun sl => g (f sl) := by
  unfold State.modSlot
  have slot := State.slot_modSlot_self s i f
  unfold State.modSlot at slot
  rw [slot]
  dsimp only
  rw [put_put]

theorem State.accountOpen_stays {s : State} {i : SlotId} (beats : Nat) (eof : Bool)
    (stays : (s.frame i).state ≠ .resolved ∨ (s.frame i).held ≠ 0) :
    s.accountOpen i beats eof = s.modSlot i fun sl => sl.accountedOpen beats eof s.clock s.cru.settings.tagDeadline := by
  have lingers (u : State) (state : (u.frame i).state = (s.frame i).state) (held : (u.frame i).held = (s.frame i).held) :
      State.testComplete i u = u := by
    refine State.tryComplete_stays ?_ 4
    rw [state, held]
    exact stays.imp_right .inl
  unfold State.accountOpen
  dsimp only
  split
  · next starts =>
    have first : (s.slot i).frame.state = .armed ∧ (s.slot i).frame.firstIngest = none := by
      simpa [State.frame] using starts
    have same : (s.modFrame i fun f => f.accountCurrent beats eof s.clock).setTagDeadline i =
        s.modSlot i fun sl => sl.accountedOpen beats eof s.clock s.cru.settings.tagDeadline := by
      unfold State.setTagDeadline State.modFrame
      rw [State.modSlot_modSlot]
      refine State.modSlot_congr ?_
      unfold Slot.accountedOpen
      rw [if_pos first]
      simp only [FrameRecord.accountCurrent, first.2]
      rfl
    rw [same]
    have slot := State.slot_modSlot_self s i fun sl => sl.accountedOpen beats eof s.clock s.cru.settings.tagDeadline
    exact lingers _ (by rw [State.frame, slot]; rfl) (by rw [State.frame, slot]; rfl)
  · next later =>
    have other : ¬ ((s.slot i).frame.state = .armed ∧ (s.slot i).frame.firstIngest = none) := by
      simpa [State.frame] using later
    have same : (s.modFrame i fun f => f.accountCurrent beats eof s.clock) =
        s.modSlot i fun sl => sl.accountedOpen beats eof s.clock s.cru.settings.tagDeadline := by
      refine State.modSlot_congr ?_
      unfold Slot.accountedOpen
      rw [if_neg other]
    rw [same]
    have slot := State.slot_modSlot_self s i fun sl => sl.accountedOpen beats eof s.clock s.cru.settings.tagDeadline
    exact lingers _ (by rw [State.frame, slot]; rfl) (by rw [State.frame, slot]; rfl)

theorem State.account_stays {s : State} {i : SlotId} (beats : Nat) (eof : Bool)
    (stays : (s.frame i).closed = true ∨ (s.frame i).state ≠ .resolved ∨ (s.frame i).held ≠ 0) : s.account i beats eof true =
      s.modSlot i fun sl => sl.accounted beats eof s.clock s.cru.settings.tagDeadline := by
  unfold State.account
  dsimp only
  rw [if_pos rfl]
  split
  · next complete =>
    have armed : ((s.beginGen i).frame i).state = .armed := by
      unfold State.beginGen
      rw [State.frame, State.slot_modSlot_self, Slot.begin, FrameRecord.begin]
      split <;> rfl
    rw [State.accountOpen_stays beats eof (.inl (by rw [armed]; decide)), State.beginGen, State.modSlot_modSlot]
    exact State.modSlot_congr (if_pos (by exact complete)).symm
  · next other =>
    split
    · next closed =>
      exact State.modSlot_congr ((if_neg (by exact other)).trans (if_pos (by exact closed))).symm
    · next open_ =>
      rw [State.accountOpen_stays beats eof (stays.resolve_left open_)]
      exact State.modSlot_congr ((if_neg (by exact other)).trans (if_neg (by exact open_))).symm

end Sys2Proof.Machine
end

