-- ==== Sys2Proof/Proofs/IngestPosted.lean ====
section
/-! PROOF. An INGEST write whose band is WAITING or pending (R123, R124): the record it meets, and its accounting. -/

namespace Sys2Proof.Machine

/-! ### The answers of the Frame Table (R121) -/

section
variable {s : State} {i : SlotId}

theorem ftAnswer_free (free : (s.frame i).state = .free) (stale : Bool) (b : BandId) :
    s.ftAnswer i stale b = .noGeneration := by
  unfold State.ftAnswer
  dsimp only
  rw [free]
  exact ite_self _

theorem ftAnswer_complete (complete : (s.frame i).state = .complete) (b : BandId) :
    s.ftAnswer i false b = .pendingBand ((s.frame i).generation + 1) := by
  unfold State.ftAnswer
  dsimp only
  rw [complete]
  rfl

theorem ftAnswer_closed (stage : (s.frame i).state ≠ .free ∧ (s.frame i).state ≠ .complete)
    (closed : (s.frame i).closed = true) (b : BandId) :
    s.ftAnswer i false b = .refused ∨ s.ftAnswer i false b = .noGeneration ∨
      s.ftAnswer i false b = .pendingBand ((s.frame i).generation + 1) := by
  unfold State.ftAnswer
  dsimp only
  rw [if_neg Bool.false_ne_true]
  split
  · next free => exact absurd free stage.1
  · next complete => exact absurd complete stage.2
  · rw [if_pos closed]
    split
    · split
      · exact .inl rfl
      · exact .inr (.inr rfl)
    · split
      · exact .inr (.inl rfl)
      · exact .inr (.inr rfl)

theorem ftAnswer_armed (armed : (s.frame i).state = .armed) (open_ : (s.frame i).closed = false) (b : BandId) :
    s.ftAnswer i false b = .pendingBand (s.frame i).generation := by
  unfold State.ftAnswer
  dsimp only
  rw [if_neg Bool.false_ne_true, armed]
  dsimp only
  rw [open_]
  rfl

theorem ftAnswer_open (stage : (s.frame i).state = .tagged ∨ (s.frame i).state = .resolved)
    (open_ : (s.frame i).closed = false) (b : BandId) : s.ftAnswer i false b =
      if ((s.frame i).bands[b]).result.isSome then .resolved (s.frame i).generation b
      else .waiting (s.frame i).generation b := by
  unfold State.ftAnswer
  dsimp only
  rw [if_neg Bool.false_ne_true]
  rcases stage with h | h <;> rw [h] <;> dsimp only <;> rw [open_] <;> cases ((s.frame i).bands[b]).result <;> rfl

/-- The records from which an answer comes that names no result of a band. -/
theorem ftAnswer_unresolved {b : BandId} {g : Generation} {answer : FtAnswer} (asked : s.ftAnswer i false b = answer)
    (unresolved : answer = .pendingBand g ∨ ∃ b, answer = .waiting g b)
    (settled : (s.frame i).state = .resolved → (s.frame i).allResolved = true) :
    ((s.frame i).state = .complete ∧ g = (s.frame i).generation + 1) ∨
      ((s.frame i).state ≠ .complete ∧ (s.frame i).closed = true ∧ g = (s.frame i).generation + 1) ∨
      (((s.frame i).state = .armed ∨ (s.frame i).state = .tagged) ∧ (s.frame i).closed = false ∧
        g = (s.frame i).generation) := by
  subst asked
  by_cases free : (s.frame i).state = .free
  · simp [ftAnswer_free free] at unresolved
  by_cases complete : (s.frame i).state = .complete
  · simp only [ftAnswer_complete complete, FtAnswer.pendingBand.injEq, reduceCtorEq, exists_false, or_false] at unresolved
    exact .inl ⟨complete, unresolved.symm⟩
  cases closed : (s.frame i).closed with
  | true =>
    rcases ftAnswer_closed ⟨free, complete⟩ closed b with h | h | h
    · simp [h] at unresolved
    · simp [h] at unresolved
    · simp only [h, FtAnswer.pendingBand.injEq, reduceCtorEq, exists_false, or_false] at unresolved
      exact .inr (.inl ⟨complete, rfl, unresolved.symm⟩)
  | false =>
    by_cases armed : (s.frame i).state = .armed
    · simp only [ftAnswer_armed armed closed, FtAnswer.pendingBand.injEq, reduceCtorEq, exists_false, or_false] at unresolved
      exact .inr (.inr ⟨.inl armed, rfl, unresolved.symm⟩)
    have stage : (s.frame i).state = .tagged ∨ (s.frame i).state = .resolved := by
      revert free complete armed
      cases (s.frame i).state <;> decide
    cases result : ((s.frame i).bands[b]).result.isSome with
    | true =>
      rw [ftAnswer_open stage closed, result] at unresolved
      simp at unresolved
    | false =>
      rw [ftAnswer_open stage closed, result] at unresolved
      simp only [Bool.false_eq_true, if_false, reduceCtorEq, FtAnswer.waiting.injEq, false_or] at unresolved
      obtain ⟨_, own, _⟩ := unresolved
      refine .inr (.inr ⟨stage.elim .inr fun resolved => ?_, rfl, own.symm⟩)
      have all := (FrameRecord.allResolved_iff _).mp (settled resolved) b
      rw [result] at all
      cases all

end

/-! ### The lines of a generation -/

/-- A number of lines enters HELD for a slot and generation (R37). -/
def FrameRecord.linesHeld (f : FrameRecord) (g : Generation) (n : Nat) : FrameRecord :=
  if f.generation = g then { f with held := f.held + n }
  else { f with successor := f.successor.map fun x => { x with held := x.held + n } }

theorem FrameRecord.linesHeld_own {f : FrameRecord} {g : Generation} (own : f.generation = g) (n : Nat) :
    f.linesHeld g n = { f with held := f.held + n } := if_pos own

theorem FrameRecord.linesHeld_next {f : FrameRecord} {g : Generation} (other : f.generation ≠ g) (n : Nat) :
    f.linesHeld g n = { f with successor := f.successor.map fun x => { x with held := x.held + n } } := if_neg other

theorem FrameRecord.linesHeld_one (f : FrameRecord) (g : Generation) : f.linesHeld g 1 = f.lineHeld g := rfl

theorem FrameRecord.linesHeld_zero (f : FrameRecord) (g : Generation) : f.linesHeld g 0 = f := by
  unfold FrameRecord.linesHeld
  split
  · rfl
  · have same : (f.successor.map fun x => { x with held := x.held + 0 }) = f.successor := by cases f.successor <;> rfl
    rw [same]

/-- The slot after a posted write of generation `g` that makes `n` lines HELD (R27, R37). -/
def Slot.posted (sl : Slot) (beats : Nat) (eof : Bool) (clock : Stamp) (duration : Nat) (g : Generation) (n : Nat) : Slot :=
  { sl.accounted beats eof clock duration with frame := (sl.accounted beats eof clock duration).frame.linesHeld g n }

section
variable {sl : Slot}

theorem Slot.accounted_complete (complete : sl.frame.state = .complete) (beats : Nat) (eof : Bool) (clock : Stamp)
    (duration : Nat) : sl.accounted beats eof clock duration = sl.begin.accountedOpen beats eof clock duration :=
  if_pos complete

theorem Slot.accounted_closed (other : sl.frame.state ≠ .complete) (closed : sl.frame.closed = true) (beats : Nat)
    (eof : Bool) (clock : Stamp) (duration : Nat) : sl.accounted beats eof clock duration =
      { sl with frame := sl.frame.accountSuccessor beats eof clock } := (if_neg other).trans (if_pos closed)

theorem Slot.accounted_open (other : sl.frame.state ≠ .complete) (open_ : sl.frame.closed = false) (beats : Nat)
    (eof : Bool) (clock : Stamp) (duration : Nat) : sl.accounted beats eof clock duration =
      sl.accountedOpen beats eof clock duration := (if_neg other).trans (if_neg (by rw [open_]; exact Bool.false_ne_true))

end

/-- A fresh generation has had no write (R23, R26). -/
theorem Slot.begin_last {sl : Slot} (last : sl.frame.successor = none) : sl.begin.frame =
    { FrameRecord.blank (sl.frame.generation + 1) with state := .armed, presented := sl.frame.presented } := by
  rw [Slot.begin, FrameRecord.begin, last]

theorem stampAdd_natCast (a : Stamp) (n : Nat) : stampAdd a (n : Int) = a + BitVec.ofNat 32 n := by
  rw [stampAdd, BitVec.ofInt_natCast]

theorem PostedAccount.of {s t : State} {i : SlotId} {w : Window} {r : UpRequest} {g : Generation} {n : Nat}
    (other : ∀ j, j ≠ i → t.slot j = s.slot j)
    (slot : t.slot i = (s.slot i).posted r.beats (decide (r.first ≤ w.lastImageByte ∧ w.lastImageByte ≤ r.last)) s.clock
      s.cru.settings.tagDeadline g n)
    (stage : ((s.frame i).state = .complete ∧ g = (s.frame i).generation + 1) ∨
      ((s.frame i).state ≠ .complete ∧ (s.frame i).closed = true ∧ g = (s.frame i).generation + 1) ∨
      (((s.frame i).state = .armed ∨ (s.frame i).state = .tagged) ∧ (s.frame i).closed = false ∧
        g = (s.frame i).generation)) : PostedAccount s t i w r g n := by
  unfold PostedAccount
  dsimp only
  generalize decide (r.first ≤ w.lastImageByte ∧ w.lastImageByte ≤ r.last) = eof at *
  have later (h : g = (s.frame i).generation + 1) : (s.frame i).generation ≠ g := by
    rw [h]
    bv_omega
  have frame : t.frame i = (t.slot i).frame := rfl
  rw [frame, slot, Slot.posted]
  refine ⟨other, fun own => ?_, fun stage' open_ => ?_, fun other' closed => ?_, fun complete last => ?_⟩
  · rcases stage with ⟨_, h⟩ | ⟨_, _, h⟩ | ⟨stage, open_, _⟩
    · exact absurd own (later h)
    · exact absurd own (later h)
    · rw [Slot.accounted_open (by rcases stage with h | h <;> exact fun h' => absurd (h.symm.trans h') (by decide)) open_,
        FrameRecord.linesHeld_own (by exact own)]
      rfl
  · have other' : (s.slot i).frame.state ≠ .complete := by
      rcases stage' with h | h <;> exact fun h' => absurd (h.symm.trans h') (by decide)
    have own : (s.frame i).generation = g := by
      rcases stage with ⟨h, _⟩ | ⟨_, h, _⟩ | ⟨_, _, h⟩
      · exact absurd h other'
      · rw [open_] at h
        cases h
      · exact h.symm
    rw [Slot.accounted_open other' open_, FrameRecord.linesHeld_own (by exact own)]
    refine ⟨rfl, ?_⟩
    dsimp only [Slot.accountedOpen]
    rw [stampAdd_natCast]
    rfl
  · have next : g = (s.frame i).generation + 1 := by
      rcases stage with ⟨h, _⟩ | ⟨_, _, h⟩ | ⟨_, h, _⟩
      · exact absurd h other'
      · exact h
      · rw [closed] at h
        cases h
    rw [Slot.accounted_closed other' closed, FrameRecord.linesHeld_next (by exact later next)]
    rfl
  · have next : g = (s.frame i).generation + 1 := by
      rcases stage with ⟨_, h⟩ | ⟨h, _⟩ | ⟨h, _⟩
      · exact h
      · exact absurd complete h
      · rw [complete] at h
        simp at h
    have begun := Slot.begin_last (sl := s.slot i) last
    rw [Slot.accounted_complete complete, Slot.accountedOpen, begun, FrameRecord.linesHeld_own (by exact next.symm)]
    refine ⟨rfl, next.symm, Nat.zero_add n, ?_, rfl, ?_, rfl, rfl, ?_⟩
    · change addBeats 0 r.beats = _
      rw [addBeats, Nat.zero_add]
      rfl
    · exact Bool.false_or eof
    · rw [← stampAdd_natCast]
      dsimp only
      exact if_pos ⟨rfl, rfl⟩

/-! ### The record it meets -/

theorem mergeLanes_get {old new : List Lane} (full : old.length = 256) (whole : new.length = 256) :
    (mergeLanes old new).length = 256 ∧ ∀ k, k < 256 → (mergeLanes old new).getD k none =
      if (new.getD k none).isSome = true then new.getD k none else old.getD k none := by
  refine ⟨mergeLanes_length full whole, fun k small => ?_⟩
  have inOld : k < old.length := by omega
  have inNew : k < new.length := by omega
  simp [mergeLanes, List.getD_eq_getElem?_getD, inOld, inNew]

section
variable {s : State} {x : LineIdx} {line : Nat} {p : Presented} {i : SlotId} {w : Window} {g : Generation}
  {band : Option BandId}

theorem State.unresolvedWrite_new (record : s.line x = .invalid ∨ ∃ tag data, s.line x = .clean tag data) :
    s.unresolvedWrite x line p i w g band = (s.postNew x p i w line g band, true) := by
  unfold State.unresolvedWrite
  rcases record with h | ⟨tag, data, h⟩ <;> rw [h]

theorem State.unresolvedWrite_merge {b : Option BandId} {old : List Lane} {demand : Bool}
    (record : s.line x = .held ⟨line, i, g⟩ b old demand) : s.unresolvedWrite x line p i w g band =
      (s.postMerge x p i w ⟨line, i, g⟩ b old demand, true) := by
  unfold State.unresolvedWrite
  rw [record]
  exact if_pos ⟨rfl, rfl, rfl⟩

theorem State.unresolvedWrite_demands {tag : LineTag} {b : Option BandId} {old : List Lane} {demand : Bool}
    (record : s.line x = .held tag b old demand) (other : tag ≠ ⟨line, i, g⟩) :
    s.unresolvedWrite x line p i w g band = (s.demand x, false) := by
  unfold State.unresolvedWrite
  rw [record]
  refine if_neg ?_
  rintro ⟨rfl, rfl, rfl⟩
  exact other rfl

theorem State.unresolvedWrite_waits (record : (s.line x).isFilling = true ∨ (s.line x).isCasting = true) :
    s.unresolvedWrite x line p i w g band = (s, false) := by
  unfold State.unresolvedWrite
  cases h : s.line x <;> rw [h] at record <;> first | rfl | (rcases record with h | h <;> cases h)

end

/-- The claim of the only request leaves its list (R13, R124). -/
theorem State.takePosted_eq {s : State} {r : UpRequest} {i : SlotId} {w : Window} {answer : FtAnswer}
    (stays : (s.frame i).closed = true ∨ (s.frame i).state ≠ .resolved ∨ (s.frame i).held ≠ 0) :
    (s.asked r i w answer).takePosted (indexOf (r.first / 256)) (ingestOf r i w) i w =
      { (s.modSlot i fun sl => sl.accounted r.beats (decide (r.first ≤ w.lastImageByte ∧ w.lastImageByte ≤ r.last)) s.clock
          s.cru.settings.tagDeadline) with
        ports := { s.ports with ump := s.ports.ump ++ [⟨r.master, r.tag, .okay, []⟩] }
        mpu := { s.mpu with intake := none, class3 := none }
        ls := { s.ls with claims := [] } } := by
  have gone : [(⟨r.first / 256, .ingest, false, false⟩ : Claim)].eraseP (fun c => c.on (indexOf (r.first / 256))) = [] := by
    simp [Claim.on]
  unfold State.takePosted
  dsimp only
  rw [State.account_stays (s := s.asked r i w answer) _ _ stays, marksEndOfFrame_eq, State.popClaim]
  change State.setClaims _ ([(⟨r.first / 256, .ingest, false, false⟩ : Claim)].eraseP _) = _
  rw [gone]
  rfl

/-- The state after the write has been posted: the slot, the record and the answer (R13, R123, R124). -/
def State.afterPost (s : State) (r : UpRequest) (i : SlotId) (sl : Slot) (record : LineRec) : State :=
  { s with
    slots := put s.slots i sl
    ports := { s.ports with ump := s.ports.ump ++ [⟨r.master, r.tag, .okay, []⟩] }
    mpu := { s.mpu with intake := none, class3 := none }
    ls := { s.ls with lines := put s.ls.lines (indexOf (r.first / 256)) record, claims := [] } }

section
variable {s : State} {r : UpRequest} {i : SlotId} {w : Window} {answer : FtAnswer}
  (stays : (s.frame i).closed = true ∨ (s.frame i).state ≠ .resolved ∨ (s.frame i).held ≠ 0)
include stays

theorem State.postMerge_eq (tag : LineTag) (b : Option BandId) (old : List Lane) (demand : Bool) :
    (s.asked r i w answer).postMerge (indexOf (r.first / 256)) (ingestOf r i w) i w tag b old demand =
      s.afterPost r i ((s.slot i).accounted r.beats (decide (r.first ≤ w.lastImageByte ∧ w.lastImageByte ≤ r.last)) s.clock
          s.cru.settings.tagDeadline)
        (.held tag b (mergeLanes old (linePart r.first r.kind.lanes tag.line)) demand) := by
  unfold State.postMerge
  rw [State.takePosted_eq stays]
  rfl

theorem State.postNew_eq (g : Generation) (band : Option BandId) :
    (s.asked r i w answer).postNew (indexOf (r.first / 256)) (ingestOf r i w) i w (r.first / 256) g band =
      s.afterPost r i ((s.slot i).posted r.beats (decide (r.first ≤ w.lastImageByte ∧ w.lastImageByte ≤ r.last)) s.clock
          s.cru.settings.tagDeadline g 1)
        (.held ⟨r.first / 256, i, g⟩ band (linePart r.first r.kind.lanes (r.first / 256)) false) := by
  unfold State.postNew
  rw [State.takePosted_eq stays]
  unfold Slot.posted
  rw [FrameRecord.linesHeld_one]
  unfold State.modSlot
  dsimp only
  generalize (s.slot i).accounted r.beats (decide (r.first ≤ w.lastImageByte ∧ w.lastImageByte ≤ r.last)) s.clock
    s.cru.settings.tagDeadline = sl
  have slots : put (put s.slots i sl) i { (put s.slots i sl)[i] with frame := (put s.slots i sl)[i].frame.lineHeld g } =
      put s.slots i { sl with frame := sl.frame.lineHeld g } := by rw [put_self, put_put]
  exact congrArg (fun v => { s.afterPost r i sl (.held ⟨r.first / 256, i, g⟩ band
    (linePart r.first r.kind.lanes (r.first / 256)) false) with slots := v }) slots

end

/-- Settles O24: a write that is merged is accounted where no completion can follow; the others wait at the claim. -/
theorem ingestWritePosted : Obligations.IngestWritePosted := by
  intro r s i w g band wf free port quiet swept none_ cls answer asked settled line x lanes posted waiting claim
  rw [exec_upstreamRequest_ingest wf free port swept none_ cls]
  have unresolved : answer = .pendingBand g ∨ ∃ b, answer = .waiting g b := by
    cases band with
    | none => exact .inl rfl
    | some b => exact .inr ⟨b, rfl⟩
  have stage := ftAnswer_unresolved asked unresolved settled
  have stays : (s.frame i).closed = true ∨ (s.frame i).state ≠ .resolved ∨ (s.frame i).held ≠ 0 := by
    rcases stage with ⟨h, _⟩ | ⟨_, h, _⟩ | ⟨h | h, _⟩
    · exact .inr (.inl (by rw [h]; decide))
    · exact .inl h
    · exact .inr (.inl (by rw [h]; decide))
    · exact .inr (.inl (by rw [h]; decide))
  have evaluated := s.asks_evalClaim r i w asked
  have step : (s.asked r i w answer).evalAnswered x line (ingestOf r i w) i w answer =
      (s.asked r i w answer).unresolvedWrite x line (ingestOf r i w) i w g band := by
    cases band <;> rfl
  rw [step] at evaluated
  refine ⟨fun record => ?_, fun b old demand record => ?_, fun tag b old demand record other => ?_, fun record => ?_⟩
  · rw [State.unresolvedWrite_new (s := s.asked r i w answer) record, State.postNew_eq stays] at evaluated
    rw [ingest_served quiet evaluated (by rfl) (by rfl) (by rfl) (by rfl) (by rfl) (by rfl) (by rfl)]
    exact ⟨_, rfl, ⟨rfl, rfl, rfl, rfl, fun j other => put_other _ (Ne.symm other) _⟩, put_self _ _ _,
      PostedAccount.of (fun j other => put_other _ (Ne.symm other) _) (put_self _ _ _) stage⟩
  · rw [State.unresolvedWrite_merge (s := s.asked r i w answer) record, State.postMerge_eq stays] at evaluated
    rw [ingest_served quiet evaluated (by rfl) (by rfl) (by rfl) (by rfl) (by rfl) (by rfl) (by rfl)]
    refine ⟨_, _, rfl, ⟨rfl, rfl, rfl, rfl, fun j other => put_other _ (Ne.symm other) _⟩, put_self _ _ _,
      fun full => mergeLanes_get full (linePart_length _ _ _),
      PostedAccount.of (fun j other => put_other _ (Ne.symm other) _) ((put_self _ _ _).trans ?_) stage⟩
    rw [Slot.posted, FrameRecord.linesHeld_zero]
  · have held : (s.asked r i w answer).line x = .held tag b old demand := record
    rw [State.unresolvedWrite_demands held other, State.demand_eq held] at evaluated
    rw [ingest_waits quiet asked evaluated rfl] <;> rfl
  · rw [State.unresolvedWrite_waits (s := s.asked r i w answer) record] at evaluated
    rw [ingest_waits quiet asked evaluated rfl] <;> rfl

end Sys2Proof.Machine
end

