-- ==== Sys2Proof/Proofs/IngestGained.lean ====
section
/-! PROOF. An INGEST write whose band is RESOLVED, or of no generation (R122, R148, R149): its gaining and the record it meets. -/

namespace Sys2Proof.Machine

/-! ### The window and the gaining -/

theorem State.windowAt_some {s : State} {a : Nat} {i : SlotId} {w : Window} (found : s.windowAt a = some (i, w)) :
    (s.slot i).committed = some w := by
  obtain ⟨j, _, here⟩ := List.exists_of_findSome?_eq_some found
  cases window : (s.slot j).committed with
  | none =>
    rw [window] at here
    cases here
  | some v =>
    rw [window] at here
    dsimp only at here
    split at here
    · cases here
      exact window
    · cases here

theorem Window.classify_ingest {w : Window} {i j : SlotId} {r : UpRequest} (ingest : w.classify i r = .ingest j) : i = j := by
  rw [Window.classify_eq] at ingest
  split at ingest
  · cases ingest
    rfl
  · split at ingest
    · cases ingest
    · split at ingest <;> cases ingest

/-- A request is an INGEST write under the committed window of its slot (R5, R8). -/
theorem State.classify_ingest {s : State} {r : UpRequest} {i : SlotId} {w : Window}
    (cls : s.classify r = (.ingest i, some w)) : (s.slot i).committed = some w := by
  unfold State.classify at cls
  split at cls
  · cases cls
  split at cls
  · cases cls
  split at cls
  · cases cls
  split at cls
  · cases cls
  split at cls
  · next j v found =>
    rw [Prod.mk.injEq, Option.some.injEq] at cls
    obtain ⟨ingest, rfl⟩ := cls
    rw [← Window.classify_ingest ingest]
    exact State.windowAt_some found
  · cases cls

theorem GainSetting.pair_raw (u : GainSetting) (x y : Nat) (lo hi : Lane) :
    (u.pair x y lo hi).raw = true ↔ x < u.window.width ∧ lo.isSome ≠ hi.isSome := by
  unfold GainSetting.pair
  split
  · next beyond => simp [Nat.not_lt.mpr beyond]
  · next inside =>
    have here : x < u.window.width := Nat.lt_of_not_le inside
    cases lo <;> cases hi <;> simp [here]

/-- A use of the Gain Unit is raw when some sample of the image has one byte alone (R148, log entry 22). -/
theorem GainSetting.lanes_raw (u : GainSetting) (y : Nat) : ∀ (l : List Lane) (x : Nat), (u.lanes y x l).raw = true ↔
    ∃ k, 2 * k + 1 < l.length ∧ x + k < u.window.width ∧ (l.getD (2 * k) none).isSome ≠ (l.getD (2 * k + 1) none).isSome
  | [], x => by simp [GainSetting.lanes]
  | [_], x => by simp [GainSetting.lanes]
  | lo :: hi :: rest, x => by
    have later := GainSetting.lanes_raw u y rest (x + 1)
    rw [GainSetting.lanes]
    dsimp only
    rw [Bool.or_eq_true, GainSetting.pair_raw, later]
    constructor
    · rintro (⟨inside, apart⟩ | ⟨k, few, inside, apart⟩)
      · exact ⟨0, by simp, inside, apart⟩
      · refine ⟨k + 1, by simp only [List.length_cons]; omega, by omega, ?_⟩
        rw [show 2 * (k + 1) = 2 * k + 2 by omega, show 2 * k + 2 + 1 = 2 * k + 1 + 2 by omega]
        exact apart
    · rintro ⟨k, few, inside, apart⟩
      cases k with
      | zero => exact .inl ⟨inside, apart⟩
      | succ k =>
        rw [show 2 * (k + 1) = 2 * k + 2 by omega, show 2 * k + 2 + 1 = 2 * k + 1 + 2 by omega] at apart
        refine .inr ⟨k, ?_, by omega, apart⟩
        simp only [List.length_cons] at few
        omega

/-- A well-formed write has 16 lanes for each beat (R1). -/
theorem UpRequest.lanes_length {r : UpRequest} (wf : r.wf = true) (write : r.isWrite = true) :
    r.kind.lanes.length = 16 * r.beats := by
  unfold UpRequest.wf at wf
  unfold UpRequest.isWrite at write
  cases kind : r.kind with
  | read =>
    rw [kind] at write
    cases write
  | write lanes =>
    rw [kind] at wf
    simp only [Bool.and_eq_true, beq_iff_eq] at wf
    exact wf.2

theorem ftAnswer_resolved {s : State} {i : SlotId} {b c : BandId} {g : Generation}
    (asked : s.ftAnswer i false b = .resolved g c) :
    ((s.frame i).state = .tagged ∨ (s.frame i).state = .resolved) ∧ (s.frame i).closed = false := by
  by_cases free : (s.frame i).state = .free
  · rw [ftAnswer_free free] at asked
    cases asked
  by_cases complete : (s.frame i).state = .complete
  · rw [ftAnswer_complete complete] at asked
    cases asked
  cases closed : (s.frame i).closed with
  | true =>
    rcases ftAnswer_closed ⟨free, complete⟩ closed b with h | h | h <;> rw [h] at asked <;> cases asked
  | false =>
    by_cases armed : (s.frame i).state = .armed
    · rw [ftAnswer_armed armed closed] at asked
      cases asked
    refine ⟨?_, rfl⟩
    revert free complete armed
    cases (s.frame i).state <;> decide

/-! ### The record it meets -/

/-- A record of the slot and generation of a resolved write (R122). -/
def ownedBy (i : SlotId) (named : Option (Generation × BandId)) (tag : LineTag) : Bool :=
  tag.slot == i && some tag.generation == named.map Prod.fst

theorem ownedBy_iff (i : SlotId) (named : Option (Generation × BandId)) (tag : LineTag) :
    ownedBy i named tag = true ↔ tag.slot = i ∧ named.map Prod.fst = some tag.generation := by
  rw [ownedBy, Bool.and_eq_true, beq_iff_eq, beq_iff_eq, eq_comm (a := some tag.generation)]

section
variable {s : State} {x : LineIdx} {line : Nat} {p : Presented} {i : SlotId} {w : Window}
  {named : Option (Generation × BandId)}

theorem State.resolvedWrite_away (away : (s.line x).isAt line = false) : s.resolvedWrite x line p i w named =
    (s.writeThrough x (s.gainWrite p i named) false, false) := by
  unfold State.resolvedWrite
  dsimp only
  rw [if_neg (by rw [away]; exact Bool.false_ne_true)]

theorem State.resolvedWrite_clean {tag : LineTag} {data : List Byte} (record : s.line x = .clean tag data)
    (here : tag.line = line) : s.resolvedWrite x line p i w named =
      if ownedBy i named tag && !(s.gainWrite p i named).raw then
        ((s.setLine x (.clean tag (mergeBytes data (linePart p.req.first (s.gainWrite p i named).lanes line)))).writeThrough x
          (s.gainWrite p i named) true, false)
      else ((s.setLine x .invalid).writeThrough x (s.gainWrite p i named) false, false) := by
  unfold State.resolvedWrite
  dsimp only
  rw [record, if_pos (LineRec.isAt_clean here data)]
  rfl

theorem State.resolvedWrite_held {tag : LineTag} {b : Option BandId} {old : List Lane} {demand : Bool}
    (record : s.line x = .held tag b old demand) (here : tag.line = line) : s.resolvedWrite x line p i w named =
      if ownedBy i named tag then (s.postMerge x p i w tag b old demand, true) else (s.demand x, false) := by
  unfold State.resolvedWrite
  dsimp only
  rw [record, if_pos (LineRec.isAt_held here b old demand)]
  rfl

theorem State.resolvedWrite_waits (here : (s.line x).isAt line = true)
    (record : (s.line x).isFilling = true ∨ (s.line x).isCasting = true) :
    s.resolvedWrite x line p i w named = (s, false) := by
  unfold State.resolvedWrite
  dsimp only
  rw [if_pos here]
  cases h : s.line x <;> rw [h] at record <;> first | rfl | (rcases record with h | h <;> cases h)

end

/-- The gained write asks for its grant (R122, R149). -/
def State.gained (s : State) (r : UpRequest) (i : SlotId) (w : Window) (answer : FtAnswer) (out : Gained) (updated : Bool) :
    State :=
  { s with
    mpu := { s.mpu with
      intake := some { req := r, cls := .ingest i, window := some w, stale := false, phase := .offered
                       answer := some answer }
      class3 := some ⟨.write out.lanes, out.clamped⟩ }
    ls := { s.ls with claims := [⟨r.first / 256, .ingest, true, updated⟩] } }

theorem State.asked_writeThrough (s : State) (r : UpRequest) (i : SlotId) (w : Window) (answer : FtAnswer) (out : Gained)
    (updated : Bool) : (s.asked r i w answer).writeThrough (indexOf (r.first / 256)) out updated =
      s.gained r i w answer out updated := by
  have cleared : modFirst (indexOf (r.first / 256)) (fun c => { c with cleared := true, updated := updated })
      [⟨r.first / 256, .ingest, false, false⟩] = [⟨r.first / 256, .ingest, true, updated⟩] :=
    modFirst_at (before := []) (c := ⟨r.first / 256, .ingest, false, false⟩) _ (by simp) (by simp [Claim.on])
  unfold State.writeThrough State.clearClaim
  change (State.setClaims _ (modFirst (indexOf (r.first / 256)) (fun c => { c with cleared := true, updated := updated })
      [⟨r.first / 256, .ingest, false, false⟩])).offer _ = _
  rw [cleared]
  rfl

/-- The current generation accounts the write, and its tag deadline is none of the write's (R27, R57). -/
theorem Slot.accounted_stage {sl : Slot} (stage : sl.frame.state = .tagged ∨ sl.frame.state = .resolved)
    (open_ : sl.frame.closed = false) (beats : Nat) (eof : Bool) (clock : Stamp) (duration : Nat) :
    sl.accounted beats eof clock duration = { sl with frame := sl.frame.accountCurrent beats eof clock } := by
  have other (h : sl.frame.state = .complete ∨ sl.frame.state = .armed) : False := by
    rcases stage with h' | h' <;> rcases h with h | h <;> exact absurd (h'.symm.trans h) (by decide)
  rw [Slot.accounted_open (fun h => other (.inl h)) open_]
  unfold Slot.accountedOpen
  rw [if_neg fun h => other (.inr h.1)]

theorem State.asked_setLine (s : State) (r : UpRequest) (i : SlotId) (w : Window) (answer : FtAnswer) (x : LineIdx)
    (l : LineRec) : (s.asked r i w answer).setLine x l = (s.setLine x l).asked r i w answer := rfl

/-- Settles O25: what the write is gained to, and the record at its index, its own, another's or none at its line. -/
theorem ingestWriteGained : Obligations.IngestWriteGained := by
  intro r s i w named out wf write free port quiet swept none_ cls line x answer asked unnamed gains presented goesOn own
  rw [exec_upstreamRequest_ingest wf free port swept none_ cls]
  have evaluated := s.asks_evalClaim r i w asked
  have step : (s.asked r i w answer).evalAnswered x line (ingestOf r i w) i w answer =
      (s.asked r i w answer).resolvedWrite x line (ingestOf r i w) i w named := by
    cases named <;> rfl
  rw [step] at evaluated
  have owns (tag : LineTag) : ownedBy i named tag = true ↔ own tag := ownedBy_iff i named tag
  have gain : (s.asked r i w answer).gainWrite (ingestOf r i w) i named = out := by
    unfold State.gainWrite
    cases named with
    | none => exact (unnamed rfl).symm
    | some n =>
      obtain ⟨u, setting, equal⟩ := gains n.1 n.2 rfl
      have setting' : (s.asked r i w answer).gainSetting i n.1 n.2 = some u := setting
      dsimp only
      rw [setting', equal]
      rfl
  refine ⟨fun resolved => ?_, fun away => ?_, fun tag data record here => ⟨fun mine whole => ?_, fun other => ?_⟩,
    fun tag band old demand record here => ⟨fun mine held => ?_, fun other => ?_⟩, fun here record => ?_⟩
  · cases named with
    | none => cases resolved
    | some n =>
      obtain ⟨u, setting, equal⟩ := gains n.1 n.2 rfl
      have window : u.window = w := by
        have committed := State.classify_ingest cls
        unfold State.gainSetting at setting
        rw [committed] at setting
        cases result : s.bandResultOf i n.1 n.2 with
        | none =>
          rw [result] at setting
          cases setting
        | some b =>
          rw [result] at setting
          cases setting
          rfl
      rw [equal, GainSetting.gain, GainSetting.lanes_raw, UpRequest.lanes_length wf write, window]
      exact exists_congr fun k => and_congr_left' (by omega)
  · rw [State.resolvedWrite_away (s := s.asked r i w answer) away, gain, State.asked_writeThrough] at evaluated
    rw [ingest_waits quiet asked evaluated rfl] <;> rfl
  · rw [State.resolvedWrite_clean (s := s.asked r i w answer) record here, gain, (owns tag).mpr mine, whole, if_pos (by rfl),
      State.asked_setLine, State.asked_writeThrough] at evaluated
    rw [ingest_waits quiet asked evaluated rfl] <;> rfl
  · have unfit : (ownedBy i named tag && !out.raw) = false := by
      rw [Bool.and_eq_false_iff, ← Bool.not_eq_true, owns, Bool.not_eq_false']
      exact other
    rw [State.resolvedWrite_clean (s := s.asked r i w answer) record here, gain, unfit, if_neg Bool.false_ne_true,
      State.asked_setLine, State.asked_writeThrough] at evaluated
    rw [ingest_waits quiet asked evaluated rfl] <;> rfl
  · have open_ : ((s.frame i).state = .tagged ∨ (s.frame i).state = .resolved) ∧ (s.frame i).closed = false := by
      cases named with
      | none => cases mine.2
      | some n => exact ftAnswer_resolved asked
    have accounted := Slot.accounted_stage (sl := s.slot i) open_.1 open_.2
    rw [State.resolvedWrite_held (s := s.asked r i w answer) record here, (owns tag).mpr mine, if_pos rfl,
      State.postMerge_eq (.inr (.inr held)), accounted, here] at evaluated
    rw [ingest_served quiet evaluated (by rfl) (by rfl) (by rfl) (by rfl) (by rfl) (by rfl) (by rfl)]
    exact ⟨_, _, rfl, rfl, rfl, rfl, rfl, fun j other => put_other _ (Ne.symm other) _, put_self _ _ _,
      fun full => mergeLanes_get full (linePart_length _ _ _), fun j other => put_other _ (Ne.symm other) _, put_self _ _ _⟩
  · have missing : ownedBy i named tag = false := by
      rw [← Bool.not_eq_true, owns]
      exact other
    have held : (s.asked r i w answer).line x = .held tag band old demand := record
    rw [State.resolvedWrite_held held here, missing, if_neg Bool.false_ne_true, State.demand_eq held] at evaluated
    rw [ingest_waits quiet asked evaluated rfl] <;> rfl
  · rw [State.resolvedWrite_waits (s := s.asked r i w answer) here record] at evaluated
    rw [ingest_waits quiet asked evaluated rfl] <;> rfl

end Sys2Proof.Machine
end

