-- ==== Sys2Proof/Proofs/SlotSweeps.lean ====
section
/-! SUPPORT. An operation on each slot that meets a condition, in an order that is free: what becomes of each slot, and of a
count (log entry 4). -/

namespace Sys2Proof.Machine

/-! ### The order -/

theorem perm_insertBy {α : Type} (key : α → Nat) (x : α) (l : List α) : (insertBy key x l).Perm (x :: l) := by
  induction l with
  | nil => exact .refl _
  | cons y l ih =>
    unfold insertBy
    split
    · exact .refl _
    · exact (ih.cons y).trans (.swap x y l)

theorem perm_sortBy {α : Type} (key : α → Nat) (l : List α) : (sortBy key l).Perm l := by
  induction l with
  | nil => exact .refl _
  | cons x l ih => exact (perm_insertBy key x _).trans (ih.cons x)

theorem State.perm_slotOrder (s : State) (p : SlotId → Bool) : (s.slotOrder p).1.Perm (allSlots.filter p) := by
  unfold State.slotOrder
  split
  · next none_ =>
    rw [none_]
  · next one =>
    rw [one]
  · exact perm_sortBy _ _

theorem allSlots_nodup : allSlots.Nodup := by decide

theorem mem_allSlots : ∀ i : SlotId, i ∈ allSlots := by decide

theorem State.nodup_slotOrder (s : State) (p : SlotId → Bool) : (s.slotOrder p).1.Nodup :=
  (s.perm_slotOrder p).nodup_iff.mpr (allSlots_nodup.filter p)

theorem State.mem_slotOrder (s : State) (p : SlotId → Bool) (i : SlotId) : i ∈ (s.slotOrder p).1 ↔ p i = true := by
  rw [(s.perm_slotOrder p).mem_iff, List.mem_filter]
  exact and_iff_right (mem_allSlots i)

/-- The order takes a free value at most. -/
theorem State.slotOrder_state (s : State) (p : SlotId → Bool) : ∃ n, (s.slotOrder p).2 = { s with free := n } := by
  unfold State.slotOrder
  split
  · exact ⟨s.free, rfl⟩
  · exact ⟨s.free, rfl⟩
  · exact ⟨s.free + 1, rfl⟩

/-! ### The sweep -/

/-- A relation between states that the steps of a sweep respect. -/
structure Sweeps (f : State → SlotId → State) (Q : State → State → Prop) : Prop where
  refl : ∀ s, Q s s
  trans : ∀ {s t u}, Q s t → Q t u → Q s u
  free : ∀ (s : State) (n : Nat), Q s { s with free := n }
  step : ∀ u i, Q u (f u i)
  other : ∀ u i j, j ≠ i → (f u i).slot j = u.slot j

section
variable {f : State → SlotId → State} {Q : State → State → Prop} (sweeps : Sweeps f Q)
include sweeps

theorem Sweeps.foldl (l : List SlotId) (once : l.Nodup) (s : State) : Q s (l.foldl f s) ∧ ∀ i,
    (i ∉ l → (l.foldl f s).slot i = s.slot i) ∧
    (i ∈ l → ∃ u, Q s u ∧ u.slot i = s.slot i ∧ Q (f u i) (l.foldl f s) ∧ (l.foldl f s).slot i = (f u i).slot i) := by
  induction l generalizing s with
  | nil => exact ⟨sweeps.refl s, fun i => ⟨fun _ => rfl, fun h => absurd h List.not_mem_nil⟩⟩
  | cons x l ih =>
    obtain ⟨fresh, once⟩ := List.nodup_cons.mp once
    obtain ⟨rest, each⟩ := ih once (f s x)
    refine ⟨sweeps.trans (sweeps.step s x) rest, fun i => ⟨fun outside => ?_, fun inside => ?_⟩⟩
    · obtain ⟨other, outside⟩ := not_or.mp (mt List.mem_cons.mpr outside)
      exact ((each i).1 outside).trans (sweeps.other s x i other)
    · by_cases here : i = x
      · subst here
        exact ⟨s, sweeps.refl s, rfl, rest, (each i).1 fresh⟩
      · obtain ⟨u, before, same, after, slot⟩ := (each i).2 ((List.mem_cons.mp inside).resolve_left here)
        exact ⟨u, sweeps.trans (sweeps.step s x) before, same.trans (sweeps.other s x i here), after, slot⟩

/-- Of the slots that meet the condition each is met once, as it was; the others stay. -/
theorem Sweeps.forSlots (s : State) (p : SlotId → Bool) : Q s (s.forSlots p f) ∧ ∀ i,
    (p i = false → (s.forSlots p f).slot i = s.slot i) ∧
    (p i = true → ∃ u, Q s u ∧ u.slot i = s.slot i ∧ Q (f u i) (s.forSlots p f) ∧
      (s.forSlots p f).slot i = (f u i).slot i) := by
  obtain ⟨n, order⟩ := s.slotOrder_state p
  obtain ⟨whole, each⟩ := sweeps.foldl (s.slotOrder p).1 (s.nodup_slotOrder p) (s.slotOrder p).2
  have start : Q s (s.slotOrder p).2 := by
    rw [order]
    exact sweeps.free s n
  have slot (i : SlotId) : (s.slotOrder p).2.slot i = s.slot i := by rw [order]; rfl
  refine ⟨sweeps.trans start whole, fun i => ⟨fun out => ?_, fun in_ => ?_⟩⟩
  · refine ((each i).1 ?_).trans (slot i)
    rw [s.mem_slotOrder, out]
    decide
  · obtain ⟨u, before, same, after, last⟩ := (each i).2 ((s.mem_slotOrder p i).mpr in_)
    exact ⟨u, sweeps.trans start before, same.trans (slot i), after, last⟩

/-- What each step adds to a count by its slot as it was, the sweep adds for all slots that meet the condition. -/
theorem Sweeps.count (s : State) (p : SlotId → Bool) {count : State → Nat} {adds : SlotId → Nat}
    (free : ∀ (t : State) (n : Nat), count { t with free := n } = count t)
    (added : ∀ u i, Q s u → p i = true → u.slot i = s.slot i → count (f u i) = count u + adds i) :
    count (s.forSlots p f) = count s + ((allSlots.filter p).map adds).sum := by
  have along (l : List SlotId) : ∀ u, l.Nodup → Q s u → (∀ i ∈ l, p i = true ∧ u.slot i = s.slot i) →
      count (l.foldl f u) = count u + (l.map adds).sum := by
    induction l with
    | nil => exact fun _ _ _ _ => rfl
    | cons x l ih =>
      intro u once reached same
      obtain ⟨fresh, once⟩ := List.nodup_cons.mp once
      have here := same x List.mem_cons_self
      rw [List.foldl_cons, ih (f u x) once (sweeps.trans reached (sweeps.step u x)), added u x reached here.1 here.2,
        List.map_cons, List.sum_cons, Nat.add_assoc]
      intro i member
      have there := same i (List.mem_cons_of_mem x member)
      refine ⟨there.1, (sweeps.other u x i ?_).trans there.2⟩
      rintro rfl
      exact fresh member
  obtain ⟨n, order⟩ := s.slotOrder_state p
  have slot (i : SlotId) : (s.slotOrder p).2.slot i = s.slot i := by rw [order]; rfl
  have whole := along (s.slotOrder p).1 (s.slotOrder p).2 (s.nodup_slotOrder p)
    (by rw [order]; exact sweeps.free s n) fun i member => ⟨(s.mem_slotOrder p i).mp member, slot i⟩
  rw [((s.perm_slotOrder p).map adds).sum_eq] at whole
  refine whole.trans ?_
  rw [order, free]

end

end Sys2Proof.Machine
end

