-- ==== Sys2Proof/Proofs/LinkDown.lean ====
section
/-! SUPPORT. The entry of the link to DOWN (R72, R85): the link, the history, the load, the events and the bands. -/

namespace Sys2Proof.Machine

/-! ### The steps -/

/-- The controller of a link that enters DOWN, but for the link mode, the mode target and the focus reference (R72). -/
def Llc.down (l : Llc) : Llc :=
  { l with link := .down, expected := none, deadline := none, run := 0, acquire := 0, attempts := 0, outstanding := none }

/-- LINK_STATE at an entry to DOWN (R73). -/
def State.leavesLink (s : State) (reason : LinkReason) (run : Nat) : State :=
  (s.modLlc Llc.down).raise (.linkState s.llc.link .down reason run s.llc.lastGood none)

/-- The state at the event of the bands, with the history emptied (R85). -/
def State.losesHistory (s : State) (reason : LinkReason) (run : Nat) : State :=
  let t := (s.leavesLink reason run).dropMode
  { t with br := t.br.lose }

/-- The state after the event of the bands (R85, R88). -/
def State.losesBands (s : State) (reason : LinkReason) (run : Nat) : State :=
  (s.losesHistory reason run).takeAllBands State.testComplete .linkDown

theorem State.enterDown_eq (s : State) (reason : LinkReason) (run : Nat) : s.enterDown reason run =
    ((((s.losesBands reason run).modLlc fun l => { l with focusRef := none }).failLoad .link none 0).evalMode false) := rfl

/-- The link mode is NORMAL then (R77). -/
theorem State.dropMode_eq (s : State) : s.dropMode = { s with
    llc := { s.llc with linkMode := .normal }
    cru := { s.cru with events := s.dropMode.cru.events, overflow := s.dropMode.cru.overflow } } := by
  unfold State.dropMode
  split
  · rw [State.raise, State.raiseFor_eq]
    rfl
  · next other =>
    have normal : s.llc.linkMode = .normal := by
      cases mode : s.llc.linkMode with
      | normal => rfl
      | fast => exact absurd mode other
    rw [← normal]

theorem State.leavesLink_eq (s : State) (reason : LinkReason) (run : Nat) : s.leavesLink reason run = { s with
    llc := s.llc.down
    cru := { s.cru with
      events := (s.leavesLink reason run).cru.events, overflow := (s.leavesLink reason run).cru.overflow } } := by
  unfold State.leavesLink
  rw [State.raise, State.raiseFor_eq]
  rfl

theorem State.losesHistory_eq (s : State) (reason : LinkReason) (run : Nat) : s.losesHistory reason run = { s with
    llc := { s.llc.down with linkMode := .normal }
    br := s.br.lose
    cru := { s.cru with
      events := (s.losesHistory reason run).cru.events, overflow := (s.losesHistory reason run).cru.overflow } } := by
  unfold State.losesHistory
  dsimp only
  rw [State.dropMode_eq, State.leavesLink_eq]

/-! ### The link, the history and the load -/

theorem Mode.normal_of_down {s : State} (down : s.llc.link = .down) : s.modeTargetNow = .normal := by
  simp [State.modeTargetNow, State.fastLink, down]

section
variable (s : State) (reason : LinkReason) (run : Nat)

theorem State.losesBands_within : Within (s.losesHistory reason run) (s.losesBands reason run) :=
  .takeAllBands .testComplete .linkDown

theorem State.losesBands_llc : (s.losesBands reason run).llc = { s.llc.down with
    linkMode := .normal, modeTarget := (s.losesBands reason run).llc.modeTarget } := by
  refine (s.losesBands_within reason run).llc.trans ?_
  rw [State.losesHistory_eq]

/-- What comes after the bands (R72). -/
theorem State.enterDown_within : Within ((s.losesBands reason run).modLlc fun l => { l with focusRef := none })
    (s.enterDown reason run) := (Within.failLoad _ _ _ _).trans (.evalMode _ _)

theorem State.enterDown_llc : (s.enterDown reason run).llc = { s.llc.down with
    linkMode := .normal, modeTarget := .normal, focusRef := none } := by
  have kept := (Within.failLoad ((s.losesBands reason run).modLlc fun l => { l with focusRef := none }) .link none 0).llc
  have before := s.losesBands_llc reason run
  have stage : (((s.losesBands reason run).modLlc fun l => { l with focusRef := none }).failLoad .link none 0).llc =
      { s.llc.down with
        linkMode := .normal, focusRef := none
        modeTarget := (((s.losesBands reason run).modLlc fun l => { l with focusRef := none }).failLoad
          .link none 0).llc.modeTarget } := by
    refine kept.trans ?_
    simp only [State.modLlc]
    rw [before]
  rw [State.enterDown_eq, State.evalMode_llc]
  generalize ((s.losesBands reason run).modLlc fun l => { l with focusRef := none }).failLoad .link none 0 = t at *
  rw [Mode.normal_of_down (s := t) (by rw [stage]; rfl), stage]

theorem State.enterDown_br : (s.enterDown reason run).br = s.br.lose := by
  rw [(s.enterDown_within reason run).br]
  refine (s.losesBands_within reason run).br.trans ?_
  rw [State.losesHistory_eq]

theorem State.enterDown_load : (s.enterDown reason run).pu.load = none := by
  rw [State.enterDown_eq, State.evalMode_pu]
  exact State.failLoad_load _ _ _ _

theorem State.enterDown_idle (idle : s.mpu.intake = none) : (s.enterDown reason run).mpu.intake = none := by
  refine (s.enterDown_within reason run).idle ((s.losesBands_within reason run).idle ?_)
  rw [State.losesHistory_eq]
  exact idle

theorem State.enterDown_queue (empty : s.er.queue = []) : (s.enterDown reason run).er.queue = [] := by
  refine List.eq_nil_of_length_eq_zero (Nat.le_zero.mp ((s.enterDown_within reason run).queue.trans
    ((s.losesBands_within reason run).queue.trans ?_)))
  rw [State.losesHistory_eq]
  exact (congrArg List.length empty).le

/-! ### The events -/

theorem State.enterDown_events : (s.losesHistory reason run).cru.events <+: (s.enterDown reason run).cru.events :=
  (s.losesBands_within reason run).events.trans (s.enterDown_within reason run).events

theorem State.dropMode_events (s : State) : s.cru.events <+: s.dropMode.cru.events := by
  unfold State.dropMode
  split
  · exact (Within.raise (s.modLlc fun l => { l with linkMode := .normal }) _).events
  · exact List.prefix_refl _

/-- LINK_STATE comes first (R73). -/
theorem State.enterDown_linkState (room : s.cru.events.length < 16)
    (enabled : s.cru.settings.eventDisable.getLsbD 7 = false) :
    s.cru.events ++ [⟨.linkState s.llc.link .down reason run s.llc.lastGood none, s.cru.overflow, none, s.clock⟩] <+:
      (s.enterDown reason run).cru.events := by
  refine List.IsPrefix.trans ?_ (s.enterDown_events reason run)
  have first := State.raiseFor_events (s := s.modLlc Llc.down)
    (e := .linkState s.llc.link .down reason run s.llc.lastGood none) enabled room none
  exact first ▸ (s.leavesLink reason run).dropMode_events

/-- MODE_CHANGED follows it (R77). -/
theorem State.enterDown_modeChanged (fast : s.llc.linkMode = .fast) (room : s.cru.events.length < 15)
    (enabled : s.cru.settings.eventDisable.getLsbD 7 = false) (mode : s.cru.settings.eventDisable.getLsbD 11 = false) :
    s.cru.events ++ [⟨.linkState s.llc.link .down reason run s.llc.lastGood none, s.cru.overflow, none, s.clock⟩,
      ⟨.modeChanged .fast .normal s.llc.modeTarget none, false, none, s.clock⟩] <+:
      (s.enterDown reason run).cru.events := by
  refine List.IsPrefix.trans ?_ (s.enterDown_events reason run)
  have first := State.raiseFor_joins (s := s.modLlc Llc.down)
    (e := .linkState s.llc.link .down reason run s.llc.lastGood none) enabled (by exact Nat.lt_succ_of_lt room) none
  have leaves : s.leavesLink reason run = _ := first
  have second := State.raiseFor_events (s := (s.leavesLink reason run).modLlc fun l => { l with linkMode := .normal })
    (e := .modeChanged .fast .normal s.llc.modeTarget none) (by rw [leaves]; exact mode)
    (by
      rw [leaves]
      simp only [State.modLlc, List.length_append, List.length_singleton]
      omega) none
  have drops : (s.leavesLink reason run).dropMode =
      ((s.leavesLink reason run).modLlc fun l => { l with linkMode := .normal }).raise
        (.modeChanged .fast .normal s.llc.modeTarget none) := by
    unfold State.dropMode
    rw [if_pos (by rw [leaves]; exact fast), leaves]
    rfl
  change _ <+: (s.leavesLink reason run).dropMode.cru.events
  rw [drops, State.raise, second, leaves]
  simp only [State.modLlc]
  rw [List.append_assoc]
  exact List.prefix_refl _

/-! ### The bands -/

theorem State.failLoad_slots (s : State) (reason : LoadReason) (check : Option FormatCheck) (block : Nat) :
    (s.failLoad reason check block).slots = s.slots := by
  cases held : s.pu.load with
  | none => rw [State.failLoad_none held]
  | some ld =>
    rw [State.failLoad_some held, State.evalMode_slots, State.raise, State.raiseFor_slots]
    rfl

theorem sweeps_takeBands (e : BandEvent) : Sweeps (fun s i => s.takeBands State.testComplete e i) Within where
  refl := .refl
  trans := .trans
  free := .ofFree
  step := fun _ i => .takeBands .testComplete e i
  other := fun u i j other => ((OnSlot.respected i).takeBands (fun s => .testComplete s i) u e).other j other

/-- Each TAGGED generation takes the event as it was; the other slots stay (R85, R88). -/
theorem State.enterDown_slot (i : SlotId) :
    ((s.frame i).state ≠ .tagged → (s.enterDown reason run).slot i = s.slot i) ∧
    ((s.frame i).state = .tagged → ∃ u, Within (s.losesHistory reason run) u ∧ u.slot i = s.slot i ∧
      (s.enterDown reason run).slot i = (u.takeBands State.testComplete .linkDown i).slot i) := by
  have start : (s.losesHistory reason run).slot i = s.slot i := by
    rw [State.losesHistory_eq]
    rfl
  have ends : (s.enterDown reason run).slot i = (s.losesBands reason run).slot i := by
    refine State.slot_ofSlots ?_ i
    rw [State.enterDown_eq, State.evalMode_slots, State.failLoad_slots]
    rfl
  have tagged : (s.losesHistory reason run).isTagged i = decide ((s.frame i).state = .tagged) := by
    rw [State.isTagged, State.frame, start]
    exact beq_eq_decide _ _
  obtain ⟨stays, meets⟩ := ((sweeps_takeBands .linkDown).forSlots (s.losesHistory reason run)
    (s.losesHistory reason run).isTagged).2 i
  rw [tagged, start] at stays meets
  refine ⟨fun other => ends.trans (stays (decide_eq_false other)), fun here => ?_⟩
  obtain ⟨u, within, same, _, last⟩ := meets (decide_eq_true here)
  exact ⟨u, within, same, ends.trans last⟩

end

/-- What an event that settles every band leaves of a record: its WAITING bands have results of one kind. -/
theorem AllSettled.outcome {k : ResKind} {i : SlotId} {s v : State} (settled : AllSettled k i s v) :
    (v.frame i).state = .resolved ∧ (v.frame i).generation = (s.frame i).generation ∧
      (v.frame i).held = (s.frame i).held ∧ ∀ b : BandId,
        ((v.frame i).bands[b]).time = ((s.frame i).bands[b]).time ∧
        ((v.frame i).bands[b]).deadline = ((s.frame i).bands[b]).deadline ∧
        (((s.frame i).bands[b]).result.isSome = true → ((v.frame i).bands[b]).result = ((s.frame i).bands[b]).result) ∧
        (((s.frame i).bands[b]).result = none → ((v.frame i).bands[b]).result.map BandResult.kind = some k) := by
  have taken := settled.taken.slot
  refine ⟨settled.resolved, taken.generation, taken.held, fun b => ⟨(taken.times b).1, (taken.times b).2,
    fun h => congrArg BandRecord.result (taken.kept b h), fun waiting => ?_⟩⟩
  rcases settled.kinds b waiting with none_ | kind
  · have := (FrameRecord.allResolved_iff _).mp settled.all b
    rw [State.frame, none_] at this
    cases this
  · exact kind

/-- A TAGGED generation that waits for a band and that nothing ends resolves LENS_LOST (R85). -/
theorem State.enterDown_lost {s : State} (free : s.cru.proc = .none) (reason : LinkReason) (run : Nat) {i : SlotId}
    (tagged : (s.frame i).state = .tagged) (waits : ∃ b : BandId, ((s.frame i).bands[b]).result = none)
    (stays : (s.frame i).closed = false ∨ (s.frame i).held ≠ 0) :
    ∃ u v, u.slot i = s.slot i ∧ AllSettled .lensLost i u v ∧ (s.enterDown reason run).slot i = v.slot i := by
  obtain ⟨u, within, same, last⟩ := (s.enterDown_slot reason run i).2 tagged
  have frame : u.frame i = s.frame i := congrArg Slot.frame same
  have free' : u.cru.proc = .none := by
    refine within.proc_none ?_
    rw [State.losesHistory_eq]
    exact free
  refine ⟨u, _, same, State.takeBands_settles BandEvent.linkDown_settles (by rw [frame]; exact tagged)
    ((FrameRecord.allResolved_false_iff _).mpr (by rw [frame]; exact waits)) .testComplete ?_, last⟩
  unfold State.lingers
  rw [frame]
  rcases stays with open_ | held
  · exact .inr (.inr ⟨by rw [State.inDrain, free'], by rw [State.inBypassEntry, free'], open_⟩)
  · exact .inl held

end Sys2Proof.Machine
end

