-- ==== Sys2Proof/Proofs/LinkRestart.lean ====
section
/-! PROOF. LINK_RESTART (R81): the entry to DOWN, seen through the end of the command. -/

namespace Sys2Proof.Machine

theorem State.restartLink_down {s : State} (down : s.llc.link = .down) : s.restartLink = s := if_pos down

theorem State.restartLink_enters {s : State} (live : s.llc.link ≠ .down) : s.restartLink = s.enterDown .restart s.llc.run :=
  if_neg live

/-- A restart, handed over. -/
theorem exec_linkRestart {s : State} (on : s.snoops = true) (canonical : MemoriesOk s) (free : s.cru.proc = .none) :
    exec .linkRestart s = .next (shadowAfter s 12 (wordLanes 3)).restartLink.finish.finish := by
  have word := shadowAfter_commandWord canonical (v := 3) (by decide)
  show Host.Outcome.next (s.handOver (wordWrite commandOffset 3)) = _
  rw [State.handOver_command on, State.command_restart word,
    State.unlessRefused_free (s := shadowAfter s 12 (wordLanes 3)) free]

/-- The end of a command keeps the link, the samples and the bands of a part that has nothing presented (R20). -/
theorem State.finish_slots {s : State} (idle : s.mpu.intake = none) : s.finish.slots = s.slots := by
  obtain ⟨x, reads, ends⟩ := OnReads.finish idle
  rw [ends]
  exact reads.slots

/-- The end of a command keeps a link that is DOWN. -/
theorem State.finish_llc_down {s : State} (down : s.llc.link = .down) (normal : s.llc.modeTarget = .normal) :
    s.finish.llc = s.llc := by
  have within := Within.settled s
  have llc : s.finish.llc = { s.llc with modeTarget := s.finish.llc.modeTarget } := within.llc
  have target : s.finish.llc.modeTarget = .normal := within.normal (by rw [down]; decide) normal
  rw [llc, target, ← normal]

/-- Settles O48: a link that is DOWN stays; of another the entry to DOWN, which the ends of the commands keep. -/
theorem linkRestartTaken : Obligations.LinkRestartTaken := by
  intro s on canonical free
  rw [exec_linkRestart on canonical free]
  refine ⟨fun down quiet => ?_, fun live => ?_⟩
  · have after := quiet.shadowAfter canonical (off := 12) (by decide) (wordLanes 3)
    rw [State.restartLink_down (by exact down), after.finish_self, after.finish_self]
  · rw [State.restartLink_enters (s := shadowAfter s 12 (wordLanes 3)) (by exact live)]
    have llc := (shadowAfter s 12 (wordLanes 3)).enterDown_llc .restart s.llc.run
    have br := (shadowAfter s 12 (wordLanes 3)).enterDown_br .restart s.llc.run
    have load := (shadowAfter s 12 (wordLanes 3)).enterDown_load .restart s.llc.run
    have idle := (shadowAfter s 12 (wordLanes 3)).enterDown_idle .restart s.llc.run
    have queue := (shadowAfter s 12 (wordLanes 3)).enterDown_queue .restart s.llc.run
    have changed := (shadowAfter s 12 (wordLanes 3)).enterDown_linkState .restart s.llc.run
    have dropped := (shadowAfter s 12 (wordLanes 3)).enterDown_modeChanged .restart s.llc.run
    have slots := (shadowAfter s 12 (wordLanes 3)).enterDown_slot .restart s.llc.run
    have lost (i : SlotId) := State.enterDown_lost (s := shadowAfter s 12 (wordLanes 3)) free .restart s.llc.run (i := i)
    change ∃ t, Host.Outcome.next ((shadowAfter s 12 (wordLanes 3)).enterDown .restart s.llc.run).finish.finish = .next t ∧ _
    generalize (shadowAfter s 12 (wordLanes 3)).enterDown .restart s.llc.run = u at *
    have llc' : u.finish.finish.llc = u.llc := by
      have once := State.finish_llc_down (s := u) (by rw [llc]; rfl) (by rw [llc])
      rw [State.finish_llc_down (by rw [once, llc]; rfl) (by rw [once, llc]), once]
    have br' : u.finish.finish.br = s.br.lose :=
      (State.finish_same u.finish .br nofun nofun nofun).trans ((State.finish_same u .br nofun nofun nofun).trans br)
    have events : u.cru.events <+: u.finish.finish.cru.events :=
      (State.finish_same u .events nofun nofun nofun).trans (State.finish_same u.finish .events nofun nofun nofun)
    refine ⟨_, rfl, llc'.trans llc, ?_, ?_, ?_, ?_, fun none_ empty => ?_, ⟨fun room enabled => ?_, fun fast room enabled mode => ?_⟩,
      fun none_ i => ?_⟩
    · rw [br']
      rfl
    · rw [br']
      rfl
    · rw [br']
      rfl
    · rw [br']
      rfl
    · rw [State.finish_again (idle none_) (queue empty), State.finish_eq (idle none_) (queue empty)]
      exact load
    · exact (changed room enabled).trans events
    · exact (dropped fast room enabled mode).trans events
    · have slot : u.finish.finish.slot i = u.slot i :=
        State.slot_ofSlots ((State.finish_slots (State.finish_intake (idle none_))).trans (State.finish_slots (idle none_))) i
      have frame : u.finish.finish.frame i = (u.slot i).frame := congrArg Slot.frame slot
      rw [frame]
      refine ⟨fun other => congrArg Slot.frame ((slots i).1 other), fun tagged waits stays => ?_⟩
      obtain ⟨x, v, same, settled, last⟩ := lost i tagged waits stays
      have outcome := settled.outcome
      rw [State.frame, State.frame, same] at outcome
      rw [last]
      exact outcome

end Sys2Proof.Machine
end

