-- ==== Sys2Proof/Proofs/DrainSlots.lean ====
section
/-! SUPPORT. Step 2 of a drain on one slot (R41, R178): what becomes of its record, and what the drain counts. -/

namespace Sys2Proof.Machine

/-! ### The count -/

/-- The generations the drain in progress has ended (R194). -/
def State.drained (s : State) : Nat :=
  match s.cru.proc with
  | .drain d => d.generations
  | _ => 0

theorem State.drained_ofProc {s t : State} (same : t.cru.proc = s.cru.proc) : t.drained = s.drained := by
  rw [State.drained, same, State.drained]

theorem State.inDrain_iff (s : State) : s.inDrain = true ↔ ∃ d, s.cru.proc = .drain d := by
  unfold State.inDrain
  cases s.cru.proc <;> simp

theorem State.drained_countEnded {s : State} (on : s.inDrain = true) : s.countEnded.drained = s.drained + 1 := by
  obtain ⟨d, draining⟩ := s.inDrain_iff.mp on
  rw [State.drained, State.countEnded, State.modDrain_proc (draining := draining), State.drained, draining]

theorem State.entersUntagged_proc (s : State) (i : SlotId) (stamp : Stamp) (missing : Bool) :
    (s.entersUntagged i stamp missing).cru.proc = s.cru.proc := by
  unfold State.entersUntagged
  dsimp only
  rw [State.caught_cru]
  split
  · exact (OnFrames.raiseSlot _ i _).proc
  · rfl

/-! ### The outcomes -/

/-- A RESOLVED record after the test of a drain that does not go on to a successor (R41). -/
def FrameRecord.ends (f : FrameRecord) : FrameRecord := { f with ended := f.ended || decide (f.held = 0) }

/-- The generations that a drain ends at the test of a RESOLVED record (R41, R193). -/
def FrameRecord.endings (f : FrameRecord) : Nat :=
  if f.held = 0 ∧ f.ended = false then
    match f.successor with
    | none => 1
    | some n => if n.held = 0 then 2 else 1
  else 0

/-- The record of a successor that a drain resolves UNTAGGED after the generation before it has ended (R41). -/
structure FrameRecord.Replaced (f : FrameRecord) (n : Successor) (g : FrameRecord) : Prop where
  state : g.state = .resolved
  generation : g.generation = f.generation + 1
  held : g.held = n.held
  successor : g.successor = none
  pendingTag : g.pendingTag = none
  untagged : ∀ b : BandId, (g.bands[b]).result.map BandResult.kind = some .untagged

/-- What the test of a drain makes of a RESOLVED record. -/
structure FrameRecord.Drained (f g : FrameRecord) : Prop where
  stays : f.successor = none ∨ f.held ≠ 0 ∨ f.ended = true → g = f.ends
  replaced : ∀ n, f.held = 0 → f.ended = false → f.successor = some n → f.Replaced n g

theorem FrameRecord.ends_idle {f : FrameRecord} (idle : f.held ≠ 0 ∨ f.ended = true) : f.ends = f := by
  rcases idle with held | ended
  · simp [FrameRecord.ends, held]
  · have same : ({ f with ended := true } : FrameRecord) = f := by rw [← ended]
    simpa [FrameRecord.ends, ended] using same

theorem FrameRecord.endings_idle {f : FrameRecord} (idle : f.held ≠ 0 ∨ f.ended = true) : f.endings = 0 := by
  refine if_neg fun ends => ?_
  rcases idle with held | ended
  · exact held ends.1
  · rw [ends.2] at ended
    cases ended

theorem FrameRecord.endings_next {f : FrameRecord} (clear : f.held = 0) (going : f.ended = false) {n : Successor}
    (next : f.successor = some n) : f.endings = if n.held = 0 then 2 else 1 := by
  rw [FrameRecord.endings, if_pos ⟨clear, going⟩, next]

theorem FrameRecord.endings_last {f : FrameRecord} (going : f.ended = false) (last : f.successor = none) :
    f.endings = if f.held = 0 then 1 else 0 := by
  simp [FrameRecord.endings, going, last]

/-- A record but for its bands and its stage has the same part in the test. -/
theorem FrameRecord.endings_same {f g : FrameRecord} (held : g.held = f.held) (ended : g.ended = f.ended)
    (successor : g.successor = f.successor) : g.endings = f.endings := by
  rw [FrameRecord.endings, FrameRecord.endings, held, ended, successor]

theorem FrameRecord.Drained.state {f g : FrameRecord} (drained : f.Drained g) (resolved : f.state = .resolved) :
    g.state = .resolved := by
  by_cases idle : f.successor = none ∨ f.held ≠ 0 ∨ f.ended = true
  · rw [drained.stays idle]
    exact resolved
  · simp only [not_or, not_not, Bool.not_eq_true] at idle
    obtain ⟨n, next⟩ := Option.ne_none_iff_exists'.mp idle.1
    exact (drained.replaced n idle.2.1 idle.2.2 next).state

/-! ### The test -/

/-- The test of a drain where no successor follows. -/
theorem State.tryComplete_ends {v : State} {i : SlotId} (on : v.inDrain = true) (resolved : (v.frame i).state = .resolved)
    (stays : (v.frame i).successor = none ∨ (v.frame i).held ≠ 0 ∨ (v.frame i).ended = true) (n : Nat) :
    ((State.tryComplete (n + 1) i v).frame i) = (v.frame i).ends ∧
      (State.tryComplete (n + 1) i v).drained = v.drained + (v.frame i).endings := by
  by_cases idle : (v.frame i).held ≠ 0 ∨ (v.frame i).ended = true
  · rw [State.tryComplete_stays (.inr (idle.imp id .inl)), FrameRecord.ends_idle idle, FrameRecord.endings_idle idle]
    exact ⟨rfl, rfl⟩
  · have last := stays.resolve_right idle
    simp only [not_or, not_not, Bool.not_eq_true] at idle
    obtain ⟨clear, going⟩ := idle
    rw [State.tryComplete_drain resolved clear going on, State.endGen_last last, State.frame_modFrame_self,
      State.frame_countEnded]
    refine ⟨by simp [FrameRecord.ends, clear], ?_⟩
    rw [FrameRecord.endings_last going last, if_pos clear]
    exact State.drained_countEnded on

section
variable {u : State} {i : SlotId} {e : BandEvent} {k : ResKind} (settles : e.Settles k) (on : u.inDrain = true)
  (tagged : (u.frame i).state = .tagged) (waits : (u.frame i).allResolved = false)
include settles on tagged waits

/-- The bands of a TAGGED record, with a test that is known. -/
theorem State.takeBands_tests {complete : SlotId → State → State} {P : State → State → Prop}
    (tests : ∀ v, AllSettled k i u v → P v (complete i v) ∧ ((complete i v).frame i).state = .resolved) :
    ∃ v w, AllSettled k i u v ∧ v.inDrain = true ∧ v.drained = u.drained ∧ P v w ∧
      (u.takeBands complete e i).frame i = w.frame i ∧ (u.takeBands complete e i).drained = w.drained := by
  obtain ⟨v, b, report, settled, -, taken⟩ := State.takeBands_last settles tagged waits
    (complete := complete) fun v settled => .inl (by rw [(tests v settled).2]; decide)
  refine ⟨v, complete i v, settled, by rw [settled.taken.on.inDrain, on], State.drained_ofProc settled.taken.on.proc,
    (tests v settled).1, ?_, ?_⟩
  · rw [taken, State.frame, State.slot_ofSlots (State.bandHanded_slots ..), State.frame]
  · rw [taken]
    exact State.drained_ofProc (OnFrames.bandHanded ..).proc

theorem State.takeBands_ends
    (stays : (u.frame i).successor = none ∨ (u.frame i).held ≠ 0 ∨ (u.frame i).ended = true) (n : Nat) :
    ∃ v, AllSettled k i u v ∧ (u.takeBands (State.tryComplete (n + 1)) e i).frame i = (v.frame i).ends ∧
      (u.takeBands (State.tryComplete (n + 1)) e i).drained = u.drained + (u.frame i).endings := by
  have test (v : State) (settled : AllSettled k i u v) := State.tryComplete_ends (v := v) (i := i)
    (by rw [settled.taken.on.inDrain, on]) settled.resolved (by rw [settled.frame]; exact stays) n
  obtain ⟨v, w, settled, -, count, same, frame, total⟩ := State.takeBands_tests settles on tagged waits
    (complete := State.tryComplete (n + 1)) (P := fun v w => w.frame i = (v.frame i).ends ∧
      w.drained = v.drained + (v.frame i).endings)
    fun v settled => ⟨test v settled, by rw [(test v settled).1]; exact settled.resolved⟩
  refine ⟨v, settled, frame.trans same.1, total.trans (same.2.trans ?_)⟩
  rw [count, FrameRecord.endings_same (f := u.frame i) (by rw [settled.frame]) (by rw [settled.frame])
    (by rw [settled.frame])]

end

theorem State.frame_beginGen (s : State) (i : SlotId) : (s.beginGen i).frame i = (s.frame i).begin := by
  rw [State.frame, State.beginGen, State.slot_modSlot_self]
  rfl

/-- A record that enters TAGGED without a tag changes in its bands and its profile area only. -/
theorem State.frame_entersUntagged (s : State) (i : SlotId) (stamp : Stamp) (missing : Bool) : ∃ area x y,
    (s.entersUntagged i stamp missing).frame i =
      { (s.frame i).untagged stamp with area := area, offsetX := x, offsetY := y } := by
  obtain ⟨area, x, y, slot⟩ := s.slot_entersUntagged i stamp missing
  exact ⟨area, x, y, congrArg Slot.frame slot⟩

theorem State.entersUntagged_keeps (s : State) (i : SlotId) (stamp : Stamp) (missing : Bool) :
    ((s.entersUntagged i stamp missing).frame i).generation = (s.frame i).generation ∧
      ((s.entersUntagged i stamp missing).frame i).held = (s.frame i).held ∧
      ((s.entersUntagged i stamp missing).frame i).ended = (s.frame i).ended ∧
      ((s.entersUntagged i stamp missing).frame i).successor = (s.frame i).successor := by
  obtain ⟨area, x, y, enters⟩ := s.frame_entersUntagged i stamp missing
  rw [enters]
  exact ⟨rfl, rfl, rfl, rfl⟩

/-- The test of a drain. -/
theorem State.tryComplete_drains {v : State} {i : SlotId} (on : v.inDrain = true) (resolved : (v.frame i).state = .resolved)
    (n : Nat) : (v.frame i).Drained ((State.tryComplete (n + 2) i v).frame i) ∧
      (State.tryComplete (n + 2) i v).drained = v.drained + (v.frame i).endings := by
  by_cases stays : (v.frame i).successor = none ∨ (v.frame i).held ≠ 0 ∨ (v.frame i).ended = true
  · have same := State.tryComplete_ends on resolved stays (n + 1)
    refine ⟨⟨fun _ => same.1, fun m clear going next => ?_⟩, same.2⟩
    rw [next, clear, going] at stays
    simp at stays
  · simp only [not_or, not_not, Bool.not_eq_true] at stays
    obtain ⟨some_, clear, going⟩ := stays
    obtain ⟨m, next⟩ := Option.ne_none_iff_exists'.mp some_
    rw [State.tryComplete_drain resolved clear going on, State.endGen_successor next, State.enterUntagged_eq]
    obtain ⟨area, x, y, enters⟩ := (v.countEnded.beginGen i).frame_entersUntagged i v.clock false
    obtain ⟨tagged, empty, waits⟩ := (v.countEnded.beginGen i).entersUntagged_waits i v.clock false
    have proc := (v.countEnded.beginGen i).entersUntagged_proc i v.clock false
    generalize (v.countEnded.beginGen i).entersUntagged i v.clock false = u at *
    have begun : (v.countEnded.beginGen i).frame i = (v.frame i).begin := by
      rw [State.frame_beginGen, State.frame_countEnded]
    rw [begun] at enters
    have fields : (u.frame i).generation = (v.frame i).generation + 1 ∧ (u.frame i).held = m.held ∧
        (u.frame i).successor = none ∧ (u.frame i).pendingTag = none ∧ (u.frame i).ended = false := by
      rw [enters]
      unfold FrameRecord.begin
      rw [next]
      exact ⟨rfl, rfl, rfl, rfl, rfl⟩
    obtain ⟨generation, held, last, untagged, going'⟩ := fields
    have count : u.drained = v.drained + 1 := (State.drained_ofProc proc).trans (State.drained_countEnded on)
    have on' : u.inDrain = true := by
      rw [State.inDrain, proc]
      exact (OnSlot.countEnded v i).within.inDrain.trans on
    obtain ⟨w, settled, frame, total⟩ := State.takeBands_ends BandEvent.untagged_settles on' tagged waits (.inl last) n
    rw [frame, total, count, FrameRecord.endings_next clear going next, FrameRecord.endings_last going' last, held]
    obtain ⟨state, generation', held', bands⟩ := settled.outcome
    have rest := settled.frame
    refine ⟨⟨fun idle => ?_, fun m' _ _ next' => ?_⟩, ?_⟩
    · rw [next, clear, going] at idle
      simp at idle
    · rw [next] at next'
      cases next'
      refine ⟨state, generation'.trans generation, held'.trans held, ?_, ?_, fun b => ?_⟩
      · rw [FrameRecord.ends, rest]
        exact last
      · rw [FrameRecord.ends, rest]
        exact untagged
      · exact (bands b).2.2.2 (by rw [empty])
    · split <;> rfl

theorem State.testComplete_drains {v : State} {i : SlotId} (on : v.inDrain = true)
    (resolved : (v.frame i).state = .resolved) : (v.frame i).Drained ((State.testComplete i v).frame i) ∧
      (State.testComplete i v).drained = v.drained + (v.frame i).endings := by
  have four : State.testComplete = State.tryComplete (2 + 2) := rfl
  rw [four]
  exact State.tryComplete_drains on resolved 2

/-- Bands that an event settles, with the test of a drain at the last one. -/
theorem State.takeBands_drains {u : State} {i : SlotId} {e : BandEvent} {k : ResKind} (settles : e.Settles k)
    (on : u.inDrain = true) (tagged : (u.frame i).state = .tagged) (waits : (u.frame i).allResolved = false) :
    ∃ v, AllSettled k i u v ∧ (v.frame i).Drained ((u.takeBands State.testComplete e i).frame i) ∧
      (u.takeBands State.testComplete e i).drained = u.drained + (u.frame i).endings := by
  have test (v : State) (settled : AllSettled k i u v) := State.testComplete_drains (v := v) (i := i)
    (by rw [settled.taken.on.inDrain, on]) settled.resolved
  obtain ⟨v, w, settled, -, count, same, frame, total⟩ := State.takeBands_tests settles on tagged waits
    (complete := State.testComplete) (P := fun v w => (v.frame i).Drained (w.frame i) ∧
      w.drained = v.drained + (v.frame i).endings)
    fun v settled => ⟨test v settled, (test v settled).1.state settled.resolved⟩
  refine ⟨v, settled, by rw [frame]; exact same.1, total.trans (same.2.trans ?_)⟩
  rw [count, FrameRecord.endings_same (f := u.frame i) (by rw [settled.frame]) (by rw [settled.frame])
    (by rw [settled.frame])]

/-! ### A slot -/

/-- A record that step 2 resolves (R41, R178). -/
def FrameRecord.works (f : FrameRecord) : Bool :=
  match f.state with
  | .tagged => !f.allResolved
  | .armed => f.firstIngest.isSome
  | .resolved => true
  | _ => false

/-- What step 2 makes of a record before its test: the bands of a TAGGED one are FORCED, those of an ARMED one UNTAGGED. -/
structure FrameRecord.StepTwo (clock : Stamp) (f x : FrameRecord) : Prop where
  state : x.state = .resolved
  generation : x.generation = f.generation
  held : x.held = f.held
  ended : x.ended = f.ended
  successor : x.successor = f.successor
  forced : f.state = .tagged → ∀ b : BandId, (x.bands[b]).time = (f.bands[b]).time ∧
    (x.bands[b]).deadline = (f.bands[b]).deadline ∧
    ((f.bands[b]).result.isSome = true → (x.bands[b]).result = (f.bands[b]).result) ∧
    ((f.bands[b]).result = none → (x.bands[b]).result.map BandResult.kind = some .forced)
  untagged : f.state = .armed → ∀ b : BandId, (x.bands[b]).time = some clock ∧ (x.bands[b]).deadline = some clock ∧
    (x.bands[b]).result.map BandResult.kind = some .untagged
  kept : f.state = .resolved → x.bands = f.bands

section
variable {u : State} {i : SlotId}

theorem State.resolveSlot_tagged (tagged : (u.frame i).state = .tagged) :
    u.resolveSlot i = u.takeBands State.testComplete .forced i := by
  rw [State.resolveSlot, tagged]

theorem State.resolveSlot_armed (armed : (u.frame i).state = .armed) :
    u.resolveSlot i = (u.entersUntagged i u.clock false).takeBands State.testComplete .untagged i := by
  rw [State.resolveSlot, armed]
  exact State.enterUntagged_eq u State.testComplete i u.clock false

theorem State.resolveSlot_resolved (resolved : (u.frame i).state = .resolved) : u.resolveSlot i = u.testComplete i := by
  rw [State.resolveSlot, resolved]

theorem State.takeBands_done (all : (u.frame i).allResolved = true) (complete : SlotId → State → State) (e : BandEvent) :
    u.takeBands complete e i = u := by
  have along (g : Generation) (l : List BandId) : l.foldl (fun s b => s.takeBand complete e i g b) u = u := by
    induction l with
    | nil => rfl
    | cons b l ih =>
      rw [List.foldl_cons, State.takeBand_idle (.inr (.inr ((FrameRecord.allResolved_iff _).mp all b)))]
      exact ih
  exact along _ _

/-- A slot that step 2 visits without work is a TAGGED one with all bands RESOLVED, which stays. -/
theorem State.resolveSlot_idle (visited : u.hasWork i = true) (idle : (u.frame i).works = false) : u.resolveSlot i = u := by
  cases state : (u.frame i).state <;> simp only [State.hasWork, FrameRecord.works, state] at visited idle
  case tagged =>
    rw [State.resolveSlot_tagged state]
    exact State.takeBands_done (by simpa using idle) _ _
  case armed => simp [idle] at visited
  all_goals simp at visited idle

theorem State.hasWork_of_works (works : (u.frame i).works = true) : u.hasWork i = true := by
  cases state : (u.frame i).state <;> simp only [State.hasWork, FrameRecord.works, state] at works ⊢
  all_goals exact works

/-- The bands of a TAGGED record, FORCED. -/
theorem FrameRecord.StepTwo.ofForced {v : State} (tagged : (u.frame i).state = .tagged) (settled : AllSettled .forced i u v)
    (clock : Stamp) : FrameRecord.StepTwo clock (u.frame i) (v.frame i) := by
  obtain ⟨resolved, generation, held, bands⟩ := settled.outcome
  have rest := settled.frame
  refine ⟨resolved, generation, held, by rw [rest], by rw [rest], fun _ => bands, ?_, ?_⟩
  · rw [tagged]
    exact nofun
  · rw [tagged]
    exact nofun

/-- The bands of an ARMED record, UNTAGGED. -/
theorem FrameRecord.StepTwo.ofUntagged {v : State} {clock : Stamp} (armed : (u.frame i).state = .armed)
    (settled : AllSettled .untagged i (u.entersUntagged i clock false) v) :
    FrameRecord.StepTwo clock (u.frame i) (v.frame i) := by
  obtain ⟨resolved, generation, held, bands⟩ := settled.outcome
  have rest := settled.frame
  obtain ⟨-, empty, -⟩ := u.entersUntagged_waits i clock false
  obtain ⟨generation', held', ended', successor'⟩ := u.entersUntagged_keeps i clock false
  refine ⟨resolved, generation.trans generation', held.trans held', ?_, ?_, ?_, fun _ b => ?_, ?_⟩
  · rw [rest]
    exact ended'
  · rw [rest]
    exact successor'
  · rw [armed]
    exact nofun
  · obtain ⟨time, deadline, -, kind⟩ := bands b
    rw [empty] at time deadline kind
    exact ⟨time, deadline, kind rfl⟩
  · rw [armed]
    exact nofun

theorem FrameRecord.StepTwo.ofResolved {f : FrameRecord} (resolved : f.state = .resolved) (clock : Stamp) :
    FrameRecord.StepTwo clock f f := by
  refine ⟨resolved, rfl, rfl, rfl, rfl, ?_, ?_, fun _ => rfl⟩
  · rw [resolved]
    exact nofun
  · rw [resolved]
    exact nofun

/-- Step 2 of a drain on a slot with work. -/
theorem State.resolveSlot_works (on : u.inDrain = true) (works : (u.frame i).works = true) :
    ∃ x, FrameRecord.StepTwo u.clock (u.frame i) x ∧ x.Drained ((u.resolveSlot i).frame i) ∧
      (u.resolveSlot i).drained = u.drained + (u.frame i).endings := by
  cases state : (u.frame i).state <;> simp only [FrameRecord.works, state] at works
  case tagged =>
    rw [State.resolveSlot_tagged state]
    obtain ⟨v, settled, drained, count⟩ := State.takeBands_drains BandEvent.forced_settles on state (by simpa using works)
    exact ⟨v.frame i, .ofForced state settled u.clock, drained, count⟩
  case armed =>
    rw [State.resolveSlot_armed state]
    obtain ⟨-, held, ended, successor⟩ := u.entersUntagged_keeps i u.clock false
    obtain ⟨tagged, -, waits⟩ := u.entersUntagged_waits i u.clock false
    have proc := u.entersUntagged_proc i u.clock false
    have on' : (u.entersUntagged i u.clock false).inDrain = true := by
      rw [State.inDrain, proc]
      exact on
    obtain ⟨v, settled, drained, count⟩ := State.takeBands_drains BandEvent.untagged_settles on' tagged waits
    refine ⟨v.frame i, .ofUntagged state settled, drained, ?_⟩
    rw [count, State.drained_ofProc proc, FrameRecord.endings_same held ended successor]
  case resolved =>
    rw [State.resolveSlot_resolved state]
    obtain ⟨drained, count⟩ := State.testComplete_drains (i := i) on state
    exact ⟨u.frame i, .ofResolved state u.clock, drained, count⟩
  all_goals cases works

end

end Sys2Proof.Machine
end

