-- ==== Sys2Proof/Proofs/DrainSweep.lean ====
section
/-! SUPPORT. Step 2 of a drain as a whole: no load starts, no tag is reported missing, and the lines in work stay so
(R178). -/

namespace Sys2Proof.Machine

/-! ### The events -/

/-- The events that have joined, none of them TAG_MISSING. -/
def Tells (s t : State) : Prop := ∃ l : List EventRecord, t.cru.events = s.cru.events ++ l ∧
  ∀ x ∈ l, ∀ first beats eof, x.event ≠ .tagMissing first beats eof

theorem Tells.ofEvents {s t : State} (same : t.cru.events = s.cru.events) : Tells s t :=
  ⟨[], by rw [same, List.append_nil], fun _ h => absurd h List.not_mem_nil⟩

theorem Tells.refl (s : State) : Tells s s := .ofEvents rfl

theorem Tells.trans {s t u : State} (a : Tells s t) (b : Tells t u) : Tells s u := by
  obtain ⟨l, joined, other⟩ := a
  obtain ⟨l', joined', other'⟩ := b
  refine ⟨l ++ l', by rw [joined', joined, List.append_assoc], fun x member => ?_⟩
  rcases List.mem_append.mp member with h | h
  · exact other x h
  · exact other' x h

theorem Tells.raiseFor (s : State) (x : Option (SlotId × Generation)) {e : Event}
    (other : ∀ first beats eof, e ≠ .tagMissing first beats eof) : Tells s (s.raiseFor x e) := by
  unfold State.raiseFor
  split
  · split
    · exact ⟨_, rfl, fun y member => by rw [List.mem_singleton.mp member]; exact other⟩
    · exact .ofEvents rfl
  · exact .refl s

theorem Tells.raiseIf (s : State) (x : Option (SlotId × Generation)) {e : Option Event}
    (other : ∀ first beats eof, e ≠ some (.tagMissing first beats eof)) : Tells s (s.raiseIf x e) := by
  cases e with
  | none => exact .refl s
  | some e => exact .raiseFor s x fun first beats eof same => other first beats eof (congrArg some same)

theorem Tells.evalMode (s : State) (requested : Bool) : Tells s (s.evalMode requested) := by
  unfold State.evalMode
  dsimp only
  split
  · exact Tells.raiseFor { s with llc := { s.llc with modeTarget := s.modeTargetNow } } none nofun
  · exact .ofEvents rfl

theorem Tells.drop {s t : State} (tells : Tells s t) :
    ∀ x ∈ t.cru.events.drop s.cru.events.length, ∀ first beats eof, x.event ≠ .tagMissing first beats eof := by
  obtain ⟨l, joined, other⟩ := tells
  rw [joined, List.drop_left]
  exact other

/-! ### What step 2 keeps -/

/-- What a step keeps during a drain. -/
structure Drains (s t : State) : Prop where
  inDrain : t.inDrain = s.inDrain
  load : t.pu.load = s.pu.load
  tells : Tells s t
  work : ∀ i, (s.line i).inWork = true → (t.line i).inWork = true

theorem Drains.refl (s : State) : Drains s s := ⟨rfl, rfl, .refl s, fun _ h => h⟩

theorem Drains.trans {s t u : State} (a : Drains s t) (b : Drains t u) : Drains s u :=
  ⟨b.inDrain.trans a.inDrain, b.load.trans a.load, a.tells.trans b.tells, fun i h => b.work i (a.work i h)⟩

theorem Drains.modSlot (s : State) (i : SlotId) (f : Slot → Slot) : Drains s (s.modSlot i f) :=
  ⟨rfl, rfl, .ofEvents rfl, fun _ h => h⟩

theorem Drains.modArea (s : State) (a : AreaId) (f : Area → Area) : Drains s (s.modArea a f) := by
  cases a <;> exact ⟨rfl, rfl, .ofEvents rfl, fun _ h => h⟩

theorem Drains.raiseFor (s : State) (x : Option (SlotId × Generation)) {e : Event}
    (other : ∀ first beats eof, e ≠ .tagMissing first beats eof) : Drains s (s.raiseFor x e) :=
  ⟨(OnFrames.raiseFor s x e).inDrain, by simp, .raiseFor s x other, fun i h => by simpa using h⟩

theorem Drains.raiseIf (s : State) (x : Option (SlotId × Generation)) {e : Option Event}
    (other : ∀ first beats eof, e ≠ some (.tagMissing first beats eof)) : Drains s (s.raiseIf x e) := by
  cases e with
  | none => exact .refl s
  | some e => exact .raiseFor s x fun first beats eof same => other first beats eof (congrArg some same)

theorem Drains.joinDemanded (s : State) (i : SlotId) (g : Generation) (b : BandId) : Drains s (s.joinDemanded i g b) :=
  ⟨rfl, rfl, .ofEvents rfl, fun _ h => h⟩

/-- No pending load starts during a drain (R106, R109). -/
theorem Drains.releaseArea {s : State} (on : s.inDrain = true) (a : Option AreaId) : Drains s (s.releaseArea a) := by
  cases a with
  | none => exact .refl s
  | some a =>
    unfold State.releaseArea
    dsimp only
    have released := Drains.modArea s a fun x => { x with refs := x.refs - 1 }
    split
    · have freed := released.trans (.modArea _ a fun x => { x with state := .free })
      rw [if_pos (freed.inDrain.trans on)]
      exact freed
    · exact released

theorem Drains.enterResolved {s : State} (on : s.inDrain = true) (i : SlotId) : Drains s (s.enterResolved i) :=
  (Drains.modSlot s i _).trans (.releaseArea (s := s.modFrame i _) (by exact on) _)

theorem Drains.bandTaken {s : State} (on : s.inDrain = true) (i : SlotId) (b : BandId) (kind : ResKind) (src : Source) :
    Drains s (s.bandTaken i b kind src) := by
  unfold State.bandTaken
  dsimp only
  split
  · exact (Drains.modSlot s i _).trans (.enterResolved (s := s.modSlot i _) (by exact on) i)
  · exact .modSlot s i _

theorem LineRec.inWork_takeBand (w : Window) (i : SlotId) (g : Generation) (r : LineRec) :
    (r.takeBand w i g).inWork = r.inWork := by
  unfold LineRec.takeBand
  split
  · split <;> rfl
  · rfl

theorem Drains.caught (s : State) (i : SlotId) : Drains s (s.caught i) := by
  refine ⟨(OnSlot.caught s i).within.inDrain, ?_, .ofEvents (by rw [State.caught_cru]), fun x h => ?_⟩
  · unfold State.caught State.linesTakeBand
    have captured : (s.capture i).pu.load = s.pu.load := by
      unfold State.capture
      split
      · rfl
      · next a _ => exact (Drains.modArea s a _).load
    split <;> exact captured
  · unfold State.caught State.linesTakeBand
    split
    · rw [State.line, State.capture_ls]
      exact h
    · rw [State.line, State.mapLines_ls, mapTable_get, LineRec.inWork_takeBand, State.capture_ls]
      exact h

theorem Drains.exposureStart (s : State) (i : SlotId) (tag : FrameTag) (d : Stamp) (h : Nat) :
    Drains s (s.exposureStart i tag d h).2 := by
  unfold State.exposureStart
  split
  · exact ⟨rfl, rfl, .ofEvents rfl, fun _ h => h⟩
  · exact .raiseFor s _ nofun

theorem Drains.entersTagged (s : State) (i : SlotId) (tag : FrameTag) (d : Stamp) : Drains s (s.entersTagged i tag d) := by
  unfold State.entersTagged
  dsimp only
  refine .trans ?_ (.caught _ i)
  refine .trans ?_ (.modSlot _ i _)
  exact (Drains.modSlot s i _).trans (.exposureStart _ i _ _ _)

theorem Drains.untaggedAt (s : State) (i : SlotId) (stamp : Stamp) : Drains s (s.untaggedAt i stamp) := .modSlot s i _

theorem Drains.entersUntagged (s : State) (i : SlotId) (stamp : Stamp) : Drains s (s.entersUntagged i stamp false) := by
  unfold State.entersUntagged
  dsimp only
  rw [if_neg (by decide)]
  exact (Drains.untaggedAt s i stamp).trans (.caught _ i)

theorem Drains.countEnded (s : State) : Drains s s.countEnded := by
  refine ⟨(Within.modDrain s _).inDrain, ?_, ?_, ?_⟩ <;> unfold State.countEnded State.modDrain
  · split <;> rfl
  · split <;> exact .ofEvents rfl
  · split <;> exact fun _ h => h

theorem Drains.respected (i : SlotId) : Respected i fun s t => s.inDrain = true → Drains s t where
  refl := fun s _ => .refl s
  trans := fun a b on => (a on).trans (b ((a on).inDrain.trans on))
  bandTaken := fun kind src _ _ on => .bandTaken on i _ kind src
  bandHanded := fun s g b _ other _ => (Drains.joinDemanded s i g b).trans (.raiseIf _ _ other)
  tagged := fun s tag d _ => .entersTagged s i tag d
  untagged := fun s stamp missing off on => by
    cases missing with
    | false => exact .entersUntagged s i stamp
    | true =>
      rw [off rfl] at on
      cases on
  begins := fun s _ => .modSlot s i _
  armed := fun s off _ on => by rw [off] at on; cases on
  applies := fun s off on => by rw [off] at on; cases on
  completes := fun s off on => by rw [off] at on; cases on
  counted := fun s _ => .countEnded s
  ended := fun s _ => .modSlot s i _

/-! ### All slots -/

theorem Respected.resolveSlot {i : SlotId} {R : State → State → Prop} (r : Respected i R) (s : State) :
    R s (s.resolveSlot i) := by
  unfold State.resolveSlot
  split
  · exact r.takeBands r.testComplete s _
  · exact r.enterUntagged r.testComplete s _ fun h => absurd h (by decide)
  · exact r.testComplete s

/-- What step 2 keeps, of whatever slots. -/
structure StepTwo (s t : State) : Prop where
  within : Within s t
  er : t.er = s.er
  claims : t.ls.claims = s.ls.claims
  drain : ∀ d, s.cru.proc = .drain d → ∃ n, t.cru.proc = .drain { d with generations := n }
  keeps : s.inDrain = true → Drains s t

theorem OnSlot.stepTwo {i : SlotId} {s t : State} (on : OnSlot i s t) (keeps : s.inDrain = true → Drains s t) :
    StepTwo s t := ⟨on.within, on.er, on.claims, on.drain, keeps⟩

theorem StepTwo.refl (s : State) : StepTwo s s := (OnSlot.refl 0 s).stepTwo fun _ => .refl s

theorem StepTwo.trans {s t u : State} (a : StepTwo s t) (b : StepTwo t u) : StepTwo s u where
  within := a.within.trans b.within
  er := b.er.trans a.er
  claims := b.claims.trans a.claims
  drain := fun d draining => by
    obtain ⟨n, mid⟩ := a.drain d draining
    obtain ⟨m, last⟩ := b.drain _ mid
    exact ⟨m, last⟩
  keeps := fun on => (a.keeps on).trans (b.keeps ((a.keeps on).inDrain.trans on))

theorem sweeps_resolveSlot : Sweeps State.resolveSlot StepTwo where
  refl := .refl
  trans := .trans
  free := fun s n => ⟨.ofFree s n, rfl, rfl, fun d h => ⟨d.generations, h⟩, fun _ => ⟨rfl, rfl, .ofEvents rfl, fun _ h => h⟩⟩
  step := fun u i => ((OnSlot.respected i).resolveSlot u).stepTwo ((Drains.respected i).resolveSlot u)
  other := fun u i j other => ((OnSlot.respected i).resolveSlot u).other j other

end Sys2Proof.Machine
end

