-- ==== Sys2Proof/Proofs/DrainEmpties.lean ====
section
/-! SUPPORT. The other steps that empty the part: the presentation cancelled, the load aborted and the Egress Queue emptied
(R4, R117, R170). -/

namespace Sys2Proof.Machine

/-! ### The presentation (R4) -/

/-- The state with its presented request back at the head of the port, its claims not yet withdrawn. -/
def State.handsBack (s : State) : State :=
  match s.mpu.intake with
  | none => s
  | some p => { s with mpu := { s.mpu with port := p.req :: s.mpu.port, intake := none, class3 := none } }

theorem State.handsBack_intake (s : State) : s.handsBack.mpu.intake = none := by
  unfold State.handsBack
  split
  · next none_ => exact none_
  · rfl

theorem OnReads.dropUpdated (s : State) (line : Nat) : OnReads s (s.dropUpdated line) := by
  refine ⟨.dropUpdated s line, ?_, ?_, ?_, ?_, ?_, ?_⟩ <;> unfold State.dropUpdated <;> split
  all_goals first | rfl | (split <;> rfl)

theorem OnReads.withdrawIntake {s : State} (idle : s.mpu.intake = none) : OnReads s s.withdrawIntake := by
  have along (l : List Claim) : ∀ u : State,
      OnReads u (l.foldl (fun s c => if c.updated then s.dropUpdated c.line else s) u) := by
    induction l with
    | nil => exact fun u => .refl u
    | cons c l ih =>
      intro u
      rw [List.foldl_cons]
      refine .trans ?_ (ih _)
      split
      · exact .dropUpdated u _
      · exact .refl u
  have dropped := (OnReads.setClaims s (s.ls.claims.filter fun c => !c.ofIntake)).trans
    (along (s.ls.claims.filter Claim.ofIntake) _)
  exact dropped.trans (.evalIndices _ (dropped.intake.trans idle))

theorem OnReads.cancelPresented (s : State) : OnReads s.handsBack s.cancelPresented := by
  unfold State.cancelPresented State.handsBack
  cases s.mpu.intake with
  | none => exact .refl s
  | some p => exact .withdrawIntake rfl

/-! ### The load (R117) -/

/-- A load is in progress. -/
def State.loading (s : State) : Bool := s.pu.load.any fun ld => ld.area.isSome

theorem State.loading_iff (s : State) : s.loading = true ↔ ∃ ld, s.pu.load = some ld ∧ ld.area.isSome = true := by
  unfold State.loading
  cases s.pu.load <;> simp

theorem State.abortForDrain_idle {s : State} (idle : s.loading = false) : s.abortForDrain = s := by
  unfold State.abortForDrain
  unfold State.loading at idle
  cases load : s.pu.load with
  | none => rfl
  | some ld =>
    rw [load] at idle
    exact if_neg (by simpa using idle)

theorem State.abortForDrain_aborts {s : State} (loading : s.loading = true) : s.abortForDrain =
    (s.failLoad .superseded none 0).modDrain fun d => { d with loadAborted := true } := by
  obtain ⟨ld, load, started⟩ := s.loading_iff.mp loading
  unfold State.abortForDrain
  rw [load]
  exact if_pos started

/-- A failed load changes the load and its area, the mode target and the events (R114). -/
theorem State.failLoad_eq (s : State) (reason : LoadReason) (check : Option FormatCheck) (block : Nat) :
    s.failLoad reason check block = { s with
      llc := { s.llc with modeTarget := (s.failLoad reason check block).llc.modeTarget }
      pu := (s.failLoad reason check block).pu
      cru := { s.cru with
        events := (s.failLoad reason check block).cru.events, overflow := (s.failLoad reason check block).cru.overflow } } := by
  cases held : s.pu.load with
  | none => rw [State.failLoad_none held]
  | some ld =>
    rw [State.failLoad_some held, State.raise, State.evalMode_eq, State.raiseFor_eq]
    rfl

theorem Tells.failLoad (s : State) (reason : LoadReason) (check : Option FormatCheck) (block : Nat) :
    Tells s (s.failLoad reason check block) := by
  cases held : s.pu.load with
  | none =>
    rw [State.failLoad_none held]
    exact .refl s
  | some ld =>
    rw [State.failLoad_some held]
    refine .trans (.trans ?_ (.raiseFor _ none ?_)) (.evalMode _ _)
    · exact .ofEvents rfl
    · exact nofun

/-- What the abort of a load changes. -/
structure Aborted (s t : State) : Prop where
  within : Within s t
  slots : t.slots = s.slots
  ls : t.ls = s.ls
  er : t.er = s.er
  mpu : t.mpu = s.mpu
  tells : Tells s t
  pending : ∀ ld, t.pu.load = some ld → ld.area = none
  drain : ∀ d, s.cru.proc = .drain d → t.cru.proc = .drain { d with loadAborted := d.loadAborted || s.loading }

theorem Aborted.abortForDrain (s : State) : Aborted s s.abortForDrain := by
  cases loading : s.loading with
  | false =>
    rw [State.abortForDrain_idle loading]
    refine ⟨.refl s, rfl, rfl, rfl, rfl, .refl s, fun ld load => ?_, fun d draining => ?_⟩
    · rw [State.loading, load] at loading
      simpa using loading
    · rw [loading, Bool.or_false, draining]
  | true =>
    have within := Within.abortForDrain s
    have failed := s.failLoad_eq .superseded none 0
    have none_ := s.failLoad_load .superseded none 0
    have tells := Tells.failLoad s .superseded none 0
    rw [State.abortForDrain_aborts loading] at within ⊢
    generalize s.failLoad .superseded none 0 = u at *
    have proc : u.cru.proc = s.cru.proc := by rw [failed]
    have counted (f : Drain → Drain) : (u.modDrain f).pu = u.pu ∧ (u.modDrain f).er = u.er ∧
        (u.modDrain f).mpu = u.mpu ∧ Tells u (u.modDrain f) := by
      unfold State.modDrain
      split <;> exact ⟨rfl, rfl, rfl, .ofEvents rfl⟩
    obtain ⟨pu, er, mpu, told⟩ := counted fun d => { d with loadAborted := true }
    refine ⟨within, ?_, ?_, er.trans (by rw [failed]), mpu.trans (by rw [failed]), tells.trans told, fun ld load => ?_,
      fun d draining => ?_⟩
    · rw [State.modDrain_slots, failed]
    · rw [State.modDrain_ls, failed]
    · rw [pu, none_] at load
      cases load
    · rw [State.modDrain_proc (draining := proc.trans draining), loading, Bool.or_true]

/-! ### The Egress Queue (R170) -/

/-- An abandoned read at the head, before its completion. -/
def State.abandons (s : State) (e : EgressEntry) : State :=
  (s.popRead.modDrain fun d => { d with reads := d.reads + 1 }).withdrawRead e.id

section
variable {s : State} {e : EgressEntry} {rest : List EgressEntry} (head : s.er.queue = e :: rest) (n : Nat)
include head

theorem State.emptyQueue_ready {data : List Byte} (ready : e.state = .ready data) :
    State.emptyQueue (n + 1) s = State.emptyQueue n (s.popRead.complete (e.okay data)) := by
  rw [State.emptyQueue, head]
  dsimp only
  rw [ready]

theorem State.emptyQueue_failed (failed : e.state = .failed) :
    State.emptyQueue (n + 1) s = State.emptyQueue n (s.popRead.complete e.fault) := by
  rw [State.emptyQueue, head]
  dsimp only
  rw [failed]

theorem State.emptyQueue_gathering (gathering : e.state = .gathering) :
    State.emptyQueue (n + 1) s = State.emptyQueue n ((s.abandons e).complete e.fault) := by
  rw [State.emptyQueue, head]
  dsimp only
  rw [gathering]
  rfl

end

theorem State.emptyQueue_empty {s : State} (empty : s.er.queue = []) (n : Nat) : State.emptyQueue n s = s := by
  cases n with
  | zero => rfl
  | succ n => rw [State.emptyQueue, empty]

/-- What the emptied queue leaves unchanged. -/
structure Emptied (s t : State) : Prop where
  within : Within s t
  slots : t.slots = s.slots
  pu : t.pu = s.pu
  llc : t.llc = s.llc
  events : t.cru.events = s.cru.events
  drain : ∀ d, s.cru.proc = .drain d → ∃ n, t.cru.proc = .drain { d with reads := n }

theorem Emptied.trans {s t u : State} (a : Emptied s t) (b : Emptied t u) : Emptied s u where
  within := a.within.trans b.within
  slots := b.slots.trans a.slots
  pu := b.pu.trans a.pu
  llc := b.llc.trans a.llc
  events := b.events.trans a.events
  drain := fun d draining => by
    obtain ⟨n, mid⟩ := a.drain d draining
    obtain ⟨m, last⟩ := b.drain _ mid
    exact ⟨m, last⟩

theorem OnReads.emptied {s t : State} (on : OnReads s t) : Emptied s t :=
  ⟨on.within, on.slots, on.pu, on.llc, by rw [on.cru], fun d draining => ⟨d.reads, by rw [on.cru, draining]⟩⟩

theorem Emptied.countRead (s : State) : Emptied s (s.modDrain fun d => { d with reads := d.reads + 1 }) := by
  refine ⟨.modDrain s _, State.modDrain_slots s _, ?_, ?_, (State.modDrain_events s _).1, fun d draining =>
    ⟨_, State.modDrain_proc s draining _⟩⟩ <;> unfold State.modDrain <;> split <;> rfl

theorem Emptied.abandons {s : State} (idle : s.mpu.intake = none) (e : EgressEntry) : Emptied s (s.abandons e) := by
  have counted := (OnReads.popRead s).emptied.trans (.countRead s.popRead)
  exact counted.trans (OnReads.withdrawRead (counted.within.idle idle) e.id).emptied

theorem Emptied.emptyQueue (n : Nat) : ∀ {s : State}, s.mpu.intake = none → Emptied s (State.emptyQueue n s) := by
  induction n with
  | zero => exact fun _ => (OnReads.refl _).emptied
  | succ n ih =>
    intro s idle
    cases head : s.er.queue with
    | nil =>
      rw [State.emptyQueue_empty head]
      exact (OnReads.refl s).emptied
    | cons e rest =>
      cases state : e.state with
      | ready data =>
        rw [State.emptyQueue_ready head n state]
        have once := ((OnReads.popRead s).trans (.complete _ (e.okay data))).emptied
        exact once.trans (ih (once.within.idle idle))
      | failed =>
        rw [State.emptyQueue_failed head n state]
        have once := ((OnReads.popRead s).trans (.complete _ e.fault)).emptied
        exact once.trans (ih (once.within.idle idle))
      | gathering =>
        rw [State.emptyQueue_gathering head n state]
        have once := (Emptied.abandons idle e).trans (OnReads.complete _ e.fault).emptied
        exact once.trans (ih (once.within.idle idle))

/-! ### The reads abandoned -/

/-- Every claim is at a record in work. -/
def State.claimsWork (s : State) : Prop := ∀ c ∈ s.ls.claims, (s.line (indexOf c.line)).inWork = true

/-- What an evaluation that only demands leaves unchanged. -/
structure Demanded (s t : State) : Prop where
  mpu : t.mpu.intake = s.mpu.intake
  claims : t.ls.claims = s.ls.claims
  er : t.er = s.er
  cru : t.cru = s.cru
  work : ∀ i, (t.line i).inWork = (s.line i).inWork

theorem Demanded.refl (s : State) : Demanded s s := ⟨rfl, rfl, rfl, rfl, fun _ => rfl⟩

theorem Demanded.trans {s t u : State} (a : Demanded s t) (b : Demanded t u) : Demanded s u :=
  ⟨b.mpu.trans a.mpu, b.claims.trans a.claims, b.er.trans a.er, b.cru.trans a.cru, fun i => (b.work i).trans (a.work i)⟩

theorem Demanded.demand {s : State} {i : LineIdx} {tag : LineTag} {band : Option BandId} {lanes : List Lane} {demand : Bool}
    (held : s.line i = .held tag band lanes demand) : Demanded s (s.demand i) := by
  rw [State.demand_eq held]
  refine ⟨rfl, rfl, rfl, rfl, fun j => ?_⟩
  rw [State.line, put_get]
  split
  · next same => rw [← same, held]; rfl
  · rfl

/-- A claim at a record in work is not served. -/
theorem State.evalClaim_works {s : State} (idle : s.mpu.intake = none) {i : LineIdx} (work : (s.line i).inWork = true)
    (c : Claim) : (s.evalClaim i c).2 = false ∧ Demanded s (s.evalClaim i c).1 := by
  unfold State.evalClaim
  cases c.kind with
  | ingest =>
    dsimp only
    rw [State.evalIngest, idle]
    exact ⟨rfl, .refl s⟩
  | forward =>
    dsimp only
    rw [State.evalForward, idle]
    exact ⟨rfl, .refl s⟩
  | need read slot g beat =>
    dsimp only
    unfold State.evalNeed
    cases line : s.line i with
    | held => exact ⟨rfl, .demand line⟩
    | filling => exact ⟨rfl, .refl s⟩
    | casting => exact ⟨rfl, .refl s⟩
    | invalid => rw [line] at work; cases work
    | clean => rw [line] at work; cases work

theorem Demanded.evalIndex {s : State} (idle : s.mpu.intake = none) {i : LineIdx} (work : (s.line i).inWork = true) :
    Demanded s (s.evalIndex i) := by
  unfold State.evalIndex State.evalHead
  cases s.headClaim i with
  | none => exact .refl s
  | some c =>
    have once := State.evalClaim_works idle work c
    dsimp only
    rw [once.1]
    split
    · exact .refl s
    · exact once.2

theorem Demanded.evalIndices (l : List Claim) : ∀ {s : State}, s.mpu.intake = none →
    (∀ c ∈ l, (s.line (indexOf c.line)).inWork = true) → Demanded s (s.evalIndices l) := by
  induction l with
  | nil => exact fun _ _ => .refl _
  | cons c l ih =>
    intro s idle work
    have once := Demanded.evalIndex idle (work c List.mem_cons_self)
    refine once.trans (ih (once.mpu.trans idle) fun x member => ?_)
    rw [once.work]
    exact work x (List.mem_cons_of_mem c member)

/-- With every claim at a record in work the withdrawal of a read touches no read of the queue. -/
theorem State.withdrawRead_works {s : State} (idle : s.mpu.intake = none) (work : s.claimsWork) (read : Nat) :
    (s.withdrawRead read).er = s.er ∧ (s.withdrawRead read).cru = s.cru ∧ (s.withdrawRead read).claimsWork := by
  have demanded : Demanded (s.setClaims (s.ls.claims.filter fun c => !c.ofRead read)) (s.withdrawRead read) :=
    .evalIndices _ idle fun c member => work c (List.mem_of_mem_filter member)
  refine ⟨demanded.er, demanded.cru, fun c member => ?_⟩
  rw [demanded.claims] at member
  rw [demanded.work]
  exact work c (List.mem_of_mem_filter member)

/-- The drain counts the reads that were GATHERING (R170, R194). -/
theorem State.emptyQueue_reads (n : Nat) : ∀ {s : State} {d : Drain}, s.mpu.intake = none → s.claimsWork →
    s.er.queue.length ≤ n → s.cru.proc = .drain d → (State.emptyQueue n s).cru.proc =
      .drain { d with reads := d.reads + s.er.queue.countP fun x => x.state == .gathering } := by
  induction n with
  | zero =>
    intro s d _ _ short draining
    rw [List.eq_nil_of_length_eq_zero (Nat.le_zero.mp short)]
    exact draining
  | succ n ih =>
    intro s d idle work short draining
    cases head : s.er.queue with
    | nil =>
      rw [State.emptyQueue_empty head]
      exact draining
    | cons e rest =>
      have popped : s.popRead.er.queue = rest := by
        rw [State.popRead, head]
        rfl
      rw [head, List.length_cons] at short
      have short := Nat.le_of_succ_le_succ short
      cases state : e.state with
      | ready data =>
        rw [State.emptyQueue_ready head n state, ih (by exact idle) (by exact work) (by exact popped ▸ short) (by exact draining),
          List.countP_cons]
        simp only [State.complete]
        rw [popped, state]
        rfl
      | failed =>
        rw [State.emptyQueue_failed head n state, ih (by exact idle) (by exact work) (by exact popped ▸ short) (by exact draining),
          List.countP_cons]
        simp only [State.complete]
        rw [popped, state]
        rfl
      | gathering =>
        have counted := State.modDrain_proc s.popRead (d := d) (by exact draining) fun d => { d with reads := d.reads + 1 }
        have same (f : Drain → Drain) : (s.popRead.modDrain f).mpu.intake = none ∧ (s.popRead.modDrain f).claimsWork ∧
            (s.popRead.modDrain f).er.queue = rest := by
          unfold State.modDrain
          split <;> exact ⟨idle, work, popped⟩
        obtain ⟨idle', work', queue⟩ := same fun d => { d with reads := d.reads + 1 }
        obtain ⟨er, cru, work''⟩ := State.withdrawRead_works idle' work' e.id
        have idle'' := (OnReads.withdrawRead idle' e.id).intake.trans idle'
        have abandons : s.abandons e = (s.popRead.modDrain fun d => { d with reads := d.reads + 1 }).withdrawRead e.id := rfl
        rw [← abandons] at er cru work'' idle''
        rw [← er] at queue
        rw [← cru] at counted
        rw [State.emptyQueue_gathering head n state, ih (by exact idle'') (by exact work'')
          (by rw [State.complete_er, queue]; exact short) (by exact counted), List.countP_cons, State.complete_er, queue, state]
        simp only [beq_self_eq_true, if_true]
        congr 2
        omega

end Sys2Proof.Machine
end

