-- ==== Sys2Proof/Proofs/DrainStart.lean ====
section
/-! PROOF. The start of a drain (R178, R179): the presentation, the generations, the load and the reads, and what the drain
counts of them. -/

namespace Sys2Proof.Machine

/-- A sum of what is counted within a wider selection. -/
theorem sum_filter_covers {α : Type} (p q : α → Bool) (f : α → Nat) (covers : ∀ i, q i = true → p i = true) (l : List α) :
    ((l.filter p).map fun i => if q i then f i else 0).sum = (l.map fun i => if q i then f i else 0).sum := by
  induction l with
  | nil => rfl
  | cons i l ih =>
    rw [List.filter_cons]
    split
    · rw [List.map_cons, List.sum_cons, ih, List.map_cons, List.sum_cons]
    · next out =>
      have idle : q i ≠ true := fun h => out (covers i h)
      rw [ih, List.map_cons, List.sum_cons, if_neg idle, Nat.zero_add]

/-! ### Step 2 -/

/-- The part after step 2, but for the tag deadlines. -/
def State.swept (a : State) : State := a.cancelPresented.forSlots a.cancelPresented.hasWork State.resolveSlot

theorem State.emptyPart_eq (a : State) : a.emptyPart = a.swept.dropTagDeadlines := rfl

theorem State.handsBack_same (a : State) : a.handsBack.slots = a.slots ∧ a.handsBack.cru = a.cru ∧ a.handsBack.pu = a.pu ∧
    a.handsBack.ssu = a.ssu ∧ a.handsBack.br = a.br ∧ a.handsBack.llc = a.llc ∧
    a.handsBack.mpu.outstanding = a.mpu.outstanding ∧ a.handsBack.er = a.er ∧ a.handsBack.ls = a.ls := by
  unfold State.handsBack
  split <;> exact ⟨rfl, rfl, rfl, rfl, rfl, rfl, rfl, rfl, rfl⟩

section
variable (a : State)

theorem State.cancelPresented_slot (i : SlotId) : a.cancelPresented.slot i = a.slot i :=
  State.slot_ofSlots ((OnReads.cancelPresented a).slots.trans a.handsBack_same.1) i

theorem State.cancelPresented_cru : a.cancelPresented.cru = a.cru :=
  (OnReads.cancelPresented a).cru.trans a.handsBack_same.2.1

theorem State.cancelPresented_clock : a.cancelPresented.clock = a.clock := by
  obtain ⟨-, -, -, ssu, -⟩ := a.handsBack_same
  rw [State.clock, (OnReads.cancelPresented a).ssu, ssu, State.clock]

theorem State.cancelPresented_hasWork (i : SlotId) : a.cancelPresented.hasWork i = a.hasWork i := by
  rw [State.hasWork, State.frame, a.cancelPresented_slot, State.hasWork, State.frame]

theorem State.swept_stepTwo : StepTwo a.cancelPresented a.swept := (sweeps_resolveSlot.forSlots _ _).1

/-- Each slot with work is resolved as it was; the others stay. -/
theorem State.swept_slot (i : SlotId) : (a.hasWork i = false → a.swept.slot i = a.slot i) ∧
    (a.hasWork i = true → ∃ u, StepTwo a.cancelPresented u ∧ u.slot i = a.slot i ∧
      a.swept.slot i = (u.resolveSlot i).slot i) := by
  obtain ⟨stays, meets⟩ := (sweeps_resolveSlot.forSlots a.cancelPresented a.cancelPresented.hasWork).2 i
  rw [a.cancelPresented_hasWork, a.cancelPresented_slot] at stays meets
  refine ⟨stays, fun visited => ?_⟩
  obtain ⟨u, before, same, -, last⟩ := meets visited
  exact ⟨u, before, same, last⟩

end

section
variable {a : State} (on : a.inDrain = true)
include on

theorem State.cancelPresented_inDrain : a.cancelPresented.inDrain = true := by
  rw [State.inDrain, a.cancelPresented_cru]
  exact on

/-- Step 2 of a drain, slot by slot. -/
theorem State.swept_frame (i : SlotId) :
    ((a.frame i).works = true → ∃ x, FrameRecord.StepTwo a.clock (a.frame i) x ∧ x.Drained (a.swept.frame i)) ∧
      ((a.frame i).works = false → a.swept.frame i = a.frame i) := by
  obtain ⟨stays, meets⟩ := a.swept_slot i
  refine ⟨fun works => ?_, fun idle => ?_⟩
  · obtain ⟨u, before, same, last⟩ := meets (State.hasWork_of_works works)
    have frame : u.frame i = a.frame i := congrArg Slot.frame same
    obtain ⟨x, two, drained, -⟩ := State.resolveSlot_works (u := u) (i := i)
      (before.within.inDrain.trans (State.cancelPresented_inDrain on)) (by rw [frame]; exact works)
    have clock : u.clock = a.clock := before.within.clock.trans a.cancelPresented_clock
    rw [frame, clock] at two
    rw [State.frame, ← last] at drained
    exact ⟨x, two, drained⟩
  · cases visited : a.hasWork i with
    | false => exact congrArg Slot.frame (stays visited)
    | true =>
      obtain ⟨u, before, same, last⟩ := meets visited
      have frame : u.frame i = a.frame i := congrArg Slot.frame same
      have idle' := State.resolveSlot_idle (u := u) (i := i) (by rw [State.hasWork, frame]; exact visited)
        (by rw [frame]; exact idle)
      rw [State.frame, last, idle']
      exact frame

/-- The generations that end at step 2 (R194). -/
theorem State.swept_drained : a.swept.drained =
    a.drained + (allSlots.map fun i => if (a.frame i).works then (a.frame i).endings else 0).sum := by
  have counted := sweeps_resolveSlot.count a.cancelPresented a.cancelPresented.hasWork (count := State.drained)
    (adds := fun i => if (a.frame i).works then (a.frame i).endings else 0) (fun _ _ => rfl)
    (fun u i before visited same => by
      rw [a.cancelPresented_slot] at same
      rw [a.cancelPresented_hasWork] at visited
      have frame : u.frame i = a.frame i := congrArg Slot.frame same
      cases works : (a.frame i).works with
      | true =>
        obtain ⟨x, -, -, count⟩ := State.resolveSlot_works (u := u) (i := i)
          (before.within.inDrain.trans (State.cancelPresented_inDrain on)) (by rw [frame]; exact works)
        rw [count, frame]
        rfl
      | false =>
        rw [State.resolveSlot_idle (by rw [State.hasWork, frame]; exact visited) (by rw [frame]; exact works)]
        rfl)
  rw [sum_filter_covers _ (fun i => (a.frame i).works) _ fun i works => by
    rw [a.cancelPresented_hasWork]
    exact State.hasWork_of_works works] at counted
  rw [State.drained_ofProc (t := a.cancelPresented) (s := a) (by rw [a.cancelPresented_cru])] at counted
  exact counted

end

/-! ### The record of a slot -/

theorem FrameRecord.works_iff (f : FrameRecord) : f.works = true ↔
    (f.state = .tagged ∧ ∃ b : BandId, (f.bands[b]).result = none) ∨
      (f.state = .armed ∧ f.firstIngest.isSome = true) ∨ f.state = .resolved := by
  unfold FrameRecord.works
  cases f.state
  case tagged => simpa using f.allResolved_false_iff
  all_goals simp

section
variable {clock : Stamp} {f x g : FrameRecord} (two : FrameRecord.StepTwo clock f x) (drained : x.Drained g)
include two drained

theorem FrameRecord.StepTwo.stays (stays : f.successor = none ∨ f.held ≠ 0) : g = x.ends := by
  refine drained.stays ?_
  rw [two.successor, two.held]
  exact stays.imp_right .inl

theorem FrameRecord.StepTwo.replaced (clear : f.held = 0) (going : f.ended = false) {n : Successor}
    (next : f.successor = some n) : f.Replaced n g := by
  have replaced := drained.replaced n (two.held.trans clear) (two.ended.trans going) (two.successor.trans next)
  exact { replaced with generation := replaced.generation.trans (by rw [two.generation]) }

end

/-! ### The procedure -/

/-- The state with a drain in progress. -/
def State.accepts (g : State) : State := g.setProc (.drain g.newDrain)

/-- Step 3 begins: the drain waits for the entries that are BUSY (R179). -/
def State.waits (s : State) : State := s.modDrain fun d => { d with waitFor := s.busyTags }

theorem State.startDrain_eq (g : State) :
    g.startDrain = State.emptyQueue 17 g.accepts.swept.dropTagDeadlines.waits.abortForDrain := rfl

theorem State.mem_busyTags (s : State) (e : DownTag) : e ∈ s.busyTags ↔ (s.mpu.outstanding[e]).isSome = true := by
  rw [State.busyTags, List.mem_filter]
  refine and_iff_right ?_
  revert e
  decide

theorem Within.busyTags {s t : State} (w : Within s t) : t.busyTags = s.busyTags := by
  rw [State.busyTags, State.busyTags]
  exact List.filter_congr fun e _ => w.busy e

section
variable (g : State)

theorem State.swept_busyTags (a : State) : a.swept.busyTags = a.busyTags := by
  rw [a.swept_stepTwo.within.busyTags, (OnReads.cancelPresented a).within.busyTags, State.busyTags,
    a.handsBack_same.2.2.2.2.2.2.1, State.busyTags]

/-- The part at the end of step 2. -/
theorem State.accepts_swept : g.accepts.swept.cru.proc = .drain { g.newDrain with
      generations := (allSlots.map fun i => if (g.frame i).works then (g.frame i).endings else 0).sum } ∧
    g.accepts.swept.mpu.intake = none ∧ g.accepts.swept.mpu.port = g.handsBack.mpu.port ∧
    g.accepts.swept.er.queue.length ≤ g.er.queue.length ∧ g.accepts.swept.br = g.br ∧
    g.accepts.swept.cru.settings = g.cru.settings ∧ g.accepts.swept.pu.load = g.pu.load ∧ Tells g g.accepts.swept := by
  have on : g.accepts.inDrain = true := rfl
  have cancelled := OnReads.cancelPresented g.accepts
  have two := g.accepts.swept_stepTwo
  have keeps := two.keeps (State.cancelPresented_inDrain on)
  obtain ⟨-, -, pu, -, br, -, -, er, -⟩ := g.accepts.handsBack_same
  have cru := g.accepts.cancelPresented_cru
  have count := State.swept_drained on
  obtain ⟨n, proc⟩ := two.drain g.newDrain (by rw [cru]; rfl)
  rw [State.drained, proc] at count
  refine ⟨?_, two.within.idle (cancelled.intake.trans g.accepts.handsBack_intake), ?_, ?_, ?_, ?_, ?_, ?_⟩
  · rw [proc]
    refine congrArg (fun n => Procedure.drain { g.newDrain with generations := n }) (count.trans ?_)
    exact Nat.zero_add _
  · rw [two.within.port, cancelled.within.port]
    unfold State.handsBack State.accepts
    cases intake : g.mpu.intake <;> simp only [State.setProc, intake]
  · refine Nat.le_trans (two.er ▸ cancelled.within.queue) ?_
    rw [er]
    exact Nat.le_refl _
  · rw [two.within.br, cancelled.within.br, br]
    rfl
  · rw [two.within.settings, cru]
    rfl
  · rw [keeps.load, cancelled.pu, pu]
    rfl
  · refine Tells.trans (.ofEvents ?_) keeps.tells
    rw [cru]
    rfl

theorem State.accepts_claimsWork (idle : g.mpu.intake = none) :
    g.accepts.swept.er = g.er ∧ (g.claimsWork → g.accepts.swept.claimsWork) := by
  have same : g.accepts.cancelPresented = g.accepts := by
    unfold State.cancelPresented
    rw [show g.accepts.mpu.intake = none from idle]
  have two := g.accepts.swept_stepTwo
  rw [same] at two
  refine ⟨two.er, fun work c member => ?_⟩
  rw [two.claims] at member
  exact (two.keeps rfl).work _ (work c member)

/-- The part at the end of a drain's start (R178, R179). -/
structure State.DrainStarted (g t : State) : Prop where
  intake : t.mpu.intake = none
  port : t.mpu.port = g.handsBack.mpu.port
  br : t.br = g.br
  settings : t.cru.settings = g.cru.settings
  pending : ∀ ld, t.pu.load = some ld → ld.area = none
  tells : Tells g t
  slot : ∀ i, t.slot i = (g.accepts.swept.slot i).dropTagDeadline
  proc : ∃ reads, t.cru.proc = .drain { g.newDrain with
      generations := (allSlots.map fun i => if (g.frame i).works then (g.frame i).endings else 0).sum
      waitFor := g.busyTags, loadAborted := g.loading, reads := reads } ∧
    (g.mpu.intake = none → g.claimsWork → g.er.queue.length ≤ 16 →
      reads = g.er.queue.countP fun x => x.state == .gathering)

theorem State.startDrain_starts : State.DrainStarted g g.startDrain ∧ (g.er.queue.length ≤ 16 → g.startDrain.er.queue = []) := by
  obtain ⟨proc, idle, port, queue, br, settings, load, tells⟩ := g.accepts_swept
  have busy : g.accepts.swept.busyTags = g.busyTags := g.accepts.swept_busyTags
  have work := g.accepts_claimsWork
  rw [State.startDrain_eq]
  generalize swept : g.accepts.swept = c at *
  have waiting : c.dropTagDeadlines.waits = { c.dropTagDeadlines with cru := { c.cru with proc := .drain { g.newDrain with
      generations := (allSlots.map fun i => if (g.frame i).works then (g.frame i).endings else 0).sum
      waitFor := g.busyTags } } } := by
    rw [← busy]
    unfold State.waits State.modDrain
    rw [show c.dropTagDeadlines.cru.proc = c.cru.proc from rfl, proc]
    rfl
  have slot (i : SlotId) : c.dropTagDeadlines.waits.slot i = (c.slot i).dropTagDeadline := by
    rw [waiting]
    exact mapTable_get _ _ _
  have aborted := Aborted.abortForDrain c.dropTagDeadlines.waits
  have loading : c.dropTagDeadlines.waits.loading = g.loading := by
    rw [waiting, State.loading, State.loading]
    exact congrArg (fun l => Option.any (fun ld : Load => ld.area.isSome) l) load
  generalize c.dropTagDeadlines.waits = e at *
  have drain := aborted.drain _ (by rw [waiting])
  rw [loading] at drain
  generalize e.abortForDrain = f at *
  have idle' : f.mpu.intake = none := by rw [aborted.mpu, waiting]; exact idle
  have queue' : f.er.queue.length ≤ g.er.queue.length := by rw [aborted.er, waiting]; exact queue
  have emptied := Emptied.emptyQueue 17 idle'
  refine ⟨⟨emptied.within.idle idle', ?_, ?_, ?_, fun ld held => aborted.pending ld (emptied.pu ▸ held), ?_, fun i => ?_, ?_⟩,
    fun short => State.emptyQueue_nil 17 f (by omega)⟩
  · rw [emptied.within.port, aborted.mpu, waiting]
    exact port
  · rw [emptied.within.br, aborted.within.br, waiting]
    exact br
  · rw [emptied.within.settings, aborted.within.settings, waiting]
    exact settings
  · refine tells.trans (.trans (.ofEvents ?_) (aborted.tells.trans (.ofEvents emptied.events)))
    rw [waiting]
  · rw [State.slot_ofSlots emptied.slots, State.slot_ofSlots aborted.slots, slot, swept]
  · by_cases known : g.mpu.intake = none ∧ g.claimsWork ∧ g.er.queue.length ≤ 16
    · obtain ⟨none_, works, short⟩ := known
      obtain ⟨er, kept⟩ := work none_
      have counted := State.emptyQueue_reads 17 idle' (fun x member => by
        rw [aborted.ls, waiting] at member
        rw [State.line, aborted.ls, waiting]
        exact kept works x member) (by omega) drain
      refine ⟨_, counted.trans ?_, fun _ _ _ => rfl⟩
      have queue : f.er.queue = g.er.queue := by rw [aborted.er, waiting]; exact congrArg Er.queue er
      rw [queue]
      exact congrArg (fun n => Procedure.drain { g.newDrain with
        generations := (allSlots.map fun i => if (g.frame i).works then (g.frame i).endings else 0).sum
        waitFor := g.busyTags, loadAborted := g.loading, reads := n }) (Nat.zero_add _)
    · obtain ⟨n, ends⟩ := emptied.drain _ drain
      exact ⟨n, ends, fun a b c => absurd ⟨a, b, c⟩ known⟩

end

theorem exec_drainRestart {s : State} (on : s.snoops = true) (canonical : MemoriesOk s) (free : s.cru.proc = .none) :
    exec .drainRestart s = .next (shadowAfter s 12 (wordLanes 1)).startDrain.finish.finish := by
  have word := shadowAfter_commandWord canonical (v := 1) (by decide)
  show Host.Outcome.next (s.handOver (wordWrite commandOffset 1)) = _
  rw [State.handOver_command on, State.command_drain word,
    State.unlessRefused_free (s := shadowAfter s 12 (wordLanes 1)) free]

/-- Settles O46: step 2 slot by slot, then the load and the reads. -/
theorem drainStarts : Obligations.DrainStarts := by
  intro s on canonical free short
  rw [exec_drainRestart on canonical free]
  obtain ⟨started, empty⟩ := (shadowAfter s 12 (wordLanes 1)).startDrain_starts
  have frames (i : SlotId) := State.swept_frame (a := (shadowAfter s 12 (wordLanes 1)).accepts) rfl i
  have empty := empty short
  have swept (i : SlotId) : ((shadowAfter s 12 (wordLanes 1)).startDrain.frame i) =
      (shadowAfter s 12 (wordLanes 1)).accepts.swept.frame i := by
    rw [State.frame, started.slot]
    rfl
  obtain ⟨intake, port, br, settings, pending, tells, slot, reads, proc, counted⟩ := started
  rw [State.finish_again intake empty, State.finish_eq intake empty]
  generalize (shadowAfter s 12 (wordLanes 1)).startDrain = t at *
  refine ⟨_, rfl, ⟨_, proc, rfl, rfl, State.mem_busyTags s, rfl, rfl, s.loading_iff, ?_, fun none_ works =>
    counted none_ works short⟩, intake, empty, port.trans ?_, settings, br, pending, tells.drop, fun i => ⟨?_, ?_⟩⟩
  · refine congrArg List.sum (List.map_congr_left fun i _ => ?_)
    have works := (s.frame i).works_iff
    change (if (s.frame i).works = true then (s.frame i).endings else 0) = _
    unfold FrameRecord.endings
    dsimp only
    by_cases here : (s.frame i).works = true
    · cases (s.frame i).successor <;> simp only [here, if_true, works.mp here, true_and]
    · simp only [here, mt works.mpr here, false_and, if_false, Bool.false_eq_true]
  · unfold State.handsBack
    change (match s.mpu.intake with
      | none => shadowAfter s 12 (wordLanes 1)
      | some p => { shadowAfter s 12 (wordLanes 1) with
          mpu := { s.mpu with port := p.req :: s.mpu.port, intake := none, class3 := none } }).mpu.port = _
    cases s.mpu.intake <;> rfl
  · exact congrArg Slot.tagDeadline (slot i)
  · have frame : t.refreshReports.frame i = (shadowAfter s 12 (wordLanes 1)).accepts.swept.frame i := swept i
    obtain ⟨resolves, stays⟩ := frames i
    rw [← frame] at resolves stays
    have works := (s.frame i).works_iff
    change (s.frame i).works = true → ∃ x, FrameRecord.StepTwo s.clock (s.frame i) x ∧ x.Drained (t.refreshReports.frame i)
      at resolves
    change (s.frame i).works = false → t.refreshReports.frame i = s.frame i at stays
    generalize t.refreshReports.frame i = g at *
    dsimp only
    generalize s.frame i = f at *
    rw [← works]
    refine ⟨fun work last => ?_, fun waits last b => ?_, fun untagged last b => ?_, fun resolved last => ?_,
      fun n work clear going next => ?_, fun idle => stays ?_⟩
    · obtain ⟨x, two, drained⟩ := resolves work
      rw [two.stays drained last]
      exact ⟨two.state, two.generation, two.held, by rw [FrameRecord.ends, two.ended, two.held]⟩
    · obtain ⟨x, two, drained⟩ := resolves (works.mpr (.inl waits))
      rw [two.stays drained last]
      exact two.forced waits.1 b
    · obtain ⟨x, two, drained⟩ := resolves (works.mpr (.inr (.inl untagged)))
      rw [two.stays drained last]
      exact two.untagged untagged.1 b
    · obtain ⟨x, two, drained⟩ := resolves (works.mpr (.inr (.inr resolved)))
      rw [two.stays drained last]
      exact two.kept resolved
    · obtain ⟨x, two, drained⟩ := resolves work
      obtain ⟨state, generation, held, successor, pendingTag, untagged⟩ := two.replaced drained clear going next
      exact ⟨state, generation, held, successor, pendingTag, untagged⟩
    · rw [← Bool.not_eq_true, works]
      rintro (⟨state, -⟩ | ⟨state, some_⟩ | state)
      all_goals simp_all

end Sys2Proof.Machine
end

