-- ==== Sys2Proof/Proofs/BypassSlots.lean ====
section
/-! SUPPORT. The start of the bypass entry sequence on one slot (R42, R181): the bands, the completion and what follows it. -/

namespace Sys2Proof.Machine

/-! ### The outcomes -/

theorem State.inDrain_of_bypass {s : State} (on : s.inBypassEntry = true) : s.inDrain = false := by
  unfold State.inBypassEntry at on
  unfold State.inDrain
  cases proc : s.cru.proc <;> simp [proc] at on ⊢

/-- The record of a successor that the bypass entry sequence resolves UNTAGGED after a completion (R42). -/
structure FrameRecord.Succeeded (f : FrameRecord) (n : Successor) (g : FrameRecord) : Prop where
  generation : g.generation = f.generation + 1
  successor : g.successor = none
  pendingTag : g.pendingTag = none
  presented : g.presented.isSome = true
  beats : g.beats = n.beats
  eofSeen : g.eofSeen = n.eofSeen
  truncated : g.flags.truncated = !n.eofSeen
  untagged : ∀ b : BandId, (g.bands[b]).result.map BandResult.kind = some .untagged

/-- A slot whose record completes in the bypass entry sequence. -/
def Slot.completes (x : Slot) (expected tolerance : Nat) : Slot :=
  { x with frame := x.frame.completed expected tolerance true }

/-- What the completion test of the bypass entry sequence makes of a slot with a closed RESOLVED record. -/
structure Slot.Bypassed (x y : Slot) : Prop where
  stage : y.frame.state ≠ .tagged
  idle : x.frame.held ≠ 0 ∨ x.frame.ended = true → y = x
  completes : x.frame.held = 0 → x.frame.ended = false → x.frame.successor = none → x.pendingDesc = none →
    ∃ expected tolerance, y = x.completes expected tolerance
  applies : ∀ d, x.frame.held = 0 → x.frame.ended = false → x.frame.successor = none → x.pendingDesc = some d →
    ∃ expected tolerance, y = (x.completes expected tolerance).applied d
  succeeds : ∀ n, x.frame.held = 0 → x.frame.ended = false → x.frame.successor = some n →
    (n.held ≠ 0 → y.frame.state = .resolved ∧ y.frame.held = n.held) ∧
    (n.held = 0 → x.pendingDesc = none → y.frame.state = .complete ∧ y.frame.held = 0) ∧
    (n.held ≠ 0 ∨ x.pendingDesc = none → x.frame.Succeeded n y.frame)

/-! ### The test -/

section
variable {v : State} {i : SlotId}

theorem State.slot_completed_bypass (on : v.inBypassEntry = true) : (v.completed i).slot i =
    (v.slot i).completes (v.slot i).expected v.cru.settings.tolerance := by
  rw [State.slot_completed, on]
  rfl

/-- The test of the bypass entry sequence at a record that does not complete. -/
theorem Slot.Bypassed.ofIdle (resolved : (v.frame i).state = .resolved)
    (idle : (v.frame i).held ≠ 0 ∨ (v.frame i).ended = true) (n : Nat) :
    Slot.Bypassed (v.slot i) ((State.tryComplete n i v).slot i) := by
  rw [State.tryComplete_stays (.inr (idle.imp id .inl))]
  refine ⟨?_, fun _ => rfl, fun clear going => ?_, fun d clear going => ?_, fun n clear going => ?_⟩
  · rw [← State.frame, resolved]
    decide
  all_goals
    rw [← State.frame] at clear going
    simp [clear, going] at idle

theorem State.tryComplete_bypass_last (on : v.inBypassEntry = true) (resolved : (v.frame i).state = .resolved)
    (closed : (v.frame i).closed = true) (last : (v.frame i).successor = none) (n : Nat) :
    Slot.Bypassed (v.slot i) ((State.tryComplete (n + 1) i v).slot i) := by
  by_cases idle : (v.frame i).held ≠ 0 ∨ (v.frame i).ended = true
  · exact .ofIdle resolved idle _
  · have busy := idle
    simp only [not_or, not_not, Bool.not_eq_true] at busy
    obtain ⟨clear, going⟩ := busy
    have off := State.inDrain_of_bypass on
    have completed := State.slot_completed_bypass (i := i) on
    cases pending : (v.slot i).pendingDesc with
    | none =>
      rw [State.tryComplete_completes resolved clear going off closed last (.inr on) pending, completed]
      refine ⟨by simp [Slot.completes, FrameRecord.completed], fun h => absurd h idle, fun _ _ _ _ => ⟨_, _, rfl⟩,
        fun d _ _ _ h => ?_, fun n _ _ h => ?_⟩
      · rw [pending] at h
        cases h
      · rw [← State.frame, last] at h
        cases h
    | some d =>
      have applies : (State.tryComplete (n + 1) i v).slot i =
          ((v.slot i).completes (v.slot i).expected v.cru.settings.tolerance).applied d := by
        rw [State.tryComplete_closed resolved clear going off closed, State.afterComplete_last,
          State.applyPending_some (d := d), State.raise, State.raiseFor_slot, State.slot, State.applyDescriptor_slots,
          put_self, completed]
        · rw [completed]
          exact pending
        · rw [State.frame, completed]
          exact FrameRecord.completed_pendingTag (.inr rfl) _ _
        · rw [State.frame, completed]
          exact last
      rw [applies]
      refine ⟨?_, fun h => absurd h idle, fun _ _ _ h => ?_, fun e _ _ _ h => ?_, fun n _ _ h => ?_⟩
      · obtain ⟨-, -, -, -, -, freed, armed⟩ := Slot.applied_fields
          ((v.slot i).completes (v.slot i).expected v.cru.settings.tolerance) d
        cases d with
        | none =>
          rw [freed rfl]
          exact nofun
        | some w =>
          rw [(armed rfl).1]
          decide
      · rw [pending] at h
        cases h
      · rw [pending] at h
        cases h
        exact ⟨_, _, rfl⟩
      · rw [← State.frame, last] at h
        cases h

end

section
variable {u : State} {i : SlotId} {e : BandEvent} {k : ResKind} (settles : e.Settles k) (on : u.inBypassEntry = true)
  (tagged : (u.frame i).state = .tagged) (waits : (u.frame i).allResolved = false)
include settles on tagged waits

/-- The bands of a TAGGED record in the bypass entry sequence, with the test that follows. -/
theorem State.takeBands_bypass {complete : SlotId → State → State}
    (tests : ∀ v, AllSettled k i u v → v.inBypassEntry = true → (v.frame i).closed = true →
      Slot.Bypassed (v.slot i) ((complete i v).slot i)) :
    ∃ v, AllSettled k i u v ∧ (v.frame i).closed = true ∧
      (v.frame i).flags.truncated = ((u.frame i).flags.truncated || !(u.frame i).eofSeen) ∧
      Slot.Bypassed (v.slot i) ((u.takeBands complete e i).slot i) := by
  have test (v : State) (settled : AllSettled k i u v) := tests v settled (settled.taken.on.inBypassEntry.trans on)
    (settled.closed tagged waits (.inr on))
  obtain ⟨v, b, report, settled, -, taken⟩ := State.takeBands_last settles tagged waits
    (complete := complete) fun v settled => .inl (test v settled).stage
  refine ⟨v, settled, settled.closed tagged waits (.inr on), ?_, ?_⟩
  · rw [settled.truncated tagged waits, on, Bool.true_and]
  · rw [taken, State.slot_ofSlots (State.bandHanded_slots ..)]
    exact test v settled

end

theorem State.slot_beginGen (s : State) (i : SlotId) : (s.beginGen i).slot i = (s.slot i).begin :=
  State.slot_modSlot_self s i _

/-- The test of the bypass entry sequence. -/
theorem State.tryComplete_bypass {v : State} {i : SlotId} (on : v.inBypassEntry = true)
    (resolved : (v.frame i).state = .resolved) (closed : (v.frame i).closed = true) (n : Nat) :
    Slot.Bypassed (v.slot i) ((State.tryComplete (n + 2) i v).slot i) := by
  by_cases idle : (v.frame i).held ≠ 0 ∨ (v.frame i).ended = true
  · exact .ofIdle resolved idle _
  cases next : (v.frame i).successor with
  | none => exact State.tryComplete_bypass_last on resolved closed next _
  | some m =>
    have busy := idle
    simp only [not_or, not_not, Bool.not_eq_true] at busy
    obtain ⟨clear, going⟩ := busy
    have completed := State.slot_completed_bypass (i := i) on
    have proc := (OnFrames.completed v i).proc
    rw [State.tryComplete_closed resolved clear going (State.inDrain_of_bypass on) closed,
      State.afterComplete_bypass (n := m) _ _ _ _, State.enterUntagged_eq]
    rotate_left
    · rw [State.frame, completed]
      exact FrameRecord.completed_pendingTag (.inr rfl) _ _
    · rw [State.inBypassEntry, proc]
      exact on
    · rw [State.frame, completed]
      exact next
    generalize v.completed i = w at *
    have begun := w.slot_beginGen i
    rw [completed] at begun
    have proc' : (w.beginGen i).cru.proc = v.cru.proc := proc
    generalize w.clock = clock
    generalize w.beginGen i = w' at *
    obtain ⟨area, x, y, enters⟩ := w'.slot_entersUntagged i clock false
    obtain ⟨tagged, empty, waits⟩ := w'.entersUntagged_waits i clock false
    have on' : (w'.entersUntagged i clock false).inBypassEntry = true := by
      rw [State.inBypassEntry, w'.entersUntagged_proc, proc']
      exact on
    generalize w'.entersUntagged i clock false = u at *
    rw [State.frame, begun] at enters
    have fields : (u.slot i).pendingDesc = (v.slot i).pendingDesc ∧ (u.frame i).generation = (v.frame i).generation + 1 ∧
        (u.frame i).held = m.held ∧ (u.frame i).successor = none ∧ (u.frame i).pendingTag = none ∧
        (u.frame i).ended = false ∧ (u.frame i).presented.isSome = true ∧ (u.frame i).beats = m.beats ∧
        (u.frame i).eofSeen = m.eofSeen ∧ (u.frame i).flags.truncated = false := by
      rw [State.frame, enters]
      have next' : ((v.slot i).completes (v.slot i).expected v.cru.settings.tolerance).frame.successor = some m := next
      unfold Slot.begin FrameRecord.begin
      rw [next']
      exact ⟨rfl, rfl, rfl, rfl, rfl, rfl, rfl, rfl, rfl, rfl⟩
    obtain ⟨pending, generation, held, last, untagged, going', presented, beats, eof, truncated⟩ := fields
    obtain ⟨z, settled, -, truncated', bypassed⟩ := State.takeBands_bypass BandEvent.untagged_settles on' tagged waits
      (complete := State.tryComplete (n + 1)) fun z settled on closed =>
        State.tryComplete_bypass_last on settled.resolved closed (by rw [settled.frame]; exact last) n
    have rest := settled.frame
    obtain ⟨state, generation', held', bands⟩ := settled.outcome
    have kept : (z.slot i).pendingDesc = (v.slot i).pendingDesc := by
      rw [settled.taken.slot.rest]
      exact pending
    rw [truncated, eof, Bool.false_or] at truncated'
    have succeeded : (v.frame i).Succeeded m (z.frame i) := by
      refine ⟨generation'.trans generation, ?_, ?_, ?_, ?_, ?_, truncated', fun b => (bands b).2.2.2 (by rw [empty])⟩ <;>
        rw [rest]
      exacts [last, untagged, presented, beats, eof]
    have going'' : (z.frame i).ended = false := by rw [rest]; exact going'
    have last' : (z.frame i).successor = none := by rw [rest]; exact last
    refine ⟨bypassed.stage, fun h => absurd h idle, fun _ _ h => ?_, fun d _ _ h => ?_, fun k _ _ h => ?_⟩
    · rw [← State.frame, next] at h
      cases h
    · rw [← State.frame, next] at h
      cases h
    · rw [← State.frame, next] at h
      cases h
      have stays (busy : m.held ≠ 0) := bypassed.idle (.inl (by rw [← State.frame, held', held]; exact busy))
      have completes (empty : m.held = 0) (none_ : (v.slot i).pendingDesc = none) := bypassed.completes
        (held'.trans (held.trans empty)) going'' last' (kept.trans none_)
      refine ⟨fun busy => ?_, fun empty none_ => ?_, fun known => ?_⟩
      · rw [stays busy]
        exact ⟨state, held'.trans held⟩
      · obtain ⟨expected, tolerance, ends⟩ := completes empty none_
        rw [ends]
        exact ⟨rfl, held'.trans (held.trans empty)⟩
      · by_cases busy : m.held ≠ 0
        · rw [stays busy]
          exact succeeded
        · obtain ⟨expected, tolerance, ends⟩ := completes (not_not.mp busy) (known.resolve_left busy)
          obtain ⟨generation, successor, -, -, beats, eof, truncated, bands⟩ := succeeded
          rw [ends]
          exact ⟨generation, successor, rfl, rfl, beats, eof, truncated, bands⟩

end Sys2Proof.Machine
end

