-- ==== Sys2Proof/Proofs/BypassTwo.lean ====
section
/-! SUPPORT. Step 2 of the bypass entry sequence on a slot with work: its record, and its FRAME_DONE (R35, R36, R42). -/

namespace Sys2Proof.Machine

theorem ResKind.forced_silent : ResKind.forced.silent := ⟨nofun, nofun, nofun⟩
theorem ResKind.untagged_silent : ResKind.untagged.silent := ⟨nofun, nofun, nofun⟩

theorem State.testComplete_eq : State.testComplete = State.tryComplete (3 + 1) := rfl

theorem State.testComplete_bypass {v : State} {i : SlotId} (on : v.inBypassEntry = true)
    (resolved : (v.frame i).state = .resolved) (closed : (v.frame i).closed = true) :
    Slot.Bypassed (v.slot i) ((State.testComplete i v).slot i) := by
  rw [State.testComplete_eq]
  exact State.tryComplete_bypass on resolved closed 2

/-! ### The record -/

/-- What step 2 of the bypass entry sequence makes of a slot before its test. -/
structure Slot.BypassTwo (clock : Stamp) (a x : Slot) : Prop where
  two : FrameRecord.StepTwo clock a.frame x.frame
  truncated : x.frame.flags.truncated = (a.frame.flags.truncated || !a.frame.eofSeen)
  presented : x.frame.presented = a.frame.presented
  pendingDesc : x.pendingDesc = a.pendingDesc

section
variable {u : State} {i : SlotId} (on : u.inBypassEntry = true)
include on

theorem State.resolveSlot_bypass (works : (u.frame i).works = true)
    (closed : (u.frame i).state = .resolved → (u.frame i).closed = true) :
    ∃ x, Slot.BypassTwo u.clock (u.slot i) x ∧ x.Bypassed ((u.resolveSlot i).slot i) := by
  have test (v : State) (resolved : (v.frame i).state = .resolved) (on : v.inBypassEntry = true)
    (closed : (v.frame i).closed = true) := State.testComplete_bypass on resolved closed
  cases state : (u.frame i).state <;> simp only [FrameRecord.works, state] at works
  case tagged =>
    rw [State.resolveSlot_tagged state]
    obtain ⟨v, settled, -, truncated, bypassed⟩ := State.takeBands_bypass BandEvent.forced_settles on state
      (by simpa using works) fun v settled => test v settled.resolved
    refine ⟨v.slot i, ⟨.ofForced state settled u.clock, truncated, ?_, ?_⟩, bypassed⟩
    · rw [← State.frame, settled.frame, ← State.frame]
    · rw [settled.taken.slot.rest]
  case armed =>
    rw [State.resolveSlot_armed state]
    obtain ⟨area, x, y, enters⟩ := u.slot_entersUntagged i u.clock false
    obtain ⟨tagged, -, waits⟩ := u.entersUntagged_waits i u.clock false
    have proc := u.entersUntagged_proc i u.clock false
    have on' : (u.entersUntagged i u.clock false).inBypassEntry = true := by
      rw [State.inBypassEntry, proc]
      exact on
    obtain ⟨v, settled, -, truncated, bypassed⟩ := State.takeBands_bypass BandEvent.untagged_settles on' tagged waits
      fun v settled => test v settled.resolved
    have kept : ((u.entersUntagged i u.clock false).slot i).pendingDesc = (u.slot i).pendingDesc ∧
        ((u.entersUntagged i u.clock false).frame i).presented = (u.frame i).presented ∧
        ((u.entersUntagged i u.clock false).frame i).flags = (u.frame i).flags ∧
        ((u.entersUntagged i u.clock false).frame i).eofSeen = (u.frame i).eofSeen := by
      rw [State.frame, enters]
      exact ⟨rfl, rfl, rfl, rfl⟩
    obtain ⟨pending, presented, flags, eof⟩ := kept
    refine ⟨v.slot i, ⟨.ofUntagged state settled, ?_, ?_, ?_⟩, bypassed⟩
    · rw [flags, eof] at truncated
      exact truncated
    · rw [← State.frame, settled.frame]
      exact presented
    · rw [settled.taken.slot.rest]
      exact pending
  case resolved =>
    rw [State.resolveSlot_resolved state]
    refine ⟨u.slot i, ⟨.ofResolved state u.clock, ?_, rfl, rfl⟩, test u state on (closed state)⟩
    have closed := closed state
    rw [FrameRecord.closed] at closed
    rw [← State.frame]
    cases eof : (u.frame i).eofSeen <;> simp_all
  all_goals cases works

/-! ### FRAME_DONE -/

section
variable (clear : (u.frame i).held = 0) (going : (u.frame i).ended = false) (last : (u.frame i).successor = none)
  (kept : (u.slot i).pendingDesc = none) (free : u.pu.load = none) (room : u.cru.events.length < 16)
  (enabled : u.cru.settings.eventDisable.getLsbD 1 = false)
include clear going last kept free room enabled

theorem State.takeBands_frameDone {e : BandEvent} {k : ResKind} (settles : e.Settles k) (silent : k.silent)
    (tagged : (u.frame i).state = .tagged) (waits : (u.frame i).allResolved = false) :
    (u.takeBands State.testComplete e i).cru.events = u.cru.events ++
      [⟨((u.takeBands State.testComplete e i).frame i).doneEvent, u.cru.overflow, some (i, (u.frame i).generation),
        u.clock⟩] := by
  rw [State.testComplete_eq]
  obtain ⟨v, b, report, settled, none_, taken⟩ := State.takeBands_completes settles tagged waits clear going
    (State.inDrain_of_bypass on) (.inr on) last (.inr on) kept 3
  obtain ⟨-, cru⟩ := settled.calm silent free
  have handed (w : State) : (w.bandHanded i (u.frame i).generation b none).cru = w.cru := rfl
  have events := State.completed_events (s := v) (i := i) (by rw [cru]; exact room) (by rw [cru]; exact enabled)
  rw [taken, none_ silent, handed, State.frame, State.slot_ofSlots (State.bandHanded_slots ..), ← State.frame, events, cru,
    settled.taken.generation, settled.taken.on.clock]

theorem State.resolveSlot_frameDone (works : (u.frame i).works = true)
    (closed : (u.frame i).state = .resolved → (u.frame i).closed = true) :
    (u.resolveSlot i).cru.events = u.cru.events ++
      [⟨((u.resolveSlot i).frame i).doneEvent, u.cru.overflow, some (i, (u.frame i).generation), u.clock⟩] := by
  cases state : (u.frame i).state <;> simp only [FrameRecord.works, state] at works
  case tagged =>
    rw [State.resolveSlot_tagged state]
    exact State.takeBands_frameDone on clear going last kept free room enabled BandEvent.forced_settles
      ResKind.forced_silent state (by simpa using works)
  case armed =>
    rw [State.resolveSlot_armed state]
    obtain ⟨area, x, y, enters⟩ := u.slot_entersUntagged i u.clock false
    obtain ⟨tagged, -, waits⟩ := u.entersUntagged_waits i u.clock false
    obtain ⟨generation, held, ended, successor⟩ := u.entersUntagged_keeps i u.clock false
    have proc := u.entersUntagged_proc i u.clock false
    have clock : (u.entersUntagged i u.clock false).clock = u.clock := (OnSlot.entersUntagged u i u.clock false).within.clock
    have load := (Drains.entersUntagged u i u.clock).load
    have cru : (u.entersUntagged i u.clock false).cru = u.cru := by
      rw [State.entersUntagged, if_neg (by decide), State.caught_cru]
      rfl
    have pending : ((u.entersUntagged i u.clock false).slot i).pendingDesc = (u.slot i).pendingDesc := by rw [enters]
    generalize u.entersUntagged i u.clock false = w at *
    have done := State.takeBands_frameDone (u := w) (i := i) (by rw [State.inBypassEntry, proc]; exact on)
      (held.trans clear) (ended.trans going) (successor.trans last) (pending.trans kept) (load.trans free)
      (by rw [cru]; exact room) (by rw [cru]; exact enabled) BandEvent.untagged_settles ResKind.untagged_silent tagged waits
    rw [done, cru, generation, clock]
  case resolved =>
    rw [State.resolveSlot_resolved state, State.testComplete_eq, State.tryComplete_completes state clear going
      (State.inDrain_of_bypass on) (closed state) last (.inr on) kept]
    exact State.completed_events room enabled
  all_goals cases works

end

end

end Sys2Proof.Machine
end

