-- ==== Sys2Proof/Proofs/BypassRise.lean ====
section
/-! PROOF. The rising edge of BYPASS (R4, R42, R181): the start of the bypass entry sequence. -/

namespace Sys2Proof.Machine

/-- The state with the bypass entry sequence in progress, the open RESOLVED generations truncated (R42, R181). -/
def State.entersBypass (s : State) : State :=
  { s.setProc (.bypassEntry []) with slots := mapTable s.slots fun sl => { sl with frame := sl.frame.closeForBypass } }

theorem State.startBypassEntry_eq (s : State) : s.startBypassEntry = State.emptyQueue 17
    (s.entersBypass.swept.dropTagDeadlines.setProc (.bypassEntry s.entersBypass.swept.busyTags)) := rfl

theorem State.slot_entersBypass (s : State) (i : SlotId) :
    s.entersBypass.slot i = { s.slot i with frame := (s.frame i).closeForBypass } := mapTable_get _ _ _

/-- A record that may be truncated changes in that flag only (R42). -/
theorem FrameRecord.closeForBypass_eq (f : FrameRecord) :
    f.closeForBypass = { f with flags := { f.flags with truncated := f.closeForBypass.flags.truncated } } := by
  unfold FrameRecord.closeForBypass
  split <;> rfl

theorem FrameRecord.closeForBypass_closed {f : FrameRecord} (resolved : f.closeForBypass.state = .resolved) :
    f.closeForBypass.closed = true := by
  rw [f.closeForBypass_eq] at resolved
  unfold FrameRecord.closeForBypass FrameRecord.closed
  cases eof : f.eofSeen
  · rw [if_pos ⟨resolved, rfl⟩]
    rfl
  · rw [if_neg (by simp)]
    simp [eof]

theorem FrameRecord.closeForBypass_works (f : FrameRecord) : f.closeForBypass.works = f.works := by
  rw [f.closeForBypass_eq]
  rfl

theorem FrameRecord.closeForBypass_truncated (f : FrameRecord) :
    (f.closeForBypass.flags.truncated || !f.closeForBypass.eofSeen) = (f.flags.truncated || !f.eofSeen) := by
  unfold FrameRecord.closeForBypass
  split
  · next opened => simp [opened.2]
  · rfl

theorem FrameRecord.closeForBypass_unresolved {f : FrameRecord} (other : f.state ≠ .resolved) : f.closeForBypass = f :=
  if_neg fun opened => other opened.1

/-- A truncated record is told from the record before by the flag alone. -/
theorem Slot.BypassTwo.ofClosed {clock : Stamp} {sl x : Slot}
    (two : Slot.BypassTwo clock { sl with frame := sl.frame.closeForBypass } x) : Slot.BypassTwo clock sl x := by
  obtain ⟨step, truncated, presented, pending⟩ := two
  refine ⟨?_, truncated.trans sl.frame.closeForBypass_truncated, ?_, pending⟩
  · dsimp only at step
    rw [sl.frame.closeForBypass_eq] at step
    exact ⟨step.state, step.generation, step.held, step.ended, step.successor, step.forced, step.untagged, step.kept⟩
  · rw [presented, sl.frame.closeForBypass_eq]

/-- Step 2 of the bypass entry sequence, slot by slot. -/
theorem State.swept_bypass (s : State) (i : SlotId) :
    ((s.frame i).works = true → ∃ x, Slot.BypassTwo s.clock (s.slot i) x ∧
      x.Bypassed (s.entersBypass.swept.slot i)) ∧
      ((s.frame i).works = false → s.entersBypass.swept.slot i = s.entersBypass.slot i) := by
  obtain ⟨stays, meets⟩ := s.entersBypass.swept_slot i
  have works : (s.entersBypass.frame i).works = (s.frame i).works := by
    rw [State.frame, s.slot_entersBypass]
    exact (s.frame i).closeForBypass_works
  have on : s.entersBypass.cancelPresented.inBypassEntry = true := by
    rw [State.inBypassEntry, s.entersBypass.cancelPresented_cru]
    rfl
  rw [← works]
  refine ⟨fun works => ?_, fun idle => ?_⟩
  · obtain ⟨u, before, same, last⟩ := meets (State.hasWork_of_works works)
    have frame : u.frame i = s.entersBypass.frame i := congrArg Slot.frame same
    have clock : u.clock = s.clock := before.within.clock.trans s.entersBypass.cancelPresented_clock
    obtain ⟨x, two, bypassed⟩ := State.resolveSlot_bypass (u := u) (i := i) (before.within.inBypassEntry.trans on)
      (by rw [frame]; exact works) fun resolved => by
        rw [frame, State.frame, s.slot_entersBypass] at resolved ⊢
        exact FrameRecord.closeForBypass_closed resolved
    rw [same, clock, s.slot_entersBypass] at two
    rw [← last] at bypassed
    exact ⟨x, two.ofClosed, bypassed⟩
  · cases visited : s.entersBypass.hasWork i with
    | false => exact stays visited
    | true =>
      obtain ⟨u, before, same, last⟩ := meets visited
      have frame : u.frame i = s.entersBypass.frame i := congrArg Slot.frame same
      rw [last, State.resolveSlot_idle (by rw [State.hasWork, frame]; exact visited) (by rw [frame]; exact idle)]
      exact same

/-! ### One slot with work -/

theorem State.forSlots_one (s : State) {p : SlotId → Bool} {i : SlotId} (here : p i = true)
    (only : ∀ j, j ≠ i → p j = false) (f : State → SlotId → State) : s.forSlots p f = f s i := by
  have one : allSlots.filter p = [i] := by
    have same : p = fun j => decide (j = i) := by
      funext j
      by_cases eq : j = i
      · rw [eq, here]
        simp
      · rw [only j eq]
        simp [eq]
    rw [same]
    clear same here only
    revert i
    decide
  unfold State.forSlots State.slotOrder
  rw [one]
  rfl

theorem State.hasWork_off {s : State} {j : SlotId} (untagged : (s.frame j).state ≠ .tagged)
    (idle : (s.frame j).works = false) : s.hasWork j = false := by
  unfold FrameRecord.works at idle
  unfold State.hasWork
  cases state : (s.frame j).state <;> simp_all

/-- FRAME_DONE of the slot that alone has work (R36). -/
theorem State.swept_frameDone {s : State} {i : SlotId} (works : (s.frame i).works = true) (clear : (s.frame i).held = 0)
    (going : (s.frame i).ended = false) (last : (s.frame i).successor = none) (kept : (s.slot i).pendingDesc = none)
    (alone : ∀ j, j ≠ i → s.hasWork j = false) (free : s.pu.load = none) (room : s.cru.events.length < 16)
    (enabled : s.cru.settings.eventDisable.getLsbD 1 = false) : s.entersBypass.swept.cru.events = s.cru.events ++
      [⟨(s.entersBypass.swept.frame i).doneEvent, s.cru.overflow, some (i, (s.frame i).generation), s.clock⟩] := by
  have cru := s.entersBypass.cancelPresented_cru
  have slot := (s.entersBypass.cancelPresented_slot i).trans (s.slot_entersBypass i)
  have clock : s.entersBypass.cancelPresented.clock = s.clock := s.entersBypass.cancelPresented_clock
  have pu : s.entersBypass.cancelPresented.pu = s.pu :=
    (OnReads.cancelPresented s.entersBypass).pu.trans s.entersBypass.handsBack_same.2.2.1
  have visits (j : SlotId) : s.entersBypass.cancelPresented.hasWork j = s.hasWork j := by
    rw [State.cancelPresented_hasWork, State.hasWork, State.frame, s.slot_entersBypass, FrameRecord.closeForBypass_eq]
    rfl
  have frame : s.entersBypass.cancelPresented.frame i = (s.frame i).closeForBypass := congrArg Slot.frame slot
  have fields := (s.frame i).closeForBypass_eq
  rw [State.swept, State.forSlots_one (i := i) _ ((visits i).trans (State.hasWork_of_works works))
    fun j other => (visits j).trans (alone j other)]
  generalize s.entersBypass.cancelPresented = u at *
  have done := State.resolveSlot_frameDone (u := u) (i := i) (by rw [State.inBypassEntry, cru]; rfl)
    (by rw [frame, fields]; exact clear) (by rw [frame, fields]; exact going) (by rw [frame, fields]; exact last)
    (by rw [slot]; exact kept) (by rw [pu]; exact free) (by rw [cru]; exact room) (by rw [cru]; exact enabled)
    (by rw [frame, FrameRecord.closeForBypass_works]; exact works)
    (fun resolved => by rw [frame] at resolved ⊢; exact FrameRecord.closeForBypass_closed resolved)
  have generation : (u.frame i).generation = (s.frame i).generation := by rw [frame, fields]
  rw [done, generation, clock, cru]
  rfl

/-! ### The start -/

/-- The part at the start of the bypass entry sequence. -/
structure State.BypassStarted (s t : State) : Prop where
  bypass : t.pins.bypass = s.pins.bypass
  intake : t.mpu.intake = none
  port : t.mpu.port = s.handsBack.mpu.port
  slot : ∀ i, t.slot i = (s.entersBypass.swept.slot i).dropTagDeadline
  proc : ∃ l, t.cru.proc = .bypassEntry l ∧ ∀ e : DownTag, e ∈ l ↔ (s.mpu.outstanding[e]).isSome = true
  events : t.cru.events = s.entersBypass.swept.cru.events
  queue : s.er.queue.length ≤ 16 → t.er.queue = []

theorem State.startBypassEntry_starts (s : State) : State.BypassStarted s s.startBypassEntry := by
  have cancelled := OnReads.cancelPresented s.entersBypass
  have two := s.entersBypass.swept_stepTwo
  have busy : s.entersBypass.swept.busyTags = s.busyTags := s.entersBypass.swept_busyTags
  obtain ⟨-, -, -, -, -, -, -, er, -⟩ := s.entersBypass.handsBack_same
  have idle : s.entersBypass.swept.mpu.intake = none :=
    two.within.idle (cancelled.intake.trans s.entersBypass.handsBack_intake)
  have port : s.entersBypass.swept.mpu.port = s.handsBack.mpu.port := by
    rw [two.within.port, cancelled.within.port]
    unfold State.handsBack State.entersBypass
    cases intake : s.mpu.intake <;> simp only [State.setProc, intake]
  have pins : s.entersBypass.swept.pins = s.pins := by
    rw [two.within.pins, cancelled.within.pins]
    unfold State.handsBack
    split <;> rfl
  have queue : s.entersBypass.swept.er.queue.length ≤ s.er.queue.length := by
    refine Nat.le_trans (two.er ▸ cancelled.within.queue) ?_
    rw [er]
    exact Nat.le_refl _
  rw [State.startBypassEntry_eq, busy]
  have emptied := Emptied.emptyQueue 17
    (s := s.entersBypass.swept.dropTagDeadlines.setProc (.bypassEntry s.busyTags)) idle
  have empty := State.emptyQueue_nil 17 (s.entersBypass.swept.dropTagDeadlines.setProc (.bypassEntry s.busyTags))
  refine ⟨?_, emptied.within.idle idle, emptied.within.port.trans port, fun i => ?_, ⟨s.busyTags, ?_, s.mem_busyTags⟩,
    emptied.events, fun short => empty (Nat.le_trans queue (by omega))⟩
  · rw [emptied.within.pins]
    exact congrArg Pins.bypass pins
  · rw [State.slot_ofSlots emptied.slots]
    exact mapTable_get _ _ _
  · have core := emptied.within.proc
    have waits := emptied.within.waits
    generalize State.emptyQueue 17 _ = t at *
    change t.cru.proc.core = (2, none) at core
    change t.waitFor = s.busyTags at waits
    unfold State.waitFor at waits
    cases proc : t.cru.proc <;> rw [proc] at core waits
    · cases core
    · cases core
    · rw [← waits]

/-- What the start makes of the record of a slot. -/
theorem State.BypassStarted.taken {s t : State} (started : State.BypassStarted s t) (i : SlotId) : BypassTaken s t i := by
  obtain ⟨resolves, stays⟩ := s.swept_bypass i
  have slot := started.slot i
  have works := (s.frame i).works_iff
  have deadline : (t.slot i).tagDeadline = none := by rw [slot]; rfl
  have frame : t.frame i = (s.entersBypass.swept.slot i).frame := by rw [State.frame, slot]; rfl
  have committed : (t.slot i).committed = (s.entersBypass.swept.slot i).committed := by rw [slot]; rfl
  have pending : (t.slot i).pendingDesc = (s.entersBypass.swept.slot i).pendingDesc := by rw [slot]; rfl
  have idle (none_ : (s.frame i).works = false) (other : (s.frame i).state ≠ .resolved) :
      (s.entersBypass.swept.slot i).frame = s.frame i := by
    rw [stays none_, s.slot_entersBypass]
    exact FrameRecord.closeForBypass_unresolved other
  unfold BypassTaken
  dsimp only
  rw [frame, committed, pending, ← works]
  generalize s.entersBypass.swept.slot i = y at *
  have bands (work : (s.frame i).works = true) (known : (s.frame i).held ≠ 0 ∨ (((s.frame i).held = 0 ∧
      (s.frame i).ended = false) ∧ (s.frame i).successor = none ∧ (s.slot i).pendingDesc = none)) :
      ∃ x, FrameRecord.StepTwo s.clock (s.frame i) x ∧ y.frame.bands = x.bands := by
    obtain ⟨x, two, bypassed⟩ := resolves work
    refine ⟨x.frame, two.two, ?_⟩
    rcases known with held | ⟨⟨clear, going⟩, last, kept⟩
    · rw [bypassed.idle (.inl (two.two.held.trans_ne held))]
    · obtain ⟨expected, tolerance, ends⟩ := bypassed.completes (two.two.held.trans clear) (two.two.ended.trans going)
        (two.two.successor.trans last) (two.pendingDesc.trans kept)
      rw [ends]
      rfl
  refine ⟨deadline, fun stay => ?_, fun work held => ?_, fun waits known b => ?_, fun untagged known b => ?_,
    fun resolved known => ?_, fun work ends last kept => ?_, fun d work ends last kept => ?_, fun n work ends next => ?_⟩
  · refine idle ?_ (by rcases stay with h | h | h <;> simp [h])
    rw [← Bool.not_eq_true, works]
    rintro (⟨state, -⟩ | ⟨state, some_⟩ | state)
    all_goals simp_all
  · obtain ⟨x, two, bypassed⟩ := resolves work
    rw [bypassed.idle (.inl (two.two.held.trans_ne held))]
    exact ⟨two.two.state, two.two.generation, two.two.held, two.truncated, two.presented, two.two.successor⟩
  · obtain ⟨x, two, same⟩ := bands (works.mpr (.inl waits)) known
    rw [same]
    exact two.forced waits.1 b
  · obtain ⟨x, two, same⟩ := bands (works.mpr (.inr (.inl untagged))) known
    rw [same]
    exact two.untagged untagged.1 b
  · obtain ⟨x, two, same⟩ := bands (works.mpr (.inr (.inr resolved))) known
    rw [same]
    exact two.kept resolved
  · obtain ⟨x, two, bypassed⟩ := resolves work
    obtain ⟨expected, tolerance, done⟩ := bypassed.completes (two.two.held.trans ends.1) (two.two.ended.trans ends.2)
      (two.two.successor.trans last) (two.pendingDesc.trans kept)
    rw [done]
    exact ⟨rfl, two.two.generation, rfl, two.truncated, rfl⟩
  · obtain ⟨x, two, bypassed⟩ := resolves work
    obtain ⟨expected, tolerance, done⟩ := bypassed.applies d (two.two.held.trans ends.1) (two.two.ended.trans ends.2)
      (two.two.successor.trans last) (two.pendingDesc.trans kept)
    obtain ⟨applied, none_, -, -, presented, freed, armed⟩ := (x.completes expected tolerance).applied_fields d
    have generation : (x.completes expected tolerance).frame.generation = (s.frame i).generation := two.two.generation
    rw [generation] at armed
    rw [done]
    refine ⟨applied, none_, presented, fun none_ => ?_, armed⟩
    rw [freed none_]
    exact ⟨rfl, generation⟩
  · obtain ⟨x, two, bypassed⟩ := resolves work
    obtain ⟨stays, completes, succeeded⟩ := bypassed.succeeds n (two.two.held.trans ends.1) (two.two.ended.trans ends.2)
      (two.two.successor.trans next)
    rw [two.pendingDesc] at completes succeeded
    refine ⟨stays, completes, fun known => ?_⟩
    obtain ⟨generation, successor, pendingTag, presented, beats, eof, truncated, bands⟩ := succeeded known
    exact ⟨generation.trans (congrArg (· + 1) two.two.generation), successor, pendingTag, presented, beats, eof, truncated,
      bands⟩

/-- The rising edge outside a procedure (R181). -/
theorem exec_bypassRise {s : State} (low : s.pins.bypass = false) (live : s.pins.resetN = true)
    (free : s.cru.proc = .none) : exec .bypassRise s = .next (s.setBypass true).startBypassEntry.finish := by
  have idle : (s.setBypass true).inProcedure = false := by simp [State.inProcedure, State.setBypass, free]
  have lives : (s.setBypass true).pins.resetN = true := live
  show Host.Outcome.next (if s.pins.bypass = true then s else (s.setBypass true).whenLive fun s =>
    if s.inProcedure = true then s else s.startBypassEntry.finish) = _
  rw [low, if_neg (by decide), State.whenLive, if_pos lives, idle, if_neg (by decide)]

/-- During pin reset and a procedure only the level changes. -/
theorem exec_bypassRise_off {s : State} (low : s.pins.bypass = false) (off : s.pins.resetN = false ∨ s.cru.proc ≠ .none) :
    exec .bypassRise s = .next (s.setBypass true) := by
  show Host.Outcome.next (if s.pins.bypass = true then s else (s.setBypass true).whenLive fun s =>
    if s.inProcedure = true then s else s.startBypassEntry.finish) = _
  rw [low, if_neg (by decide), State.whenLive]
  rcases off with dead | busy
  · rw [if_neg (by rw [show (s.setBypass true).pins.resetN = s.pins.resetN from rfl, dead]; decide)]
  · have busy' : (s.setBypass true).inProcedure = true := by simp [State.inProcedure, State.setBypass, busy]
    rw [busy', if_pos rfl, ite_self]

/-- Settles O18: step 2 slot by slot, with FRAME_DONE of a slot that alone has work. -/
theorem bypassRiseStartsEntry : Obligations.BypassRiseStartsEntry := by
  intro s
  refine ⟨fun low live free short => ?_, fun low off => ?_, fun high => ?_⟩
  · rw [exec_bypassRise low live free]
    have started := (s.setBypass true).startBypassEntry_starts
    have empty := started.queue short
    have done (i : SlotId) := State.swept_frameDone (s := s.setBypass true) (i := i)
    rw [State.finish_eq started.intake empty]
    have taken (i : SlotId) := started.taken i
    obtain ⟨bypass, intake, port, slot, proc, events, -⟩ := started
    have frame (i : SlotId) : (s.setBypass true).entersBypass.swept.frame i = (s.setBypass true).startBypassEntry.frame i := by
      rw [State.frame, State.frame, slot]
      rfl
    generalize (s.setBypass true).startBypassEntry = t at *
    refine ⟨_, rfl, bypass, intake, empty, proc, port.trans ?_, taken, fun i => ?_⟩
    · unfold State.handsBack
      change (match s.mpu.intake with
        | none => s.setBypass true
        | some p => { s.setBypass true with
            mpu := { s.mpu with port := p.req :: s.mpu.port, intake := none, class3 := none } }).mpu.port = _
      cases s.mpu.intake <;> rfl
    · intro f g working work clear going last kept alone none_ room enabled
      have told := done i ((s.frame i).works_iff.mpr work) clear going last kept (fun j other => ?_) none_ room enabled
      · rw [← events, frame] at told
        exact ⟨[], (List.append_nil _).trans told.symm⟩
      · obtain ⟨untagged, idle⟩ := alone j other
        exact State.hasWork_off (s := s) untagged (Bool.not_eq_true _ ▸ mt (s.frame j).works_iff.mp idle)
  · exact exec_bypassRise_off low off
  · show Host.Outcome.next (if s.pins.bypass = true then s else _) = _
    rw [high, if_pos rfl]

end Sys2Proof.Machine
end

