-- ==== Sys2Proof/Proofs/DrainEnd.lean ====
section
/-! PROOF. The end of a drain (R117, R180): what step 4 clears, the pending descriptors, and DRAIN_DONE. -/

namespace Sys2Proof.Machine

/-! ### Events one after the other -/

/-- The records of events that are raised in turn, with no slot (R182). -/
def recordsOf (overflow : Bool) (clock : Stamp) : List Event → List EventRecord
  | [] => []
  | e :: es => { event := e, overflow := overflow, slot := none, stamp := clock } :: recordsOf false clock es

theorem recordsOf_append (overflow : Bool) (clock : Stamp) (es es' : List Event) : recordsOf overflow clock (es ++ es') =
    recordsOf overflow clock es ++ recordsOf (overflow && es.isEmpty) clock es' := by
  induction es generalizing overflow with
  | nil => simp [recordsOf]
  | cons e es ih => simp [recordsOf, ih]

theorem recordsOf_length (overflow : Bool) (clock : Stamp) (es : List Event) :
    (recordsOf overflow clock es).length = es.length := by
  induction es generalizing overflow with
  | nil => rfl
  | cons e es ih => simp [recordsOf, ih]

/-- The record with the number 0 tells of the overflow. -/
theorem recordsOf_zipIdx (overflow : Bool) (clock : Stamp) (es : List Event) (n : Nat) : (es.zipIdx n).map (fun (e, k) =>
    ({ event := e, overflow := overflow && k == 0, slot := none, stamp := clock } : EventRecord)) =
      recordsOf (overflow && n == 0) clock es := by
  induction es generalizing n with
  | nil => rfl
  | cons e es ih =>
    rw [List.zipIdx_cons, List.map_cons, ih]
    simp [recordsOf]

/-- From `s` to `t` the events join the Event Queue in turn, when it has room for them. -/
def Records (es : List Event) (s t : State) : Prop :=
  t.clock = s.clock ∧ t.cru.settings = s.cru.settings ∧ (s.cru.events.length + es.length ≤ 16 →
    t.cru.events = s.cru.events ++ recordsOf s.cru.overflow s.clock es ∧
      t.cru.overflow = (s.cru.overflow && es.isEmpty))

theorem Records.refl (s : State) : Records [] s s := ⟨rfl, rfl, fun _ => by simp [recordsOf]⟩

theorem Records.trans {es es' : List Event} {s t u : State} (a : Records es s t) (b : Records es' t u) :
    Records (es ++ es') s u := by
  obtain ⟨clock, settings, joins⟩ := a
  obtain ⟨clock', settings', joins'⟩ := b
  refine ⟨clock'.trans clock, settings'.trans settings, fun room => ?_⟩
  rw [List.length_append] at room
  obtain ⟨events, overflow⟩ := joins (by omega)
  obtain ⟨events', overflow'⟩ := joins' (by rw [events, List.length_append, recordsOf_length]; omega)
  refine ⟨?_, ?_⟩
  · rw [events', events, overflow, clock, recordsOf_append, List.append_assoc]
  · rw [overflow', overflow]
    cases es <;> simp

theorem Records.raise {s : State} {e : Event} (enabled : s.cru.settings.eventDisable.getLsbD e.code = false) :
    Records [e] s (s.raise e) := by
  refine ⟨State.raiseFor_clock s none e, State.raiseFor_settings s none e, fun room => ?_⟩
  rw [List.length_singleton] at room
  rw [State.raise, State.raiseFor_joins enabled (by omega)]
  simp [recordsOf]

theorem Records.raise_disabled {s : State} {e : Event} (disabled : s.cru.settings.eventDisable.getLsbD e.code = true) :
    Records [] s (s.raise e) := by
  rw [State.raise, State.raiseFor_disabled disabled]
  exact .refl s

theorem Records.ofCru {s t : State} (clock : t.clock = s.clock) (cru : t.cru = s.cru) : Records [] s t :=
  ⟨clock, by rw [cru], fun _ => by simp [recordsOf, cru]⟩

theorem Records.setProc {es : List Event} {s t : State} (records : Records es s t) (p : Procedure) :
    Records es s (t.setProc p) := records

/-! ### The pending descriptors (R180) -/

theorem State.slot_applyPending_none {s : State} {i : SlotId} (kept : (s.slot i).pendingDesc = none) :
    (s.applyPending i).slot i = s.slot i := by
  rw [State.applyPending_none kept]

theorem State.slot_applyPending_some {s : State} {i : SlotId} {d : Option Window} (pending : (s.slot i).pendingDesc = some d) :
    (s.applyPending i).slot i = (s.slot i).applied d := by
  rw [State.applyPending_some pending, State.raise, State.raiseFor_slot, State.slot, State.applyDescriptor_slots, put_self]

/-- What the pending descriptors of whatever slots keep. -/
structure Applies (s t : State) : Prop where
  within : Within s t
  proc : t.cru.proc = s.cru.proc
  invalid : (∀ i, s.line i = .invalid) → ∀ i, t.line i = .invalid

theorem Applies.refl (s : State) : Applies s s := ⟨.refl s, rfl, id⟩

theorem Applies.trans {s t u : State} (a : Applies s t) (b : Applies t u) : Applies s u :=
  ⟨a.within.trans b.within, b.proc.trans a.proc, fun h => b.invalid (a.invalid h)⟩

theorem State.applyDescriptor_invalid {s : State} (invalid : ∀ i, s.line i = .invalid) (i : SlotId) (d : Option Window)
    (x : LineIdx) : (s.applyDescriptor i d).line x = .invalid := by
  have dropped (t : State) (same : t.ls.lines = s.ls.lines) (w : Option Window) :
      (t.mapLines (LineRec.dropClean i w)).line x = .invalid := by
    have here : t.ls.lines[x] = .invalid := by
      rw [same]
      exact invalid x
    rw [State.line, State.mapLines_ls, mapTable_get, here]
    rfl
  unfold State.applyDescriptor
  cases d <;> exact dropped _ rfl _

theorem Applies.applyPending (s : State) (i : SlotId) : Applies s (s.applyPending i) := by
  cases pending : (s.slot i).pendingDesc with
  | none =>
    rw [State.applyPending_none pending]
    exact .refl s
  | some d =>
    refine ⟨.applyPending s i, ?_, fun invalid x => ?_⟩ <;> rw [State.applyPending_some pending, State.raise]
    · rw [State.raiseFor_proc, State.applyDescriptor_cru]
    · rw [State.raiseFor_line]
      exact State.applyDescriptor_invalid invalid i d x

theorem sweeps_applyPending : Sweeps State.applyPending Applies where
  refl := .refl
  trans := .trans
  free := fun s n => ⟨.ofFree s n, rfl, id⟩
  step := .applyPending
  other := fun u i j other => (OnSlot.applyPending u i).other j other

/-- A COMMIT_APPLIED of its own for each slot with a pending descriptor. -/
def State.pendingEvents (s : State) (l : List SlotId) : List Event :=
  if s.cru.settings.eventDisable.getLsbD 14 = false then
    (l.filter fun i => (s.slot i).pendingDesc.isSome).map fun i => .commitApplied [i] [] []
  else []

theorem Records.applyPending (s : State) (i : SlotId) : Records (s.pendingEvents [i]) s (s.applyPending i) := by
  unfold State.pendingEvents
  cases pending : (s.slot i).pendingDesc with
  | none =>
    rw [State.applyPending_none pending, List.filter_cons, pending]
    simpa using Records.refl s
  | some d =>
    rw [State.applyPending_some pending, List.filter_cons, pending]
    have clock : (s.applyDescriptor i d).clock = s.clock := by rw [State.clock, State.applyDescriptor_ssu, State.clock]
    have applied : Records [] s (s.applyDescriptor i d) := .ofCru clock (State.applyDescriptor_cru s i d)
    have settings : (s.applyDescriptor i d).cru.settings = s.cru.settings := by rw [State.applyDescriptor_cru]
    cases disabled : s.cru.settings.eventDisable.getLsbD 14 with
    | false => exact applied.trans (.raise (e := .commitApplied [i] [] []) (by rw [settings]; exact disabled))
    | true => exact applied.trans (.raise_disabled (e := .commitApplied [i] [] []) (by rw [settings]; exact disabled))

theorem Records.applyPendings (l : List SlotId) : ∀ s : State, l.Nodup →
    Records (s.pendingEvents l) s (l.foldl State.applyPending s) := by
  induction l with
  | nil =>
    intro s _
    have none_ : s.pendingEvents [] = [] := by
      unfold State.pendingEvents
      split <;> rfl
    rw [none_]
    exact .refl s
  | cons i l ih =>
    intro s once
    obtain ⟨fresh, once⟩ := List.nodup_cons.mp once
    have split_ : s.pendingEvents (i :: l) = s.pendingEvents [i] ++ (s.applyPending i).pendingEvents l := by
      have same : l.filter (fun j => ((s.applyPending i).slot j).pendingDesc.isSome) =
          l.filter fun j => (s.slot j).pendingDesc.isSome := List.filter_congr fun j member => by
        rw [(OnSlot.applyPending s i).other j fun h => fresh (h ▸ member)]
      unfold State.pendingEvents
      rw [(Within.applyPending s i).settings, same]
      split
      · rw [← List.map_append, ← List.filter_append]
        rfl
      · rfl
    rw [split_]
    exact (Records.applyPending s i).trans (ih _ once)

/-! ### The loads at DRAIN_DONE (R117) -/

theorem OnFrames.setLoad (s : State) (l : Option Load) (short : Load.short s.pu.load → Load.short l) :
    OnFrames s (s.setLoad l) := ⟨.setLoad s l short, rfl, rfl, rfl, rfl, rfl, rfl, rfl⟩

theorem OnFrames.triggerLoad (s : State) (target : LensIdentity) : OnFrames s (s.triggerLoad target) := by
  unfold State.triggerLoad
  refine .trans (.trans ?_ (.evalMode _ _)) (.startPending _)
  exact .setLoad s _ fun _ => Load.short_some (by simp [Load.pendingFor])

theorem OnFrames.failLoad (s : State) (reason : LoadReason) (check : Option FormatCheck) (block : Nat) :
    OnFrames s (s.failLoad reason check block) := by
  refine ⟨.failLoad s reason check block, ?_, ?_, ?_, ?_, ?_, ?_, ?_⟩ <;> rw [State.failLoad_eq]

theorem State.triggerLoad_slots (s : State) (target : LensIdentity) : (s.triggerLoad target).slots = s.slots := by
  rw [State.triggerLoad, State.startPending_slots, State.evalMode_slots]
  rfl

theorem OnFrames.resumeLoads (s : State) (aborted : Bool) :
    OnFrames s (s.resumeLoads aborted) ∧ (s.resumeLoads aborted).slots = s.slots := by
  have same : OnFrames s s ∧ s.slots = s.slots := ⟨.refl s, rfl⟩
  unfold State.resumeLoads
  cases s.pu.load with
  | some ld =>
    dsimp only
    split
    · exact same
    · split
      · exact ⟨.startPending s, s.startPending_slots⟩
      · exact ⟨.failLoad s _ _ _, s.failLoad_slots _ _ _⟩
  | none =>
    cases s.llc.identified with
    | none => exact same
    | some l =>
      dsimp only
      split
      · exact ⟨.triggerLoad s l, s.triggerLoad_slots l⟩
      · exact same

/-! ### Step 4 -/

theorem Slot.rearm_fields (sl : Slot) : sl.rearm.collection = emptyCollection ∧ sl.rearm.invalidReported = false ∧
    sl.rearm.pendingDesc = sl.pendingDesc ∧ sl.rearm.frame.presented = none ∧ sl.rearm.committed = sl.committed ∧
    (sl.committed.isSome = true → sl.rearm.frame.state = .armed ∧
      sl.rearm.frame.generation = sl.frame.generation + 1) := by
  unfold Slot.rearm
  cases committed : sl.committed with
  | none => exact ⟨rfl, rfl, rfl, rfl, rfl, nofun⟩
  | some w => exact ⟨rfl, rfl, rfl, rfl, rfl, fun _ => ⟨rfl, rfl⟩⟩

theorem Slot.applied_invalidReported {sl : Slot} (clear : sl.invalidReported = false) (d : Option Window) :
    (sl.applied d).invalidReported = false := by
  cases d
  · exact clear
  · rfl

theorem State.clearWork_fields (s : State) : (∀ i, s.clearWork.slot i = (s.slot i).rearm) ∧
    (∀ i, s.clearWork.line i = .invalid) ∧ s.clearWork.cru = s.cru ∧ s.clearWork.pins = s.pins ∧ s.clearWork.er = s.er ∧
    s.clearWork.mpu = s.mpu ∧ s.clearWork.br = { s.br with history := [] } ∧
    s.clearWork.ssu = { s.ssu with exposures := [] } ∧ s.clearWork.llc = { s.llc with focusRef := none } :=
  ⟨fun _ => mapTable_get _ _ _, fun _ => mapTable_get _ _ _, rfl, rfl, rfl, rfl, rfl, rfl, rfl⟩

theorem Ssu.emptied {a b : Ssu} (clock : b.clock = a.clock) (prescaler : b.prescaler = a.prescaler)
    (strobe : b.strobe = a.strobe) (exposures : b.exposures <:+ []) : b = { a with exposures := [] } := by
  cases b
  simp_all

/-- The slots after the pending descriptors have applied. -/
theorem State.applyAllPending_slot (s : State) (i : SlotId) :
    ((s.slot i).pendingDesc = none → s.applyAllPending.slot i = s.slot i) ∧
    (∀ d, (s.slot i).pendingDesc = some d → s.applyAllPending.slot i = (s.slot i).applied d) := by
  obtain ⟨-, each⟩ := sweeps_applyPending.foldl allSlots allSlots_nodup s
  obtain ⟨u, -, same, -, last⟩ := (each i).2 (mem_allSlots i)
  rw [← same]
  refine ⟨fun kept => last.trans (State.slot_applyPending_none kept), fun d pending =>
    last.trans (State.slot_applyPending_some pending)⟩

theorem Applies.applyAllPending (s : State) : Applies s s.applyAllPending :=
  (sweeps_applyPending.foldl allSlots allSlots_nodup s).1

theorem Records.applyAllPending (s : State) : Records (s.pendingEvents allSlots) s s.applyAllPending := by
  unfold State.applyAllPending
  exact .applyPendings allSlots s allSlots_nodup

/-- The part after step 4 and DRAIN_DONE, no procedure in progress. -/
def State.drainDone (s : State) (d : Drain) : State := (s.clearWork.applyAllPending.raise d.doneEvent).setProc .none

theorem State.finishDrain_low {s : State} (low : s.pins.bypass = false) (d : Drain) :
    s.finishDrain d = (s.drainDone d).resumeLoads d.loadAborted := by
  have pins : ((s.drainDone d).resumeLoads d.loadAborted).pins = s.pins := by
    rw [(OnFrames.resumeLoads _ _).1.within.pins]
    show (s.clearWork.applyAllPending.raise d.doneEvent).pins = _
    rw [State.raise, State.raiseFor_pins, (Applies.applyAllPending _).within.pins]
    rfl
  unfold State.finishDrain
  change (if ((s.drainDone d).resumeLoads d.loadAborted).pins.bypass = true then _ else _) = _
  rw [pins, low]
  exact if_neg (by decide)

theorem exec_drainStep4 {s : State} {d : Drain} (draining : s.cru.proc = .drain d) (ended : s.workEnded = true)
    (low : s.pins.bypass = false) :
    exec .drainStep4 s = .next ((s.drainDone d).resumeLoads d.loadAborted).finish := by
  show execDrainStep4 s = _
  rw [execDrainStep4, draining]
  dsimp only
  rw [if_pos ended, State.finishDrain_low low]

/-- The slots at the end of a drain. -/
structure Slot.DrainedTo (a b : Slot) : Prop where
  collection : b.collection = emptyCollection
  invalidReported : b.invalidReported = false
  pendingDesc : b.pendingDesc = none
  presented : b.frame.presented = none
  kept : a.pendingDesc = none → b.committed = a.committed ∧
    (a.committed.isSome = true → b.frame.state = .armed ∧ b.frame.generation = a.frame.generation + 1)
  applied : ∀ x, a.pendingDesc = some x → b.committed = x ∧ (x.isSome = true → b.frame.state = .armed) ∧
    (x = none → b.frame.state = .free)

theorem State.step4_slot (s : State) (i : SlotId) : Slot.DrainedTo (s.slot i) (s.clearWork.applyAllPending.slot i) := by
  obtain ⟨keeps, applies⟩ := s.clearWork.applyAllPending_slot i
  obtain ⟨slot, -⟩ := s.clearWork_fields
  obtain ⟨collection, reported, pendingDesc, presented, committed, armed⟩ := (s.slot i).rearm_fields
  rw [slot, pendingDesc] at keeps applies
  cases pending : (s.slot i).pendingDesc with
  | none =>
    rw [keeps pending]
    refine ⟨collection, reported, pendingDesc.trans pending, presented, fun _ => ⟨committed, armed⟩, fun x some_ => ?_⟩
    rw [pending] at some_
    cases some_
  | some d =>
    rw [applies d pending]
    obtain ⟨committed', none_, collection', -, presented', freed, armed'⟩ := (s.slot i).rearm.applied_fields d
    refine ⟨collection', Slot.applied_invalidReported reported d, none_, presented', fun kept => ?_, fun x some_ => ?_⟩
    · rw [pending] at kept
      cases kept
    · rw [pending] at some_
      cases some_
      exact ⟨committed', fun h => (armed' h).1, fun h => by rw [freed h]⟩

/-- The events of step 4: those of the pending descriptors, and DRAIN_DONE (R180, R194). -/
theorem State.drainDone_records (s : State) (d : Drain) (enabled : s.cru.settings.eventDisable.getLsbD 21 = false) :
    Records (s.pendingEvents allSlots ++ [d.doneEvent]) s (s.drainDone d) := by
  have applied := Records.applyAllPending s.clearWork
  have same : s.clearWork.pendingEvents allSlots = s.pendingEvents allSlots := by
    obtain ⟨slot, -⟩ := s.clearWork_fields
    unfold State.pendingEvents
    rw [List.filter_congr fun i _ => by rw [slot, (s.slot i).rearm_fields.2.2.1]]
    rfl
  rw [same] at applied
  have cleared : Records [] s s.clearWork := .ofCru rfl rfl
  have through := cleared.trans applied
  rw [List.nil_append] at through
  have settings : s.clearWork.applyAllPending.cru.settings = s.cru.settings := through.2.1
  have raised := through.trans (.raise (e := d.doneEvent) (by rw [settings]; exact enabled))
  exact raised.setProc .none

/-- Settles O49: step 4 slot by slot, its events one after the other, and the loads. -/
theorem drainEnds : Obligations.DrainEnds := by
  intro s d draining ended low idle
  rw [exec_drainStep4 draining ended low]
  have slots (i : SlotId) := s.step4_slot i
  have records := s.drainDone_records d
  obtain ⟨-, invalid, cru, -, er, mpu, br, ssu, llc⟩ := s.clearWork_fields
  have applies := Applies.applyAllPending s.clearWork
  have raised := OnFrames.raise s.clearWork.applyAllPending d.doneEvent
  have raisedSlot (i : SlotId) : (s.clearWork.applyAllPending.raise d.doneEvent).slot i = s.clearWork.applyAllPending.slot i :=
    State.raiseFor_slot ..
  have resumed := OnFrames.resumeLoads (s.drainDone d) d.loadAborted
  have done : s.drainDone d = (s.clearWork.applyAllPending.raise d.doneEvent).setProc .none := rfl
  have within := applies.within.trans raised.within
  have lines (i : LineIdx) := (raised.line i).trans (applies.invalid invalid i)
  have queue : s.er.queue = [] := by
    unfold State.workEnded at ended
    simp only [Bool.and_eq_true, List.isEmpty_iff] at ended
    exact ended.1.1.2
  rw [done] at resumed records
  generalize s.clearWork.applyAllPending.raise d.doneEvent = c at *
  obtain ⟨on, same⟩ := resumed
  rw [← done] at on same
  have idle' : ((s.drainDone d).resumeLoads d.loadAborted).mpu.intake = none := on.within.idle (by
    rw [done]
    exact within.idle (mpu ▸ idle))
  have queue' : ((s.drainDone d).resumeLoads d.loadAborted).er.queue = [] := by
    refine List.eq_nil_of_length_eq_zero (Nat.le_zero.mp ?_)
    rw [on.er, done]
    exact within.queue.trans (by rw [er, queue]; exact Nat.le_refl _)
  rw [State.finish_eq idle' queue']
  generalize (s.drainDone d).resumeLoads d.loadAborted = t at *
  have llc' : t.llc = { s.llc with modeTarget := t.llc.modeTarget, focusRef := none } := by
    have first := on.within.llc
    rw [done] at first
    rw [first, show (c.setProc .none).llc = c.llc from rfl, within.llc, llc]
  have slot (i : SlotId) : t.slot i = s.clearWork.applyAllPending.slot i := by
    rw [State.slot_ofSlots same, done]
    exact raisedSlot i
  rw [done] at on
  have events : c.cru.events <+: t.cru.events := on.within.events
  refine ⟨_, rfl, on.proc, on.within.br.trans (within.br.trans br), on.ssu.trans ?_, by
    change t.llc.focusRef = none
    rw [llc'], fun i => (on.line i).trans (lines i), fun i => ?_, on.within.shadow.trans within.shadow,
    on.within.settings.trans within.settings, on.within.ringState.trans within.ringState,
    on.within.produce.trans within.produce, within.events.trans events, llc', fun i x pending => ?_, ?_⟩
  · have exposures := within.exposures
    rw [ssu] at exposures
    exact Ssu.emptied (within.clock.trans (by rw [ssu])) (within.prescaler.trans (by rw [ssu]))
      (within.strobe.trans (by rw [ssu])) exposures
  · have drained := slots i
    rw [← slot] at drained
    exact ⟨drained.collection, drained.invalidReported, drained.pendingDesc, drained.presented, drained.kept⟩
  · have drained := slots i
    rw [← slot] at drained
    exact drained.applied x pending
  · intro applied raised enabled room
    obtain ⟨joined, -⟩ := (records enabled).2.2 room
    have zipped := recordsOf_zipIdx s.cru.overflow s.clock raised 0
    change c.cru.events = s.cru.events ++ recordsOf s.cru.overflow s.clock raised at joined
    rw [beq_self_eq_true, Bool.and_true] at zipped
    rw [← zipped] at joined
    exact joined ▸ events

end Sys2Proof.Machine
end

