-- ==== Sys2Proof/Proofs/EgressFeeds.lean ====
section
/-! SUPPORT. What the reads of the Egress Queue take from an evaluation with nothing presented, and their answers
(R165, R166). -/

namespace Sys2Proof.Machine

/-! ### A read -/

/-- A read that has not failed and whose beats, once computed, are those of its quantities (R163). -/
def EgressEntry.Sound (e : EgressEntry) : Prop :=
  e.state = .gathering ∨ ∃ cells, e.state = .ready (e.setting.beats e.addr.toNat e.beats cells)

/-- A read after some of its needs have been served. -/
structure EgressEntry.Fed (e x : EgressEntry) : Prop where
  fixed : x.fixed = e.fixed
  needs : x.needs.map (fun n => (n.line, n.firstBeat)) = e.needs.map fun n => (n.line, n.firstBeat)
  sound : e.Sound → x.Sound

theorem EgressEntry.Fed.refl (e : EgressEntry) : e.Fed e := ⟨rfl, rfl, fun h => h⟩

theorem EgressEntry.Fed.trans {e x y : EgressEntry} (a : e.Fed x) (b : x.Fed y) : e.Fed y :=
  ⟨b.fixed.trans a.fixed, b.needs.trans a.needs, fun h => b.sound (a.sound h)⟩

theorem EgressEntry.readyIfServed_needs (e : EgressEntry) : e.readyIfServed.needs = e.needs := by
  unfold EgressEntry.readyIfServed
  split <;> rfl

theorem EgressEntry.Sound.readyIfServed {e : EgressEntry} (sound : e.Sound) : e.readyIfServed.Sound := by
  unfold EgressEntry.readyIfServed
  split
  · exact .inr ⟨e.cells, rfl⟩
  · exact sound

theorem EgressEntry.Fed.serve (e : EgressEntry) (line : Nat) (data : List Byte) : e.Fed (e.serve line data) := by
  refine ⟨EgressEntry.fixed_serve e line data, ?_, fun sound => ?_⟩
  · unfold EgressEntry.serve
    dsimp only
    rw [EgressEntry.readyIfServed_needs, List.map_map]
    refine List.map_congr_left fun n _ => ?_
    dsimp only [Function.comp]
    split <;> rfl
  · exact EgressEntry.Sound.readyIfServed sound

/-! ### The queue -/

/-- From `s` to `t` reads of the queue have been served, and none has been answered. -/
structure Feeds (s t : State) : Prop where
  queue : List.Forall₂ EgressEntry.Fed s.er.queue t.er.queue
  ports : t.ports = s.ports

theorem Feeds.ofEr {s t : State} (er : t.er = s.er) (ports : t.ports = s.ports) : Feeds s t :=
  ⟨er ▸ List.forall₂_same.mpr fun e _ => .refl e, ports⟩

theorem Feeds.refl (s : State) : Feeds s s := .ofEr rfl rfl

theorem forall₂_trans {α : Type} {R : α → α → Prop} (trans : ∀ {a b c}, R a b → R b c → R a c) {l m n : List α}
    (h : List.Forall₂ R l m) (k : List.Forall₂ R m n) : List.Forall₂ R l n := by
  induction h generalizing n with
  | nil => exact k
  | cons first _ ih =>
    cases k with
    | cons second rest => exact .cons (trans first second) (ih rest)

theorem Feeds.trans {s t u : State} (a : Feeds s t) (b : Feeds t u) : Feeds s u :=
  ⟨forall₂_trans .trans a.queue b.queue, b.ports.trans a.ports⟩

theorem Feeds.modRead (s : State) (read line : Nat) (data : List Byte) :
    Feeds s (s.modRead read fun e => e.serve line data) := by
  refine ⟨?_, rfl⟩
  show List.Forall₂ _ s.er.queue (s.er.queue.map _)
  rw [List.forall₂_map_right_iff]
  refine List.forall₂_same.mpr fun e _ => ?_
  dsimp only
  split
  · exact .serve e line data
  · exact .refl e

theorem Feeds.demand (s : State) (i : LineIdx) : Feeds s (s.demand i) := by
  refine .ofEr ?_ ?_ <;> unfold State.demand <;> dsimp only <;> split
  all_goals first | rfl | (split <;> rfl)

theorem Feeds.evalNeed (s : State) (i : LineIdx) (line read : Nat) (slot : SlotId) (g : Generation) (beat : Nat) :
    Feeds s (s.evalNeed i line read slot g beat).1 := by
  unfold State.evalNeed
  cases s.line i with
  | clean tag data =>
    dsimp only
    split
    · exact (Feeds.ofEr (s := s) (t := s.popClaim i) rfl rfl).trans (.modRead _ _ _ _)
    · exact .ofEr rfl rfl
  | invalid => exact .ofEr rfl rfl
  | held => exact .demand s i
  | filling => exact .refl s
  | casting => exact .refl s

theorem Feeds.evalClaim {s : State} (idle : s.mpu.intake = none) (i : LineIdx) (c : Claim) :
    Feeds s (s.evalClaim i c).1 := by
  unfold State.evalClaim
  cases c.kind with
  | ingest =>
    dsimp only
    rw [State.evalIngest, idle]
    exact .refl s
  | forward =>
    dsimp only
    rw [State.evalForward, idle]
    exact .refl s
  | need read slot g beat => exact .evalNeed s i c.line read slot g beat

theorem Feeds.evalHead (n : Nat) (i : LineIdx) : ∀ {s : State}, s.mpu.intake = none → Feeds s (State.evalHead n i s) := by
  induction n with
  | zero => exact fun _ => .refl _
  | succ n ih =>
    intro s idle
    unfold State.evalHead
    cases head : s.headClaim i with
    | none => exact .refl s
    | some c =>
      have once := Feeds.evalClaim idle i c
      have kept := OnReads.evalClaim idle i c (State.headClaim_on head)
      dsimp only
      split
      · exact .refl s
      · split
        · exact once.trans (ih (kept.intake.trans idle))
        · exact once

theorem Feeds.placeNeed {s : State} (idle : s.mpu.intake = none) (e : EgressEntry) (n : Need) :
    Feeds s (s.placeNeed e n) :=
  (Feeds.ofEr (s := s) (t := s.addClaim n.line (.need e.id e.slot e.generation n.firstBeat)) rfl rfl).trans
    (.evalHead _ _ idle)

theorem OnReads.placeNeed {s : State} (idle : s.mpu.intake = none) (e : EgressEntry) (n : Need) :
    OnReads s (s.placeNeed e n) :=
  (OnReads.setClaims s _).trans (.evalIndex (s := s.addClaim n.line _) idle _)

theorem placeNeeds_feeds (e : EgressEntry) (l : List Need) : ∀ {s : State}, s.mpu.intake = none →
    OnReads s (l.foldl (fun s n => s.placeNeed e n) s) ∧ Feeds s (l.foldl (fun s n => s.placeNeed e n) s) := by
  induction l with
  | nil => exact fun _ => ⟨.refl _, .refl _⟩
  | cons n l ih =>
    intro s idle
    have once := OnReads.placeNeed idle e n
    obtain ⟨on, feeds⟩ := ih (once.intake.trans idle)
    exact ⟨once.trans on, (Feeds.placeNeed idle e n).trans feeds⟩

/-! ### The answers -/

/-- The completion of a read that is READY or FAILED. -/
def EgressEntry.AnsweredBy (e : EgressEntry) (c : UpCompletion) : Prop :=
  (∃ data, e.state = .ready data ∧ c = e.okay data) ∨ (e.state = .failed ∧ c = e.fault)

theorem EgressEntry.Sound.answered {e : EgressEntry} (sound : e.Sound) {c : UpCompletion} (answered : e.AnsweredBy c) :
    ∃ cells, c = ⟨e.master, e.tag, .okay, e.setting.beats e.addr.toNat e.beats cells⟩ := by
  rcases answered with ⟨data, ready, same⟩ | ⟨failed, -⟩
  · rcases sound with gathering | ⟨cells, ready'⟩
    · rw [gathering] at ready
      cases ready
    · rw [ready'] at ready
      cases ready
      exact ⟨cells, same⟩
  · rcases sound with gathering | ⟨cells, ready⟩
    · rw [gathering] at failed
      cases failed
    · rw [ready] at failed
      cases failed

/-- What answers make of the queue and the completions: no read is lost, and the last one is answered last. -/
structure Answers (s t : State) : Prop where
  count : t.er.queue.length + t.ports.ump.length = s.er.queue.length + s.ports.ump.length
  rest : t.er.queue <:+ s.er.queue
  last : ∀ e, s.er.queue.getLast? = some e → t.er.queue = [] → ∃ c, t.ports.ump.getLast? = some c ∧ e.AnsweredBy c

theorem Answers.answerReads (n : Nat) : ∀ s : State, Answers s (State.answerReads n s) := by
  have none_ (s : State) : Answers s s := by
    refine ⟨rfl, List.suffix_refl _, fun e last empty => ?_⟩
    rw [empty] at last
    cases last
  induction n with
  | zero => exact none_
  | succ n ih =>
    intro s
    have step (e : EgressEntry) (rest : List EgressEntry) (head : s.er.queue = e :: rest) (c : UpCompletion)
        (answered : e.AnsweredBy c) : Answers s (State.answerReads n (s.popRead.complete c)) := by
      have queue : (s.popRead.complete c).er.queue = rest := by simp [State.complete, State.popRead, head]
      have ump : (s.popRead.complete c).ports.ump = s.ports.ump ++ [c] := rfl
      obtain ⟨count, suffix, last⟩ := ih (s.popRead.complete c)
      rw [queue] at count suffix last
      rw [ump, List.length_append, List.length_singleton] at count
      refine ⟨?_, suffix.trans ?_, fun x final empty => ?_⟩
      · rw [count, head, List.length_cons]
        omega
      · rw [head]
        exact List.suffix_cons e rest
      · rw [head] at final
        cases rest with
        | nil =>
          rw [List.getLast?_singleton] at final
          cases final
          rw [State.answerReads_empty queue, ump]
          exact ⟨c, by simp, answered⟩
        | cons y ys =>
          rw [List.getLast?_cons_cons] at final
          exact last x final empty
    cases head : s.er.queue with
    | nil =>
      rw [State.answerReads_empty head]
      exact none_ s
    | cons e rest =>
      unfold State.answerReads
      rw [head]
      dsimp only
      cases state : e.state with
      | gathering => exact none_ s
      | ready data => exact step e rest head _ (.inl ⟨data, state, rfl⟩)
      | failed => exact step e rest head _ (.inr ⟨state, rfl⟩)

end Sys2Proof.Machine
end

