-- ==== Sys2Proof/Proofs/NeedsPlaced.lean ====
section
/-! SUPPORT. The needs of a read that has just entered the Egress Queue, one after the other (R120, R131, R164, R165). -/

namespace Sys2Proof.Machine

/-! ### One need, told from the state before -/

/-- A record at which a need starts a fill (R131). -/
def State.startsFill (s : State) (n : Need) : Bool :=
  match s.line (indexOf n.line) with
  | .invalid => true
  | .clean tag _ => tag.line != n.line
  | _ => false

/-- The parts of the fill a need starts (R132). -/
def State.fillsFor (s : State) (n : Need) : List FillPart :=
  if s.startsFill n = false then []
  else if n.firstBeat = 0 then [⟨n.line, 0, 16, .single⟩]
  else [⟨n.line, n.firstBeat, 16 - n.firstBeat, .critical⟩, ⟨n.line, 0, n.firstBeat, .wrap⟩]

/-- A need after its placement (R165). -/
def State.servesNeed (s : State) (e : EgressEntry) (n : Need) : Need :=
  match s.line (indexOf n.line) with
  | .clean tag data =>
    if tag.line = n.line then { n with taken := some (e.setting.taken e.addr.toNat e.beats n.line data) } else n
  | _ => n

/-- A record whose castout is demanded when it is HELD (R127). -/
def LineRec.demanded (r : LineRec) : LineRec :=
  match r with
  | .held tag b lanes _ => .held tag b lanes true
  | r => r

/-- The claim of a need. -/
def EgressEntry.claim (e : EgressEntry) (n : Need) : Claim := ⟨n.line, .need e.id e.slot e.generation n.firstBeat, false, false⟩

/-- The read after some of its needs have been placed. -/
def State.fedRead (s : State) (e : EgressEntry) (done rest : List Need) : EgressEntry :=
  { e with needs := done.map (s.servesNeed e) ++ rest }.readyIfServed

section
variable (s : State) (e : EgressEntry) (n : Need)

theorem State.servesNeed_waits (waits : ∀ tag data, s.line (indexOf n.line) = .clean tag data → tag.line ≠ n.line) :
    s.servesNeed e n = n := by
  unfold State.servesNeed
  split
  · next tag data clean => exact if_neg (waits tag data clean)
  · rfl

theorem State.fillsFor_eq (starts : s.startsFill n = true) : s.fillsFor n = fillParts n.line n.firstBeat := by
  unfold State.fillsFor fillParts
  rw [starts, if_neg (by decide)]

theorem State.fillsFor_none (stays : s.startsFill n = false) : s.fillsFor n = [] := if_pos stays

end

/-! ### The needs placed so far -/

/-- The needs `done` of the read `e` have been placed since `s`, behind the reads `q`; the needs `rest` have not. -/
structure Placed (s : State) (e : EgressEntry) (q : List EgressEntry) (done rest : List Need) (t : State) : Prop where
  idle : t.mpu.intake = none
  frames : ∀ i, (t.frame i).generation = (s.frame i).generation ∧ (t.frame i).bands = (s.frame i).bands
  class1 : t.mpu.class1 = s.mpu.class1 ++ done.flatMap fun n => joinsClass1 s (indexOf n.line)
  class2 : t.mpu.class2 = s.mpu.class2 ++ done.flatMap s.fillsFor
  claims : t.ls.claims = (done.filter fun n => (s.servesNeed e n).taken.isNone).map e.claim
  starts : ∀ n ∈ done, s.startsFill n = true → ∃ old, old.length = 256 ∧
    t.line (indexOf n.line) = .filling ⟨n.line, e.slot, e.generation⟩ old (s.fillsFor n).length []
  stays : ∀ n ∈ done, s.startsFill n = false → t.line (indexOf n.line) = (s.line (indexOf n.line)).demanded
  others : ∀ j, (∀ n ∈ done, j ≠ indexOf n.line) → t.line j = s.line j
  queue : t.er.queue = q ++ [s.fedRead e done rest]

/-- What the placement of one need changes, from `t` to `v`. -/
structure Places (s : State) (e : EgressEntry) (q : List EgressEntry) (done : List Need) (n : Need) (rest : List Need)
    (t v : State) : Prop where
  intake : v.mpu.intake = t.mpu.intake
  slots : v.slots = t.slots
  class1 : v.mpu.class1 = t.mpu.class1 ++ joinsClass1 s (indexOf n.line)
  class2 : v.mpu.class2 = t.mpu.class2 ++ s.fillsFor n
  claims : v.ls.claims = t.ls.claims ++ if (s.servesNeed e n).taken.isNone then [e.claim n] else []
  starts : s.startsFill n = true → ∃ old, old.length = 256 ∧
    v.line (indexOf n.line) = .filling ⟨n.line, e.slot, e.generation⟩ old (s.fillsFor n).length []
  stays : s.startsFill n = false → v.line (indexOf n.line) = (s.line (indexOf n.line)).demanded
  others : ∀ j, j ≠ indexOf n.line → v.line j = t.line j
  queue : v.er.queue = q ++ [s.fedRead e (done ++ [n]) rest]

theorem Placed.snoc {s : State} {e : EgressEntry} {q : List EgressEntry} {done rest : List Need} {n : Need} {t v : State}
    (placed : Placed s e q done (n :: rest) t) (places : Places s e q done n rest t v)
    (apart : ∀ m ∈ done, indexOf m.line ≠ indexOf n.line) : Placed s e q (done ++ [n]) rest v where
  idle := places.intake.trans placed.idle
  frames := fun i => by
    rw [State.frame, State.slot_ofSlots places.slots]
    exact placed.frames i
  class1 := by rw [places.class1, placed.class1, List.flatMap_append, List.append_assoc]; simp
  class2 := by rw [places.class2, placed.class2, List.flatMap_append, List.append_assoc]; simp
  claims := by
    rw [places.claims, placed.claims, List.filter_append, List.map_append]
    congr 1
    rw [List.filter_singleton]
    cases (s.servesNeed e n).taken.isNone <;> rfl
  starts := fun m member starts => by
    rcases List.mem_append.mp member with before | here
    · rw [places.others _ (apart m before)]
      exact placed.starts m before starts
    · rw [List.mem_singleton.mp here] at starts ⊢
      exact places.starts starts
  stays := fun m member stays => by
    rcases List.mem_append.mp member with before | here
    · rw [places.others _ (apart m before)]
      exact placed.stays m before stays
    · rw [List.mem_singleton.mp here] at stays ⊢
      exact places.stays stays
  others := fun j other => by
    rw [places.others j (other n (by simp))]
    exact placed.others j fun m member => other m (by simp [member])
  queue := places.queue

/-! ### One need placed -/

/-- A read of which not every need has been served. -/
theorem State.fedRead_waits (s : State) (e : EgressEntry) (done : List Need) {n : Need} (fresh : n.taken = none)
    (rest : List Need) : s.fedRead e done (n :: rest) = { e with needs := done.map (s.servesNeed e) ++ n :: rest } := by
  unfold State.fedRead EgressEntry.readyIfServed
  rw [if_neg]
  simp [fresh]

theorem State.fedRead_snoc (s : State) (e : EgressEntry) (done : List Need) {n : Need} (same : s.servesNeed e n = n)
    (rest : List Need) : s.fedRead e (done ++ [n]) rest = s.fedRead e done (n :: rest) := by
  unfold State.fedRead
  rw [List.map_append, List.append_assoc, List.map_singleton, same]
  rfl

theorem State.servesNeed_line (s : State) (e : EgressEntry) (n : Need) : (s.servesNeed e n).line = n.line := by
  unfold State.servesNeed
  split
  · split <;> rfl
  · rfl

/-- The read takes the data of a line that one of its needs waits for (R165). -/
theorem State.fedRead_serve (s : State) (e : EgressEntry) {done rest : List Need} {n : Need} (fresh : n.taken = none)
    {tag : LineTag} {data : List Byte} (clean : s.line (indexOf n.line) = .clean tag data) (own : tag.line = n.line)
    (apart : ∀ m ∈ done ++ rest, m.line ≠ n.line) :
    (s.fedRead e done (n :: rest)).serve n.line data = s.fedRead e (done ++ [n]) rest := by
  have served : s.servesNeed e n = { n with taken := some (e.setting.taken e.addr.toNat e.beats n.line data) } := by
    rw [State.servesNeed, clean]
    exact if_pos own
  have others (f : Need → Need) (l : List Need) (other : ∀ m ∈ l, m.line ≠ n.line) :
      l.map (fun m => if m.line = n.line then f m else m) = l :=
    (List.map_congr_left fun m member => if_neg (other m member)).trans (List.map_id l)
  rw [State.fedRead_waits s e done fresh rest]
  unfold EgressEntry.serve State.fedRead
  dsimp only
  congr 2
  rw [List.map_append, List.map_cons, if_pos rfl, List.map_append, List.map_singleton, served, List.append_assoc, others,
    others]
  · rfl
  · exact fun m member => apart m (List.mem_append_right done member)
  · intro m member
    obtain ⟨x, mem, same⟩ := List.mem_map.mp member
    rw [← same, State.servesNeed_line]
    exact apart x (List.mem_append_left rest mem)

section
variable {s : State} {e : EgressEntry} {q : List EgressEntry} {done rest : List Need} {n : Need} {t : State}
  (placed : Placed s e q done (n :: rest) t)
include placed

section
variable (apart : ∀ m ∈ done ++ rest, indexOf m.line ≠ indexOf n.line)
include apart

theorem Placed.line_next : t.line (indexOf n.line) = s.line (indexOf n.line) :=
  placed.others _ fun m member => (apart m (List.mem_append_left rest member)).symm

theorem Placed.joins_next : joinsClass1 t (indexOf n.line) = joinsClass1 s (indexOf n.line) := by
  unfold joinsClass1
  rw [placed.line_next apart]
  cases s.line (indexOf n.line) with
  | held tag band lanes demand =>
    cases band with
    | none => rfl
    | some c =>
      cases demand with
      | true => rfl
      | false =>
        obtain ⟨generation, bands⟩ := placed.frames tag.slot
        dsimp only
        rw [generation, bands]
  | _ => rfl

/-- The claim of the need stands at the head of its list. -/
theorem Placed.head_next (added : Claim) (here : added.line = n.line) :
    (t.setClaims (t.ls.claims ++ [added])).headClaim (indexOf n.line) = some added ∧
      (t.ls.claims.find? fun c => c.on (indexOf n.line)) = none ∧
      ((t.ls.claims ++ [added]).eraseP fun c => c.on (indexOf n.line)) = t.ls.claims := by
  have before : ∀ x ∈ t.ls.claims, x.on (indexOf n.line) = false := by
    intro x member
    rw [placed.claims] at member
    obtain ⟨m, mem, same⟩ := List.mem_map.mp member
    rw [← same]
    exact decide_eq_false (apart m (List.mem_append_left rest (List.mem_of_mem_filter mem)))
  have on : added.on (indexOf n.line) = true := by
    rw [Claim.on, here]
    exact decide_eq_true rfl
  refine ⟨State.headClaim_at (before := t.ls.claims) (after := []) rfl before on, List.find?_eq_none.mpr (by simpa using before),
    ?_⟩
  rw [List.eraseP_append_right _ (by simpa using before)]
  simp [on]

end

/-- A need that is not served leaves its claim and its read as they are. -/
theorem Placed.places_waits {v : State} (fresh : n.taken = none) (same : s.servesNeed e n = n)
    (intake : v.mpu.intake = t.mpu.intake) (slots : v.slots = t.slots)
    (class1 : v.mpu.class1 = t.mpu.class1 ++ joinsClass1 s (indexOf n.line))
    (class2 : v.mpu.class2 = t.mpu.class2 ++ s.fillsFor n) (claims : v.ls.claims = t.ls.claims ++ [e.claim n])
    (starts : s.startsFill n = true → ∃ old, old.length = 256 ∧
      v.line (indexOf n.line) = .filling ⟨n.line, e.slot, e.generation⟩ old (s.fillsFor n).length [])
    (stays : s.startsFill n = false → v.line (indexOf n.line) = (s.line (indexOf n.line)).demanded)
    (others : ∀ j, j ≠ indexOf n.line → v.line j = t.line j) (er : v.er = t.er) : Places s e q done n rest t v := by
  refine ⟨intake, slots, class1, class2, ?_, starts, stays, others, ?_⟩
  · rw [claims, same, fresh]
    rfl
  · rw [er, placed.queue, State.fedRead_snoc s e done same]

theorem Placed.placeNeed (fresh : n.taken = none) (apart : ∀ m ∈ done ++ rest, indexOf m.line ≠ indexOf n.line) (ids : ∀ x ∈ q, x.id ≠ e.id) (f : EgressEntry) (sameId : f.id = e.id) (sameSlot : f.slot = e.slot)
    (sameGeneration : f.generation = e.generation) : Places s e q done n rest t (t.placeNeed f n) := by
  obtain ⟨head, alone, erased⟩ := placed.head_next apart (e.claim n) rfl
  have line := placed.line_next apart
  have joins := placed.joins_next apart
  have added : t.placeNeed f n = (t.setClaims (t.ls.claims ++ [e.claim n])).evalIndex (indexOf n.line) := by
    rw [State.placeNeed, sameId, sameSlot, sameGeneration]
    rfl
  have evaluates : (t.setClaims (t.ls.claims ++ [e.claim n])).evalClaim (indexOf n.line) (e.claim n) =
      (t.setClaims (t.ls.claims ++ [e.claim n])).evalNeed (indexOf n.line) n.line e.id e.slot e.generation n.firstBeat := rfl
  have line' : (t.setClaims (t.ls.claims ++ [e.claim n])).line (indexOf n.line) = s.line (indexOf n.line) := line
  have fills (starts : s.startsFill n = true) (none_ : joinsClass1 s (indexOf n.line) = []) (same : s.servesNeed e n = n)
      (result : (t.setClaims (t.ls.claims ++ [e.claim n])).evalNeed (indexOf n.line) n.line e.id e.slot e.generation
        n.firstBeat = ((t.setClaims (t.ls.claims ++ [e.claim n])).startFill (indexOf n.line) n.line e.slot e.generation
          n.firstBeat, false)) : Places s e q done n rest t (t.placeNeed f n) := by
    rw [added, State.evalIndex_waits head rfl (evaluates.trans result)]
    refine placed.places_waits fresh same rfl rfl ?_ ?_ rfl (fun _ => ?_) (fun h => ?_) (fun j other => ?_) rfl
    · rw [none_, List.append_nil]
      rfl
    · rw [s.fillsFor_eq n starts]
      rfl
    · rw [s.fillsFor_eq n starts]
      exact ⟨_, freeBytes_length t.free 256, put_self _ _ _⟩
    · rw [starts] at h
      cases h
    · exact put_other _ (Ne.symm other) _
  have unchanged (stays : s.startsFill n = false) (none_ : joinsClass1 s (indexOf n.line) = [])
      (kept : (s.line (indexOf n.line)).demanded = s.line (indexOf n.line)) (same : s.servesNeed e n = n)
      (result : (t.setClaims (t.ls.claims ++ [e.claim n])).evalNeed (indexOf n.line) n.line e.id e.slot e.generation
        n.firstBeat = (t.setClaims (t.ls.claims ++ [e.claim n]), false)) :
      Places s e q done n rest t (t.placeNeed f n) := by
    rw [added, State.evalIndex_waits head rfl (evaluates.trans result)]
    refine placed.places_waits fresh same rfl rfl ?_ ?_ rfl (fun h => ?_) (fun _ => line'.trans kept.symm)
      (fun _ _ => rfl) rfl
    · rw [none_]
      exact (List.append_nil _).symm
    · rw [s.fillsFor_none n stays]
      exact (List.append_nil _).symm
    · rw [stays] at h
      cases h
  cases record : s.line (indexOf n.line) with
  | invalid =>
    refine fills (by rw [State.startsFill, record]) (by rw [joinsClass1, record])
      (s.servesNeed_waits e n (by rw [record]; exact nofun)) ?_
    rw [State.evalNeed, line', record]
  | clean tag data =>
    by_cases own : tag.line = n.line
    · have served : s.servesNeed e n = { n with taken := some (e.setting.taken e.addr.toNat e.beats n.line data) } := by
        rw [State.servesNeed, record]
        exact if_pos own
      have stays : s.startsFill n = false := by simp [State.startsFill, record, own]
      have result : (t.setClaims (t.ls.claims ++ [e.claim n])).evalClaim (indexOf n.line) (e.claim n) =
          (((t.setClaims (t.ls.claims ++ [e.claim n])).popClaim (indexOf n.line)).modRead e.id fun x =>
            x.serve n.line data, true) := by
        rw [evaluates, State.evalNeed, line', record]
        exact if_pos own
      rw [added, State.evalIndex_served head rfl result (by
        rw [State.headClaim]
        change (((t.ls.claims ++ [e.claim n]).eraseP fun c => c.on (indexOf n.line)).find? _) = none
        rw [erased]
        exact alone)]
      refine ⟨rfl, rfl, ?_, ?_, ?_, fun h => ?_, fun _ => ?_, fun _ _ => rfl, ?_⟩
      · rw [joinsClass1, record]
        exact (List.append_nil _).symm
      · rw [s.fillsFor_none n stays]
        exact (List.append_nil _).symm
      · rw [served]
        exact erased.trans (List.append_nil _).symm
      · rw [stays] at h
        cases h
      · rw [record]
        exact line'.trans record
      · have fed := State.fedRead_serve s e (done := done) (rest := rest) fresh record own fun m member same =>
          apart m member (congrArg indexOf same)
        change t.er.queue.map (fun x => if x.id = e.id then x.serve n.line data else x) = _
        have name : (s.fedRead e done (n :: rest)).id = e.id := by rw [State.fedRead_waits s e done fresh rest]
        rw [placed.queue, List.map_append, List.map_singleton, if_pos name, fed]
        congr 1
        exact (List.map_congr_left fun x member => if_neg (ids x member)).trans (List.map_id q)
    · refine fills (by simp [State.startsFill, record, own]) (by rw [joinsClass1, record])
        (s.servesNeed_waits e n fun tag' data' clean => ?_) ?_
      · rw [record] at clean
        cases clean
        exact own
      · rw [State.evalNeed, line', record]
        exact if_neg own
  | held tag band lanes demand =>
    have same : s.servesNeed e n = n := s.servesNeed_waits e n (by rw [record]; exact nofun)
    have joins' : joinsClass1 (t.setClaims (t.ls.claims ++ [e.claim n])) (indexOf n.line) =
        joinsClass1 s (indexOf n.line) := joins
    rw [added, State.evalIndex_waits head rfl (evaluates.trans (by rw [State.evalNeed, line', record])),
      State.demand_eq (line'.trans record), joins']
    refine placed.places_waits fresh same rfl rfl rfl ?_ rfl (fun h => ?_) (fun _ => ?_) (fun j other => ?_) rfl
    · rw [s.fillsFor_none n (by rw [State.startsFill, record])]
      exact (List.append_nil _).symm
    · rw [State.startsFill, record] at h
      cases h
    · rw [record]
      exact put_self _ _ _
    · exact put_other _ (Ne.symm other) _
  | filling tag data parts faulted =>
    refine unchanged (by rw [State.startsFill, record]) (by rw [joinsClass1, record]) (by rw [record]; rfl)
      (s.servesNeed_waits e n (by rw [record]; exact nofun)) ?_
    rw [State.evalNeed, line', record]
  | casting tag band lanes demand =>
    refine unchanged (by rw [State.startsFill, record]) (by rw [joinsClass1, record]) (by rw [record]; rfl)
      (s.servesNeed_waits e n (by rw [record]; exact nofun)) ?_
    rw [State.evalNeed, line', record]

end

/-- All needs of a read, placed in their order. -/
theorem Placed.foldl {s : State} {e : EgressEntry} {q : List EgressEntry} (ids : ∀ x ∈ q, x.id ≠ e.id) {f : EgressEntry}
    (sameId : f.id = e.id) (sameSlot : f.slot = e.slot) (sameGeneration : f.generation = e.generation)
    (rest : List Need) : ∀ (done : List Need) {t : State}, Placed s e q done rest t → (∀ n ∈ rest, n.taken = none) →
      ((done ++ rest).map fun n => indexOf n.line).Nodup →
      Placed s e q (done ++ rest) [] (rest.foldl (fun t n => t.placeNeed f n) t) := by
  induction rest with
  | nil =>
    intro done t placed _ _
    rw [List.append_nil]
    exact placed
  | cons n rest ih =>
    intro done t placed fresh once
    have apart : ∀ m ∈ done ++ rest, indexOf m.line ≠ indexOf n.line := by
      have moved : ((n :: (done ++ rest)).map fun n => indexOf n.line).Nodup :=
        (List.Perm.map _ List.perm_middle).nodup_iff.mp once
      intro m member same
      rw [List.map_cons, List.nodup_cons] at moved
      exact moved.1 (same ▸ List.mem_map_of_mem member)
    have places := placed.placeNeed (fresh n List.mem_cons_self) apart ids f sameId sameSlot sameGeneration
    have next := placed.snoc places fun m member => apart m (List.mem_append_left rest member)
    have whole := ih (done ++ [n]) next (fun m member => fresh m (List.mem_cons_of_mem n member))
      (by rw [List.append_assoc]; exact once)
    rw [List.append_assoc] at whole
    exact whole

end Sys2Proof.Machine
end

