-- ==== Sys2Proof/Proofs/EgressEntry.lean ====
section
/-! PROOF. The entry of a read into the Egress Queue (R14, R155–R166). -/

namespace Sys2Proof.Machine

/-! ### The read with everything fixed -/

section
variable (s : State) (r : UpRequest) (slot : SlotId) (w : Window)

theorem EgressEntry.readyIfServed_again {e : EgressEntry} (gathering : e.state = .gathering) :
    ({ e.readyIfServed with state := .gathering } : EgressEntry).readyIfServed = e.readyIfServed := by
  have same : ({ e.readyIfServed with state := .gathering } : EgressEntry) = e := by
    unfold EgressEntry.readyIfServed
    split <;> rw [← gathering]
  rw [same]

/-- The read before it is known whether a need is left. -/
theorem State.fixRead_eq : ∃ e : EgressEntry, s.fixRead r slot w = e.readyIfServed ∧ e.state = .gathering ∧
    (∀ n ∈ e.needs, n.taken = none) ∧ e.addr = r.addr ∧ e.beats = r.beats := by
  refine ⟨_, rfl, rfl, fun n member => ?_, rfl, rfl⟩
  obtain ⟨x, -, rfl⟩ := List.mem_map.mp member
  rfl

theorem State.fixRead_sound : (s.fixRead r slot w).Sound := by
  obtain ⟨e, same, gathering, -⟩ := s.fixRead_eq r slot w
  rw [same]
  exact EgressEntry.Sound.readyIfServed (.inl gathering)

theorem State.fixRead_again : ({ s.fixRead r slot w with state := .gathering } : EgressEntry).readyIfServed =
    s.fixRead r slot w := by
  obtain ⟨e, same, gathering, -⟩ := s.fixRead_eq r slot w
  rw [same]
  exact EgressEntry.readyIfServed_again gathering

/-- No need has been served yet. -/
theorem State.fixRead_fresh : ∀ n ∈ (s.fixRead r slot w).needs, n.taken = none := by
  obtain ⟨e, same, -, fresh, -⟩ := s.fixRead_eq r slot w
  rw [same, EgressEntry.readyIfServed_needs]
  exact fresh

/-- A read with needs waits for them; one without is READY (R165). -/
theorem State.fixRead_gathering (some_ : (s.fixRead r slot w).needs ≠ []) : (s.fixRead r slot w).state = .gathering := by
  obtain ⟨e, same, gathering, fresh, -⟩ := s.fixRead_eq r slot w
  rw [same] at some_ ⊢
  rw [EgressEntry.readyIfServed_needs] at some_
  obtain ⟨n, rest, cons⟩ := List.exists_cons_of_ne_nil some_
  rw [cons] at fresh
  rw [EgressEntry.readyIfServed, if_neg (by simp [cons, fresh n List.mem_cons_self])]
  exact gathering

theorem State.fixRead_ready (none_ : (s.fixRead r slot w).needs = []) : (s.fixRead r slot w).state =
    .ready ((s.fixRead r slot w).setting.beats r.addr.toNat r.beats []) := by
  obtain ⟨e, same, -, -, addr, beats⟩ := s.fixRead_eq r slot w
  rw [same] at none_ ⊢
  rw [EgressEntry.readyIfServed_needs] at none_
  have cells : e.cells = [] := by rw [EgressEntry.cells, none_]; rfl
  rw [EgressEntry.readyIfServed, if_pos (by simp [none_]), ← addr, ← beats, EgressEntry.compute, cells]
  rfl

theorem State.fixRead_fixed : (s.fixRead r slot w).fixed =
    { id := s.er.nextId, master := r.master, tag := r.tag, addr := r.addr, beats := r.beats, slot := slot
      generation := (s.frame slot).generation, window := w, source := (s.frame slot).magSource.1
      k := magnificationAt w.height (w.readRow r.first) (s.frame slot).magSource.2
      border := s.cru.settings.border, fillValue := s.cru.settings.fillValue, needs := [], state := .gathering } := by
  unfold State.fixRead EgressEntry.readyIfServed
  dsimp only
  split <;> rfl

theorem State.fixRead_needs : (s.fixRead r slot w).needs.map (fun n => (n.line, n.firstBeat)) =
    (s.fixRead r slot w).setting.needs r.first r.beats := by
  have setting : (s.fixRead r slot w).setting = ⟨w, magnificationAt w.height (w.readRow r.first) (s.frame slot).magSource.2,
      s.cru.settings.border, s.cru.settings.fillValue⟩ := by
    unfold State.fixRead EgressEntry.readyIfServed
    dsimp only
    split <;> rfl
  rw [setting]
  unfold State.fixRead
  rw [EgressEntry.readyIfServed_needs, List.map_map]
  exact List.map_id _

end

theorem EgressEntry.setting_ofFixed {e x : EgressEntry} (same : x.fixed = e.fixed) : x.setting = e.setting := by
  have w : x.fixed.setting = e.fixed.setting := by rw [same]
  exact w

/-! ### The entry -/

/-- The read has joined the queue; its needs have not been placed. -/
def State.queued (s : State) (e : EgressEntry) (slot : SlotId) : State :=
  { (s.modFrame slot FrameRecord.readEarly).emptyIntake with
    er := { queue := s.er.queue ++ [e], nextId := s.er.nextId + 1 } }

theorem exec_egressQueueEntry {s : State} {p : Presented} {slot : SlotId} {w : Window} (here : s.mpu.intake = some p)
    (egress : p.cls = .egress slot) (window : p.window = some w) (waits : p.phase = .queue) :
    exec .egressQueueEntry s = .next (if s.er.queue.length < 16 then
      ((s.fixRead p.req slot w).needs.foldl (fun t n => t.placeNeed (s.fixRead p.req slot w) n)
        (s.queued (s.fixRead p.req slot w) slot)).finish else s) := by
  have can : s.canEnterQueue = decide (s.er.queue.length < 16) := by
    rw [State.canEnterQueue, here]
    simp [waits]
  show execEgressQueueEntry s = _
  rw [execEgressQueueEntry, here]
  dsimp only
  rw [egress, window]
  dsimp only
  rw [can]
  by_cases room : s.er.queue.length < 16 <;> simp only [room, decide_true, decide_false, if_true, if_false] <;> rfl

/-- The read at the tail of the queue stays there. -/
theorem Feeds.last {s t : State} (feeds : Feeds s t) {e : EgressEntry} (last : s.er.queue.getLast? = some e) :
    ∃ x, t.er.queue.getLast? = some x ∧ e.Fed x := by
  have along {l m : List EgressEntry} (h : List.Forall₂ EgressEntry.Fed l m) :
      l.getLast? = some e → ∃ x, m.getLast? = some x ∧ e.Fed x := by
    induction h with
    | nil => exact nofun
    | @cons a b l m first rest ih =>
      cases rest with
      | nil =>
        intro last
        rw [List.getLast?_singleton] at last
        cases last
        exact ⟨b, rfl, first⟩
      | cons second rest =>
        intro last
        rw [List.getLast?_cons_cons] at last ⊢
        exact ih last
  exact along feeds.queue last

theorem FrameRecord.readEarly_eq (f : FrameRecord) : f.readEarly = { f with flags := { f.flags with
    earlyRead := f.flags.earlyRead || decide (f.state = .armed ∨ f.state = .tagged ∨ f.state = .resolved) } } := by
  rcases f with ⟨state⟩
  cases state <;> simp [FrameRecord.readEarly]

theorem State.answerReads_same (n : Nat) : ∀ s : State,
    (State.answerReads n s).mpu = s.mpu ∧ (State.answerReads n s).ls = s.ls := by
  induction n with
  | zero => exact fun s => ⟨rfl, rfl⟩
  | succ n ih =>
    intro s
    unfold State.answerReads
    split
    · exact ⟨rfl, rfl⟩
    · split
      · exact ⟨rfl, rfl⟩
      · exact ih _
      · exact ih _

/-- The needs of a read that enters, placed behind reads with other names. -/
theorem State.queued_placed {s : State} (ids : IdsOk s) (none_ : s.ls.claims = []) (r : UpRequest) (slot : SlotId) (w : Window)
    (once : ((s.fixRead r slot w).needs.map fun n => indexOf n.line).Nodup) :
    Placed s { s.fixRead r slot w with state := .gathering } s.er.queue (s.fixRead r slot w).needs []
      ((s.fixRead r slot w).needs.foldl (fun t n => t.placeNeed (s.fixRead r slot w) n)
        (s.queued (s.fixRead r slot w) slot)) := by
  have again := s.fixRead_again r slot w
  have fresh := s.fixRead_fresh r slot w
  have name : (s.fixRead r slot w).id = s.er.nextId := by
    have fixed := s.fixRead_fixed r slot w
    exact congrArg EgressEntry.id fixed
  generalize s.fixRead r slot w = e at *
  have starts : Placed s { e with state := .gathering } s.er.queue [] e.needs (s.queued e slot) := by
    refine ⟨rfl, fun i => ?_, (List.append_nil _).symm, (List.append_nil _).symm, none_, ?_, ?_, fun _ _ => rfl, ?_⟩
    · have frame : (s.queued e slot).frame i = (s.modFrame slot FrameRecord.readEarly).frame i := rfl
      by_cases same : i = slot
      · rw [frame, same, State.frame_modFrame_self, FrameRecord.readEarly_eq]
        exact ⟨rfl, rfl⟩
      · rw [frame, State.frame, State.modFrame, State.slot_modSlot_other _ same]
        exact ⟨rfl, rfl⟩
    · exact fun _ h => absurd h List.not_mem_nil
    · exact fun _ h => absurd h List.not_mem_nil
    · exact congrArg (fun x => s.er.queue ++ [x]) again.symm
  have whole := starts.foldl (e := { e with state := .gathering }) (f := e) (fun x member same => ?_) rfl rfl rfl e.needs [] fresh (by exact once)
  · exact whole
  · have lower := ids x member
    have same' : x.id = e.id := same
    omega

/-- The needs of a read at the Line Store, and its answer when every one has been served. -/
theorem Placed.needsPlaced {s u : State} {e : EgressEntry}
    (placed : Placed s { e with state := .gathering } s.er.queue e.needs [] u)
    (gathers : e.needs ≠ [] → e.state = .gathering)
    (heads : ∀ x, s.er.queue.head? = some x → x.state = .gathering) (ports : u.ports = s.ports) :
    NeedsPlaced s (State.answerReads 16 u).refreshReports e := by
  obtain ⟨mpu, ls⟩ := State.answerReads_same 16 u
  have queue := placed.queue
  have line (j : LineIdx) : (State.answerReads 16 u).refreshReports.line j = u.line j := congrArg (fun x : Ls => x.lines[j]) ls
  unfold State.fedRead EgressEntry.readyIfServed at queue
  rw [List.append_nil] at queue
  have waits (x : EgressEntry) (tail : u.er.queue = s.er.queue ++ [x])
      (known : s.er.queue = [] → x.state = .gathering) : State.answerReads 16 u = u := by
    cases head : s.er.queue with
    | nil =>
      rw [head] at tail
      exact State.answerReads_gathering tail (known head) 16
    | cons y rest =>
      rw [head] at tail heads
      exact State.answerReads_gathering tail (heads y rfl) 16
  refine ⟨(congrArg Mpu.class1 mpu).trans placed.class1, (congrArg Mpu.class2 mpu).trans placed.class2,
    (congrArg Ls.claims ls).trans placed.claims, fun n member => ⟨fun starts => ?_, fun stays => ?_⟩,
    fun j other => (line j).trans (placed.others j other), fun open_ => ?_, fun all => ⟨fun alone => ?_, fun before => ?_⟩⟩
  · rw [line]
    exact placed.starts n member starts
  · rw [line]
    exact placed.stays n member stays
  · have state : e.state = .gathering := gathers fun empty => by
      rw [empty] at open_
      cases open_
    have off : ¬ ((e.needs.map (s.servesNeed { e with state := .gathering })).all fun n => n.taken.isSome) = true := by
      rw [Bool.not_eq_true]
      exact open_
    rw [if_neg off, ← state] at queue
    rw [waits _ queue fun _ => state]
    exact ⟨queue, congrArg Ports.ump ports⟩
  · have on : ((e.needs.map (s.servesNeed { e with state := .gathering })).all fun n => n.taken.isSome) = true := all
    rw [if_pos on, alone] at queue
    rw [State.answerReads_ready (by exact queue) rfl]
    refine ⟨?_, ?_⟩
    · show u.er.queue.drop 1 = []
      rw [queue]
      rfl
    · show u.ports.ump ++ [_] = _
      rw [ports]
      rfl
  · have on : ((e.needs.map (s.servesNeed { e with state := .gathering })).all fun n => n.taken.isSome) = true := all
    rw [if_pos on] at queue
    rw [waits _ queue fun alone => absurd alone before]
    exact ⟨queue, congrArg Ports.ump ports⟩

/-- Settles O26: the read joins the queue, its needs are placed, and the head of the queue is answered. -/
theorem egressReadEnters : Obligations.EgressReadEnters := by
  intro s p slot w here egress window waits fixed
  rw [exec_egressQueueEntry here egress window waits]
  refine ⟨fun room => ?_, fun full => by rw [if_neg (by omega)]⟩
  rw [if_pos room]
  obtain ⟨on, feeds⟩ := placeNeeds_feeds fixed fixed.needs (s := s.queued fixed slot) rfl
  have placed (ids : IdsOk s) (none_ : s.ls.claims = []) := State.queued_placed ids none_ p.req slot w
  have none_ (empty : fixed.needs = []) : fixed.needs.foldl (fun t n => t.placeNeed fixed n) (s.queued fixed slot) =
      s.queued fixed slot := by rw [empty]; rfl
  have same : s.fixRead p.req slot w = fixed := rfl
  have sound := s.fixRead_sound p.req slot w
  have gathers := s.fixRead_gathering p.req slot w
  have ready := s.fixRead_ready p.req slot w
  have fields := s.fixRead_fixed p.req slot w
  have needs := s.fixRead_needs p.req slot w
  rw [same] at placed sound gathers ready fields needs ⊢
  clear_value fixed
  clear same
  have idle : (fixed.needs.foldl (fun t n => t.placeNeed fixed n) (s.queued fixed slot)).mpu.intake = none := on.intake
  rw [State.finish_answers idle]
  generalize fixed.needs.foldl (fun t n => t.placeNeed fixed n) (s.queued fixed slot) = u at *
  have on' := OnReads.answerReads 16 u
  have answers := Answers.answerReads 16 u
  have slots (i : SlotId) : (State.answerReads 16 u).refreshReports.slot i =
      (s.modFrame slot FrameRecord.readEarly).slot i := (on'.slot i).trans (on.slot i)
  refine ⟨_, rfl, on'.intake.trans idle, ?_, fun j other => (slots j).trans (State.slot_modSlot_other _ other _), ?_, ?_, ?_, ?_,
    ?_, ?_⟩
  · rw [State.frame, slots, ← State.frame, State.frame_modFrame_self]
    exact (s.frame slot).readEarly_eq
  · have length := feeds.queue.length_eq
    have count := answers.count
    rw [feeds.ports] at count
    change _ + _ = _ + 1 + s.ports.ump.length
    change (s.er.queue ++ [fixed]).length = _ at length
    rw [List.length_append, List.length_singleton] at length
    rw [← length] at count
    exact count
  · intro empty
    obtain ⟨x, last, fed⟩ := feeds.last (by exact List.getLast?_concat)
    obtain ⟨c, final, answered⟩ := answers.last x last empty
    obtain ⟨cells, completion⟩ := (fed.sound sound).answered answered
    have whole := fed.fixed.trans fields
    rw [completion, EgressEntry.setting_ofFixed fed.fixed] at final
    refine ⟨cells, final.trans ?_⟩
    rw [show x.master = p.req.master from congrArg EgressEntry.master whole,
      show x.tag = p.req.tag from congrArg EgressEntry.tag whole, show x.addr = p.req.addr from congrArg EgressEntry.addr whole,
      show x.beats = p.req.beats from congrArg EgressEntry.beats whole]
  · intro empty alone
    have queue : u.er.queue = [fixed] := by
      rw [none_ empty]
      show s.er.queue ++ [fixed] = _
      rw [alone]
      rfl
    rw [State.answerReads_ready queue (ready empty)]
    refine ⟨?_, ?_⟩
    · show u.er.queue.drop 1 = []
      rw [queue]
      rfl
    · show u.ports.ump ++ [_] = _
      rw [feeds.ports, EgressEntry.okay, show fixed.master = p.req.master from congrArg EgressEntry.master fields,
        show fixed.tag = p.req.tag from congrArg EgressEntry.tag fields]
      rfl
  · intro e rest empty head gathering
    rw [State.answerReads_gathering (r := e) (rest := rest ++ [fixed]) _ gathering, none_ empty]
    · exact ⟨rfl, rfl⟩
    · rw [none_ empty]
      show s.er.queue ++ [fixed] = _
      rw [head]
      rfl
  · intro ids empty heads once
    exact (placed ids empty once).needsPlaced gathers heads feeds.ports
  · intro busy
    obtain ⟨x, last, fed⟩ := feeds.last (by exact List.getLast?_concat)
    have whole := fed.fixed.trans fields
    obtain ⟨before, rest⟩ := answers.rest
    rw [← rest, List.getLast?_append_of_ne_nil _ (by exact busy)] at last
    have name : x.id = fixed.id := (congrArg EgressEntry.id fed.fixed : x.fixed.id = fixed.fixed.id)
    refine ⟨x, last, name, fed.needs.trans needs, congrArg EgressEntry.master whole,
      congrArg EgressEntry.tag whole, congrArg EgressEntry.addr whole, congrArg EgressEntry.beats whole,
      congrArg EgressEntry.slot whole, congrArg EgressEntry.generation whole, congrArg EgressEntry.window whole,
      congrArg EgressEntry.source whole, congrArg EgressEntry.k whole, congrArg EgressEntry.border whole,
      congrArg EgressEntry.fillValue whole⟩

end Sys2Proof.Machine
end

