-- ==== Sys2Proof/Proofs/ProfileKept.lean ====
section
/-! SUPPORT. What captures and releases of profile areas keep of the Profile Unit: the relation `ProfileKept`, and the
operations of the frame table that respect it (R104, R106, R109). -/

namespace Sys2Proof.Machine

/-! ### The areas -/

theorem State.area_modArea (s : State) (a b : AreaId) (f : Area → Area) :
    (s.modArea a f).area b = if b = a then f (s.area b) else s.area b := by
  cases a <;> cases b <;> rfl

theorem State.area_modArea_self (s : State) (a : AreaId) (f : Area → Area) : (s.modArea a f).area a = f (s.area a) := by
  rw [State.area_modArea, if_pos rfl]

theorem State.area_modArea_other (s : State) {a b : AreaId} (other : b ≠ a) (f : Area → Area) :
    (s.modArea a f).area b = s.area b := by
  rw [State.area_modArea, if_neg other]

theorem State.modArea_load (s : State) (a : AreaId) (f : Area → Area) : (s.modArea a f).pu.load = s.pu.load := by
  cases a <;> rfl

theorem State.area_ofPu {s t : State} (same : t.pu = s.pu) (a : AreaId) : t.area a = s.area a := by
  cases a
  · exact congrArg Pu.p0 same
  · exact congrArg Pu.p1 same

/-- The area that is found in a state is in it (R104). -/
theorem State.areaIn_state {s : State} {st : AreaState} {a : AreaId} (found : s.areaIn st = some a) :
    (s.area a).state = st := by
  unfold State.areaIn at found
  split at found
  · next here =>
    cases found
    exact here
  · split at found
    · next here =>
      cases found
      exact here
    · cases found

theorem State.matchedArea_active {s : State} {a : AreaId} (found : s.matchedArea = some a) : (s.area a).state = .active := by
  unfold State.matchedArea at found
  cases active : s.areaIn .active with
  | none =>
    rw [active] at found
    cases found
  | some b =>
    rw [active] at found
    dsimp only at found
    split at found
    · cases found
      exact State.areaIn_state active
    · cases found

/-! ### What is kept -/

/-- No load is pending (R109). -/
def Pu.unpending (p : Pu) : Prop := ∀ ld, p.load = some ld → ld.area.isSome = true

/-- An area that its references hold in RETIRING, or that is FREE with none (R106, R113). -/
def Area.Left (x : Area) : Prop := (x.state = .retiring ∧ 0 < x.refs) ∨ (x.state = .free ∧ x.refs = 0)

/-- What becomes of an area with no load pending (R106). -/
structure Area.Kept (x y : Area) : Prop where
  received : y.received = x.received
  free : x.state = .free → y.state = .free
  retiring : x.state = .retiring → y.state = .retiring ∨ y.state = .free
  left : x.Left → y.Left

theorem Area.Kept.refl (x : Area) : Area.Kept x x := ⟨rfl, fun h => h, .inl, fun h => h⟩

theorem Area.Kept.trans {x y z : Area} (a : Area.Kept x y) (b : Area.Kept y z) : Area.Kept x z where
  received := b.received.trans a.received
  free := fun h => b.free (a.free h)
  retiring := fun h => (a.retiring h).elim b.retiring fun h => .inr (b.free h)
  left := fun h => b.left (a.left h)

/-- From `s` to `t` areas have been captured and released, and a pending load may have started (R106, R109). -/
structure ProfileKept (s t : State) : Prop where
  none_ : s.pu.load = none → t.pu.load = none
  held : ∀ ld, s.pu.load = some ld → ld.area.isSome = true → t.pu.load = some ld
  pending : ∀ ld, s.pu.load = some ld → ∃ x, t.pu.load = some x ∧ x.target = ld.target
  bytes : ∀ a, (t.area a).bytes = (s.area a).bytes
  mark : ∀ a, (t.area a).matchMark = (s.area a).matchMark
  active : ∀ a, (s.area a).state = .active → (t.area a).state = .active
  loading : ∀ a, (s.area a).state = .loading → (t.area a).state = .loading
  area : s.pu.unpending → ∀ a, Area.Kept (s.area a) (t.area a)

theorem ProfileKept.refl (s : State) : ProfileKept s s :=
  ⟨fun h => h, fun _ h _ => h, fun ld h => ⟨ld, h, rfl⟩, fun _ => rfl, fun _ => rfl, fun _ h => h, fun _ h => h,
    fun _ _ => .refl _⟩

theorem ProfileKept.unpending {s t : State} (k : ProfileKept s t) (settled : s.pu.unpending) : t.pu.unpending := by
  intro ld load
  cases before : s.pu.load with
  | none =>
    rw [k.none_ before] at load
    cases load
  | some old =>
    have area := settled old before
    rw [k.held old before area] at load
    cases load
    exact area

theorem ProfileKept.trans {s t u : State} (a : ProfileKept s t) (b : ProfileKept t u) : ProfileKept s u where
  none_ := fun h => b.none_ (a.none_ h)
  held := fun ld h area => b.held ld (a.held ld h area) area
  pending := fun ld h => by
    obtain ⟨x, load, target⟩ := a.pending ld h
    obtain ⟨y, load', target'⟩ := b.pending x load
    exact ⟨y, load', target'.trans target⟩
  bytes := fun x => (b.bytes x).trans (a.bytes x)
  mark := fun x => (b.mark x).trans (a.mark x)
  active := fun x h => b.active x (a.active x h)
  loading := fun x h => b.loading x (a.loading x h)
  area := fun settled x => (a.area settled x).trans (b.area (a.unpending settled) x)

theorem ProfileKept.ofPu {s t : State} (same : t.pu = s.pu) : ProfileKept s t := by
  have area := State.area_ofPu same
  refine ⟨fun h => ?_, fun ld h _ => ?_, fun ld h => ⟨ld, ?_, rfl⟩, fun a => by rw [area], fun a => by rw [area],
    fun a h => by rw [area, h], fun a h => by rw [area, h], fun _ a => ?_⟩
  iterate 3 rw [same, h]
  rw [area]
  exact .refl _

theorem ProfileKept.foldl {α : Type} {f : State → α → State} (step : ∀ s x, ProfileKept s (f s x)) (l : List α) (s : State) :
    ProfileKept s (l.foldl f s) := by
  induction l generalizing s with
  | nil => exact .refl s
  | cons x l ih => exact (step s x).trans (ih _)

/-! ### Captures and releases -/

/-- An area that changes within its bounds. -/
theorem ProfileKept.modArea (s : State) (a : AreaId) (f : Area → Area) (bytes : (f (s.area a)).bytes = (s.area a).bytes)
    (mark : (f (s.area a)).matchMark = (s.area a).matchMark)
    (active : (s.area a).state = .active → (f (s.area a)).state = .active)
    (loading : (s.area a).state = .loading → (f (s.area a)).state = .loading)
    (kept : Area.Kept (s.area a) (f (s.area a))) : ProfileKept s (s.modArea a f) := by
  have load := State.modArea_load s a f
  refine ⟨fun h => by rw [load, h], fun ld h _ => by rw [load, h], fun ld h => ⟨ld, by rw [load, h], rfl⟩, ?_, ?_, ?_, ?_,
    fun _ => ?_⟩ <;> intro b <;> rw [State.area_modArea] <;> split
  · next here => subst here; exact bytes
  · rfl
  · next here => subst here; exact mark
  · rfl
  · next here => subst here; exact active
  · exact fun h => h
  · next here => subst here; exact loading
  · exact fun h => h
  · next here => subst here; exact kept
  · exact .refl _

theorem ProfileKept.capture (s : State) (i : SlotId) : ProfileKept s (s.capture i) := by
  unfold State.capture
  split
  · exact .ofPu rfl
  · next a found =>
    have active := State.matchedArea_active found
    dsimp only
    refine .trans (t := s.modArea a fun x => { x with refs := x.refs + 1 }) ?_ (.ofPu rfl)
    refine .modArea s a _ rfl rfl (fun h => h) (fun h => h) ⟨rfl, fun h => h, .inl, fun left => ?_⟩
    rcases left with ⟨other, _⟩ | ⟨other, _⟩ <;> rw [active] at other <;> cases other

/-- A pending load starts in a FREE area (R109). -/
theorem ProfileKept.startPending (s : State) : ProfileKept s s.startPending := by
  cases held : s.pu.load with
  | none =>
    rw [show s.startPending = s by simp only [State.startPending, held]]
    exact .refl s
  | some ld =>
    unfold State.startPending
    simp only [held]
    split
    · next a waits free =>
      have free := State.areaIn_state free
      have area (b : AreaId) : (s.startLoad ld a).area b =
          if b = a then { s.area b with state := .loading, received := noBlocks } else s.area b := by
        rw [State.startLoad, State.area_ofPu (State.evalMode_pu _ _)]
        exact State.area_modArea s a b fun x => { x with state := .loading, received := noBlocks }
      have load : (s.startLoad ld a).pu.load = some { Load.pendingFor ld.target with area := some a } := by
        rw [State.startLoad, State.evalMode_pu]
        rfl
      refine ⟨fun h => ?_, fun x h inArea => ?_, fun x h => ⟨_, load, ?_⟩, fun b => ?_, fun b => ?_, fun b h => ?_,
        fun b h => ?_, fun settled => ?_⟩
      · rw [held] at h
        cases h
      · rw [held] at h
        cases h
        rw [waits] at inArea
        cases inArea
      · rw [held] at h
        cases h
        rfl
      · rw [area]
        split <;> rfl
      · rw [area]
        split <;> rfl
      · rw [area, if_neg]
        · exact h
        · rintro rfl
          rw [free] at h
          cases h
      · rw [area]
        split
        · rfl
        · exact h
      · have := settled ld held
        rw [waits] at this
        cases this
    · exact .refl s

theorem ProfileKept.releaseArea (s : State) (a : Option AreaId) : ProfileKept s (s.releaseArea a) := by
  cases a with
  | none => exact .refl s
  | some a =>
    unfold State.releaseArea
    dsimp only
    split
    · next last =>
      obtain ⟨retiring, unreferred⟩ := last
      rw [State.area_modArea_self] at retiring unreferred
      have freed : ProfileKept s ((s.modArea a fun x => { x with refs := x.refs - 1 }).modArea a fun x =>
          { x with state := .free }) := by
        rw [show (s.modArea a fun x => { x with refs := x.refs - 1 }).modArea a (fun x => { x with state := .free }) =
          s.modArea a fun x => { x with refs := x.refs - 1, state := .free } by cases a <;> rfl]
        refine .modArea s a _ rfl rfl (fun h => ?_) (fun h => ?_)
          ⟨rfl, fun _ => rfl, fun _ => .inr rfl, fun _ => .inr ⟨rfl, unreferred⟩⟩ <;>
          exact absurd (retiring.symm.trans h) (by decide)
      split
      · exact freed
      · exact freed.trans (.startPending _)
    · next stays =>
      rw [State.area_modArea_self] at stays
      refine .modArea s a _ rfl rfl (fun h => h) (fun h => h) ⟨rfl, fun h => h, .inl, fun left => ?_⟩
      rcases left with ⟨retiring, _⟩ | ⟨free, unreferred⟩
      · exact .inl ⟨retiring, Nat.pos_of_ne_zero fun zero => stays ⟨retiring, zero⟩⟩
      · exact .inr ⟨free, by dsimp only; omega⟩

/-! ### The steps of a generation -/

theorem ProfileKept.raiseFor (s : State) (x : Option (SlotId × Generation)) (e : Event) : ProfileKept s (s.raiseFor x e) :=
  .ofPu (State.raiseFor_pu ..)

theorem ProfileKept.raiseIf (s : State) (x : Option (SlotId × Generation)) (e : Option Event) :
    ProfileKept s (s.raiseIf x e) := by
  cases e with
  | none => exact .refl s
  | some e => exact .raiseFor s x e

theorem ProfileKept.modSlot (s : State) (i : SlotId) (f : Slot → Slot) : ProfileKept s (s.modSlot i f) := .ofPu rfl

theorem ProfileKept.modFrame (s : State) (i : SlotId) (f : FrameRecord → FrameRecord) : ProfileKept s (s.modFrame i f) :=
  .ofPu rfl

theorem ProfileKept.enterResolved (s : State) (i : SlotId) : ProfileKept s (s.enterResolved i) :=
  (ProfileKept.modFrame s i _).trans (.releaseArea _ _)

theorem ProfileKept.bandTaken (s : State) (i : SlotId) (b : BandId) (kind : ResKind) (src : Source) :
    ProfileKept s (s.bandTaken i b kind src) := by
  unfold State.bandTaken
  dsimp only
  split
  · exact (ProfileKept.modSlot s i _).trans (.enterResolved _ i)
  · exact .ofPu rfl

theorem ProfileKept.caught (s : State) (i : SlotId) : ProfileKept s (s.caught i) := by
  refine (ProfileKept.capture s i).trans ?_
  unfold State.caught State.linesTakeBand
  split <;> exact .ofPu rfl

theorem ProfileKept.entersUntagged (s : State) (i : SlotId) (stamp : Stamp) (missing : Bool) :
    ProfileKept s (s.entersUntagged i stamp missing) := by
  unfold State.entersUntagged
  dsimp only
  refine .trans ?_ (.caught _ i)
  split
  · exact (ProfileKept.modSlot s i _).trans (.raiseFor _ _ _)
  · exact .ofPu rfl

theorem ProfileKept.exposureStart (s : State) (i : SlotId) (tag : FrameTag) (d : Stamp) (h : Nat) :
    ProfileKept s (s.exposureStart i tag d h).2 := by
  unfold State.exposureStart
  cases matchStrobe tag.sequence s.ssu.exposures with
  | none => exact .raiseFor s _ _
  | some x => exact .ofPu rfl

theorem ProfileKept.applyPending (s : State) (i : SlotId) : ProfileKept s (s.applyPending i) := by
  unfold State.applyPending
  cases (s.slot i).pendingDesc with
  | none => exact .refl s
  | some d =>
    refine .trans (t := s.applyDescriptor i d) ?_ (.raiseFor _ _ _)
    cases d <;> exact .ofPu rfl

theorem ProfileKept.modDrain (s : State) (f : Drain → Drain) : ProfileKept s (s.modDrain f) := by
  unfold State.modDrain
  cases s.cru.proc <;> exact .ofPu rfl

theorem ProfileKept.respected (i : SlotId) : Respected i ProfileKept where
  refl := .refl
  trans := .trans
  bandTaken := fun {s b} kind src _ _ => .bandTaken s i b kind src
  bandHanded := fun s g b report _ => by
    refine .trans (t := s.joinDemanded i g b) (.ofPu rfl) ?_
    exact .raiseIf _ _ _
  tagged := fun s tag d => by
    unfold State.entersTagged
    dsimp only
    refine .trans ?_ (.caught _ i)
    refine .trans (t := (s.started i tag d).2) ?_ (.ofPu rfl)
    exact (ProfileKept.modSlot s i _).trans (.exposureStart _ i _ _ _)
  untagged := fun s stamp missing _ => .entersUntagged s i stamp missing
  begins := fun _ => .ofPu rfl
  armed := fun _ _ _ => .ofPu rfl
  applies := fun s _ => .applyPending s i
  completes := fun s _ => (ProfileKept.modFrame s i _).trans (.raiseFor _ _ _)
  counted := fun s => .modDrain s _
  ended := fun _ => .ofPu rfl

theorem ProfileKept.testComplete (s : State) (i : SlotId) : ProfileKept s (State.testComplete i s) :=
  (ProfileKept.respected i).testComplete s

end Sys2Proof.Machine
end

