-- ==== Sys2Proof/Proofs/ProfileEnd.lean ====
section
/-! SUPPORT. What the evaluation of claims and the end of a command keep of the Profile Unit, whatever is presented. -/

namespace Sys2Proof.Machine

theorem State.slotOrder_pu (s : State) (p : SlotId → Bool) : (s.slotOrder p).2.pu = s.pu := by
  obtain ⟨n, order⟩ := s.slotOrder_state p
  rw [order]

theorem ProfileKept.forSlots (s : State) (p : SlotId → Bool) {f : State → SlotId → State}
    (step : ∀ s i, ProfileKept s (f s i)) : ProfileKept s (s.forSlots p f) :=
  (ProfileKept.ofPu (s.slotOrder_pu p)).trans (.foldl step _ _)

theorem ProfileKept.takeAllBands (s : State) (e : BandEvent) : ProfileKept s (s.takeAllBands State.testComplete e) :=
  .forSlots s _ fun s i => (ProfileKept.respected i).takeBands (fun s => .testComplete s i) s e

/-! ### Claims -/

theorem ProfileKept.demand (s : State) (i : LineIdx) : ProfileKept s (s.demand i) := .ofPu (OnReads.demand s i).pu

theorem ProfileKept.offerIfCleared (s : State) : ProfileKept s s.offerIfCleared := by
  refine .ofPu ?_
  unfold State.offerIfCleared
  split
  · rfl
  · split <;> rfl

theorem ProfileKept.evalForwardWrite (s : State) (i : LineIdx) (line addr : Nat) (lanes : List Lane) :
    ProfileKept s (s.evalForwardWrite i line addr lanes) := by
  have offered (t : State) (same : t.pu = s.pu) : ProfileKept s t.offerIfCleared :=
    (ProfileKept.ofPu same).trans (.offerIfCleared t)
  unfold State.evalForwardWrite
  split
  · split
    · exact .demand s i
    · exact .refl s
    · exact .refl s
    · split
      · exact offered _ rfl
      · exact offered _ rfl
    · exact offered _ rfl
  · exact offered _ rfl

theorem ProfileKept.evalForward (s : State) (i : LineIdx) (line : Nat) : ProfileKept s (s.evalForward i line).1 := by
  unfold State.evalForward
  split
  · exact .refl s
  · split
    · unfold State.evalForwardRead
      split
      · exact .demand s i
      · split
        · exact .refl s
        · refine .trans (t := s.popClaim i) (.ofPu rfl) ?_
          exact .offerIfCleared _
    · exact .evalForwardWrite s i _ _ _

theorem ProfileKept.account (s : State) (i : SlotId) (beats : Nat) (eof counted : Bool) :
    ProfileKept s (s.account i beats eof counted) :=
  (ProfileKept.respected i).account (fun s f => .modFrame s i f) (fun _ => .ofPu rfl) s beats eof counted

theorem ProfileKept.takePosted (s : State) (i : LineIdx) (p : Presented) (slot : SlotId) (w : Window) :
    ProfileKept s (s.takePosted i p slot w) := by
  unfold State.takePosted
  exact (ProfileKept.account s slot _ _ _).trans (.ofPu rfl)

theorem ProfileKept.postMerge (s : State) (i : LineIdx) (p : Presented) (slot : SlotId) (w : Window) (tag : LineTag)
    (band : Option BandId) (lanes : List Lane) (demand : Bool) : ProfileKept s (s.postMerge i p slot w tag band lanes demand) :=
  (ProfileKept.takePosted s i p slot w).trans (.ofPu rfl)

theorem ProfileKept.postNew (s : State) (i : LineIdx) (p : Presented) (slot : SlotId) (w : Window) (line : Nat)
    (g : Generation) (band : Option BandId) : ProfileKept s (s.postNew i p slot w line g band) :=
  (ProfileKept.takePosted s i p slot w).trans (.ofPu rfl)

theorem ProfileKept.resolvedWrite (s : State) (i : LineIdx) (line : Nat) (p : Presented) (slot : SlotId) (w : Window)
    (named : Option (Generation × BandId)) : ProfileKept s (s.resolvedWrite i line p slot w named).1 := by
  unfold State.resolvedWrite
  dsimp only
  split
  · split
    · split
      · exact .postMerge s i p slot w _ _ _ _
      · exact .demand s i
    · exact .refl s
    · exact .refl s
    · split <;> exact .ofPu rfl
    · exact .ofPu rfl
  · exact .ofPu rfl

theorem ProfileKept.unresolvedWrite (s : State) (i : LineIdx) (line : Nat) (p : Presented) (slot : SlotId) (w : Window)
    (g : Generation) (band : Option BandId) : ProfileKept s (s.unresolvedWrite i line p slot w g band).1 := by
  unfold State.unresolvedWrite
  split
  · exact .postNew s i p slot w line g band
  · exact .postNew s i p slot w line g band
  · split
    · exact .postMerge s i p slot w _ _ _ _
    · exact .demand s i
  · exact .refl s
  · exact .refl s

theorem ProfileKept.forceFull (s : State) (slot : SlotId) : ProfileKept s (s.forceFull slot) := by
  have test (t : State) : ProfileKept t (State.testComplete slot t) := .testComplete t slot
  unfold State.forceFull
  split
  · exact (ProfileKept.respected slot).takeBands test s _
  · rw [State.enterUntagged_eq]
    exact (ProfileKept.entersUntagged s slot _ _).trans ((ProfileKept.respected slot).takeBands test _ _)
  · exact .refl s

theorem ProfileKept.evalIngest (s : State) (i : LineIdx) (line : Nat) : ProfileKept s (s.evalIngest i line).1 := by
  have presented (f : Presented → Presented) : ProfileKept s (s.modIntake f) := .ofPu rfl
  unfold State.evalIngest
  split
  · exact .refl s
  · split
    · dsimp only
      split
      · exact (presented _).trans (.forceFull _ _)
      · exact (presented _).trans (.resolvedWrite _ _ _ _ _ _ _)
      · exact (presented _).trans (.resolvedWrite _ _ _ _ _ _ _)
      · exact (presented _).trans (.unresolvedWrite _ _ _ _ _ _ _ _)
      · exact (presented _).trans (.unresolvedWrite _ _ _ _ _ _ _ _)
    · exact .refl s

theorem ProfileKept.evalClaim (s : State) (i : LineIdx) (c : Claim) (here : indexOf c.line = i) :
    ProfileKept s (s.evalClaim i c).1 := by
  unfold State.evalClaim
  split
  · exact .evalIngest s i _
  · exact .evalForward s i _
  · exact .ofPu (OnReads.evalNeed s i _ _ _ _ _ here).pu

theorem ProfileKept.evalHead (n : Nat) (i : LineIdx) (s : State) : ProfileKept s (State.evalHead n i s) := by
  induction n generalizing s with
  | zero => exact .refl s
  | succ n ih =>
    unfold State.evalHead
    cases head : s.headClaim i with
    | none => exact .refl s
    | some c =>
      have once := ProfileKept.evalClaim s i c (State.headClaim_on head)
      dsimp only
      split
      · exact .refl s
      · split
        · exact once.trans (ih _)
        · exact once

theorem ProfileKept.evalIndex (s : State) (i : LineIdx) : ProfileKept s (s.evalIndex i) := .evalHead _ i s

/-! ### The end of a command -/

theorem ProfileKept.dropUpdated (s : State) (line : Nat) : ProfileKept s (s.dropUpdated line) :=
  .ofPu (OnReads.dropUpdated s line).pu

theorem ProfileKept.settleIntake (n : Nat) (s : State) : ProfileKept s (State.settleIntake n s) := by
  induction n generalizing s with
  | zero => exact .refl s
  | succ n ih =>
    unfold State.settleIntake
    split
    · exact .refl s
    · split
      · dsimp only
        split
        · exact .refl s
        · split
          · refine .trans ?_ (ih _)
            refine .trans ?_ (.evalIndex _ _)
            split
            · split
              · exact (ProfileKept.dropUpdated s _).trans (.ofPu rfl)
              · exact .ofPu rfl
            · exact .ofPu rfl
          · split
            · exact (ProfileKept.evalIndex s _).trans (ih _)
            · exact .refl s
      · exact .refl s

theorem ProfileKept.finish (s : State) : ProfileKept s s.finish := by
  refine .trans (t := (s.settleIntake 8).answerReads 16) ?_ (.ofPu rfl)
  exact (ProfileKept.settleIntake 8 s).trans (.ofPu (OnReads.answerReads 16 _).pu)

end Sys2Proof.Machine
end

