-- ==== Sys2Proof/Proofs/LinkSteps.lean ====
section
/-! SUPPORT. The steps of the Lens Link Controller and of the Profile Unit: what they leave unchanged and how many events
they raise at most, the relation `OnLink`; how an event of theirs is found in the Event Queue at the end. -/

namespace Sys2Proof.Machine

/-! ### What the link changes -/

/-- From `s` to `t` only the controller, the Profile Unit and the Event Queue have changed, with `n` events at most. -/
structure OnLink (n : Nat) (s t : State) : Prop where
  ports : t.ports = s.ports
  mpu : t.mpu = s.mpu
  slots : t.slots = s.slots
  ssu : t.ssu = s.ssu
  br : t.br = s.br
  er : t.er = s.er
  settings : t.cru.settings = s.cru.settings
  proc : t.cru.proc = s.cru.proc
  events : s.cru.events <+: t.cru.events
  few : t.cru.events.length ≤ s.cru.events.length + n

theorem OnLink.refl (s : State) : OnLink 0 s s := ⟨rfl, rfl, rfl, rfl, rfl, rfl, rfl, rfl, List.prefix_refl _, Nat.le_refl _⟩

theorem OnLink.mono {n m : Nat} {s t : State} (a : OnLink n s t) (le : n ≤ m) : OnLink m s t :=
  { a with few := a.few.trans (by omega) }

theorem OnLink.trans {n m : Nat} {s t u : State} (a : OnLink n s t) (b : OnLink m t u) : OnLink (n + m) s u where
  ports := b.ports.trans a.ports
  mpu := b.mpu.trans a.mpu
  slots := b.slots.trans a.slots
  ssu := b.ssu.trans a.ssu
  br := b.br.trans a.br
  er := b.er.trans a.er
  settings := b.settings.trans a.settings
  proc := b.proc.trans a.proc
  events := a.events.trans b.events
  few := by
    have := a.few
    have := b.few
    omega

theorem OnLink.clock {n : Nat} {s t : State} (a : OnLink n s t) : t.clock = s.clock := by rw [State.clock, a.ssu, State.clock]

/-- A change of the controller and of the Profile Unit. -/
theorem OnLink.ofUnits (s : State) (l : Llc) (p : Pu) : OnLink 0 s { s with llc := l, pu := p } :=
  ⟨rfl, rfl, rfl, rfl, rfl, rfl, rfl, rfl, List.prefix_refl _, Nat.le_refl _⟩

theorem OnLink.modLlc (s : State) (f : Llc → Llc) : OnLink 0 s (s.modLlc f) := .ofUnits s _ _

theorem OnLink.setLoad (s : State) (l : Option Load) : OnLink 0 s (s.setLoad l) := .ofUnits s _ _

theorem OnLink.modArea (s : State) (a : AreaId) (f : Area → Area) : OnLink 0 s (s.modArea a f) := by
  cases a <;> exact .ofUnits s _ _

theorem OnLink.raise (s : State) (e : Event) : OnLink 1 s (s.raise e) where
  ports := State.raiseFor_ports ..
  mpu := State.raiseFor_mpu ..
  slots := State.raiseFor_slots ..
  ssu := State.raiseFor_ssu ..
  br := State.raiseFor_br ..
  er := State.raiseFor_er ..
  settings := (Within.raise s e).settings
  proc := by rw [State.raise, State.raiseFor_eq]
  events := (Within.raise s e).events
  few := s.raiseFor_length _ e

theorem OnLink.evalMode (s : State) (requested : Bool) : OnLink 1 s (s.evalMode requested) where
  ports := by simp
  mpu := by simp
  slots := by simp
  ssu := by simp
  br := by simp
  er := by simp
  settings := by simp
  proc := by simp
  events := (Within.evalMode s requested).events
  few := s.evalMode_length requested

theorem OnLink.changeLink (s : State) (entered : LinkState) (reason : LinkReason) (run : Nat) (check : Option Byte) :
    OnLink 2 s (s.changeLink entered reason run check) :=
  ((OnLink.modLlc s _).trans (.raise _ _)).trans (.evalMode _ _)

theorem OnLink.checkMode (s : State) (f : LensFrame) : OnLink 1 s (s.checkMode f) := by
  unfold State.checkMode
  split
  · exact (OnLink.refl s).mono (by omega)
  · exact (OnLink.modLlc s _).trans (.raise _ _)

/-! ### The Profile Unit -/

theorem OnLink.failLoad (s : State) (reason : LoadReason) (check : Option FormatCheck) (block : Nat) :
    OnLink 2 s (s.failLoad reason check block) := by
  cases held : s.pu.load with
  | none =>
    rw [State.failLoad_none held]
    exact (OnLink.refl s).mono (by omega)
  | some ld =>
    rw [State.failLoad_some held]
    exact ((OnLink.ofUnits s s.llc (s.pu.dropped ld)).trans (.raise _ _)).trans (.evalMode _ _)

theorem OnLink.startPending (s : State) : OnLink 1 s s.startPending := by
  unfold State.startPending
  split
  · exact (OnLink.refl s).mono (by omega)
  · split
    · exact ((OnLink.modArea s _ _).trans (.setLoad _ _)).trans (.evalMode _ _)
    · exact (OnLink.refl s).mono (by omega)

theorem OnLink.triggerLoad (s : State) (target : LensIdentity) : OnLink 2 s (s.triggerLoad target) :=
  ((OnLink.setLoad s _).trans (.evalMode _ _)).trans (.startPending _)

theorem OnLink.supersedeLoad (s : State) (target : LensIdentity) : OnLink 4 s (s.supersedeLoad target) :=
  (OnLink.failLoad s _ _ _).trans (.triggerLoad _ _)

theorem OnLink.markMatch (s : State) (reply : LensIdentity) : OnLink 1 s (s.markMatch reply) := by
  unfold State.markMatch
  split
  · exact (OnLink.refl s).mono (by omega)
  · exact (OnLink.modArea s _ _).trans (.evalMode _ _)

theorem OnLink.takeIdentity (s : State) (reply : LensIdentity) : OnLink 5 s (s.takeIdentity reply) := by
  unfold State.takeIdentity
  dsimp only
  have marked := OnLink.markMatch s reply
  generalize s.markMatch reply = u at *
  split
  · split
    · exact (marked.trans (.triggerLoad u _)).mono (by omega)
    · exact marked.mono (by omega)
  · split
    · exact marked.mono (by omega)
    · split
      · exact marked.trans (.supersedeLoad u _)
      · exact (marked.trans (.failLoad u _ _ _)).mono (by omega)

theorem OnLink.loadPeriod (s : State) : OnLink 2 s s.loadPeriod := by
  unfold State.loadPeriod
  split
  · exact (OnLink.refl s).mono (by omega)
  · dsimp only
    split
    · exact (OnLink.setLoad s _).trans (.failLoad _ _ _ _)
    · exact (OnLink.setLoad s _).mono (by omega)

theorem OnLink.identPeriod (s : State) : OnLink 2 s s.identPeriod := by
  unfold State.identPeriod
  split
  · exact (OnLink.refl s).mono (by omega)
  · split
    · exact (OnLink.modLlc s _).mono (by omega)
    · dsimp only
      split
      · exact (OnLink.modLlc s _).mono (by omega)
      · exact ((OnLink.modLlc s _).trans (.modLlc _ _)).trans (.changeLink _ _ _ _ _)

theorem OnLink.periodEvent (s : State) : OnLink 4 s s.periodEvent := (OnLink.identPeriod s).trans (.loadPeriod _)

/-! ### What becomes of the controller -/

theorem State.raise_llc (s : State) (e : Event) : (s.raise e).llc = s.llc := State.raiseFor_llc ..

theorem State.changeLink_llc (s : State) (entered : LinkState) (reason : LinkReason) (run : Nat) (check : Option Byte) :
    (s.changeLink entered reason run check).llc = { s.llc with
      link := entered, modeTarget := (s.changeLink entered reason run check).llc.modeTarget } := by
  rw [State.changeLink, State.evalMode_llc, State.raise_llc]
  rfl

theorem State.changeLink_pu (s : State) (entered : LinkState) (reason : LinkReason) (run : Nat) (check : Option Byte) :
    (s.changeLink entered reason run check).pu = s.pu := by
  rw [State.changeLink, State.evalMode_pu, State.raise, State.raiseFor_pu]
  rfl

theorem State.checkMode_llc (s : State) (f : LensFrame) : (s.checkMode f).llc = { s.llc with linkMode := f.kind } := by
  unfold State.checkMode
  split
  · next same => rw [same]
  · exact State.raise_llc _ _

theorem State.checkMode_pu (s : State) (f : LensFrame) : (s.checkMode f).pu = s.pu := by
  unfold State.checkMode
  split
  · rfl
  · exact State.raiseFor_pu ..

theorem State.failLoad_llc (s : State) (reason : LoadReason) (check : Option FormatCheck) (block : Nat) :
    (s.failLoad reason check block).llc = { s.llc with modeTarget := (s.failLoad reason check block).llc.modeTarget } :=
  (Within.failLoad s reason check block).llc

theorem State.loadPeriod_llc (s : State) : s.loadPeriod.llc = { s.llc with modeTarget := s.loadPeriod.llc.modeTarget } := by
  unfold State.loadPeriod
  split
  · rfl
  · dsimp only
    split
    · exact State.failLoad_llc _ _ _ _
    · rfl

/-! ### Events at the end of a command -/

/-- An event that a later state raised, with what came before it few enough. -/
theorem Raised.ofRaise {s u t : State} {bit room : Nat} {e : Event} (code : e.code = bit)
    (settings : u.cru.settings = s.cru.settings) (clock : u.clock = s.clock) (events : s.cru.events <+: u.cru.events)
    (few : u.cru.events.length < s.cru.events.length + room) (later : (u.raise e).cru.events <+: t.cru.events) :
    Raised s t bit room e := by
  intro enabled fits
  have joins : (u.raise e).cru.events = u.cru.events ++ [⟨e, u.cru.overflow, none, u.clock⟩] :=
    State.raiseFor_events (by rw [settings, code]; exact enabled) (by omega) none
  obtain ⟨before, at_⟩ := events
  obtain ⟨after, ends⟩ := later
  rw [joins, ← at_, List.append_assoc, List.append_assoc] at ends
  refine ⟨⟨e, u.cru.overflow, none, u.clock⟩, ?_, rfl, rfl, clock⟩
  rw [← ends, List.drop_left]
  simp

theorem OnLink.raised {n room : Nat} {s u t : State} (a : OnLink n s u) {bit : Nat} {e : Event} (code : e.code = bit)
    (few : n < room) (later : (u.raise e).cru.events <+: t.cru.events) : Raised s t bit room e :=
  .ofRaise code a.settings a.clock a.events (by have := a.few; omega) later

/-- LINK_STATE is the first event of a change of link state (R73). -/
theorem OnLink.raised_changeLink {n room : Nat} {s u t : State} (a : OnLink n s u) {entered : LinkState}
    {reason : LinkReason} {run : Nat} {check : Option Byte} (few : n < room)
    (later : (u.changeLink entered reason run check).cru.events <+: t.cru.events) :
    Raised s t 7 room (.linkState u.llc.link entered reason run u.llc.lastGood check) := by
  have moved : OnLink n s (u.modLlc fun l => { l with link := entered }) := a.trans (.modLlc u _)
  refine moved.raised rfl few (List.IsPrefix.trans ?_ later)
  exact (Within.evalMode _ _).events

/-! ### The end of a command -/

/-- What the end of a command keeps, whatever is presented. -/
structure Ended (s t : State) : Prop where
  lml : t.ports.lml = s.ports.lml
  br : t.br = s.br
  llc : t.llc = { s.llc with modeTarget := t.llc.modeTarget }
  normal : s.llc.link ≠ .ready → s.llc.modeTarget = .normal → t.llc.modeTarget = .normal
  events : s.cru.events <+: t.cru.events
  profile : ProfileKept s t
  idle : s.mpu.intake = none → t.llc = s.llc ∧ t.pu = s.pu

theorem State.finish_ended (s : State) : Ended s s.finish := by
  have within := Within.settled s
  refine ⟨within.lml, within.br, within.llc, within.normal, within.events, .finish s, fun idle => ?_⟩
  obtain ⟨t, reads, ends⟩ := OnReads.finish idle
  rw [ends]
  exact ⟨reads.llc, reads.pu⟩

end Sys2Proof.Machine
end

