-- ==== Sys2Proof/Proofs/BadPeriods.lean ====
section
/-! PROOF. Bad and missing periods (R63, R64, R66, R68, R71, R72, R112): what the run count, the identity attempt and the
block requests make of one. -/

namespace Sys2Proof.Machine

/-! ### The run count (R66, R71) -/

/-- A bad or missing period raises the run count and takes the acquire count of ACQUIRING (R66, R71). -/
def State.runCounted (s : State) : State := s.modLlc fun l =>
  { l with run := l.run + 1, acquire := if l.link = .acquiring then 0 else l.acquire }

theorem State.badPeriod_detaches {s : State} (last : s.llc.run + 1 = 64) :
    s.badPeriod = s.runCounted.enterDown .detach 64 := by
  unfold State.badPeriod
  dsimp only
  rw [if_pos last, last]
  exact congrArg (fun u : State => u.enterDown .detach 64) (by unfold State.runCounted; rw [State.modLlc, State.modLlc, last])

theorem State.badPeriod_loses {s : State} (ready : s.llc.link = .ready) (fourth : s.llc.run + 1 = 4) :
    s.badPeriod = s.runCounted.changeLink .holdover .loss 4 none := by
  unfold State.badPeriod
  dsimp only
  rw [if_neg (by omega), if_pos ⟨ready, fourth⟩, fourth]
  exact congrArg (fun u : State => u.changeLink .holdover .loss 4 none)
    (by unfold State.runCounted; rw [State.modLlc, State.modLlc, fourth])

theorem State.badPeriod_stays {s : State} (few : s.llc.run + 1 ≠ 64) (other : ¬ (s.llc.link = .ready ∧ s.llc.run + 1 = 4)) :
    s.badPeriod = s.runCounted := by
  unfold State.badPeriod
  dsimp only
  rw [if_neg few]
  exact if_neg other

/-- The link after a bad or missing period that does not detach it (R71). -/
def Llc.lossy (l : Llc) : Llc :=
  { l with run := l.run + 1, acquire := if l.link = .acquiring then 0 else l.acquire
           link := if l.link = .ready ∧ l.run + 1 = 4 then .holdover else l.link }

theorem State.badPeriod_counts {s : State} (few : s.llc.run + 1 ≠ 64) :
    s.badPeriod.llc = { s.llc.lossy with modeTarget := s.badPeriod.llc.modeTarget } ∧ s.badPeriod.pu = s.pu ∧
      OnLink 2 s s.badPeriod := by
  by_cases lost : s.llc.link = .ready ∧ s.llc.run + 1 = 4
  · rw [State.badPeriod_loses lost.1 lost.2]
    refine ⟨?_, State.changeLink_pu .., (OnLink.modLlc s _).trans (.changeLink _ _ _ _ _)⟩
    rw [State.changeLink_llc, Llc.lossy, if_pos lost]
    rfl
  · rw [State.badPeriod_stays few lost]
    refine ⟨?_, rfl, (OnLink.modLlc s _).mono (by omega)⟩
    rw [Llc.lossy, if_neg lost]
    rfl

/-! ### The identity attempt (R68) -/

theorem State.identPeriod_none {s : State} (idle : s.llc.outstanding = none) : s.identPeriod = s := by
  simp only [State.identPeriod, idle]

theorem State.identPeriod_counts {s : State} {n : Nat} (asked : s.llc.outstanding = some n) (early : n + 1 < 16) :
    s.identPeriod = s.modLlc fun l => { l with outstanding := some (n + 1) } := by
  simp only [State.identPeriod, asked, if_pos early]

theorem State.identPeriod_fails {s : State} {n : Nat} (asked : s.llc.outstanding = some n) (late : 16 ≤ n + 1)
    (few : s.llc.attempts < 3) : s.identPeriod = s.modLlc fun l => { l with outstanding := none } := by
  simp only [State.identPeriod, asked, if_neg (Nat.not_lt.mpr late)]
  exact if_pos few

theorem State.identPeriod_ends {s : State} {n : Nat} (asked : s.llc.outstanding = some n) (late : 16 ≤ n + 1)
    (third : 3 ≤ s.llc.attempts) : s.identPeriod =
      (s.modLlc fun l => { l with outstanding := none, acquire := 0 }).changeLink .acquiring .identFail s.llc.run none := by
  simp only [State.identPeriod, asked, if_neg (Nat.not_lt.mpr late)]
  exact if_neg (Nat.not_lt.mpr third)

theorem State.identPeriod_pu (s : State) : s.identPeriod.pu = s.pu := by
  cases asked : s.llc.outstanding with
  | none => rw [State.identPeriod_none asked]
  | some n =>
    by_cases early : n + 1 < 16
    · rw [State.identPeriod_counts asked early]
      rfl
    · have late := Nat.not_lt.mp early
      by_cases few : s.llc.attempts < 3
      · rw [State.identPeriod_fails asked late few]
        rfl
      · rw [State.identPeriod_ends asked late (Nat.not_lt.mp few), State.changeLink_pu]
        rfl

/-- The identity attempts of a controller have failed with the period it counts (R68). -/
def Llc.fails (l : Llc) : Prop := ∃ n, l.outstanding = some n ∧ 16 ≤ n + 1 ∧ 3 ≤ l.attempts

/-- The controller after the period of an identity attempt that does not take the link to ACQUIRING (R68). -/
def Llc.identCounted (l : Llc) : Llc :=
  { l with outstanding := l.outstanding.bind fun n => if n + 1 < 16 then some (n + 1) else none }

theorem State.identPeriod_llc {s : State} (goes : ¬ s.llc.fails) : s.identPeriod.llc = s.llc.identCounted := by
  unfold Llc.identCounted
  cases asked : s.llc.outstanding with
  | none => rw [State.identPeriod_none asked, Option.bind_none, ← asked]
  | some n =>
    rw [Option.bind_some]
    by_cases early : n + 1 < 16
    · rw [State.identPeriod_counts asked early, if_pos early]
      rfl
    · have late := Nat.not_lt.mp early
      have few : s.llc.attempts < 3 := Nat.lt_of_not_le fun third => goes ⟨n, asked, late, third⟩
      rw [State.identPeriod_fails asked late few, if_neg early]
      rfl

/-! ### The block requests (R112) -/

/-- An entry that times out with the period it counts (R112). -/
def BlockRequest.late (r : BlockRequest) : Bool := r.sent && decide (8 ≤ r.periods + 1)

/-- An entry that has timed out, as it moves to the tail (R112). -/
def BlockRequest.again (r : BlockRequest) : BlockRequest := { r with sent := false, periods := 0, timeouts := r.timeouts + 1 }

theorem BlockRequest.timedOut_age (r : BlockRequest) : r.age.timedOut = r.late := by
  unfold BlockRequest.age BlockRequest.timedOut BlockRequest.late
  cases sent : r.sent with
  | false => simp [sent]
  | true => simp

theorem BlockRequest.timeouts_age (r : BlockRequest) : r.age.timeouts = r.timeouts := by
  unfold BlockRequest.age
  split <;> rfl

theorem BlockRequest.again_age (r : BlockRequest) : r.age.again = r.again := by
  unfold BlockRequest.age
  split <;> rfl

/-- The list of block requests after a period (R112). -/
def agedRequests (l : List BlockRequest) : List BlockRequest :=
  (l.filter fun r => !r.late).map BlockRequest.age ++ (l.filter BlockRequest.late).map BlockRequest.again

theorem State.loadPeriod_none {s : State} (empty : s.pu.load = none) : s.loadPeriod = s := by
  simp only [State.loadPeriod, empty]

theorem State.loadPeriod_fourth {s : State} {ld : Load} (held : s.pu.load = some ld)
    (fourth : ∃ r ∈ ld.requests, r.late = true ∧ r.timeouts = 3) : s.loadPeriod.pu.load = none := by
  obtain ⟨r, member, late, third⟩ := fourth
  unfold State.loadPeriod
  simp only [held]
  cases found : (ld.requests.map BlockRequest.age).find? (fun r => r.timedOut && r.timeouts == 3) with
  | none =>
    rw [List.find?_eq_none] at found
    refine absurd ?_ (found r.age (List.mem_map_of_mem member))
    rw [r.timedOut_age, r.timeouts_age, late, third]
    rfl
  | some x => exact State.failLoad_load _ _ _ _

theorem State.loadPeriod_ages {s : State} {ld : Load} (held : s.pu.load = some ld)
    (few : ∀ r ∈ ld.requests, r.late = true → r.timeouts ≠ 3) :
    s.loadPeriod = s.setLoad (some { ld with requests := agedRequests ld.requests }) := by
  have none_ : (ld.requests.map BlockRequest.age).find? (fun r => r.timedOut && r.timeouts == 3) = none := by
    rw [List.find?_eq_none]
    intro x member
    obtain ⟨r, listed, rfl⟩ := List.mem_map.mp member
    rw [r.timedOut_age, r.timeouts_age]
    simpa using few r listed
  unfold State.loadPeriod
  simp only [held, none_]
  congr 3
  rw [agedRequests, List.filter_map, List.filter_map, List.map_map]
  refine congrArg₂ (· ++ ·) (congrArg _ ?_) ?_
  · refine List.filter_congr fun r _ => ?_
    rw [Function.comp_apply, r.timedOut_age]
  · rw [show (BlockRequest.timedOut ∘ BlockRequest.age) = BlockRequest.late from funext BlockRequest.timedOut_age]
    exact List.map_congr_left fun r _ => r.again_age

/-- A period that is delivered to a load in progress, seen through the end of the command (R112). -/
theorem PeriodDelivered.ofLoadPeriod {s u t : State} (same : u.pu = s.pu) (kept : ProfileKept u.loadPeriod t) :
    PeriodDelivered s t := by
  intro ld held inArea
  have held' : u.pu.load = some ld := by rw [same, held]
  refine ⟨fun fourth => kept.none_ (State.loadPeriod_fourth held' fourth), fun few => ?_⟩
  have ages := State.loadPeriod_ages held' few
  rw [ages] at kept
  exact kept.held _ rfl inArea

/-! ### The period -/

section
variable {s t : State} {d : Stamp} {expected : Option (BitVec 8)}

/-- A period has come: its deadline and the sequence it expects (R63, R64). -/
def State.periodComes (s : State) (d : Stamp) (expected : Option (BitVec 8)) : State :=
  s.modLlc fun l => { l with deadline := some d, expected := expected }

/-- The 64th bad or missing period in a row takes the link to DOWN (R71, R72). -/
theorem State.periodComes_detaches (last : s.llc.run + 1 = 64) (w : State)
    (detached : w = (s.periodComes d expected).runCounted.enterDown .detach 64) :
    (s.periodComes d expected).badPeriod.periodEvent = w := by
  rw [State.badPeriod_detaches (s := s.periodComes d expected) (by exact last), ← detached]
  have llc := (s.periodComes d expected).runCounted.enterDown_llc .detach 64
  have load := (s.periodComes d expected).runCounted.enterDown_load .detach 64
  rw [← detached] at llc load
  rw [State.periodEvent, State.identPeriod_none (by rw [llc]; rfl), State.loadPeriod_none load]

/-- The controller after a period that has come and does not detach the link (R66, R68, R71). -/
def Llc.periodCounted (l : Llc) (d : Stamp) (expected : Option (BitVec 8)) : Llc :=
  { l.lossy with deadline := some d, expected := expected }.identCounted

/-- The controller after a period that ends the third identity attempt (R68). -/
def Llc.identFailed (l : Llc) (d : Stamp) (expected : Option (BitVec 8)) : Llc :=
  { l.lossy with deadline := some d, expected := expected, link := .acquiring, acquire := 0, outstanding := none }

/-- The state after the identity timeout has counted a period that does not detach the link. -/
theorem State.periodComes_ident (few : s.llc.run + 1 ≠ 64) :
    ∃ v w : State, v = (s.periodComes d expected).badPeriod ∧ w = v.identPeriod ∧
      (s.periodComes d expected).badPeriod.periodEvent = w.loadPeriod ∧ OnLink 2 s v ∧ OnLink 4 s w ∧ w.pu = s.pu ∧
      v.llc = { s.llc.lossy with deadline := some d, expected := expected, modeTarget := v.llc.modeTarget } ∧
      (s.llc.fails → w = (v.modLlc fun l => { l with outstanding := none, acquire := 0 }).changeLink .acquiring
        .identFail (s.llc.run + 1) none ∧
        w.llc = { s.llc.identFailed d expected with modeTarget := w.llc.modeTarget }) ∧
      (¬ s.llc.fails → w.llc = { s.llc.periodCounted d expected with modeTarget := w.llc.modeTarget }) := by
  obtain ⟨llc, pu, on⟩ := State.badPeriod_counts (s := s.periodComes d expected) (by exact few)
  have on' : OnLink 2 s (s.periodComes d expected).badPeriod := (OnLink.modLlc s _).trans on
  refine ⟨_, _, rfl, rfl, rfl, on', on'.trans (.identPeriod _), (State.identPeriod_pu _).trans pu, llc, ?_, ?_⟩
  all_goals generalize (s.periodComes d expected).badPeriod = v at *
  · rintro ⟨n, asked, late, third⟩
    have ends := State.identPeriod_ends (s := v) (n := n) (by rw [llc]; exact asked) late (by rw [llc]; exact third)
    have run : v.llc.run = s.llc.run + 1 := by
      rw [llc]
      rfl
    rw [run] at ends
    refine ⟨ends, ?_⟩
    rw [ends, State.changeLink_llc, State.modLlc, llc]
    rfl
  · intro goes
    rw [State.identPeriod_llc fun ⟨n, asked, late, third⟩ =>
      goes ⟨n, by rw [llc] at asked; exact asked, late, by rw [llc] at third; exact third⟩, llc]
    rfl

theorem Ended.llc_loadPeriod {w : State} (ends : Ended w.loadPeriod t) :
    t.llc = { w.llc with modeTarget := t.llc.modeTarget } := by
  rw [ends.llc, State.loadPeriod_llc]

/-- A period that does not detach the link. -/
theorem BadPeriodCounted.ofFew (few : s.llc.run + 1 ≠ 64)
    (ends : Ended (s.periodComes d expected).badPeriod.periodEvent t) : BadPeriodCounted s t d expected := by
  obtain ⟨v, w, isBad, isIdent, event, onBad, onIdent, pu, llcBad, failed, counted⟩ :=
    s.periodComes_ident (d := d) (expected := expected) few
  rw [event] at ends
  have onLoad := onIdent.trans (.loadPeriod w)
  have llc := ends.llc_loadPeriod
  have loaded : w.cru.events <+: t.cru.events := (OnLink.loadPeriod w).events.trans ends.events
  refine ⟨ends.lml.trans (by rw [onLoad.ports]), ?_, fun _ => ?_, fun last => absurd last few⟩
  · by_cases fails : s.llc.fails
    · rw [llc, (failed fails).2]
      rfl
    · rw [llc, counted fails]
      rfl
  · have delivered : PeriodDelivered s t := .ofLoadPeriod pu ends.profile
    have br : t.br = s.br := ends.br.trans onLoad.br
    by_cases fails : s.llc.fails
    · obtain ⟨changed, llcIdent⟩ := failed fails
      obtain ⟨n, asked, late, third⟩ := id fails
      have outstanding : t.llc.outstanding = none := by
        rw [llc, llcIdent]
        rfl
      refine ⟨?_, ?_, ?_, br, ?_, ?_, ?_, fun _ => outstanding, fun m asked' => ?_, fun _ => ⟨?_, ?_, fun ident => ?_⟩,
        fun goes => absurd fails goes, delivered⟩
      iterate 6 rw [llc, llcIdent]; rfl
      · rw [asked] at asked'
        cases asked'
        rw [outstanding, if_neg (Nat.not_lt.mpr late)]
      iterate 2 rw [llc, llcIdent]; rfl
      · have stays := State.badPeriod_stays (s := s.periodComes d expected) (by exact few)
          fun lost => absurd (ident.symm.trans lost.1) (by decide)
        have before : OnLink 0 s (v.modLlc fun l => { l with outstanding := none, acquire := 0 }) := by
          rw [isBad, stays]
          exact ((OnLink.modLlc s _).trans (.modLlc _ _)).trans (.modLlc _ _)
        have raised := before.raised_changeLink (t := t) (room := 1) (by omega) (changed ▸ loaded)
        have link : v.llc.link = .ident := by
          rw [isBad, stays]
          exact ident
        have lastGood : v.llc.lastGood = s.llc.lastGood := by
          rw [isBad, stays]
          rfl
        rw [← link, ← lastGood]
        exact raised
    · have outstanding : t.llc.outstanding =
          s.llc.outstanding.bind fun n => if n + 1 < 16 then some (n + 1) else none := by
        rw [llc, counted fails]
        rfl
      refine ⟨?_, ?_, ?_, br, ?_, ?_, ?_, fun idle => ?_, fun m asked => ?_, fun yes => absurd yes fails,
        fun _ => ⟨?_, fun lost => ⟨?_, ?_⟩, fun stays => ?_⟩, delivered⟩
      iterate 6 rw [llc, counted fails]; rfl
      · rw [outstanding, idle]
        rfl
      · rw [outstanding, asked]
        rfl
      · rw [llc, counted fails]
        rfl
      · rw [llc, counted fails]
        exact if_pos lost
      · have changed := State.badPeriod_loses (s := s.periodComes d expected) (by exact lost.1) (by exact lost.2)
        have before : OnLink 0 s (s.periodComes d expected).runCounted := (OnLink.modLlc s _).trans (.modLlc _ _)
        have later : v.cru.events <+: t.cru.events := by
          refine List.IsPrefix.trans ?_ loaded
          rw [isIdent]
          exact (OnLink.identPeriod v).events
        rw [isBad, changed] at later
        have raised := before.raised_changeLink (room := 1) (by omega) later
        rw [← lost.1]
        exact raised
      · rw [llc, counted fails]
        exact if_neg stays

theorem State.enterDown_lml (s : State) (reason : LinkReason) (run : Nat) :
    (s.enterDown reason run).ports.lml = s.ports.lml := by
  rw [(s.enterDown_within reason run).lml]
  refine (s.losesBands_within reason run).lml.trans ?_
  rw [State.losesHistory_eq]

/-- What every period that has come leaves (R63, R64). -/
theorem BadPeriodCounted.ofPeriod (ends : Ended (s.periodComes d expected).badPeriod.periodEvent t) :
    BadPeriodCounted s t d expected := by
  by_cases last : s.llc.run + 1 = 64
  · rw [State.periodComes_detaches last _ rfl] at ends
    have llc := (s.periodComes d expected).runCounted.enterDown_llc .detach 64
    have load := (s.periodComes d expected).runCounted.enterDown_load .detach 64
    have br := (s.periodComes d expected).runCounted.enterDown_br .detach 64
    have raised := (s.periodComes d expected).runCounted.enterDown_linkState .detach 64
    have lml := (s.periodComes d expected).runCounted.enterDown_lml .detach 64
    generalize (s.periodComes d expected).runCounted.enterDown .detach 64 = w at *
    have llc' : t.llc = { w.llc with modeTarget := t.llc.modeTarget } := ends.llc
    rw [llc] at llc'
    refine ⟨ends.lml.trans lml, ?_, fun few => absurd last (Nat.ne_of_lt few), fun _ => ⟨?_, ?_, ?_, ?_, ?_, ?_,
      fun _ _ => ends.profile.none_ load, fun room enabled => (raised room enabled).trans ends.events⟩⟩
    iterate 6 rw [llc']; rfl
    rw [ends.br, br]
    rfl
  · exact .ofFew last ends

end

theorem exec_missingPeriod {s : State} {d : Stamp} (deadline : s.llc.deadline = some d) (late : reached s.ssu.clock d = true)
    (alone : s.ssu.clock ≠ d ∨ ∀ bytes, Instr.lensFrame bytes ∉ s.pending) :
    exec .missingPeriod s = .next (s.missPeriod d).finish := by
  have forestalls : s.frameForestalls d = false := by
    unfold State.frameForestalls
    rcases alone with other | none_
    · rw [show (s.clock == d) = false from beq_false_of_ne other]
      rfl
    · rw [Bool.and_eq_false_iff]
      refine .inr ?_
      rw [List.any_eq_false]
      intro c member
      cases c with
      | lensFrame bytes => exact absurd member (none_ bytes)
      | _ => exact Bool.false_ne_true
  show Host.Outcome.next _ = _
  rw [deadline]
  dsimp only
  rw [show reached s.clock d = true from late, forestalls]
  rfl

/-- The missing period does not come about. -/
theorem exec_missingPeriod_same {s : State}
    (early : ∀ d, s.llc.deadline = some d → reached s.ssu.clock d = false ∨ s.frameForestalls d = true) :
    exec .missingPeriod s = .next s := by
  show Host.Outcome.next _ = _
  cases deadline : s.llc.deadline with
  | none => rfl
  | some d =>
    dsimp only
    rw [if_neg]
    rcases early d deadline with soon | frame
    · rw [show reached s.clock d = false from soon]
      exact Bool.false_ne_true
    · rw [frame]
      simp

theorem exec_lensFrame {s : State} (live : s.pins.resetN = true) (bytes : List Byte) :
    exec (.lensFrame bytes) s = .next (s.lensFrame bytes).finish := by
  show Host.Outcome.next (s.whenLive _) = _
  rw [State.whenLive, if_pos live]

/-- Settles O52: each bad or missing period comes with its deadline and its expected sequence, and is counted. -/
theorem missingPeriodCounted : Obligations.MissingPeriodCounted := by
  intro s
  refine ⟨fun d deadline late alone => ?_, fun bytes live up damaged => ?_, fun bytes f live link whole gap => ?_,
    fun bytes deadline waits => ?_, fun early => ?_⟩
  · rw [exec_missingPeriod deadline late alone]
    exact ⟨_, rfl, .ofPeriod (State.finish_ended _)⟩
  · rw [exec_lensFrame live]
    refine ⟨_, rfl, ?_⟩
    unfold State.lensFrame
    rw [damaged]
    dsimp only
    rw [if_neg up]
    exact .ofPeriod (State.finish_ended _)
  · rw [exec_lensFrame live]
    refine ⟨_, rfl, ?_⟩
    have bad : s.llc.judgesGood f = false := by
      have differs : (s.llc.expected == some f.sequence) = false := beq_false_of_ne gap
      unfold Llc.judgesGood
      rw [differs]
      simp only [List.mem_cons, List.not_mem_nil, or_false] at link
      rcases link with h | h | h <;> rw [h]
    unfold State.lensFrame
    rw [whole]
    dsimp only
    rw [bad, if_neg Bool.false_ne_true]
    exact .ofPeriod (State.finish_ended _)
  · refine exec_missingPeriod_same fun d is => .inr ?_
    rw [deadline] at is
    cases is
    unfold State.frameForestalls
    rw [show (s.clock == s.ssu.clock) = true from beq_self_eq_true _, Bool.true_and, List.any_eq_true]
    exact ⟨_, waits, rfl⟩
  · exact exec_missingPeriod_same fun d is => .inl (early d is)

end Sys2Proof.Machine
end

