-- ==== Sys2Proof/Proofs/GoodFrames.lean ====
section
/-! SUPPORT. The good frame (R63–R74): its period, how the link takes it, its period event and the part frame that answers
it, each seen through the end of the command. -/

namespace Sys2Proof.Machine

/-! ### The load at a period and at an answer -/

/-- The load, or the one that has taken its place with the same target. -/
def Load.sameTarget (a b : Option Load) : Prop :=
  (a = none → b = none) ∧ ∀ ld, a = some ld → ∃ x, b = some x ∧ x.target = ld.target

theorem Load.sameTarget.refl (a : Option Load) : Load.sameTarget a a := ⟨fun h => h, fun ld h => ⟨ld, h, rfl⟩⟩

theorem Load.sameTarget.trans {a b c : Option Load} (x : Load.sameTarget a b) (y : Load.sameTarget b c) :
    Load.sameTarget a c :=
  ⟨fun h => y.1 (x.1 h), fun ld h => by
    obtain ⟨m, middle, target⟩ := x.2 ld h
    obtain ⟨n, last, target'⟩ := y.2 m middle
    exact ⟨n, last, target'.trans target⟩⟩

theorem ProfileKept.sameTarget {s t : State} (k : ProfileKept s t) : Load.sameTarget s.pu.load t.pu.load :=
  ⟨k.none_, k.pending⟩

/-- A load with nothing requested outlives a period (R112). -/
theorem State.loadPeriod_sameTarget {s : State} (unasked : ∀ ld, s.pu.load = some ld → ld.requests = []) :
    Load.sameTarget s.pu.load s.loadPeriod.pu.load := by
  cases held : s.pu.load with
  | none =>
    rw [State.loadPeriod_none held, held]
    exact .refl _
  | some ld =>
    have none_ := unasked ld held
    rw [State.loadPeriod_ages held (by rw [none_]; simp)]
    exact ⟨nofun, fun x same => by
      cases same
      exact ⟨_, rfl, rfl⟩⟩

theorem State.loadPeriod_empty {s : State} (empty : s.pu.load = none) : s.loadPeriod.pu.load = none := by
  rw [State.loadPeriod_none empty, empty]

/-- A load goes on: with no request lost it may have sent one more (R110). -/
structure Load.Continues (ld x : Load) : Prop where
  area : x.area = ld.area
  target : x.target = ld.target
  known : x.known = ld.known
  blocks : ld.requests.map BlockRequest.block <+: x.requests.map BlockRequest.block

theorem Load.Continues.refl (ld : Load) : Load.Continues ld ld := ⟨rfl, rfl, rfl, List.prefix_refl _⟩

theorem markSent_blocks (block : Nat) (l : List BlockRequest) :
    (markSent block l).map BlockRequest.block = l.map BlockRequest.block := by
  unfold markSent
  rw [List.map_map]
  refine List.map_congr_left fun r _ => ?_
  dsimp only [Function.comp]
  split <;> rfl

theorem Load.offer_continues {ld x : Load} {block : Nat} (offered : ld.offer = some (block, x)) : Load.Continues ld x := by
  unfold Load.offer at offered
  split at offered
  · cases offered
  · dsimp only at offered
    split at offered
    · cases offered
      exact ⟨rfl, rfl, rfl, by rw [markSent_blocks]⟩
    · split at offered
      · split at offered
        · next start =>
          cases offered
          rw [Bool.and_eq_true, List.isEmpty_iff] at start
          exact ⟨rfl, rfl, rfl, by rw [start.1]; exact List.nil_prefix⟩
        · cases offered
      · split at offered
        · cases offered
          exact ⟨rfl, rfl, rfl, by rw [List.map_append]; exact List.prefix_append _ _⟩
        · cases offered

/-- An offer sends one request of the load in progress (R110). -/
theorem Load.offer_sent {ld x : Load} {block : Nat} (offered : ld.offer = some (block, x)) :
    x.area.isSome = true ∧
      ∃ r ∈ x.requests, r.sent = true ∧ r.periods = 0 ∧ r.block = block := by
  unfold Load.offer at offered
  split at offered
  · cases offered
  · next inArea =>
    have inArea : ld.area.isSome = true := by
      cases area : ld.area with
      | none =>
        rw [area] at inArea
        exact absurd rfl inArea
      | some a => rfl
    dsimp only at offered
    split at offered
    · next r found =>
      cases offered
      refine ⟨inArea, _, List.mem_map_of_mem (List.mem_of_find?_eq_some found), ?_⟩
      rw [if_pos rfl]
      exact ⟨rfl, rfl, rfl⟩
    · split at offered
      · split at offered
        · cases offered
          exact ⟨inArea, _, List.mem_singleton_self _, rfl, rfl, rfl⟩
        · cases offered
      · split at offered
        · cases offered
          exact ⟨inArea, _, List.mem_append_right _ (List.mem_singleton_self _), rfl, rfl, rfl⟩
        · cases offered

/-! ### The answer (R74) -/

/-- IDENT_REQ answers: IDENT with attempts left and none outstanding (R67, R68, R74). -/
def Llc.asksIdentity (l : Llc) : Prop := l.link = .ident ∧ l.attempts < 3 ∧ l.outstanding = none

theorem State.answerFrame_ident {s : State} (f : LensFrame) (asks : s.llc.asksIdentity) : s.answerFrame f =
    (s.modLlc fun l => { l with attempts := l.attempts + 1, outstanding := some 0 }).sendPart (.identReq f.sequence) := by
  unfold State.answerFrame
  exact if_pos asks

theorem State.answerFrame_mode {s : State} {f : LensFrame} (known : ¬ s.llc.asksIdentity)
    (differs : f.kind ≠ s.llc.modeTarget) : s.answerFrame f = s.sendPart (.modeReq f.sequence s.llc.modeTarget) := by
  unfold Llc.asksIdentity at known
  unfold State.answerFrame
  rw [if_neg known, if_pos differs]

theorem State.answerFrame_poll {s : State} {f : LensFrame} (known : ¬ s.llc.asksIdentity)
    (same : f.kind = s.llc.modeTarget)
    (idle : ¬ (s.llc.link = .ready ∧ s.llc.linkMode = .normal ∧ s.llc.modeTarget = .normal)) :
    s.answerFrame f = s.sendPart (.poll f.sequence) := by
  unfold Llc.asksIdentity at known
  unfold State.answerFrame
  rw [if_neg known, if_neg (not_not_intro same), if_neg idle]

theorem State.answerFrame_ready {s : State} {f : LensFrame} (known : ¬ s.llc.asksIdentity)
    (same : f.kind = s.llc.modeTarget)
    (ready : s.llc.link = .ready ∧ s.llc.linkMode = .normal ∧ s.llc.modeTarget = .normal) :
    s.answerFrame f = s.answerReady f.sequence := by
  unfold Llc.asksIdentity at known
  unfold State.answerFrame
  rw [if_neg known, if_neg (not_not_intro same), if_pos ready]

/-- The Profile Unit's answer: nothing to ask for, or one request of the load in progress (R74, R110). -/
theorem State.answerReady_cases (s : State) (sequence : BitVec 8) :
    s.answerReady sequence = s.sendPart (.poll sequence) ∨ ∃ ld x block, s.pu.load = some ld ∧
      ld.offer = some (block, x) ∧ s.answerReady sequence = (s.setLoad (some x)).sendPart (.blockReq sequence block) := by
  unfold State.answerReady
  cases held : s.pu.load with
  | none => exact .inl rfl
  | some ld =>
    rw [Option.bind_some]
    cases offered : ld.offer with
    | none => exact .inl rfl
    | some o => exact .inr ⟨ld, o.2, o.1, rfl, offered, rfl⟩

/-- What an answer leaves unchanged. -/
structure Answered (s t : State) : Prop where
  llc : t.llc = { s.llc with attempts := t.llc.attempts, outstanding := t.llc.outstanding }
  br : t.br = s.br
  events : t.cru.events = s.cru.events
  mpu : t.mpu = s.mpu
  none_ : s.pu.load = none → t.pu.load = none
  held : ∀ ld, s.pu.load = some ld → ∃ x, t.pu.load = some x ∧ Load.Continues ld x
  pu : t.pu = { s.pu with load := t.pu.load }

theorem Answered.sendPart (s : State) (x : PartFrame) : Answered s (s.sendPart x) :=
  ⟨rfl, rfl, rfl, rfl, fun h => h, fun ld h => ⟨ld, h, .refl ld⟩, rfl⟩

theorem Answered.load {s t : State} (a : Answered s t) : Load.sameTarget s.pu.load t.pu.load :=
  ⟨a.none_, fun ld h => by
    obtain ⟨x, load, goes⟩ := a.held ld h
    exact ⟨x, load, goes.target⟩⟩

theorem State.answerFrame_answered (s : State) (f : LensFrame) : Answered s (s.answerFrame f) := by
  by_cases asks : s.llc.asksIdentity
  · rw [State.answerFrame_ident f asks]
    exact ⟨rfl, rfl, rfl, rfl, fun h => h, fun ld h => ⟨ld, h, .refl ld⟩, rfl⟩
  · by_cases same : f.kind = s.llc.modeTarget
    · by_cases ready : s.llc.link = .ready ∧ s.llc.linkMode = .normal ∧ s.llc.modeTarget = .normal
      · rw [State.answerFrame_ready asks same ready]
        rcases s.answerReady_cases f.sequence with poll | ⟨ld, x, block, held, offered, sent⟩
        · rw [poll]
          exact .sendPart s _
        · rw [sent]
          refine ⟨rfl, rfl, rfl, rfl, fun none_ => ?_, fun y same => ⟨x, rfl, ?_⟩, rfl⟩
          · rw [held] at none_
            cases none_
          · rw [held] at same
            cases same
            exact Load.offer_continues offered
      · rw [State.answerFrame_poll asks same ready]
        exact .sendPart s _
    · rw [State.answerFrame_mode asks same]
      exact .sendPart s _

/-- The answers of the orders 2 to 4 (R74), where nothing is presented. -/
theorem PartSent.ofAnswer {s w t : State} {f : LensFrame} (lml : w.ports.lml = s.ports.lml)
    (known : ¬ w.llc.asksIdentity) (sent : t.ports.lml = (w.answerFrame f).ports.lml) (llc : t.llc = (w.answerFrame f).llc)
    (pu : t.pu = (w.answerFrame f).pu) : PartSent s t f := by
  have answered := w.answerFrame_answered f
  have link : t.llc.link = w.llc.link := by rw [llc, answered.llc]
  have linkMode : t.llc.linkMode = w.llc.linkMode := by rw [llc, answered.llc]
  have mode : t.llc.modeTarget = w.llc.modeTarget := by rw [llc, answered.llc]
  unfold PartSent
  dsimp only
  rw [mode, link, linkMode, sent, ← lml]
  refine ⟨fun differs => ?_, fun same quiet => ?_, fun same asks => ?_⟩
  · rw [State.answerFrame_mode known differs]
    rfl
  · by_cases ready : w.llc.link = .ready ∧ w.llc.linkMode = .normal ∧ w.llc.modeTarget = .normal
    · rw [State.answerFrame_ready known same ready]
      rw [pu, State.answerFrame_ready known same ready] at quiet
      rcases w.answerReady_cases f.sequence with poll | ⟨ld, x, block, held, offered, asked⟩
      · rw [poll]
        rfl
      · rw [asked] at quiet
        exact absurd ⟨ready.1, ready.2.1, ready.2.2, rfl⟩ quiet
    · rw [State.answerFrame_poll known same ready]
      rfl
  · obtain ⟨isReady, isNormal, target, -⟩ := asks
    rw [pu, State.answerFrame_ready known same ⟨isReady, isNormal, target⟩]
    rcases w.answerReady_cases f.sequence with poll | ⟨ld, x, block, held, offered, asked⟩
    · rw [poll]
      exact .inl rfl
    · obtain ⟨inArea, r, listed, isSent, fresh, names⟩ := Load.offer_sent offered
      rw [asked]
      refine .inr ⟨x, r, rfl, inArea, listed, isSent, fresh, ?_⟩
      rw [names]
      rfl

/-! ### The period of a good frame (R63, R64) -/

/-- A good frame has come, before the link takes it (R63, R64). -/
def State.frameComes (s : State) (f : LensFrame) : State :=
  (s.arrival (some (f.sequence + 1))).modLlc fun l => { l with run := 0, lastGood := some f.sequence }

theorem State.goodFrame_eq (s : State) (f : LensFrame) :
    s.goodFrame f = ((s.frameComes f).takeGood f).periodEvent.answerFrame f := rfl

theorem State.lensFrame_good {s : State} {bytes : List Byte} {f : LensFrame} (whole : parseLensFrame bytes = some f)
    (good : s.llc.judgesGood f = true) : s.lensFrame bytes = s.goodFrame f := by
  unfold State.lensFrame
  rw [whole]
  exact if_pos good

/-- The controller has counted the good frame `f` (R63, R64). -/
structure Llc.hasCounted (l : Llc) (clock : Stamp) (f : LensFrame) : Prop where
  run : l.run = 0
  expected : l.expected = some (f.sequence + 1)
  lastGood : l.lastGood = some f.sequence
  deadline : l.deadline = some (clock + 384)

theorem State.frameComes_counted (s : State) (f : LensFrame) : (s.frameComes f).llc.hasCounted s.ssu.clock f :=
  ⟨rfl, rfl, rfl, rfl⟩

/-- Only the link, the identity attempt, the modes and the counts of ACQUIRING change after that. -/
theorem Llc.hasCounted.keeps {l m : Llc} {clock : Stamp} {f : LensFrame} (counted : l.hasCounted clock f)
    (same : m = { l with
      link := m.link, acquire := m.acquire, attempts := m.attempts, outstanding := m.outstanding
      identified := m.identified, linkMode := m.linkMode, modeTarget := m.modeTarget, focusRef := m.focusRef }) :
    m.hasCounted clock f := by
  rw [same]
  exact ⟨counted.run, counted.expected, counted.lastGood, counted.deadline⟩

theorem Llc.hasCounted.goodPeriod {s t : State} {f : LensFrame} (counted : t.llc.hasCounted s.ssu.clock f) :
    GoodPeriod s t f := ⟨counted.run, counted.expected, counted.lastGood, counted.deadline⟩

/-! ### The period event of a good frame (R68, R112) -/

theorem State.periodEvent_llc {s : State} (goes : ¬ s.llc.fails) : s.periodEvent.llc =
    { s.llc.identCounted with modeTarget := s.periodEvent.llc.modeTarget } := by
  rw [State.periodEvent, State.loadPeriod_llc, State.identPeriod_llc goes]

theorem State.periodEvent_ends {s : State} (fails : s.llc.fails) : s.periodEvent.llc = { s.llc with
    link := .acquiring, acquire := 0, outstanding := none, modeTarget := s.periodEvent.llc.modeTarget } := by
  obtain ⟨n, asked, late, third⟩ := fails
  rw [State.periodEvent, State.loadPeriod_llc, State.identPeriod_ends asked late third, State.changeLink_llc]
  rfl

theorem State.periodEvent_counted {s : State} {clock : Stamp} {f : LensFrame} (counted : s.llc.hasCounted clock f) :
    s.periodEvent.llc.hasCounted clock f := by
  by_cases fails : s.llc.fails
  · refine counted.keeps ?_
    rw [State.periodEvent_ends fails]
  · refine counted.keeps ?_
    rw [State.periodEvent_llc fails]
    rfl

/-- The mode target stays NORMAL where the link has left READY and HOLDOVER (R76). -/
theorem State.periodEvent_normal {s : State} (goes : ¬ s.llc.fails) (off : s.llc.link ≠ .ready)
    (normal : s.llc.modeTarget = .normal) : s.periodEvent.llc.modeTarget = .normal := by
  refine (Within.loadPeriod s.identPeriod).normal ?_ ?_
  · rw [State.identPeriod_llc goes]
    exact off
  · rw [State.identPeriod_llc goes]
    exact normal

theorem State.changeLink_normal (s : State) {entered : LinkState} (slow : entered ≠ .ready) (held : entered ≠ .holdover)
    (reason : LinkReason) (run : Nat) (check : Option Byte) :
    (s.changeLink entered reason run check).llc.modeTarget = .normal := by
  rw [State.changeLink, State.evalMode_llc]
  have off : ((s.modLlc fun l => { l with link := entered }).raise
      (.linkState s.llc.link entered reason run s.llc.lastGood check)).fastLink = false := by
    unfold State.fastLink
    rw [State.raise_llc]
    cases entered with
    | ready => exact absurd rfl slow
    | holdover => exact absurd rfl held
    | _ => rfl
  simp only [State.modeTargetNow, off, Bool.false_eq_true, and_false, if_false]

end Sys2Proof.Machine
end

