-- ==== Sys2Proof/Proofs/FrameEnds.lean ====
section
/-! SUPPORT. The end of a good frame: from the link that has taken it, over its period event and its answer, to the end of the
command. -/

namespace Sys2Proof.Machine

/-! ### The areas at a failed load -/

theorem State.failLoad_area {s : State} {ld : Load} (held : s.pu.load = some ld) (reason : LoadReason)
    (check : Option FormatCheck) (block : Nat) (a : AreaId) : (s.failLoad reason check block).area a =
      if ld.area = some a then { s.area a with state := .free } else s.area a := by
  rw [State.area_ofPu (s := { s with pu := s.pu.dropped ld }) (State.failLoad_pu held ..)]
  unfold Pu.dropped
  cases area : ld.area with
  | none => cases a <;> rfl
  | some b => cases b <;> cases a <;> rfl

/-- A failed load changes no more of an area than its state. -/
theorem State.failLoad_area_rest (s : State) (reason : LoadReason) (check : Option FormatCheck) (block : Nat) (a : AreaId) :
    (s.failLoad reason check block).area a =
      { s.area a with state := ((s.failLoad reason check block).area a).state } := by
  cases held : s.pu.load with
  | none => rw [State.failLoad_none held]
  | some ld =>
    rw [State.failLoad_area held]
    split <;> rfl

theorem State.loadPeriod_area_rest (s : State) (a : AreaId) :
    s.loadPeriod.area a = { s.area a with state := (s.loadPeriod.area a).state } := by
  unfold State.loadPeriod
  split
  · rfl
  · dsimp only
    split
    · rw [State.failLoad_area_rest]
      cases a <;> rfl
    · cases a <;> rfl

theorem State.identPeriod_area (s : State) (a : AreaId) : s.identPeriod.area a = s.area a :=
  State.area_ofPu s.identPeriod_pu a

theorem Llc.not_fails {l : Llc} (waits : l.outstanding = none) : ¬ l.fails := fun ⟨n, asked, _⟩ => by
  rw [waits] at asked
  cases asked

/-- With no attempt outstanding a period leaves the controller but for the mode target (R68). -/
theorem State.periodEvent_settled {s : State} (waits : s.llc.outstanding = none) :
    s.periodEvent.llc = { s.llc with modeTarget := s.periodEvent.llc.modeTarget } := by
  have llc := State.periodEvent_llc (Llc.not_fails waits)
  rwa [show s.llc.identCounted = s.llc by
    unfold Llc.identCounted
    rw [waits, Option.bind_none, ← waits]] at llc

/-! ### The end -/

/-- From `u`, where the link has taken the good frame `f`, to the end of the command at `t`. -/
structure FrameEnds (u t : State) (f : LensFrame) : Prop where
  llc : t.llc = { (u.periodEvent.answerFrame f).llc with modeTarget := t.llc.modeTarget }
  lml : t.ports.lml = (u.periodEvent.answerFrame f).ports.lml
  br : t.br = u.br
  events : u.periodEvent.cru.events <+: t.cru.events
  normal : (u.periodEvent.answerFrame f).llc.link ≠ .ready → (u.periodEvent.answerFrame f).llc.modeTarget = .normal →
    t.llc.modeTarget = .normal
  profile : ProfileKept (u.periodEvent.answerFrame f) t
  idle : u.mpu.intake = none → t.llc = (u.periodEvent.answerFrame f).llc ∧ t.pu = (u.periodEvent.answerFrame f).pu

theorem State.frameEnds (u : State) (f : LensFrame) : FrameEnds u (u.periodEvent.answerFrame f).finish f := by
  have ends := (u.periodEvent.answerFrame f).finish_ended
  have answered := u.periodEvent.answerFrame_answered f
  have on := OnLink.periodEvent u
  refine ⟨ends.llc, ends.lml, ends.br.trans (answered.br.trans on.br), ?_, ends.normal, ends.profile,
    fun idle => ends.idle ?_⟩
  · rw [← answered.events]
    exact ends.events
  · rw [answered.mpu, on.mpu, idle]

section
variable {u t : State} {f : LensFrame} (ends : FrameEnds u t f)
include ends

theorem FrameEnds.grown : u.cru.events <+: t.cru.events := (OnLink.periodEvent u).events.trans ends.events

theorem FrameEnds.counted {clock : Stamp} (counted : u.llc.hasCounted clock f) : t.llc.hasCounted clock f := by
  refine (State.periodEvent_counted counted).keeps ?_
  rw [ends.llc, (u.periodEvent.answerFrame_answered f).llc]

theorem FrameEnds.linkMode : t.llc.linkMode = u.llc.linkMode := by
  rw [ends.llc, (u.periodEvent.answerFrame_answered f).llc]
  by_cases fails : u.llc.fails
  · rw [State.periodEvent_ends fails]
  · rw [State.periodEvent_llc fails]
    rfl

theorem FrameEnds.identified : t.llc.identified = u.llc.identified := by
  rw [ends.llc, (u.periodEvent.answerFrame_answered f).llc]
  by_cases fails : u.llc.fails
  · rw [State.periodEvent_ends fails]
  · rw [State.periodEvent_llc fails]
    rfl

/-- The area's mark and bytes stay. -/
theorem FrameEnds.area (a : AreaId) : (t.area a).matchMark = (u.area a).matchMark ∧ (t.area a).bytes = (u.area a).bytes := by
  have answered : (u.periodEvent.answerFrame f).area a = u.periodEvent.area a := by
    have pu := (u.periodEvent.answerFrame_answered f).pu
    cases a
    · exact (congrArg Pu.p0 pu).trans rfl
    · exact (congrArg Pu.p1 pu).trans rfl
  have aged := u.identPeriod.loadPeriod_area_rest a
  rw [u.identPeriod_area] at aged
  rw [ends.profile.mark, ends.profile.bytes, answered, State.periodEvent, aged]
  exact ⟨rfl, rfl⟩

/-- A load with nothing requested keeps its target, and where there is none there is none after. -/
theorem FrameEnds.load (unasked : ∀ ld, u.pu.load = some ld → ld.requests = []) : Load.sameTarget u.pu.load t.pu.load := by
  have same := u.identPeriod_pu
  have aged := State.loadPeriod_sameTarget (s := u.identPeriod) (by rw [same]; exact unasked)
  rw [same] at aged
  exact aged.trans ((u.periodEvent.answerFrame_answered f).load.trans ends.profile.sameTarget)

/-- The part frame of the orders 2 to 4 (R74). -/
theorem FrameEnds.partSent {s : State} (lml : u.ports.lml = s.ports.lml) (known : ¬ u.periodEvent.llc.asksIdentity)
    (idle : u.mpu.intake = none) : PartSent s t f := by
  obtain ⟨llc, pu⟩ := ends.idle idle
  exact .ofAnswer (by rw [(OnLink.periodEvent u).ports, lml]) known ends.lml llc pu

/-- IDENT_REQ answers a frame after whose period IDENT has an attempt to make (R67, R68, R74). -/
theorem FrameEnds.asks (asks : u.periodEvent.llc.asksIdentity) : t.llc.link = .ident ∧
    t.llc.attempts = u.periodEvent.llc.attempts + 1 ∧ t.llc.outstanding = some 0 ∧
    t.ports.lml = u.ports.lml ++ [.identReq f.sequence] := by
  have llc := ends.llc
  rw [State.answerFrame_ident f asks] at llc
  refine ⟨?_, ?_, ?_, ?_⟩
  · rw [llc]
    exact asks.1
  · rw [llc]
    rfl
  · rw [llc]
    rfl
  · rw [ends.lml, State.answerFrame_ident f asks, ← (OnLink.periodEvent u).ports]
    rfl

/-- Where IDENT has no attempt to make the controller is as its period left it. -/
theorem FrameEnds.rests (known : ¬ u.periodEvent.llc.asksIdentity) :
    t.llc = { u.periodEvent.llc with modeTarget := t.llc.modeTarget } := by
  refine ends.llc.trans ?_
  by_cases same : f.kind = u.periodEvent.llc.modeTarget
  · by_cases ready : u.periodEvent.llc.link = .ready ∧ u.periodEvent.llc.linkMode = .normal ∧
        u.periodEvent.llc.modeTarget = .normal
    · rw [State.answerFrame_ready known same ready]
      rcases u.periodEvent.answerReady_cases f.sequence with poll | ⟨ld, x, block, held, offered, asked⟩
      · rw [poll]
        rfl
      · rw [asked]
        rfl
    · rw [State.answerFrame_poll known same ready]
      rfl
  · rw [State.answerFrame_mode known same]
    rfl

/-- With no attempt outstanding and none to make the controller is as it took the frame. -/
theorem FrameEnds.settled (waits : u.llc.outstanding = none) (known : ¬ u.llc.asksIdentity) :
    ¬ u.periodEvent.llc.asksIdentity ∧ t.llc = { u.llc with modeTarget := t.llc.modeTarget } := by
  have llc := State.periodEvent_settled waits
  have still : ¬ u.periodEvent.llc.asksIdentity := by
    rw [llc]
    exact known
  exact ⟨still, by rw [ends.rests still, llc]⟩

/-- A frame taken before IDENT: the mode target is NORMAL, and MODE_REQ or POLL answers (R67, R74, R76). -/
theorem FrameEnds.early (waits : u.llc.outstanding = none) (ident : u.llc.link ≠ .ident) (ready : u.llc.link ≠ .ready)
    (normal : u.llc.modeTarget = .normal) : t.llc = { u.llc with modeTarget := t.llc.modeTarget } ∧
      t.ports.lml = u.ports.lml ++ [if f.kind = .fast then .modeReq f.sequence .normal else .poll f.sequence] := by
  have target := State.periodEvent_normal (Llc.not_fails waits) ready normal
  have llc := State.periodEvent_settled waits
  obtain ⟨known, rests⟩ := ends.settled waits fun asks => ident asks.1
  refine ⟨rests, ?_⟩
  · rw [ends.lml, ← (OnLink.periodEvent u).ports]
    cases kind : f.kind with
    | normal =>
      rw [State.answerFrame_poll known (by rw [kind, target]) fun both => ready (by
        have link := both.1
        rw [llc] at link
        exact link)]
      rfl
    | fast =>
      rw [State.answerFrame_mode known (by rw [kind, target]; decide), target]
      rfl

end

end Sys2Proof.Machine
end

