-- ==== Sys2Proof/Proofs/ReplyIdentity.lean ====
section
/-! SUPPORT. An accepted identity reply (R67, R105, R107): the match mark, the load that it triggers, keeps, supersedes or
aborts, and the events before LINK_STATE. -/

namespace Sys2Proof.Machine

/-! ### The match mark (R105) -/

theorem State.modArea_areaIn {s : State} (a : AreaId) {f : Area → Area} (same : ∀ x, (f x).state = x.state) (st : AreaState) :
    (s.modArea a f).areaIn st = s.areaIn st := by
  cases a
  · change (if (f s.pu.p0).state = st then some AreaId.p0 else _) = _
    rw [same]
    rfl
  · change (if s.pu.p0.state = st then some AreaId.p0 else if (f s.pu.p1).state = st then some AreaId.p1 else none) = _
    rw [same]
    rfl

theorem State.areaIn_ofPu {s t : State} (same : t.pu = s.pu) (st : AreaState) : t.areaIn st = s.areaIn st := by
  unfold State.areaIn
  rw [same]

theorem State.markMatch_load (s : State) (reply : LensIdentity) : (s.markMatch reply).pu.load = s.pu.load := by
  unfold State.markMatch
  split
  · rfl
  · rw [State.evalMode_pu, State.modArea_load]

theorem State.markMatch_areaIn (s : State) (reply : LensIdentity) (st : AreaState) :
    (s.markMatch reply).areaIn st = s.areaIn st := by
  unfold State.markMatch
  split
  · rfl
  · next a _ =>
    refine (State.areaIn_ofPu (State.evalMode_pu _ _) st).trans ?_
    exact State.modArea_areaIn a (f := fun x => { x with matchMark := x.identity == reply }) (fun _ => rfl) st

theorem State.markMatch_area (s : State) (reply : LensIdentity) (a : AreaId) : (s.markMatch reply).area a =
    if s.areaIn .active = some a then { s.area a with matchMark := (s.area a).identity == reply } else s.area a := by
  unfold State.markMatch
  cases active : s.areaIn .active with
  | none => rw [if_neg nofun]
  | some b =>
    dsimp only
    rw [State.area_ofPu (State.evalMode_pu _ _), State.area_modArea]
    by_cases same : a = b
    · rw [if_pos same, if_pos (congrArg some same.symm)]
    · rw [if_neg same, if_neg fun h => same (Option.some.inj h).symm]

/-- No area carries the match mark of a reply: none is ACTIVE with its identity (R105). -/
theorem State.markMatch_unmatched (s : State) (reply : LensIdentity) : (s.markMatch reply).matchedArea.isNone = true ↔
    ∀ a, s.areaIn .active = some a → (s.area a).identity ≠ reply := by
  unfold State.matchedArea
  rw [s.markMatch_areaIn]
  cases active : s.areaIn .active with
  | none => exact ⟨fun _ => nofun, fun _ => rfl⟩
  | some a =>
    dsimp only
    rw [s.markMatch_area, if_pos active]
    dsimp only
    by_cases same : (s.area a).identity = reply
    · rw [if_pos (beq_iff_eq.mpr same)]
      exact ⟨nofun, fun other => absurd same (other a rfl)⟩
    · rw [if_neg fun h => same (beq_iff_eq.mp h)]
      refine ⟨fun _ b here => ?_, fun _ => rfl⟩
      cases here
      exact same

/-! ### The load (R107) -/

/-- The load that a reply triggers is wanted (R107). -/
def State.wantsLoad (s : State) (reply : LensIdentity) : Prop := s.cru.settings.acceptance = .auto ∧
  ∀ a, s.areaIn .active = some a → (s.area a).identity ≠ reply

theorem State.wantsLoad_iff (s : State) (reply : LensIdentity) : ((s.markMatch reply).cru.settings.acceptance == .auto &&
    (s.markMatch reply).matchedArea.isNone) = true ↔ s.wantsLoad reply := by
  rw [Bool.and_eq_true, beq_iff_eq, State.markMatch_unmatched, (OnLink.markMatch s reply).settings]
  rfl

/-- The cases of R107. -/
theorem State.takeIdentity_cases (s : State) (reply : LensIdentity) :
    ((∃ ld, s.pu.load = some ld ∧ ld.target = reply) ∧ s.takeIdentity reply = s.markMatch reply) ∨
    (s.pu.load = none ∧ s.wantsLoad reply ∧ s.takeIdentity reply = (s.markMatch reply).triggerLoad reply) ∨
    (s.pu.load = none ∧ ¬ s.wantsLoad reply ∧ s.takeIdentity reply = s.markMatch reply) ∨
    (∃ ld, s.pu.load = some ld ∧ ld.target ≠ reply ∧
      ((s.wantsLoad reply ∧ s.takeIdentity reply = (s.markMatch reply).supersedeLoad reply) ∨
        (¬ s.wantsLoad reply ∧ s.takeIdentity reply = (s.markMatch reply).failLoad .link none 0))) := by
  have wants := s.wantsLoad_iff reply
  unfold State.takeIdentity
  dsimp only
  rw [s.markMatch_load]
  generalize ((s.markMatch reply).cru.settings.acceptance == .auto && (s.markMatch reply).matchedArea.isNone) = wanted at *
  cases held : s.pu.load with
  | none =>
    cases wanted with
    | true => exact .inr (.inl ⟨rfl, wants.mp rfl, rfl⟩)
    | false => exact .inr (.inr (.inl ⟨rfl, fun h => absurd (wants.mpr h) Bool.false_ne_true, rfl⟩))
  | some ld =>
    dsimp only
    by_cases same : ld.target = reply
    · exact .inl ⟨⟨ld, rfl, same⟩, if_pos same⟩
    · refine .inr (.inr (.inr ⟨ld, rfl, same, ?_⟩))
      rw [if_neg same]
      cases wanted with
      | true => exact .inl ⟨wants.mp rfl, rfl⟩
      | false => exact .inr ⟨fun h => absurd (wants.mpr h) Bool.false_ne_true, rfl⟩

theorem State.triggerLoad_load (s : State) (target : LensIdentity) :
    ∃ area, (s.triggerLoad target).pu.load = some { Load.pendingFor target with area := area } := by
  rw [State.triggerLoad_pu]
  exact Pu.triggered_load _ _

/-- A load triggered by a reply leaves the match marks. -/
theorem State.triggerLoad_mark (s : State) (target : LensIdentity) (a : AreaId) :
    ((s.triggerLoad target).area a).matchMark = (s.area a).matchMark := by
  unfold State.triggerLoad
  rw [(ProfileKept.startPending _).mark, State.area_ofPu (State.evalMode_pu _ _)]
  cases a <;> rfl

theorem State.failLoad_mark (s : State) (reason : LoadReason) (check : Option FormatCheck) (block : Nat) (a : AreaId) :
    ((s.failLoad reason check block).area a).matchMark = (s.area a).matchMark := by
  rw [State.failLoad_area_rest]

/-- The match mark of the ACTIVE area stands as the reply has it (R105). -/
theorem State.takeIdentity_mark {s : State} {reply : LensIdentity} {a : AreaId} (active : s.areaIn .active = some a) :
    ((s.takeIdentity reply).area a).matchMark = decide ((s.area a).identity = reply) := by
  have marked : ((s.markMatch reply).area a).matchMark = decide ((s.area a).identity = reply) := by
    rw [s.markMatch_area, if_pos active]
    exact beq_eq_decide _ _
  rcases s.takeIdentity_cases reply with ⟨_, h⟩ | ⟨_, _, h⟩ | ⟨_, _, h⟩ | ⟨ld, _, _, ⟨_, h⟩ | ⟨_, h⟩⟩ <;> rw [h]
  · exact marked
  · rw [State.triggerLoad_mark, marked]
  · exact marked
  · rw [State.supersedeLoad, State.triggerLoad_mark, State.failLoad_mark, marked]
  · rw [State.failLoad_mark, marked]

/-- A load with the reply's target is kept (R107). -/
theorem State.takeIdentity_keeps {s : State} {ld : Load} {reply : LensIdentity} (held : s.pu.load = some ld)
    (same : ld.target = reply) : (s.takeIdentity reply).pu.load = some ld := by
  rcases s.takeIdentity_cases reply with ⟨_, h⟩ | ⟨none_, _⟩ | ⟨none_, _⟩ | ⟨x, held', other, _⟩
  · rw [h, s.markMatch_load, held]
  · rw [held] at none_
    cases none_
  · rw [held] at none_
    cases none_
  · rw [held] at held'
    cases held'
    exact absurd same other

/-- With no load of the reply's target one is triggered where it is wanted, and else none is held (R107). -/
theorem State.takeIdentity_load {s : State} {reply : LensIdentity} (other : ∀ ld, s.pu.load = some ld → ld.target ≠ reply) :
    (s.wantsLoad reply → ∃ area, (s.takeIdentity reply).pu.load = some { Load.pendingFor reply with area := area }) ∧
    (¬ s.wantsLoad reply → (s.takeIdentity reply).pu.load = none) := by
  rcases s.takeIdentity_cases reply with ⟨⟨ld, held, same⟩, _⟩ | ⟨_, wants, h⟩ | ⟨none_, spare, h⟩ | ⟨ld, _, _, ⟨wants, h⟩ | ⟨spare, h⟩⟩
  · exact absurd same (other ld held)
  · rw [h]
    exact ⟨fun _ => State.triggerLoad_load _ _, fun spare => absurd wants spare⟩
  · rw [h, s.markMatch_load]
    exact ⟨fun wants => absurd wants spare, fun _ => none_⟩
  · rw [h]
    exact ⟨fun _ => State.triggerLoad_load _ _, fun spare => absurd wants spare⟩
  · rw [h]
    exact ⟨fun wants => absurd wants spare, fun _ => State.failLoad_load _ _ _ _⟩

theorem State.markMatch_blocks (s : State) (reply : LensIdentity) (ld : Load) :
    (s.markMatch reply).blocksReceived ld = s.blocksReceived ld := by
  unfold State.blocksReceived
  cases ld.area with
  | none => rfl
  | some a =>
    have received : ((s.markMatch reply).area a).received = (s.area a).received := by
      rw [s.markMatch_area]
      split <;> rfl
    cases a <;> exact congrArg (fun v => v.toList.countP id) received

/-- A load of another target ends with PROFILE_FAILED, SUPERSEDED where the reply's load is wanted, else LINK (R107, R114,
R115). -/
theorem State.takeIdentity_failed {s : State} {ld : Load} {reply : LensIdentity} (held : s.pu.load = some ld)
    (other : ld.target ≠ reply) : ∃ u reason, OnLink 1 s u ∧
      (u.raise (.profileFailed reason ld.area (some ld.target) none ld.known (s.blocksReceived ld) 0)).cru.events <+:
        (s.takeIdentity reply).cru.events ∧
      (s.wantsLoad reply → reason = .superseded) ∧ (¬ s.wantsLoad reply → reason = .link) := by
  have fails (reason : LoadReason) := State.failLoad_some (s := s.markMatch reply) (ld := ld)
    (by rw [s.markMatch_load, held]) reason none 0
  rw [s.markMatch_blocks] at fails
  have on : OnLink 1 s ((s.markMatch reply).dropLoad ld) :=
    (OnLink.markMatch s reply).trans (.ofUnits _ _ ((s.markMatch reply).pu.dropped ld))
  rcases s.takeIdentity_cases reply with ⟨⟨x, held', same⟩, _⟩ | ⟨none_, _⟩ | ⟨none_, _⟩ | ⟨_, _, _, ⟨wants, h⟩ | ⟨spare, h⟩⟩
  · rw [held] at held'
    cases held'
    exact absurd same other
  · rw [held] at none_
    cases none_
  · rw [held] at none_
    cases none_
  · refine ⟨_, .superseded, on, ?_, fun _ => rfl, fun spare => absurd wants spare⟩
    rw [h, State.supersedeLoad, fails]
    exact (OnLink.evalMode _ _).events.trans (OnLink.triggerLoad _ _).events
  · refine ⟨_, .link, on, ?_, fun wants => absurd wants spare, fun _ => rfl⟩
    rw [h, fails]
    exact (OnLink.evalMode _ _).events

/-! ### The events before LINK_STATE (R76, R78) -/

/-- The events raised, with the MODE_DEFERRED that a fall of the mode target would raise (R78). -/
def State.deferrable (s : State) : Nat := s.cru.events.length + if s.llc.modeTarget = .fast then 1 else 0

/-- From `s` to `t` in IDENT, where the mode target can only fall: `n` events at most besides MODE_DEFERRED (R76, R78). -/
structure InIdent (n : Nat) (s t : State) : Prop where
  link : t.llc.link = s.llc.link
  few : s.llc.link = .ident → t.deferrable ≤ s.deferrable + n

theorem InIdent.refl (s : State) : InIdent 0 s s := ⟨rfl, fun _ => Nat.le_refl _⟩

theorem InIdent.mono {n m : Nat} {s t : State} (a : InIdent n s t) (le : n ≤ m) : InIdent m s t :=
  ⟨a.link, fun ident => (a.few ident).trans (by omega)⟩

theorem InIdent.trans {n m : Nat} {s t u : State} (a : InIdent n s t) (b : InIdent m t u) : InIdent (n + m) s u where
  link := b.link.trans a.link
  few := fun ident => by
    have first := a.few ident
    have second := b.few (a.link.trans ident)
    omega

theorem InIdent.ofPu (s : State) (p : Pu) : InIdent 0 s { s with pu := p } := ⟨rfl, fun _ => Nat.le_refl _⟩

theorem InIdent.modArea (s : State) (a : AreaId) (f : Area → Area) : InIdent 0 s (s.modArea a f) := by
  cases a <;> exact .ofPu s _

theorem InIdent.raise (s : State) (e : Event) : InIdent 1 s (s.raise e) := by
  refine ⟨congrArg Llc.link (s.raise_llc e), fun _ => ?_⟩
  have few := s.raiseFor_length none e
  unfold State.deferrable
  rw [State.raise_llc]
  change (s.raiseFor none e).cru.events.length + _ ≤ _
  omega

/-- In IDENT an evaluation defers FAST at most once (R76, R78). -/
theorem InIdent.evalMode (s : State) : InIdent 0 s (s.evalMode false) := by
  refine ⟨by rw [State.evalMode_llc], fun ident => ?_⟩
  have target : s.modeTargetNow = .normal := by simp [State.modeTargetNow, State.fastLink, ident]
  have few := s.evalMode_length false
  unfold State.deferrable
  rw [State.evalMode_llc, target]
  cases mode : s.llc.modeTarget with
  | fast =>
    simp only [reduceCtorEq, if_false, if_true]
    omega
  | normal =>
    have same : (s.evalMode false).cru.events = s.cru.events := by
      unfold State.evalMode
      simp only [target, mode]
      rw [if_neg (by simp)]
    rw [same]
    simp

theorem InIdent.failLoad (s : State) (reason : LoadReason) (check : Option FormatCheck) (block : Nat) :
    InIdent 1 s (s.failLoad reason check block) := by
  cases held : s.pu.load with
  | none =>
    rw [State.failLoad_none held]
    exact (InIdent.refl s).mono (by omega)
  | some ld =>
    rw [State.failLoad_some held]
    exact ((InIdent.ofPu s (s.pu.dropped ld)).trans (.raise _ _)).trans (.evalMode _)

theorem InIdent.startPending (s : State) : InIdent 0 s s.startPending := by
  unfold State.startPending
  split
  · exact .refl s
  · split
    · exact ((InIdent.modArea s _ _).trans (.ofPu _ _)).trans (.evalMode _)
    · exact .refl s

theorem InIdent.triggerLoad (s : State) (target : LensIdentity) : InIdent 0 s (s.triggerLoad target) :=
  ((InIdent.ofPu s _).trans (.evalMode _)).trans (.startPending _)

theorem InIdent.markMatch (s : State) (reply : LensIdentity) : InIdent 0 s (s.markMatch reply) := by
  unfold State.markMatch
  split
  · exact .refl s
  · exact (InIdent.modArea s _ _).trans (.evalMode _)

theorem InIdent.takeIdentity (s : State) (reply : LensIdentity) : InIdent 1 s (s.takeIdentity reply) := by
  have marked := InIdent.markMatch s reply
  rcases s.takeIdentity_cases reply with ⟨_, h⟩ | ⟨_, _, h⟩ | ⟨_, _, h⟩ | ⟨_, _, _, ⟨_, h⟩ | ⟨_, h⟩⟩ <;> rw [h]
  · exact marked.mono (by omega)
  · exact (marked.trans (.triggerLoad _ _)).mono (by omega)
  · exact marked.mono (by omega)
  · exact marked.trans ((InIdent.failLoad _ _ _ _).trans (.triggerLoad _ _))
  · exact marked.trans (.failLoad _ _ _ _)

end Sys2Proof.Machine
end

