-- ==== Sys2Proof/Proofs/ReplyTaken.lean ====
section
/-! SUPPORT. The reply that identifies the lens (R67, R73, R86, R107), seen through the end of its frame. -/

namespace Sys2Proof.Machine

/-! ### The reply (R67, R86) -/

/-- The lens is identified; the newest focus and iris of another lens are absent (R67, R86). -/
def State.identifies (s : State) (reply : LensIdentity) : State :=
  { s with
    llc := { s.llc with identified := some reply }
    br := if s.llc.identified.map LensIdentity.id == some reply.id then s.br
      else { s.br with newestFocus := none, newestIris := none } }

/-- The state with the reply taken by the Profile Unit, before the link is READY (R67, R107). -/
def State.replyTaken (s : State) (reply : LensIdentity) : State :=
  (((s.identifies reply).raise (.lensIdent reply)).takeIdentity reply).modLlc fun l => { l with run := 0, outstanding := none }

theorem State.acceptReply_eq (s : State) (reply : LensIdentity) :
    s.acceptReply reply = (s.replyTaken reply).changeLink .ready .identified 0 none := rfl

section
variable (s : State) (reply : LensIdentity)

theorem State.replyTaken_onLink : OnLink 6 (s.identifies reply) (s.replyTaken reply) :=
  ((OnLink.raise _ _).trans (.takeIdentity _ _)).trans (.modLlc _ _)

theorem State.replyTaken_llc : (s.replyTaken reply).llc = { s.llc with
    identified := some reply, run := 0, outstanding := none, modeTarget := (s.replyTaken reply).llc.modeTarget } := by
  have llc := (Within.takeIdentity ((s.identifies reply).raise (.lensIdent reply)) reply).llc
  rw [State.raise_llc] at llc
  unfold State.replyTaken State.modLlc
  rw [llc]
  rfl

theorem State.acceptReply_llc : (s.acceptReply reply).llc = { s.llc with
    link := .ready, identified := some reply, run := 0, outstanding := none
    modeTarget := (s.acceptReply reply).llc.modeTarget } := by
  rw [State.acceptReply_eq, State.changeLink_llc, State.replyTaken_llc]

/-- The Profile Unit has taken the reply. -/
theorem State.acceptReply_pu :
    (s.acceptReply reply).pu = (((s.identifies reply).raise (.lensIdent reply)).takeIdentity reply).pu := by
  rw [State.acceptReply_eq, State.changeLink_pu]
  rfl

/-- Before LINK_STATE there are LENS_IDENT, at most one MODE_DEFERRED, and at most one PROFILE_FAILED (R67, R78, R107). -/
theorem State.replyTaken_few (ident : s.llc.link = .ident) :
    (s.replyTaken reply).cru.events.length ≤ s.cru.events.length + 3 := by
  have few := ((InIdent.raise (s.identifies reply) (.lensIdent reply)).trans (.takeIdentity _ reply)).few (by exact ident)
  unfold State.deferrable at few
  change (((s.identifies reply).raise (.lensIdent reply)).takeIdentity reply).cru.events.length ≤ _
  have one : (if (s.identifies reply).llc.modeTarget = .fast then 1 else 0) ≤ 1 := by split <;> omega
  have same : (s.identifies reply).cru.events.length = s.cru.events.length := rfl
  omega

end

theorem State.identifies_br (s : State) (reply : LensIdentity) :
    (s.identifies reply).br.history = s.br.history ∧ (s.identifies reply).br.lastKnown = s.br.lastKnown ∧
    ((∃ l, s.llc.identified = some l ∧ l.id = reply.id) → (s.identifies reply).br = s.br) ∧
    (¬ (∃ l, s.llc.identified = some l ∧ l.id = reply.id) →
      (s.identifies reply).br.newestFocus = none ∧ (s.identifies reply).br.newestIris = none) := by
  have same : (s.llc.identified.map LensIdentity.id == some reply.id) = true ↔
      ∃ l, s.llc.identified = some l ∧ l.id = reply.id := by
    rw [beq_iff_eq, Option.map_eq_some_iff]
  unfold State.identifies
  cases equal : s.llc.identified.map LensIdentity.id == some reply.id with
  | true => exact ⟨rfl, rfl, fun _ => rfl, fun other => absurd (same.mp equal) other⟩
  | false =>
    refine ⟨rfl, rfl, fun known => ?_, fun _ => ⟨rfl, rfl⟩⟩
    rw [same.mpr known] at equal
    cases equal

/-! ### What a change of another unit leaves of the Profile Unit's answers -/

section
variable {s t : State} (same : t.pu = s.pu)
include same

theorem State.blocksReceived_ofPu (ld : Load) : t.blocksReceived ld = s.blocksReceived ld := by
  unfold State.blocksReceived
  rw [same]

theorem State.wantsLoad_ofPu (settings : t.cru.settings = s.cru.settings) (reply : LensIdentity) :
    t.wantsLoad reply ↔ s.wantsLoad reply := by
  unfold State.wantsLoad
  simp only [State.areaIn_ofPu same, State.area_ofPu same, settings]

end

/-! ### The clauses -/

/-- The reply as the Profile Unit finds it: the lens identified and LENS_IDENT raised (R67). -/
def State.lensIdentified (s : State) (f : LensFrame) (reply : LensIdentity) : State :=
  ((s.frameComes f).identifies reply).raise (.lensIdent reply)

section
variable {s t : State} {f : LensFrame} {reply : LensIdentity}

theorem State.lensIdentified_pu : (s.lensIdentified f reply).pu = s.pu := State.raiseFor_pu ..

theorem State.lensIdentified_settings : (s.lensIdentified f reply).cru.settings = s.cru.settings :=
  (OnLink.raise ((s.frameComes f).identifies reply) (.lensIdent reply)).settings

theorem State.lensIdentified_clock : (s.lensIdentified f reply).clock = s.clock :=
  (OnLink.raise ((s.frameComes f).identifies reply) (.lensIdent reply)).clock

theorem State.lensIdentified_grown : s.cru.events <+: (s.lensIdentified f reply).cru.events :=
  (OnLink.raise ((s.frameComes f).identifies reply) (.lensIdent reply)).events

theorem State.lensIdentified_few : (s.lensIdentified f reply).cru.events.length ≤ s.cru.events.length + 1 :=
  (OnLink.raise ((s.frameComes f).identifies reply) (.lensIdent reply)).few

/-- The state after the frame, with the link READY. -/
def State.replied (s : State) (f : LensFrame) (reply : LensIdentity) : State :=
  ((s.frameComes f).acceptReply reply).checkMode f

theorem State.replied_llc : (s.replied f reply).llc = { (s.frameComes f).llc with
    link := .ready, identified := some reply, run := 0, outstanding := none, linkMode := f.kind
    modeTarget := (s.replied f reply).llc.modeTarget } := by
  unfold State.replied
  rw [State.checkMode_llc, State.acceptReply_llc]

theorem State.replied_pu : (s.replied f reply).pu = ((s.lensIdentified f reply).takeIdentity reply).pu := by
  unfold State.replied
  rw [State.checkMode_pu, State.acceptReply_pu]
  rfl

theorem State.replied_br : (s.replied f reply).br = ((s.frameComes f).identifies reply).br := by
  unfold State.replied
  rw [(OnLink.checkMode _ f).br, State.acceptReply_eq, (OnLink.changeLink _ _ _ _ _).br, (State.replyTaken_onLink _ reply).br]

theorem State.replied_ports : (s.replied f reply).ports = s.ports := by
  unfold State.replied
  rw [(OnLink.checkMode _ f).ports, State.acceptReply_eq, (OnLink.changeLink _ _ _ _ _).ports,
    (State.replyTaken_onLink _ reply).ports]
  rfl

theorem State.replied_mpu : (s.replied f reply).mpu = s.mpu := by
  unfold State.replied
  rw [(OnLink.checkMode _ f).mpu, State.acceptReply_eq, (OnLink.changeLink _ _ _ _ _).mpu,
    (State.replyTaken_onLink _ reply).mpu]
  rfl

/-- The load that stands after a reply has nothing requested, where one that is kept had nothing (R107, R109). -/
theorem State.replied_unasked (unasked : ∀ ld, s.pu.load = some ld → ld.target = reply → ld.requests = []) :
    ∀ ld, (s.replied f reply).pu.load = some ld → ld.requests = [] := by
  intro ld load
  rw [State.replied_pu] at load
  by_cases kept : ∃ x, s.pu.load = some x ∧ x.target = reply
  · obtain ⟨x, held, same⟩ := kept
    rw [State.takeIdentity_keeps (by rw [State.lensIdentified_pu, held]) same] at load
    cases load
    exact unasked ld held same
  · obtain ⟨wanted, spare⟩ := State.takeIdentity_load (s := s.lensIdentified f reply) (reply := reply) fun x held same =>
      kept ⟨x, by rw [← State.lensIdentified_pu]; exact held, same⟩
    by_cases wants : (s.lensIdentified f reply).wantsLoad reply
    · obtain ⟨area, triggered⟩ := wanted wants
      rw [triggered] at load
      cases load
      rfl
    · rw [spare wants] at load
      cases load

variable (ends : FrameEnds (s.replied f reply) t f)
include ends

theorem FrameEnds.replied_llc : t.llc = { (s.replied f reply).llc with modeTarget := t.llc.modeTarget } ∧
    ¬ (s.replied f reply).periodEvent.llc.asksIdentity := by
  have ready : (s.replied f reply).llc.link = .ready := by rw [State.replied_llc]
  have settled := ends.settled (by rw [State.replied_llc]) fun asks => absurd (ready.symm.trans asks.1) (by decide)
  exact ⟨settled.2, settled.1⟩

theorem FrameEnds.replyTaken_grown : ((s.frameComes f).replyTaken reply).cru.events <+: t.cru.events :=
  ((OnLink.changeLink _ .ready .identified 0 none).events.trans (OnLink.checkMode _ f).events).trans ends.grown

theorem FrameEnds.takeIdentity_grown : ((s.lensIdentified f reply).takeIdentity reply).cru.events <+: t.cru.events :=
  List.IsPrefix.trans (OnLink.modLlc _ _).events ends.replyTaken_grown

/-- LENS_IDENT comes first (R67). -/
theorem FrameEnds.lensIdent (room : s.cru.events.length < 16) (enabled : s.cru.settings.eventDisable.getLsbD 8 = false) :
    s.cru.events ++ [⟨.lensIdent reply, s.cru.overflow, none, s.clock⟩] <+: t.cru.events := by
  have first := State.raiseFor_events (s := (s.frameComes f).identifies reply) (e := .lensIdent reply) enabled room none
  have raised : (s.lensIdentified f reply).cru.events = _ := first
  refine List.IsPrefix.trans ?_ ((OnLink.takeIdentity (s.lensIdentified f reply) reply).events.trans ends.takeIdentity_grown)
  rw [raised]
  exact List.prefix_refl _

/-- LINK_STATE comes after three others at most (R73). -/
theorem FrameEnds.linkState (ident : s.llc.link = .ident) :
    Raised s t 7 4 (.linkState .ident .ready .identified 0 (some f.sequence) none) := by
  have llc := (s.frameComes f).replyTaken_llc reply
  have few := (s.frameComes f).replyTaken_few reply (by exact ident)
  have on := (s.frameComes f).replyTaken_onLink reply
  have link : ((s.frameComes f).replyTaken reply).llc.link = .ident := by
    rw [llc]
    exact ident
  have lastGood : ((s.frameComes f).replyTaken reply).llc.lastGood = some f.sequence := by
    rw [llc]
    rfl
  rw [← link, ← lastGood]
  refine Raised.ofRaise (u := ((s.frameComes f).replyTaken reply).modLlc fun l => { l with link := .ready }) rfl
    on.settings on.clock on.events (Nat.lt_succ_of_le few) ?_
  refine List.IsPrefix.trans (OnLink.evalMode _ false).events ?_
  exact (OnLink.checkMode ((s.frameComes f).acceptReply reply) f).events.trans ends.grown

/-- The clauses of an accepted reply (R67, R73, R86, R105, R107). -/
theorem FrameEnds.replyTaken (ident : s.llc.link = .ident) : ReplyTaken s t f reply := by
  have rests := ends.replied_llc.1
  rw [State.replied_llc] at rests
  have br := ends.br.trans State.replied_br
  obtain ⟨history, lastKnown, same, other⟩ := (s.frameComes f).identifies_br reply
  have pu := State.lensIdentified_pu (s := s) (f := f) (reply := reply)
  have wants := State.wantsLoad_ofPu pu State.lensIdentified_settings reply
  have keeps (unasked : ∀ ld, s.pu.load = some ld → ld.target = reply → ld.requests = []) :=
    ends.load (State.replied_unasked unasked)
  rw [State.replied_pu] at keeps
  refine ⟨?_, ?_, ?_, ?_, by rw [br, history]; rfl, by rw [br, lastKnown]; rfl, fun known => by rw [br, same known]; rfl,
    fun unknown => by rw [br]; exact other unknown, ends.lensIdent, ends.linkState ident, fun a active => ?_,
    fun ld held matches_ none_ => ?_, fun others => ⟨fun wanted => ?_, fun spare => ?_⟩, fun ld held differs => ?_⟩
  iterate 4 rw [rests]
  · rw [(ends.area a).1, State.area_ofPu State.replied_pu, State.takeIdentity_mark (by
      rw [State.areaIn_ofPu pu]
      exact active), State.area_ofPu pu]
  · have kept := keeps fun x held' _ => by
      rw [held] at held'
      cases held'
      exact none_
    obtain ⟨x, load, target⟩ := kept.2 ld (State.takeIdentity_keeps (by rw [pu, held]) matches_)
    exact ⟨x, load, target.trans matches_⟩
  · have kept := keeps fun x held' same => absurd same (others x held')
    obtain ⟨area, triggered⟩ := (State.takeIdentity_load (s := s.lensIdentified f reply) fun x held' =>
      others x (by rw [← pu]; exact held')).1 (wants.mpr wanted)
    obtain ⟨x, load, target⟩ := kept.2 _ triggered
    exact ⟨x, load, target⟩
  · have kept := keeps fun x held' same => absurd same (others x held')
    exact kept.1 ((State.takeIdentity_load (s := s.lensIdentified f reply) fun x held' =>
      others x (by rw [← pu]; exact held')).2 fun wanted => spare (wants.mp wanted))
  · obtain ⟨u, reason, on, raised, superseded, linked⟩ :=
      State.takeIdentity_failed (s := s.lensIdentified f reply) (by rw [pu, held]) differs
    rw [State.blocksReceived_ofPu pu] at raised
    have few : u.cru.events.length < s.cru.events.length + 3 := by
      have := on.few
      have := State.lensIdentified_few (s := s) (f := f) (reply := reply)
      omega
    have found : Raised s t 10 3
        (.profileFailed reason ld.area (some ld.target) none ld.known (s.blocksReceived ld) 0) :=
      .ofRaise rfl (on.settings.trans State.lensIdentified_settings) (on.clock.trans State.lensIdentified_clock)
        (State.lensIdentified_grown.trans on.events) few (raised.trans ends.takeIdentity_grown)
    exact ⟨fun wanted => superseded (wants.mpr wanted) ▸ found,
      fun spare => linked (fun wanted => spare (wants.mp wanted)) ▸ found⟩

end

end Sys2Proof.Machine
end

