-- ==== Sys2Proof/Proofs/FirstFrames.lean ====
section
/-! PROOF. The first lens frames (R65–R68, R73, R74): ACQUIRING, IDENT, and the reply that identifies the lens. -/

namespace Sys2Proof.Machine

/-! ### How the link takes a good frame before READY -/

section
variable {s : State} (f : LensFrame)

theorem State.takeGood_down (link : s.llc.link = .down) : s.takeGood f =
    ((s.modLlc fun l => { l with acquire := 1 }).changeLink .acquiring .firstFrame 0 none).checkMode f := by
  unfold State.takeGood
  rw [link]

theorem State.takeGood_acquires (link : s.llc.link = .acquiring) (few : s.llc.acquire + 1 < 8) : s.takeGood f =
    (s.modLlc fun l => { l with acquire := l.acquire + 1 }).checkMode f := by
  unfold State.takeGood
  rw [link]
  exact if_pos few

/-- A link that has acquired the lens, with its first identity attempt ahead (R67). -/
def State.acquired (s : State) : State :=
  (s.modLlc fun l => { l with acquire := l.acquire + 1 }).modLlc fun l => { l with attempts := 0, outstanding := none }

theorem State.takeGood_acquired (link : s.llc.link = .acquiring) (eighth : ¬ s.llc.acquire + 1 < 8) : s.takeGood f =
    (s.acquired.changeLink .ident .acquired 0 none).checkMode f := by
  unfold State.takeGood
  rw [link]
  exact if_neg eighth

theorem State.takeGood_unreplied (link : s.llc.link = .ident) (rest : f.reply = none ∨ s.llc.outstanding = none) :
    s.takeGood f = s.checkMode f := by
  unfold State.takeGood
  rw [link]
  rcases rest with none_ | none_
  · simp only [none_]
  · cases reply : f.reply <;> simp only [none_]

theorem State.takeGood_replied {reply : LensIdentity} {n : Nat} (link : s.llc.link = .ident) (given : f.reply = some reply)
    (asked : s.llc.outstanding = some n) : s.takeGood f = (s.acceptReply reply).checkMode f := by
  unfold State.takeGood
  rw [link]
  simp only [given, asked]

end

/-! ### The clauses -/

theorem exec_lensFrame_good {s : State} {bytes : List Byte} {f : LensFrame} (live : s.pins.resetN = true)
    (whole : parseLensFrame bytes = some f) (good : s.llc.judgesGood f = true) : exec (.lensFrame bytes) s =
      .next (((s.frameComes f).takeGood f).periodEvent.answerFrame f).finish := by
  rw [exec_lensFrame live, State.lensFrame_good whole good, State.goodFrame_eq]

theorem Llc.judgesGood_expected {l : Llc} {f : LensFrame} (expected : l.expected = some f.sequence) :
    l.judgesGood f = true := by
  have same : (l.expected == some f.sequence) = true := beq_iff_eq.mpr expected
  unfold Llc.judgesGood
  cases l.link with
  | down => rfl
  | holdover => rfl
  | _ => exact same

/-- The first frame of a link that is DOWN (R65). -/
theorem FrameEnds.first {s t : State} {f : LensFrame} (down : s.llc.link = .down) (waits : s.llc.outstanding = none)
    (ends : FrameEnds ((s.frameComes f).takeGood f) t f) : t.llc.link = .acquiring ∧ t.llc.acquire = 1 ∧ t.llc.run = 0 ∧
      t.llc.expected = some (f.sequence + 1) ∧ t.llc.deadline = some (s.ssu.clock + 384) ∧ t.llc.linkMode = f.kind ∧
      t.br = s.br ∧ t.ports.lml = s.ports.lml ++
        [if f.kind = .fast then .modeReq f.sequence .normal else .poll f.sequence] := by
  have take := State.takeGood_down (s := s.frameComes f) f down
  have normal := ((s.frameComes f).modLlc fun l => { l with acquire := 1 }).changeLink_normal (entered := .acquiring)
    (by decide) (by decide) .firstFrame 0 none
  have on : OnLink 3 (s.frameComes f) ((s.frameComes f).takeGood f) := by
    rw [take]
    exact ((OnLink.modLlc _ _).trans (.changeLink _ _ _ _ _)).trans (.checkMode _ f)
  have llc : ((s.frameComes f).takeGood f).llc = { (s.frameComes f).llc with
      link := .acquiring, acquire := 1, linkMode := f.kind, modeTarget := .normal } := by
    rw [take, State.checkMode_llc, State.changeLink_llc, normal]
    rfl
  generalize (s.frameComes f).takeGood f = u at *
  have link : u.llc.link = .acquiring := by rw [llc]
  obtain ⟨rests, lml⟩ := ends.early (by rw [llc]; exact waits) (by rw [link]; decide) (by rw [link]; decide) (by rw [llc])
  rw [llc] at rests
  exact ⟨congrArg Llc.link rests, congrArg Llc.acquire rests, congrArg Llc.run rests, congrArg Llc.expected rests,
    congrArg Llc.deadline rests, congrArg Llc.linkMode rests, ends.br.trans on.br, by rw [lml, on.ports]; rfl⟩

/-- A frame that a link ACQUIRING counts (R66). -/
theorem FrameEnds.acquires {s t : State} {f : LensFrame} (link : s.llc.link = .acquiring) (waits : s.llc.outstanding = none)
    (normal : s.llc.modeTarget = .normal) (few : s.llc.acquire < 7) (ends : FrameEnds ((s.frameComes f).takeGood f) t f) :
    GoodPeriod s t f ∧ t.br = s.br ∧ t.llc.identified = s.llc.identified ∧ t.llc.linkMode = f.kind ∧
      t.llc.link = .acquiring ∧ t.llc.acquire = s.llc.acquire + 1 ∧
      t.ports.lml = s.ports.lml ++ [if f.kind = .fast then .modeReq f.sequence .normal else .poll f.sequence] ∧
      (f.kind ≠ s.llc.linkMode → Raised s t 11 1 (.modeChanged s.llc.linkMode f.kind .normal (some f.sequence))) := by
  have take := State.takeGood_acquires (s := s.frameComes f) f link (by exact Nat.succ_lt_succ few)
  have on : OnLink 1 (s.frameComes f) ((s.frameComes f).takeGood f) := by
    rw [take]
    exact ((OnLink.modLlc _ _).trans (.checkMode _ f)).mono (by omega)
  have llc : ((s.frameComes f).takeGood f).llc = { (s.frameComes f).llc with
      acquire := s.llc.acquire + 1, linkMode := f.kind } := by
    rw [take, State.checkMode_llc]
    rfl
  have changed (differs : f.kind ≠ s.llc.linkMode) : (s.frameComes f).takeGood f =
      (((s.frameComes f).modLlc fun l => { l with acquire := l.acquire + 1 }).modLlc fun l =>
        { l with linkMode := f.kind }).raise (.modeChanged s.llc.linkMode f.kind s.llc.modeTarget (some f.sequence)) := by
    rw [take, State.checkMode]
    exact if_neg differs
  generalize (s.frameComes f).takeGood f = u at *
  have link' : u.llc.link = .acquiring := by
    rw [llc]
    exact link
  obtain ⟨rests, lml⟩ := ends.early (by rw [llc]; exact waits) (by rw [link']; decide) (by rw [link']; decide)
    (by rw [llc]; exact normal)
  have counted : u.llc.hasCounted s.ssu.clock f := (s.frameComes_counted f).keeps (by rw [llc])
  rw [llc] at rests
  refine ⟨(ends.counted counted).goodPeriod, ends.br.trans on.br, (congrArg Llc.identified rests).trans rfl, congrArg Llc.linkMode rests,
    (congrArg Llc.link rests).trans link, congrArg Llc.acquire rests, by rw [lml, on.ports]; rfl, fun differs => ?_⟩
  have before : OnLink 0 s (((s.frameComes f).modLlc fun l => { l with acquire := l.acquire + 1 }).modLlc fun l =>
      { l with linkMode := f.kind }) := .ofUnits s _ _
  have raised := before.raised (bit := 11) (room := 1) rfl (by omega) (changed differs ▸ ends.grown)
  rwa [normal] at raised

/-- The eighth frame of a link ACQUIRING (R67). -/
theorem FrameEnds.acquired {s t : State} {f : LensFrame} (link : s.llc.link = .acquiring) (eighth : s.llc.acquire = 7)
    (ends : FrameEnds ((s.frameComes f).takeGood f) t f) :
    GoodPeriod s t f ∧ t.br = s.br ∧ t.llc.identified = s.llc.identified ∧ t.llc.linkMode = f.kind ∧
      t.llc.link = .ident ∧ t.llc.attempts = 1 ∧ t.llc.outstanding = some 0 ∧
      t.ports.lml = s.ports.lml ++ [.identReq f.sequence] ∧
      Raised s t 7 1 (.linkState .acquiring .ident .acquired 0 (some f.sequence) none) := by
  have take := State.takeGood_acquired (s := s.frameComes f) f link
    (by change ¬ s.llc.acquire + 1 < 8; omega)
  have on : OnLink 3 (s.frameComes f) ((s.frameComes f).takeGood f) := by
    rw [take]
    exact (((OnLink.modLlc _ _).trans (.modLlc _ _)).trans (.changeLink _ _ _ _ _)).trans (.checkMode _ f)
  have later : ((s.frameComes f).acquired.changeLink .ident .acquired 0 none).cru.events <+:
      ((s.frameComes f).takeGood f).cru.events := by
    rw [take]
    exact (OnLink.checkMode _ f).events
  have llc : ((s.frameComes f).takeGood f).llc = { (s.frameComes f).llc with
      link := .ident, acquire := s.llc.acquire + 1, attempts := 0, outstanding := none, linkMode := f.kind
      modeTarget := ((s.frameComes f).takeGood f).llc.modeTarget } := by
    rw [take, State.checkMode_llc, State.changeLink_llc]
    rfl
  generalize (s.frameComes f).takeGood f = u at *
  have settled := State.periodEvent_settled (s := u) (by rw [llc])
  have asks : u.periodEvent.llc.asksIdentity := by
    rw [settled, llc]
    exact ⟨rfl, Nat.zero_lt_succ 2, rfl⟩
  obtain ⟨link', attempts, outstanding, lml⟩ := ends.asks asks
  have counted : u.llc.hasCounted s.ssu.clock f := (s.frameComes_counted f).keeps (by rw [llc])
  have before : OnLink 0 s (s.frameComes f).acquired := .ofUnits s _ _
  have raised := before.raised_changeLink (room := 1) (by omega) (later.trans ends.grown)
  refine ⟨(ends.counted counted).goodPeriod, ends.br.trans on.br, ?_, ?_, link', ?_, outstanding, by rw [lml, on.ports]; rfl, ?_⟩
  · rw [ends.identified, llc]
    rfl
  · rw [ends.linkMode, llc]
  · rw [attempts, settled, llc]
  · have left : (s.frameComes f).acquired.llc.link = .acquiring := link
    rw [← left]
    exact raised

/-! ### IDENT without a reply (R67, R68) -/

section
variable {s t : State} {f : LensFrame}

theorem State.checkMode_ident : ((s.frameComes f).checkMode f).llc = { s.llc with
    linkMode := f.kind, run := 0, expected := some (f.sequence + 1), lastGood := some f.sequence
    deadline := some (stampAdd s.clock 384) } :=
  State.checkMode_llc _ f

theorem State.checkMode_onLink : OnLink 1 s ((s.frameComes f).checkMode f) :=
  ((OnLink.ofUnits s (s.frameComes f).llc s.pu).trans (.checkMode _ f)).mono (by omega)

variable (ident : s.llc.link = .ident) (ends : FrameEnds ((s.frameComes f).checkMode f) t f)
include ident ends

/-- An attempt that is not outstanding, or fails with this period, is made again (R68). -/
theorem FrameEnds.asksAgain (spent : ∀ n, s.llc.outstanding = some n → 16 ≤ n + 1) (few : s.llc.attempts < 3) :
    t.llc.link = .ident ∧ t.llc.attempts = s.llc.attempts + 1 ∧ t.llc.outstanding = some 0 ∧
      t.ports.lml = s.ports.lml ++ [.identReq f.sequence] := by
  have llc := State.checkMode_ident (s := s) (f := f)
  have on := State.checkMode_onLink (s := s) (f := f)
  generalize (s.frameComes f).checkMode f = u at *
  have settled := State.periodEvent_llc (s := u) fun ⟨n, _, _, third⟩ => by
    rw [llc] at third
    exact absurd third (Nat.not_le.mpr few)
  have none_ : (s.llc.outstanding.bind fun n => if n + 1 < 16 then some (n + 1) else none) = none := by
    cases asked : s.llc.outstanding with
    | none => rfl
    | some n => exact if_neg (Nat.not_lt.mpr (spent n asked))
  have asks : u.periodEvent.llc.asksIdentity := by
    rw [settled, llc]
    exact ⟨ident, few, none_⟩
  obtain ⟨link, attempts, outstanding, lml⟩ := ends.asks asks
  refine ⟨link, ?_, outstanding, by rw [lml, on.ports]⟩
  rw [attempts, settled, llc]
  rfl

/-- The attempt outstanding counts the period (R68). -/
theorem FrameEnds.waits {n : Nat} (asked : s.llc.outstanding = some n) (early : n + 1 < 16) :
    t.llc.link = .ident ∧ t.llc.attempts = s.llc.attempts ∧ t.llc.outstanding = some (n + 1) ∧
      (s.mpu.intake = none → PartSent s t f) := by
  have llc := State.checkMode_ident (s := s) (f := f)
  have on := State.checkMode_onLink (s := s) (f := f)
  generalize (s.frameComes f).checkMode f = u at *
  have settled := State.periodEvent_llc (s := u) fun ⟨m, asked', late, _⟩ => by
    rw [llc] at asked'
    cases asked.symm.trans asked'
    exact absurd early (Nat.not_lt.mpr late)
  have counted : (s.llc.outstanding.bind fun n => if n + 1 < 16 then some (n + 1) else none) = some (n + 1) := by
    rw [asked]
    exact if_pos early
  have outstanding : u.periodEvent.llc.outstanding = some (n + 1) := by
    rw [settled, llc]
    exact counted
  have known : ¬ u.periodEvent.llc.asksIdentity := fun asks => by
    have none_ := asks.2.2
    rw [outstanding] at none_
    cases none_
  have rests := ends.rests known
  rw [settled, llc] at rests
  exact ⟨(congrArg Llc.link rests).trans ident, (congrArg Llc.attempts rests).trans rfl,
    (congrArg Llc.outstanding rests).trans counted,
    fun idle => ends.partSent (by rw [on.ports]) known (by rw [on.mpu, idle])⟩

/-- The third attempt that fails takes the link to ACQUIRING (R68). -/
theorem FrameEnds.identFails {n : Nat} (asked : s.llc.outstanding = some n) (late : 16 ≤ n + 1)
    (third : 3 ≤ s.llc.attempts) : t.llc.link = .acquiring ∧ t.llc.acquire = 0 ∧ t.llc.outstanding = none ∧
      Raised s t 7 2 (.linkState .ident .acquiring .identFail 0 (some f.sequence) none) ∧
      (s.mpu.intake = none → PartSent s t f) := by
  have llc := State.checkMode_ident (s := s) (f := f)
  have on := State.checkMode_onLink (s := s) (f := f)
  generalize (s.frameComes f).checkMode f = u at *
  have asked' : u.llc.outstanding = some n := by
    rw [llc]
    exact asked
  have third' : 3 ≤ u.llc.attempts := by
    rw [llc]
    exact third
  have failed := State.periodEvent_ends (s := u) ⟨n, asked', late, third'⟩
  have known : ¬ u.periodEvent.llc.asksIdentity := fun asks => by
    rw [failed] at asks
    cases asks.1
  have rests := ends.rests known
  rw [failed] at rests
  have before : OnLink 1 s (u.modLlc fun l => { l with outstanding := none, acquire := 0 }) := on.trans (.modLlc u _)
  have link : u.llc.link = .ident := by
    rw [llc]
    exact ident
  have grown : ((u.modLlc fun l => { l with outstanding := none, acquire := 0 }).changeLink .acquiring .identFail 0
      none).cru.events <+: t.cru.events := by
    have ended := State.identPeriod_ends asked' late third'
    rw [show u.llc.run = 0 by rw [llc]] at ended
    rw [← ended]
    exact (OnLink.loadPeriod _).events.trans ends.events
  have raised := before.raised_changeLink (room := 2) (by omega) grown
  refine ⟨congrArg Llc.link rests, congrArg Llc.acquire rests, congrArg Llc.outstanding rests, ?_,
    fun idle => ends.partSent (by rw [on.ports]) known (by rw [on.mpu, idle])⟩
  have lastGood : u.llc.lastGood = some f.sequence := by rw [llc]
  rw [← link, ← lastGood]
  exact raised

end

/-- Settles O50: the frame taken by the state it arrives in, its period and its answer, seen through the end of the
command. -/
theorem firstLensFrame : Obligations.FirstLensFrame := by
  intro s bytes live
  refine ⟨fun down damaged quiet => ?_, fun f whole => ⟨fun down waits => ?_, fun link expected waits normal few => ?_,
    fun ident expected => ⟨fun reply n given asked => ?_, fun rest => ?_⟩⟩⟩
  · have stays : s.lensFrame bytes = s := by
      unfold State.lensFrame
      rw [damaged]
      exact if_pos down
    rw [exec_lensFrame live, stays, quiet.finish_self]
  · rw [exec_lensFrame_good live whole (by unfold Llc.judgesGood; rw [down])]
    exact ⟨_, rfl, (State.frameEnds _ f).first down waits⟩
  · rw [exec_lensFrame_good live whole (Llc.judgesGood_expected expected)]
    have ends := ((s.frameComes f).takeGood f).frameEnds f
    generalize (((s.frameComes f).takeGood f).periodEvent.answerFrame f).finish = t at *
    refine ⟨t, rfl, ?_⟩
    by_cases eighth : s.llc.acquire = 7
    · obtain ⟨good, br, identified, linkMode, rest⟩ := ends.acquired link eighth
      exact ⟨good, br, identified, linkMode, fun early => absurd eighth (Nat.ne_of_lt early), fun _ => rest⟩
    · obtain ⟨good, br, identified, linkMode, rest⟩ := ends.acquires link waits normal (by omega)
      exact ⟨good, br, identified, linkMode, fun _ => rest, fun same => absurd same eighth⟩
  · rw [exec_lensFrame_good live whole (Llc.judgesGood_expected expected),
      State.takeGood_replied (s := s.frameComes f) f ident given asked]
    have ends := (s.replied f reply).frameEnds f
    have counted : (s.replied f reply).llc.hasCounted s.ssu.clock f :=
      (s.frameComes_counted f).keeps (by rw [State.replied_llc]; rfl)
    exact ⟨_, rfl, (ends.counted counted).goodPeriod, ends.replyTaken ident, fun idle =>
      ends.partSent (by rw [State.replied_ports]) ends.replied_llc.2 (by rw [State.replied_mpu, idle])⟩
  · rw [exec_lensFrame_good live whole (Llc.judgesGood_expected expected),
      State.takeGood_unreplied (s := s.frameComes f) f ident rest]
    have ends := ((s.frameComes f).checkMode f).frameEnds f
    have llc := State.checkMode_ident (s := s) (f := f)
    have counted : ((s.frameComes f).checkMode f).llc.hasCounted s.ssu.clock f :=
      (s.frameComes_counted f).keeps (by rw [llc]; rfl)
    refine ⟨_, rfl, (ends.counted counted).goodPeriod, ends.br.trans State.checkMode_onLink.br, ?_, ?_, ends.asksAgain ident,
      fun n asked early => ends.waits ident asked early, fun n asked late third => ends.identFails ident asked late third⟩
    · rw [ends.identified, llc]
    · rw [ends.linkMode, llc]

end Sys2Proof.Machine
end

