-- ==== Sys2Proof/Proofs/ProfileChecks.lean ====
section
/-! SUPPORT. The checks of a profile (R103, R111, R113): the header checks and the validation, told from the bytes alone. -/

namespace Sys2Proof.Machine

/-! ### Numbers -/

theorem Memory.number_byte (m : Memory) (a : Nat) : m.number a 1 = (m.read a).toNat := by
  simp [Memory.number, readLE]

theorem ascending_iff (l : List Nat) : ascending l = true ↔ l.IsChain (· < ·) := by
  induction l with
  | nil => simp [ascending]
  | cons x l ih =>
    cases l with
    | nil => simp [ascending]
    | cons y l => rw [ascending, Bool.and_eq_true, decide_eq_true_iff, ih, List.isChain_cons_cons]

/-- Knots in a row rise when each is below the next. -/
theorem ascending_range (g : Nat → Nat) (n : Nat) :
    ascending ((List.range n).map g) = true ↔ ∀ i, i < n - 1 → g i < g (i + 1) := by
  rw [ascending_iff, List.isChain_map, List.isChain_range]

theorem foldl_add_ofNat (g : Nat → Nat) (l : List Nat) (acc : BitVec 16) :
    l.foldl (fun acc i => acc + BitVec.ofNat 16 (g i)) acc = acc + BitVec.ofNat 16 (l.map g).sum := by
  induction l generalizing acc with
  | nil => simp
  | cons i l ih => rw [List.foldl_cons, ih, List.map_cons, List.sum_cons, BitVec.ofNat_add, BitVec.add_assoc]

/-- The blocks sum up to 0 (R103). -/
theorem Area.checksum_zero (x : Area) (blocks : Nat) : x.checksum blocks = 0 ↔
    ((List.range (8 * blocks)).map fun i => x.bytes.number (2 * i) 2).sum % 65536 = 0 := by
  unfold Area.checksum
  rw [foldl_add_ofNat (fun i => x.bytes.number (2 * i) 2), ← BitVec.toNat_inj]
  simp

/-! ### The counts and the knots -/

section
variable (x : Area)

theorem Area.breathingCount_eq : x.breathingCount = x.bytes.number 6 1 := (x.bytes.number_byte 6).symm

theorem Area.focusCount_eq : x.focusCount = x.bytes.number 7 1 := (x.bytes.number_byte 7).symm

theorem Area.irisCount_eq : x.irisCount = x.bytes.number 8 1 := (x.bytes.number_byte 8).symm

theorem Area.breathing_eq : x.breathing = (List.range (x.bytes.number 6 1)).map fun i =>
    (x.bytes.number (64 + 8 * i) 2, x.bytes.number (64 + 8 * i + 4) 4) := by
  unfold Area.breathing Area.word
  rw [x.breathingCount_eq]
  refine List.map_congr_left fun i _ => ?_
  have place : 16 * (4 + i / 2) + 8 * (i % 2) = 64 + 8 * i := by omega
  rw [place]

/-- The breathing curve is in order (R113). -/
theorem Area.breathing_ok : (ascending (x.breathing.map Prod.fst) && x.breathing.all fun k => within 16384 262144 k.2) = true ↔
    (∀ i, i < x.bytes.number 6 1 - 1 → x.bytes.number (64 + 8 * i) 2 < x.bytes.number (64 + 8 * (i + 1)) 2) ∧
    ∀ i, i < x.bytes.number 6 1 → 16384 ≤ x.bytes.number (64 + 8 * i + 4) 4 ∧ x.bytes.number (64 + 8 * i + 4) 4 ≤ 262144 := by
  rw [x.breathing_eq, Bool.and_eq_true, List.map_map, List.all_map, List.all_eq_true]
  refine and_congr (ascending_range (fun i => x.bytes.number (64 + 8 * i) 2) _) ?_
  simp only [List.mem_range, Function.comp_apply, within_iff]

theorem Area.focusKnots_ok : ascending x.focusKnots = true ↔
    ∀ i, i < x.bytes.number 7 1 - 1 → x.bytes.number (32 + 2 * i) 2 < x.bytes.number (32 + 2 * (i + 1)) 2 := by
  unfold Area.focusKnots
  rw [x.focusCount_eq]
  exact ascending_range (fun i => x.bytes.number (32 + 2 * i) 2) _

theorem Area.irisKnots_ok : (ascending x.irisKnots && x.irisKnots.all fun k => k ≤ 255) = true ↔
    (∀ i, i < x.bytes.number 8 1 - 1 → x.bytes.number (48 + 2 * i) 2 < x.bytes.number (48 + 2 * (i + 1)) 2) ∧
    ∀ i, i < x.bytes.number 8 1 → x.bytes.number (48 + 2 * i) 2 ≤ 255 := by
  unfold Area.irisKnots
  rw [x.irisCount_eq, Bool.and_eq_true, List.all_map, List.all_eq_true]
  refine and_congr (ascending_range (fun i => x.bytes.number (48 + 2 * i) 2) _) ?_
  simp only [List.mem_range, Function.comp_apply, decide_eq_true_iff]
  exact Iff.rfl

/-! ### The checks -/

/-- The header checks of R111 are the ones that its words state. -/
theorem HeaderCheck.headerFault {x : Area} {target : LensIdentity} {answer : Option FormatCheck}
    (check : HeaderCheck x.bytes target answer) : x.headerFault target = answer := by
  obtain ⟨foreign, named⟩ := check
  unfold Area.headerFault
  by_cases identity : x.identity = target
  · obtain ⟨wrong, counted⟩ := named identity
    rw [if_neg (not_not_intro identity)]
    have counts : (within 4 32 x.breathingCount && within 1 8 x.focusCount && within 1 8 x.irisCount) = true ↔
        (4 ≤ x.bytes.number 6 1 ∧ x.bytes.number 6 1 ≤ 32) ∧ (1 ≤ x.bytes.number 7 1 ∧ x.bytes.number 7 1 ≤ 8) ∧
          (1 ≤ x.bytes.number 8 1 ∧ x.bytes.number 8 1 ≤ 8) := by
      rw [Bool.and_eq_true, Bool.and_eq_true, within_iff, within_iff, within_iff, x.breathingCount_eq, x.focusCount_eq,
        x.irisCount_eq, and_assoc]
    by_cases inRange : (within 4 32 x.breathingCount && within 1 8 x.focusCount && within 1 8 x.irisCount) = true
    · obtain ⟨differs, same⟩ := counted (counts.mp inRange)
      rw [inRange, if_neg (by decide)]
      have blocks : x.blockCount = x.expectedBlocks ↔ x.bytes.number 10 2 =
          4 + (x.bytes.number 6 1 + 1) / 2 + 8 * x.bytes.number 7 1 * x.bytes.number 8 1 := by
        unfold Area.expectedBlocks
        rw [x.breathingCount_eq, x.focusCount_eq, x.irisCount_eq]
        exact Iff.rfl
      by_cases equal : x.blockCount = x.expectedBlocks
      · rw [if_neg (not_not_intro equal), same (blocks.mp equal)]
      · rw [if_pos equal, differs fun h => equal (blocks.mpr h)]
    · rw [if_pos (by rw [Bool.eq_false_of_not_eq_true inRange]; rfl), wrong fun h => inRange (counts.mpr h)]
  · rw [if_pos identity, foreign identity]

/-- The checks of R113 are the ones that its words state. -/
theorem ProfileCheck.validationFault {x : Area} {blocks : Nat} {answer : Option (LoadReason × Option FormatCheck)}
    (check : ProfileCheck x.bytes blocks answer) : x.validationFault blocks = answer := by
  obtain ⟨wrongSum, summed⟩ := check
  unfold Area.validationFault
  by_cases sum : x.checksum blocks = 0
  · obtain ⟨wrongCurve, curved⟩ := summed ((x.checksum_zero blocks).mp sum)
    rw [if_neg (not_not_intro sum)]
    by_cases curve : (ascending (x.breathing.map Prod.fst) && x.breathing.all fun k => within 16384 262144 k.2) = true
    · obtain ⟨wrongFocus, focused⟩ := curved (x.breathing_ok.mp curve)
      rw [curve, if_neg (by decide)]
      by_cases focus : ascending x.focusKnots = true
      · obtain ⟨wrongIris, right⟩ := focused (x.focusKnots_ok.mp focus)
        rw [focus, if_neg (by decide)]
        by_cases iris : (ascending x.irisKnots && x.irisKnots.all fun k => k ≤ 255) = true
        · rw [iris, if_neg (by decide), right (x.irisKnots_ok.mp iris)]
        · rw [if_pos (by rw [Bool.eq_false_of_not_eq_true iris]; rfl), wrongIris fun h => iris (x.irisKnots_ok.mpr h)]
      · rw [if_pos (by rw [Bool.eq_false_of_not_eq_true focus]; rfl), wrongFocus fun h => focus (x.focusKnots_ok.mpr h)]
    · rw [if_pos (by rw [Bool.eq_false_of_not_eq_true curve]; rfl), wrongCurve fun h => curve (x.breathing_ok.mpr h)]
  · rw [if_pos sum, wrongSum fun h => sum ((x.checksum_zero blocks).mpr h)]

end

end Sys2Proof.Machine
end

