-- ==== Sys2Proof/Proofs/SamplesTaken.lean ====
section
/-! SUPPORT. The samples of a frame (R75, R79, R84): what the history takes, and what the bands and the focus marks leave of
the link and of the Profile Unit; and the areas and the load at the end of a frame. -/

namespace Sys2Proof.Machine

/-! ### One sample -/

/-- From `s` to `t` samples have been taken. -/
structure Sampled (s t : State) : Prop where
  lml : t.ports.lml = s.ports.lml
  clock : t.clock = s.clock
  settings : t.cru.settings = s.cru.settings
  idle : s.mpu.intake = none → t.mpu.intake = none
  llc : t.llc = { s.llc with modeTarget := t.llc.modeTarget, focusRef := t.llc.focusRef }
  events : s.cru.events <+: t.cru.events
  profile : ProfileKept s t

theorem Sampled.refl (s : State) : Sampled s s := ⟨rfl, rfl, rfl, fun h => h, rfl, List.prefix_refl _, .refl s⟩

theorem Sampled.trans {s t u : State} (a : Sampled s t) (b : Sampled t u) : Sampled s u where
  lml := b.lml.trans a.lml
  clock := b.clock.trans a.clock
  settings := b.settings.trans a.settings
  idle := fun h => b.idle (a.idle h)
  llc := by rw [b.llc, a.llc]
  events := a.events.trans b.events
  profile := a.profile.trans b.profile

theorem Within.sampled {s t : State} (w : Within s t) (profile : ProfileKept s t) : Sampled s t :=
  ⟨w.lml, w.clock, w.settings, w.idle, by rw [w.llc], w.events, profile⟩

/-- A focus mark test adds one event at most for each mark (R79). -/
theorem State.raiseIf_onLink (s : State) (e : Option Event) : OnLink 1 s (s.raiseIf none e) := by
  cases e with
  | none => exact (OnLink.refl s).mono (by omega)
  | some e => exact .raise s e

theorem State.raiseIf_llc (s : State) (e : Option Event) : (s.raiseIf none e).llc = s.llc := by
  cases e with
  | none => rfl
  | some e => exact s.raise_llc e

theorem State.raiseIf_pu (s : State) (e : Option Event) : (s.raiseIf none e).pu = s.pu := by
  cases e with
  | none => rfl
  | some e => exact State.raiseFor_pu ..

theorem State.marks_kept (g : State → Fin 4 → Option Event) (l : List (Fin 4)) (s : State) :
    OnLink l.length s (l.foldl (fun t i => t.raiseIf none (g s i)) s) ∧
      (l.foldl (fun t i => t.raiseIf none (g s i)) s).llc = s.llc ∧
      (l.foldl (fun t i => t.raiseIf none (g s i)) s).pu = s.pu := by
  generalize g s = h
  induction l generalizing s with
  | nil => exact ⟨.refl s, rfl, rfl⟩
  | cons i l ih =>
    obtain ⟨on, llc, pu⟩ := ih (s.raiseIf none (h i))
    rw [List.foldl_cons]
    refine ⟨?_, llc.trans (s.raiseIf_llc _), pu.trans (s.raiseIf_pu _)⟩
    exact ((s.raiseIf_onLink (h i)).trans on).mono (by rw [List.length_cons]; omega)

/-- The focus mark test raises four events at most and sets the focus reference (R79). -/
theorem State.testMarks_kept (s : State) (x : Sample) : OnLink 4 s (s.testMarks x) ∧ (s.testMarks x).pu = s.pu ∧
    (s.testMarks x).llc = { s.llc with focusRef := (s.testMarks x).llc.focusRef } := by
  unfold State.testMarks
  split
  · dsimp only
    cases before : s.llc.focusRef with
    | none => exact ⟨(OnLink.modLlc s _).mono (by omega), rfl, rfl⟩
    | some p =>
      obtain ⟨on, llc, pu⟩ := State.marks_kept (fun s i => FocusMark.crossing s.cru.settings.focusMarks[i] i p x) [0, 1, 2, 3] s
      refine ⟨on.trans (.modLlc _ _), pu, ?_⟩
      rw [State.modLlc, llc]
  · exact ⟨(OnLink.refl s).mono (by omega), rfl, rfl⟩

/-- A sample as the history and the registers have it, before the bands take the event (R84). -/
def State.sampled (s : State) (x : Sample) : State :=
  let t := ({ s with br := s.br.push x }).testMarks x
  { t with br := t.br.takeValid x }

theorem State.takeSample_admitted {s : State} {x : Sample} (admits : s.br.admits x = true) :
    s.takeSample x = (s.sampled x).takeAllBands State.testComplete .attempt := by
  unfold State.takeSample
  exact if_pos admits

theorem State.takeSample_dropped {s : State} {x : Sample} (drops : ¬ s.br.admits x = true) : s.takeSample x = s := by
  unfold State.takeSample
  exact if_neg drops

theorem State.sampled_br (s : State) (x : Sample) : (s.sampled x).br = (s.br.push x).takeValid x :=
  congrArg (fun b => Br.takeValid b x) (State.testMarks_kept { s with br := s.br.push x } x).1.br

theorem State.sampled_kept (s : State) (x : Sample) : Sampled s (s.sampled x) ∧ (s.sampled x).pu = s.pu ∧
    (s.sampled x).slots = s.slots ∧ (s.sampled x).cru.events.length ≤ s.cru.events.length + 4 := by
  obtain ⟨on, pu, llc⟩ := State.testMarks_kept { s with br := s.br.push x } x
  refine ⟨⟨?_, on.clock, on.settings, fun idle => ?_, ?_, on.events, .ofPu pu⟩, pu, on.slots, on.few⟩
  · exact congrArg Ports.lml on.ports
  · exact (congrArg Mpu.intake on.mpu).trans idle
  · unfold State.sampled
    generalize ({ s with br := s.br.push x } : State).testMarks x = u at *
    dsimp only
    rw [llc]

/-- A sample that is later than the newest, or the first, enters the history (R84). -/
theorem historyTakes_eq (b : Br) (x : Sample) :
    historyTakes b x = if b.admits x = true then (b.push x).takeValid x else b := by
  unfold historyTakes Br.admits
  cases newest : b.history.getLast? with
  | none =>
    rw [List.getLast?_eq_none_iff] at newest
    simp [Br.push, Br.takeValid, newest]
  | some y => rfl

theorem State.takeSample_kept (s : State) (x : Sample) : Sampled s (s.takeSample x) ∧
    (s.takeSample x).br = historyTakes s.br x := by
  rw [historyTakes_eq]
  by_cases admits : s.br.admits x = true
  · rw [State.takeSample_admitted admits, if_pos admits]
    have bands : Within (s.sampled x) ((s.sampled x).takeAllBands State.testComplete .attempt) :=
      .takeAllBands .testComplete .attempt
    exact ⟨(s.sampled_kept x).1.trans (bands.sampled (.takeAllBands _ _)), by rw [bands.br, State.sampled_br]⟩
  · rw [State.takeSample_dropped admits, if_neg admits]
    exact ⟨.refl s, rfl⟩

/-- The samples of a frame, one after the other (R75, R84). -/
theorem State.takeSamples_kept (l : List Sample) (s : State) : Sampled s (l.foldl State.takeSample s) ∧
    (l.foldl State.takeSample s).br = l.foldl historyTakes s.br := by
  induction l generalizing s with
  | nil => exact ⟨.refl s, rfl⟩
  | cons x l ih =>
    obtain ⟨kept, br⟩ := s.takeSample_kept x
    obtain ⟨kept', br'⟩ := ih (s.takeSample x)
    rw [List.foldl_cons, List.foldl_cons, ← br]
    exact ⟨kept.trans kept', br'⟩

/-- With no TAGGED generation no band takes the event. -/
theorem State.takeAllBands_none {s : State} (none_ : ∀ i, (s.frame i).state ≠ .tagged) (complete : SlotId → State → State)
    (e : BandEvent) : s.takeAllBands complete e = s := by
  have empty : allSlots.filter s.isTagged = [] := by
    rw [List.filter_eq_nil_iff]
    intro i _ tagged
    exact none_ i (beq_iff_eq.mp tagged)
  unfold State.takeAllBands State.forSlots State.slotOrder
  rw [empty]
  rfl

/-- One sample of a frame, with no TAGGED generation: four events at most, and the Profile Unit stays. -/
theorem State.takeSamples_few {l : List Sample} (one : l.length ≤ 1) {s : State} (none_ : ∀ i, (s.frame i).state ≠ .tagged) :
    (l.foldl State.takeSample s).pu = s.pu ∧ (l.foldl State.takeSample s).cru.events.length ≤ s.cru.events.length + 4 := by
  match l, one with
  | [], _ => exact ⟨rfl, Nat.le_add_right _ _⟩
  | [x], _ =>
    rw [List.foldl_cons, List.foldl_nil]
    by_cases admits : s.br.admits x = true
    · obtain ⟨-, pu, slots, few⟩ := s.sampled_kept x
      rw [State.takeSample_admitted admits, State.takeAllBands_none]
      · exact ⟨pu, few⟩
      · intro i
        rw [State.frame, State.slot_ofSlots slots]
        exact none_ i
    · rw [State.takeSample_dropped admits]
      exact ⟨rfl, Nat.le_add_right _ _⟩

/-- The samples as R75 stamps them. -/
theorem LensFrame.stamped_eq (f : LensFrame) (arrival : Stamp) (latency : Nat) : f.stamped arrival latency =
    f.samples.zipIdx.map fun (x, i) =>
      { stamp := arrival - BitVec.ofNat 32 (latency + (f.samples.length - 1 - i) * 64)
        focus := x.focus, iris := x.iris, focusValid := x.focusValid, irisValid := x.irisValid } := by
  unfold LensFrame.stamped
  refine List.map_congr_left fun p _ => ?_
  dsimp only
  congr 1
  unfold stampAdd
  rw [BitVec.ofInt_neg, BitVec.ofInt_natCast, BitVec.sub_eq_add_neg]

end Sys2Proof.Machine
end

