-- ==== Sys2Proof/Proofs/BlockStored.lean ====
section
/-! SUPPORT. A block reply as the Profile Unit takes it (R111, R113): its cases, what each makes of the areas and of the load,
and what the end of the frame keeps of them. -/

namespace Sys2Proof.Machine

/-! ### The areas and the load at the end of a frame -/

theorem Answered.area {s t : State} (answered : Answered s t) (a : AreaId) : t.area a = s.area a := by
  have pu := answered.pu
  cases a
  · exact (congrArg Pu.p0 pu).trans rfl
  · exact (congrArg Pu.p1 pu).trans rfl

theorem Answered.unpending {s t : State} (answered : Answered s t) (settled : s.pu.unpending) : t.pu.unpending := by
  intro x load
  cases before : s.pu.load with
  | none =>
    rw [answered.none_ before] at load
    cases load
  | some ld =>
    obtain ⟨y, held, goes⟩ := answered.held ld before
    rw [held] at load
    cases load
    rw [goes.area]
    exact settled ld before

theorem State.loadPeriod_unpending {s : State} (settled : s.pu.unpending) : s.loadPeriod.pu.unpending := by
  intro x load
  cases held : s.pu.load with
  | none =>
    rw [State.loadPeriod_empty held] at load
    cases load
  | some ld =>
    by_cases fourth : ∃ r ∈ ld.requests, r.late = true ∧ r.timeouts = 3
    · rw [State.loadPeriod_fourth held fourth] at load
      cases load
    · rw [State.loadPeriod_ages held fun r listed late third => fourth ⟨r, listed, late, third⟩] at load
      cases load
      exact settled ld held

theorem ProfileKept.state {s t : State} (kept : ProfileKept s t) (settled : s.pu.unpending) {a : AreaId}
    (other : (s.area a).state ≠ .retiring) : (t.area a).state = (s.area a).state := by
  cases is : (s.area a).state with
  | free => exact (kept.area settled a).free is
  | loading => exact kept.loading a is
  | active => exact kept.active a is
  | retiring => exact absurd is other

theorem Pu.unpending_none {p : Pu} (empty : p.load = none) : p.unpending := fun ld load => by
  rw [empty] at load
  cases load

theorem Pu.unpending_some {p : Pu} {ld : Load} {a : AreaId} (held : p.load = some ld) (inArea : ld.area = some a) :
    p.unpending := fun x load => by
  rw [held] at load
  cases load
  rw [inArea]
  rfl

section
variable {u t : State} {f : LensFrame} (ends : FrameEnds u t f)
include ends

theorem FrameEnds.received (settled : u.pu.unpending) (a : AreaId) : (t.area a).received = (u.area a).received := by
  have same := u.identPeriod_pu
  have settled' : u.periodEvent.pu.unpending := State.loadPeriod_unpending (by rw [same]; exact settled)
  have answered := u.periodEvent.answerFrame_answered f
  have aged := u.identPeriod.loadPeriod_area_rest a
  rw [(ends.profile.area (answered.unpending settled') a).received, answered.area, State.periodEvent, aged,
    State.identPeriod_area]

/-- With no load the end of a frame only captures and releases areas. -/
theorem FrameEnds.unloaded (empty : u.pu.load = none) : ProfileKept u t := by
  have same := u.identPeriod_pu
  have period : u.periodEvent.pu = u.pu := by
    rw [State.periodEvent, State.loadPeriod_none (by rw [same, empty]), same]
  have answered := u.periodEvent.answerFrame_answered f
  have pu : (u.periodEvent.answerFrame f).pu = u.pu := by
    rw [answered.pu, answered.none_ (by rw [period, empty]), period, ← empty]
  exact (ProfileKept.ofPu pu).trans ends.profile

/-- A load in progress with no request that times out goes on (R110, R112). -/
theorem FrameEnds.goesOn {ld : Load} (held : u.pu.load = some ld) (inArea : ld.area.isSome = true)
    (early : ∀ r ∈ ld.requests, r.late = false) : ∃ x, t.pu.load = some x ∧ Load.Continues ld x := by
  have ages := State.loadPeriod_ages (s := u.identPeriod) (by rw [u.identPeriod_pu, held]) fun r listed late => by
    rw [early r listed] at late
    cases late
  have load : u.periodEvent.pu.load = some { ld with requests := agedRequests ld.requests } := by
    rw [State.periodEvent, ages]
    rfl
  have blocks : (agedRequests ld.requests).map BlockRequest.block = ld.requests.map BlockRequest.block := by
    have none_ : ld.requests.filter BlockRequest.late = [] := by
      rw [List.filter_eq_nil_iff]
      intro r listed
      rw [early r listed]
      exact Bool.false_ne_true
    have all_ : ld.requests.filter (fun r => !r.late) = ld.requests := by
      rw [List.filter_eq_self]
      intro r listed
      rw [early r listed]
      rfl
    rw [agedRequests, none_, all_, List.map_nil, List.append_nil, List.map_map]
    refine List.map_congr_left fun r _ => ?_
    rw [Function.comp_apply]
    unfold BlockRequest.age
    split <;> rfl
  obtain ⟨x, answered, goes⟩ := (u.periodEvent.answerFrame_answered f).held _ load
  refine ⟨x, ends.profile.held x answered (by rw [goes.area]; exact inArea), goes.area, goes.target, goes.known, ?_⟩
  rw [← blocks]
  exact goes.blocks

end

/-! ### Storing a block (R111) -/

/-- The load with a block's entry taken out of its list; block 0 gives the known block count (R111). -/
def Load.taking (ld : Load) (block : Nat) (x : Area) : Load :=
  let rest := { ld with requests := ld.requests.filter fun r => r.block != block }
  if block = 0 then { rest with known := some x.blockCount, next := 1 } else rest

theorem Load.taking_fields (ld : Load) (block : Nat) (x : Area) : (ld.taking block x).area = ld.area ∧
    (ld.taking block x).target = ld.target ∧ (ld.taking block x).sentCount = ld.sentCount ∧
    (ld.taking block x).requests = ld.requests.filter (fun r => r.block != block) ∧
    (ld.taking block x).known = if block = 0 then some x.blockCount else ld.known := by
  unfold Load.taking
  dsimp only
  split <;> exact ⟨rfl, rfl, rfl, rfl, rfl⟩

/-- The state with a block stored and a load held (R111). -/
def State.withBlock (s : State) (a : AreaId) (block : Nat) (data : List Byte) (ld : Load) : State :=
  (s.modArea a fun x => x.store block data).setLoad (some ld)

section
variable (s : State) (a : AreaId) (block : Nat) (data : List Byte) (ld : Load)

theorem State.withBlock_area (b : AreaId) : (s.withBlock a block data ld).area b =
    if b = a then (s.area b).store block data else s.area b := by
  rw [← s.area_modArea a b fun x => x.store block data]
  cases b <;> rfl

theorem State.withBlock_onLink : OnLink 0 s (s.withBlock a block data ld) :=
  (OnLink.modArea s a _).trans (.setLoad _ _)

end

section
variable {s : State} {ld : Load} {a : AreaId} (held : s.pu.load = some ld) (inArea : ld.area = some a)
  {block : Nat} (data : List Byte)
include held inArea

/-- A block that is not in the Block Request List is ignored (R111). -/
theorem State.blockReply_unwanted (spare : ¬ ∃ r ∈ ld.requests, r.block = block) : s.blockReply block data = s := by
  unfold State.blockReply
  simp only [held, inArea]
  refine if_neg fun listed => spare ?_
  rw [List.any_eq_true] at listed
  obtain ⟨r, member, same⟩ := listed
  exact ⟨r, member, beq_iff_eq.mp same⟩

/-- A header that fails a check ends the load (R111, R114). -/
theorem State.blockReply_header (wanted : ∃ r ∈ ld.requests, r.block = block) (first : block = 0) {check : FormatCheck}
    (fails : ((s.area a).store block data).headerFault ld.target = some check) : s.blockReply block data =
      (s.withBlock a block data { ld with requests := ld.requests.filter fun r => r.block != block }).failLoad .format
        (some check) 0 := by
  have listed : ld.requests.any (fun r => r.block == block) = true := by
    obtain ⟨r, member, same⟩ := wanted
    exact List.any_eq_true.mpr ⟨r, member, beq_iff_eq.mpr same⟩
  have stored := s.withBlock_area a block data { ld with requests := ld.requests.filter fun r => r.block != block } a
  rw [if_pos rfl] at stored
  rw [← stored] at fails
  obtain ⟨target, area, requests, next, known, sentCount⟩ := ld
  cases inArea
  unfold State.withBlock at fails ⊢
  unfold State.blockReply
  simp only [held, listed, if_true]
  rw [if_pos first]
  simp only [fails]

/-- A block that passes is stored, and the load is looked at (R111). -/
theorem State.blockReply_passes (wanted : ∃ r ∈ ld.requests, r.block = block)
    (passes : block ≠ 0 ∨ ((s.area a).store block data).headerFault ld.target = none) : s.blockReply block data =
      (s.withBlock a block data (ld.taking block ((s.area a).store block data))).checkComplete a := by
  have listed : ld.requests.any (fun r => r.block == block) = true := by
    obtain ⟨r, member, same⟩ := wanted
    exact List.any_eq_true.mpr ⟨r, member, beq_iff_eq.mpr same⟩
  have stored := s.withBlock_area a block data { ld with requests := ld.requests.filter fun r => r.block != block } a
  rw [if_pos rfl] at stored
  obtain ⟨target, area, requests, next, known, sentCount⟩ := ld
  cases inArea
  unfold Load.taking
  by_cases first : block = 0
  · have fits := passes.resolve_left (not_not_intro first)
    rw [← stored] at fits ⊢
    unfold State.withBlock at fits ⊢
    unfold State.blockReply
    simp only [held, listed, if_true]
    rw [if_pos first]
    simp only [fits]
    rw [if_pos first]
    rfl
  · unfold State.blockReply
    simp only [held, listed, if_true]
    rw [if_neg first, if_neg first]
    rfl

end

/-! ### The last block (R113) -/

/-- Every block of a load has been received and none is asked for (R111). -/
def Load.completes (ld : Load) (x : Area) (n : Nat) : Prop := ld.known = some n ∧ ld.requests = [] ∧ x.hasAll n = true

theorem Area.hasAll_iff (x : Area) (n : Nat) :
    x.hasAll n = true ↔ ∀ k : Fin 532, k.val < n → x.received[k] = true := by
  unfold Area.hasAll
  rw [List.all_eq_true]
  constructor
  · intro all k below
    refine all _ (List.mem_take_iff_getElem.mpr ⟨k.val, ?_, ?_⟩)
    · simpa using below
    · simp
  · intro all b member
    obtain ⟨k, below, is⟩ := List.mem_take_iff_getElem.mp member
    rw [← is]
    have := all ⟨k, by simp at below; omega⟩ (by simp at below; exact below.1)
    simpa using this

theorem State.checkComplete_ends {s : State} {ld : Load} {a : AreaId} {n : Nat} (held : s.pu.load = some ld)
    (ends : ld.completes (s.area a) n) : s.checkComplete a = s.validate ld a n := by
  obtain ⟨known, none_, all⟩ := ends
  unfold State.checkComplete
  simp only [held, known, none_, all]
  exact if_pos rfl

theorem State.checkComplete_waits {s : State} {ld : Load} {a : AreaId} (held : s.pu.load = some ld)
    (waits : ∀ n, ¬ ld.completes (s.area a) n) : s.checkComplete a = s := by
  unfold State.checkComplete
  simp only [held]
  cases known : ld.known with
  | none => rfl
  | some n =>
    dsimp only
    refine if_neg fun both => waits n ⟨known, ?_, ?_⟩
    · rw [Bool.and_eq_true, List.isEmpty_iff] at both
      exact both.1
    · rw [Bool.and_eq_true] at both
      exact both.2

theorem State.validate_fails {s : State} {ld : Load} {a : AreaId} {n : Nat} {reason : LoadReason}
    {check : Option FormatCheck} (fault : (s.area a).validationFault n = some (reason, check)) :
    s.validate ld a n = s.failLoad reason check 0 := by
  unfold State.validate
  simp only [fault]

theorem State.validate_passes {s : State} {ld : Load} {a : AreaId} {n : Nat}
    (right : (s.area a).validationFault n = none) : s.validate ld a n = s.activate ld a := by
  unfold State.validate
  simp only [right]

end Sys2Proof.Machine
end

