-- ==== Sys2Proof/Proofs/ProfileInForce.lean ====
section
/-! SUPPORT. A profile put in force (R113), and a block reply of a frame as the obligation states it: failed, put in force, or
going on. -/

namespace Sys2Proof.Machine

/-! ### The other area -/

/-- The area beside one. -/
def AreaId.other (a : AreaId) : AreaId := if a = .p0 then .p1 else .p0

theorem AreaId.other_ne (a : AreaId) : a.other ≠ a := by cases a <;> decide

theorem State.areaIn_active {s : State} {a : AreaId} (off : (s.area a).state ≠ .active) : s.areaIn .active =
    if (s.area a.other).state = .active then some a.other else none := by
  unfold State.areaIn
  cases a
  · exact if_neg off
  · rw [if_neg (show ¬ s.pu.p1.state = .active from off)]
    rfl

/-! ### A profile put in force (R113) -/

/-- An ACTIVE area as the next profile replaces it (R113). -/
def Area.retired (x : Area) : Area := { x with state := if 0 < x.refs then .retiring else .free, matchMark := false }

/-- The old profile has left (R113). -/
def State.oldRetired (s : State) : State :=
  match s.areaIn .active with
  | none => s
  | some o => s.modArea o Area.retired

/-- An area as it becomes ACTIVE (R113). -/
def Area.activated (x : Area) : Area := { x with state := .active, matchMark := true }

/-- The areas with the new profile in force (R113). -/
def State.inForce (s : State) (a : AreaId) : State := (s.oldRetired.modArea a Area.activated).setLoad none

/-- PROFILE_LOADED of a load (R113, R116). -/
def State.loadedEvent (s : State) (ld : Load) (a : AreaId) : Event :=
  let new := (s.inForce a).area a
  .profileLoaded a ((s.areaIn .active).map fun o => (o, ((s.inForce a).area o).state, ((s.inForce a).area o).refs))
    new.identity new.blockCount new.breathingCount new.focusCount new.irisCount ld.sentCount

theorem State.activate_eq (s : State) (ld : Load) (a : AreaId) :
    s.activate ld a = ((s.inForce a).raise (s.loadedEvent ld a)).evalMode false := by
  have same (b : AreaId) : (s.inForce a).area b = (s.oldRetired.modArea a Area.activated).area b := by cases b <;> rfl
  unfold State.loadedEvent
  rw [same, funext fun b => same b]
  rfl

section
variable {s : State} {a : AreaId} (ld : Load)

theorem State.activate_pu : (s.activate ld a).pu = (s.inForce a).pu := by
  rw [State.activate_eq, State.evalMode_pu, State.raise, State.raiseFor_pu]

theorem State.activate_load : (s.activate ld a).pu.load = none := by
  rw [State.activate_pu]
  rfl

variable (off : (s.area a).state ≠ .active)
include off

theorem State.inForce_area (b : AreaId) : (s.inForce a).area b =
    if b = a then (s.area a).activated
    else if (s.area b).state = .active then (s.area b).retired else s.area b := by
  have placed : (s.inForce a).area b = (s.oldRetired.modArea a Area.activated).area b := by cases b <;> rfl
  rw [placed, State.area_modArea]
  unfold State.oldRetired
  rw [State.areaIn_active off]
  have other := a.other_ne
  by_cases same : b = a
  · rw [if_pos same, if_pos same, same]
    split
    · rfl
    · next o found =>
      split at found
      · cases found
        rw [State.area_modArea_other s (Ne.symm other)]
      · cases found
  · have is : b = a.other := by
      revert same
      cases a <;> cases b <;> decide
    rw [if_neg same, if_neg same, is]
    by_cases active : (s.area a.other).state = .active
    · rw [if_pos active, if_pos active]
      exact State.area_modArea_self s _ _
    · rw [if_neg active, if_neg active]

theorem State.activate_area (b : AreaId) : (s.activate ld a).area b =
    if b = a then (s.area a).activated
    else if (s.area b).state = .active then (s.area b).retired else s.area b := by
  rw [State.area_ofPu (State.activate_pu ld), State.inForce_area off]

/-- No area loses bytes or received marks as a profile is put in force. -/
theorem State.activate_rest (b : AreaId) : ((s.activate ld a).area b).bytes = (s.area b).bytes ∧
    ((s.activate ld a).area b).received = (s.area b).received := by
  rw [State.activate_area ld off]
  split
  · next same =>
    subst same
    exact ⟨rfl, rfl⟩
  · split <;> exact ⟨rfl, rfl⟩

/-- PROFILE_LOADED as R113 and R116 state it. -/
theorem State.loadedEvent_eq : s.loadedEvent ld a = .profileLoaded a
    (if (s.area a.other).state = .active then
      some (a.other, if 0 < (s.area a.other).refs then .retiring else .free, (s.area a.other).refs) else none)
    (s.area a).identity (s.area a).blockCount (s.area a).breathingCount (s.area a).focusCount (s.area a).irisCount
    ld.sentCount := by
  unfold State.loadedEvent
  rw [State.inForce_area off, if_pos rfl, State.areaIn_active off]
  by_cases active : (s.area a.other).state = .active
  · rw [if_pos active, if_pos active, Option.map_some, State.inForce_area off, if_neg a.other_ne, if_pos active]
    rfl
  · rw [if_neg active, if_neg active]
    rfl

end

theorem State.inForce_onLink (s : State) (a : AreaId) : OnLink 0 s (s.inForce a) := by
  unfold State.inForce State.oldRetired
  split
  · exact (OnLink.modArea s a _).trans (.setLoad _ _)
  · exact ((OnLink.modArea s _ _).trans (.modArea _ a _)).trans (.setLoad _ _)

/-! ### The frame of a block reply -/

/-- From `s` the samples of the good frame `f` have been taken at `v`, in READY. -/
structure BeforeBlock (s v : State) (f : LensFrame) : Prop where
  settings : v.cru.settings = s.cru.settings
  clock : v.clock = s.clock
  events : s.cru.events <+: v.cru.events
  profile : ProfileKept s v
  few : f.samples.length ≤ 1 → (∀ i, (s.frame i).state ≠ .tagged) →
    v.pu = s.pu ∧ v.cru.events.length ≤ s.cru.events.length + 6

/-- An event that the block reply raises, for a frame of one sample and no TAGGED generation. -/
def TellsBlock (s t : State) (f : LensFrame) (bit : Nat) (e : Event) : Prop :=
  f.samples.length ≤ 1 → (∀ i, (s.frame i).state ≠ .tagged) → Raised s t bit 7 e

theorem BeforeBlock.tells {s v y t : State} {f : LensFrame} (before : BeforeBlock s v f) (on : OnLink 0 v y) {bit : Nat}
    {e : Event} (code : e.code = bit) (later : (y.raise e).cru.events <+: t.cru.events) : TellsBlock s t f bit e := by
  intro one none_
  have few := (before.few one none_).2
  have added := on.few
  exact .ofRaise code (on.settings.trans before.settings) (on.clock.trans before.clock) (before.events.trans on.events)
    (by omega) later

/-- The load fails with the block reply (R111, R113, R114). -/
def BlockFails (s t : State) (f : LensFrame) (ld : Load) (a : AreaId) (reason : LoadReason) (check : Option FormatCheck)
    (known : Option Nat) : Prop :=
  t.pu.load = none ∧ (t.area a).state = .free ∧
    ((s.area a.other).state ≠ .retiring → (t.area a.other).state = (s.area a.other).state) ∧
    ((s.area a.other).state = .retiring → (t.area a.other).state = .retiring ∨ (t.area a.other).state = .free) ∧
    TellsBlock s t f 10
      (.profileFailed reason (some a) (some ld.target) check known ((t.area a).received.toList.countP id) 0)

theorem State.blocksReceived_area {s : State} {ld : Load} {a : AreaId} (inArea : ld.area = some a) :
    s.blocksReceived ld = (s.area a).received.toList.countP id := by
  unfold State.blocksReceived
  rw [inArea]
  cases a <;> rfl

section
variable {s v t : State} {f : LensFrame} {ld : Load} {a : AreaId} {block : Nat} {data : List Byte}
  (before : BeforeBlock s v f) (held : s.pu.load = some ld) (inArea : ld.area = some a)
include before held inArea

theorem BeforeBlock.load : v.pu.load = some ld := before.profile.held ld held (by rw [inArea]; rfl)

/-- The other area is as it was, but that a RETIRING one may be FREE. -/
theorem BeforeBlock.others : ((s.area a.other).state ≠ .retiring → (v.area a.other).state = (s.area a.other).state) ∧
    ((s.area a.other).state = .retiring → (v.area a.other).state = .retiring ∨ (v.area a.other).state = .free) := by
  have settled := Pu.unpending_some held inArea
  exact ⟨before.profile.state settled, (before.profile.area settled a.other).retiring⟩

/-- A load that fails with the block stored. -/
theorem BeforeBlock.fails {l : Load} {reason : LoadReason} {check : Option FormatCheck} (place : l.area = some a)
    (target : l.target = ld.target)
    (ends : FrameEnds (((v.withBlock a block data l).failLoad reason check 0).checkMode f) t f) :
    BlockFails s t f ld a reason check l.known := by
  have load : (v.withBlock a block data l).pu.load = some l := rfl
  have stored := v.withBlock_area a block data l
  have on := v.withBlock_onLink a block data l
  have eq := State.failLoad_some load reason check 0
  have area := State.failLoad_area load reason check 0
  have empty := (v.withBlock a block data l).failLoad_load reason check 0
  have rest := (v.withBlock a block data l).failLoad_area_rest reason check 0
  have others := before.others held inArea
  have pu := ((v.withBlock a block data l).failLoad reason check 0).checkMode_pu f
  have count := State.blocksReceived_area (s := v.withBlock a block data l) place
  have grown : ((v.withBlock a block data l).failLoad reason check 0).cru.events <+: t.cru.events :=
    (OnLink.checkMode _ f).events.trans ends.grown
  generalize v.withBlock a block data l = y at *
  have kept := ends.unloaded (by rw [pu, empty])
  have settled : (((y.failLoad reason check 0).checkMode f).pu).unpending := Pu.unpending_none (by rw [pu, empty])
  have areaOf (b : AreaId) : ((y.failLoad reason check 0).checkMode f).area b =
      if l.area = some b then { y.area b with state := .free } else y.area b := by
    rw [State.area_ofPu pu, area]
  have self : (((y.failLoad reason check 0).checkMode f).area a).state = .free := by
    rw [areaOf, if_pos place]
  have other : ((y.failLoad reason check 0).checkMode f).area a.other = v.area a.other := by
    rw [areaOf, if_neg fun same => a.other_ne (Option.some.inj (same.symm.trans place)), stored, if_neg a.other_ne]
  have received : (t.area a).received = (y.area a).received := by
    rw [(kept.area settled a).received, State.area_ofPu pu, rest]
  refine ⟨kept.none_ (by rw [pu, empty]), (kept.area settled a).free self, fun stays => ?_, fun retiring => ?_, ?_⟩
  · have same := others.1 stays
    rw [kept.state settled (by rw [other, same]; exact stays), other, same]
  · rcases others.2 retiring with still | free
    · have := (kept.area settled a.other).retiring (by rw [other]; exact still)
      exact this
    · exact .inr ((kept.area settled a.other).free (by rw [other]; exact free))
  · rw [received, ← count]
    refine before.tells (on.trans (.ofUnits y y.llc (y.pu.dropped l))) rfl (List.IsPrefix.trans ?_ grown)
    rw [eq, place, target]
    exact (OnLink.evalMode _ false).events

end

end Sys2Proof.Machine
end

