-- ==== Sys2Proof/Proofs/BlockReplies.lean ====
section
/-! SUPPORT. A block reply of a frame as R111 and R113 state it, seen through the end of the command. -/

namespace Sys2Proof.Machine

/-! ### The profile put in force -/

theorem Area.retired_left (x : Area) : x.retired.Left := by
  unfold Area.retired Area.Left
  by_cases held : 0 < x.refs
  · exact .inl ⟨if_pos held, held⟩
  · exact .inr ⟨if_neg held, Nat.eq_zero_of_not_pos held⟩

theorem Area.Left.state {x : Area} (left : x.Left) : x.state = if 0 < x.refs then .retiring else .free := by
  rcases left with ⟨retiring, held⟩ | ⟨free, none_⟩
  · rw [if_pos held, retiring]
  · rw [if_neg (by omega), free]

theorem Area.identity_ofBytes {x y : Area} (same : x.bytes = y.bytes) : x.identity = y.identity := by
  unfold Area.identity
  rw [same]

/-- The profile is put in force with the block reply (R113, R116). -/
def BlockActivates (s t : State) (f : LensFrame) (ld : Load) (a : AreaId) (m : Memory) : Prop :=
  t.pu.load = none ∧ (t.area a).state = .active ∧ (t.area a).matchMark = true ∧
    ((s.area a.other).state = .active → (t.area a.other).matchMark = false ∧
      (t.area a.other).state = (if 0 < (t.area a.other).refs then .retiring else .free)) ∧
    TellsBlock s t f 9 (.profileLoaded a
      (if (s.area a.other).state = .active then
        some (a.other, if 0 < (s.area a.other).refs then .retiring else .free, (s.area a.other).refs) else none)
      (t.area a).identity (m.number 10 2) (m.number 6 1) (m.number 7 1) (m.number 8 1) ld.sentCount)

section
variable {s v t : State} {f : LensFrame} {ld : Load} {a : AreaId} {block : Nat} {data : List Byte}
  (before : BeforeBlock s v f)
include before

theorem BeforeBlock.activates {l : Load} (sent : l.sentCount = ld.sentCount) (loading : (v.area a).state = .loading)
    (ends : FrameEnds (((v.withBlock a block data l).activate l a).checkMode f) t f) :
    BlockActivates s t f ld a ((v.area a).store block data).bytes := by
  have stored := v.withBlock_area a block data l
  have on := v.withBlock_onLink a block data l
  have self : (v.withBlock a block data l).area a = (v.area a).store block data := by rw [stored, if_pos rfl]
  have off : ((v.withBlock a block data l).area a).state ≠ .active := by
    rw [self]
    exact fun active => absurd (loading.symm.trans active) (by decide)
  have other : (v.withBlock a block data l).area a.other = v.area a.other := by rw [stored, if_neg a.other_ne]
  generalize v.withBlock a block data l = y at *
  have pu := (y.activate l a).checkMode_pu f
  have empty := State.activate_load (s := y) (a := a) l
  have area := State.activate_area l off
  have grown : (y.activate l a).cru.events <+: t.cru.events := (OnLink.checkMode _ f).events.trans ends.grown
  have kept := ends.unloaded (by rw [pu, empty])
  have settled : (((y.activate l a).checkMode f).pu).unpending := Pu.unpending_none (by rw [pu, empty])
  have areaOf (b : AreaId) : ((y.activate l a).checkMode f).area b = (y.activate l a).area b := State.area_ofPu pu b
  have bytes : (t.area a).bytes = ((v.area a).store block data).bytes := by
    rw [kept.bytes, areaOf, (State.activate_rest l off a).1, self]
  refine ⟨kept.none_ (by rw [pu, empty]), kept.active a ?_, ?_, fun active => ?_, fun one none_ => ?_⟩
  · rw [areaOf, area, if_pos rfl]
    rfl
  · rw [kept.mark, areaOf, area, if_pos rfl]
    rfl
  · have active' : (y.area a.other).state = .active := by
      rw [other]
      exact before.profile.active _ active
    have retired : ((y.activate l a).checkMode f).area a.other = (y.area a.other).retired := by
      rw [areaOf, area, if_neg a.other_ne, if_pos active']
    refine ⟨?_, ((kept.area settled a.other).left ?_).state⟩
    · rw [kept.mark, retired]
      rfl
    · rw [retired]
      exact Area.retired_left _
  · have same := State.area_ofPu (before.few one none_).1 a.other
    have event := State.loadedEvent_eq l off
    rw [other, same, self, sent] at event
    refine before.tells (on.trans (y.inForce_onLink a)) rfl (List.IsPrefix.trans ?_ grown) one none_
    rw [State.activate_eq, event, Area.identity_ofBytes bytes]
    refine List.IsPrefix.trans ?_ (OnLink.evalMode _ false).events
    rw [Area.breathingCount_eq, Area.focusCount_eq, Area.irisCount_eq]
    exact List.prefix_refl _

end

/-! ### The bytes and the marks -/

/-- The cases of a block reply that is taken. -/
theorem State.blockReply_cases {v : State} {ld : Load} {a : AreaId} {block : Nat} (data : List Byte)
    (held : v.pu.load = some ld) (inArea : ld.area = some a) (wanted : ∃ r ∈ ld.requests, r.block = block) :
    ∃ l, l.area = some a ∧ ((∃ reason check, v.blockReply block data =
        (v.withBlock a block data l).failLoad reason check 0) ∨
      v.blockReply block data = (v.withBlock a block data l).activate l a ∨
      v.blockReply block data = v.withBlock a block data l) := by
  by_cases passes : block ≠ 0 ∨ ((v.area a).store block data).headerFault ld.target = none
  · have taken := State.blockReply_passes held inArea data wanted passes
    obtain ⟨area, -⟩ := ld.taking_fields block ((v.area a).store block data)
    rw [taken]
    generalize ld.taking block ((v.area a).store block data) = l at *
    refine ⟨l, area.trans inArea, ?_⟩
    by_cases complete : ∃ n, l.completes ((v.withBlock a block data l).area a) n
    · obtain ⟨n, completes⟩ := complete
      rw [State.checkComplete_ends rfl completes]
      cases fault : ((v.withBlock a block data l).area a).validationFault n with
      | none => exact .inr (.inl (State.validate_passes fault))
      | some x => exact .inl ⟨x.1, x.2, State.validate_fails fault⟩
    · exact .inr (.inr (State.checkComplete_waits rfl fun n completes => complete ⟨n, completes⟩))
  · rw [not_or, not_not] at passes
    obtain ⟨first, fails⟩ := passes
    obtain ⟨check, fault⟩ := Option.ne_none_iff_exists'.mp fails
    exact ⟨{ ld with requests := ld.requests.filter fun r => r.block != block }, inArea,
      .inl ⟨_, _, State.blockReply_header held inArea data wanted first fault⟩⟩

/-- What a block reply that is taken leaves of the bytes and of the received marks, and that no load is pending after. -/
theorem State.blockReply_rest {v : State} {ld : Load} {a : AreaId} {block : Nat} (data : List Byte)
    (held : v.pu.load = some ld) (inArea : ld.area = some a) (wanted : ∃ r ∈ ld.requests, r.block = block)
    (loading : (v.area a).state = .loading) : (v.blockReply block data).pu.unpending ∧ ∀ b,
      ((v.blockReply block data).area b).bytes = (if b = a then (v.area b).store block data else v.area b).bytes ∧
      ((v.blockReply block data).area b).received = (if b = a then (v.area b).store block data else v.area b).received := by
  obtain ⟨l, place, cases_⟩ := State.blockReply_cases data held inArea wanted
  have stored := v.withBlock_area a block data l
  rcases cases_ with ⟨reason, check, same⟩ | same | same <;> rw [same]
  · refine ⟨Pu.unpending_none (State.failLoad_load _ _ _ _), fun b => ?_⟩
    rw [State.failLoad_area_rest, ← stored]
    exact ⟨rfl, rfl⟩
  · refine ⟨Pu.unpending_none (State.activate_load _), fun b => ?_⟩
    rw [← stored]
    refine State.activate_rest l ?_ b
    rw [stored, if_pos rfl]
    exact fun active => absurd (loading.symm.trans active) (by decide)
  · refine ⟨Pu.unpending_some (show (v.withBlock a block data l).pu.load = some l from rfl) place, fun b => ?_⟩
    rw [← stored]
    exact ⟨rfl, rfl⟩

theorem Area.store_received (x : Area) (block : Nat) (data : List Byte) (k : Fin 532) :
    (x.store block data).received[k] = (x.received[k] || decide (k.val = block)) := by
  unfold Area.store
  change (x.received.setIfInBounds block true)[k.val] = _
  rw [Vector.getElem_setIfInBounds]
  by_cases same : block = k.val
  · rw [if_pos same, decide_eq_true same.symm, Bool.or_true]
  · rw [if_neg same, decide_eq_false (Ne.symm same), Bool.or_false]
    rfl

/-! ### The clauses -/

section
variable {s v t : State} {f : LensFrame} {ld : Load} {a : AreaId} {block : Nat} {data : List Byte}
  (before : BeforeBlock s v f) (held : s.pu.load = some ld) (inArea : ld.area = some a)
  (loading : (s.area a).state = .loading) (ends : FrameEnds ((v.blockReply block data).checkMode f) t f)
include before held inArea loading ends

theorem BeforeBlock.blockTaken : BlockTaken s t f ld a block data := by
  have load := before.load held inArea
  have settled := Pu.unpending_some held inArea
  have loading' := before.profile.loading a loading
  have bytes₀ := before.profile.bytes
  have received₀ := (before.profile.area settled a).received
  have pu := (v.blockReply block data).checkMode_pu f
  have atEnd (b : AreaId) : (t.area b).bytes = ((v.blockReply block data).area b).bytes := by
    rw [(ends.area b).2, State.area_ofPu pu]
  by_cases wanted : ∃ r ∈ ld.requests, r.block = block
  · obtain ⟨unpending, rest⟩ := State.blockReply_rest data load inArea wanted loading'
    have received : (t.area a).received = ((v.area a).store block data).received := by
      rw [ends.received (by rw [pu]; exact unpending), State.area_ofPu pu, (rest a).2, if_pos rfl]
    have stored : ((v.area a).store block data).bytes = (s.area a).bytes.writeLanes (16 * block) (data.map some) := by
      rw [← bytes₀ a]
      rfl
    obtain ⟨place, target, sent, requests, known⟩ := ld.taking_fields block ((v.area a).store block data)
    have self (l : Load) : (v.withBlock a block data l).area a = (v.area a).store block data := by
      rw [State.withBlock_area, if_pos rfl]
    have counted : (if block = 0 then some ((v.area a).store block data).blockCount else ld.known) =
        if block = 0 then some (((s.area a).bytes.writeLanes (16 * block) (data.map some)).number 10 2) else ld.known := by
      rw [← stored]
      rfl
    rw [counted] at known
    have passing (passed : block ≠ 0 ∨
        HeaderCheck ((s.area a).bytes.writeLanes (16 * block) (data.map some)) ld.target none) :=
      State.blockReply_passes load inArea data wanted (passed.imp_right fun check =>
        HeaderCheck.headerFault (by rw [stored]; exact check))
    have completes {n : Nat} : ((if block = 0 then some (((s.area a).bytes.writeLanes (16 * block)
          (data.map some)).number 10 2) else ld.known) = some n ∧ (ld.requests.filter fun r => r.block != block) = [] ∧
          ∀ k : Fin 532, k.val < n → (t.area a).received[k] = true) ↔
        (ld.taking block ((v.area a).store block data)).completes
          ((v.withBlock a block data (ld.taking block ((v.area a).store block data))).area a) n := by
      rw [self, received, ← known, ← requests, ← Area.hasAll_iff]
      exact Iff.rfl
    generalize ld.taking block ((v.area a).store block data) = l at *
    refine ⟨?_, fun spare => absurd wanted spare, fun _ => ⟨?_, fun k => ?_, fun check first fails => ?_,
      fun n reason check passed complete fault => ?_, fun n passed complete right => ?_, fun passed waits early => ?_⟩⟩
    · have apart := (rest a.other).1
      rw [if_neg a.other_ne] at apart
      exact (atEnd _).trans (apart.trans (bytes₀ _))
    · rw [atEnd, (rest a).1, if_pos rfl, stored]
    · rw [received, Area.store_received, received₀]
    · have fault := HeaderCheck.headerFault (x := (v.area a).store block data) (by rw [stored]; exact fails)
      rw [State.blockReply_header load inArea data wanted first fault] at ends
      exact before.fails held inArea (l := { ld with requests := ld.requests.filter fun r => r.block != block })
        inArea rfl ends
    · have invalid := ProfileCheck.validationFault (x := (v.area a).store block data) (by rw [stored]; exact fault)
      rw [← self l] at invalid
      rw [passing passed, State.checkComplete_ends rfl (completes.mp complete), State.validate_fails invalid] at ends
      rw [← known]
      exact before.fails held inArea (place.trans inArea) target ends
    · have valid := ProfileCheck.validationFault (x := (v.area a).store block data) (by rw [stored]; exact right)
      rw [← self l] at valid
      rw [passing passed, State.checkComplete_ends rfl (completes.mp complete), State.validate_passes valid] at ends
      rw [← stored]
      exact before.activates sent loading' ends
    · rw [passing passed, State.checkComplete_waits rfl fun n is => waits n (completes.mpr is)] at ends
      obtain ⟨x, goes, on⟩ := ends.goesOn (ld := l) (by rw [State.checkMode_pu]; rfl) (by rw [place, inArea]; rfl)
        fun r listed => by
          rw [requests] at listed
          have := early r listed
          unfold BlockRequest.late
          cases isSent : r.sent with
          | false => rfl
          | true =>
            have soon := this isSent
            rw [Bool.true_and, decide_eq_false_iff_not]
            omega
      refine ⟨x, goes, on.area.trans (place.trans inArea), on.target.trans target, on.known.trans known, ?_⟩
      rw [← requests]
      exact on.blocks
  · have same := State.blockReply_unwanted load inArea data wanted
    rw [same] at pu atEnd ends
    have received : (t.area a).received = (s.area a).received := by
      rw [ends.received (by rw [pu]; exact before.profile.unpending settled), State.area_ofPu pu, received₀]
    exact ⟨by rw [atEnd]; exact bytes₀ _, fun _ => ⟨by rw [atEnd]; exact bytes₀ _, received⟩, fun is => absurd is wanted⟩

end

end Sys2Proof.Machine
end

