-- ==== Sys2Proof/Proofs/ReadyFrames.lean ====
section
/-! PROOF. The good frames of READY and HOLDOVER (R69–R71, R75, R80): the samples, the payload, the answer, and the frame of
another lens. -/

namespace Sys2Proof.Machine

/-! ### What a payload leaves unchanged -/

/-- From `s` to `t` the Profile Unit has changed, and of the controller the mode target alone. -/
structure OnProfile (s t : State) : Prop where
  on : OnLink 2 s t
  llc : t.llc = { s.llc with modeTarget := t.llc.modeTarget }

theorem OnProfile.refl (s : State) : OnProfile s s := ⟨(OnLink.refl s).mono (by omega), rfl⟩

theorem OnProfile.ofPu {s : State} {p : Pu} {t : State} (later : OnProfile { s with pu := p } t) : OnProfile s t :=
  ⟨((OnLink.ofUnits s s.llc p).trans later.on).mono (by omega), later.llc⟩

theorem OnProfile.failLoad (s : State) (reason : LoadReason) (check : Option FormatCheck) (block : Nat) :
    OnProfile s (s.failLoad reason check block) := ⟨.failLoad s _ _ _, s.failLoad_llc _ _ _⟩

theorem OnProfile.activate (s : State) (ld : Load) (a : AreaId) : OnProfile s (s.activate ld a) :=
  ⟨((s.inForce_onLink a).trans (.raise _ _)).trans (.evalMode _ _), (Within.activate s ld a).llc⟩

theorem OnProfile.checkComplete (s : State) (a : AreaId) : OnProfile s (s.checkComplete a) := by
  cases held : s.pu.load with
  | none =>
    rw [show s.checkComplete a = s by simp only [State.checkComplete, held]]
    exact .refl s
  | some ld =>
    by_cases complete : ∃ n, ld.completes (s.area a) n
    · obtain ⟨n, completes⟩ := complete
      rw [State.checkComplete_ends held completes]
      cases fault : (s.area a).validationFault n with
      | none =>
        rw [State.validate_passes fault]
        exact .activate s ld a
      | some x =>
        rw [State.validate_fails (reason := x.1) (check := x.2) fault]
        exact .failLoad s _ _ _
    · rw [State.checkComplete_waits held fun n completes => complete ⟨n, completes⟩]
      exact .refl s

theorem OnProfile.withBlock {s t : State} {a : AreaId} {block : Nat} {data : List Byte} {ld : Load}
    (later : OnProfile (s.withBlock a block data ld) t) : OnProfile s t := by
  cases a <;> exact .ofPu (s := s) later

theorem OnProfile.blockReply (s : State) (block : Nat) (data : List Byte) : OnProfile s (s.blockReply block data) := by
  cases held : s.pu.load with
  | none =>
    rw [show s.blockReply block data = s by simp only [State.blockReply, held]]
    exact .refl s
  | some ld =>
    cases inArea : ld.area with
    | none =>
      rw [show s.blockReply block data = s by simp only [State.blockReply, held, inArea]]
      exact .refl s
    | some a =>
      by_cases wanted : ∃ r ∈ ld.requests, r.block = block
      · obtain ⟨l, -, ⟨reason, check, same⟩ | same | same⟩ := State.blockReply_cases data held inArea wanted <;> rw [same]
        · exact .withBlock (.failLoad _ _ _ _)
        · exact .withBlock (.activate _ _ _)
        · exact .withBlock (.refl _)
      · rw [State.blockReply_unwanted held inArea data wanted]
        exact .refl s

theorem OnProfile.takePayload (s : State) (payload : Option (Nat × List Byte)) : OnProfile s (s.takePayload payload) := by
  cases payload with
  | none => exact .refl s
  | some p => exact .blockReply s p.1 p.2

/-! ### READY (R71) -/

/-- A good frame has come and the link is READY (R71). -/
def State.readied (s : State) (f : LensFrame) : State :=
  if s.llc.link = .holdover then (s.frameComes f).changeLink .ready .recovered 0 none else s.frameComes f

section
variable {s : State} {f : LensFrame}

theorem State.takeGood_readied (link : s.llc.link = .ready ∨ s.llc.link = .holdover) :
    (s.frameComes f).takeGood f = (s.readied f).takeReady f := by
  have same : (s.frameComes f).llc.link = s.llc.link := rfl
  unfold State.takeGood State.readied
  rw [same]
  rcases link with ready | held
  · rw [ready, if_neg (c := LinkState.ready = LinkState.holdover) (by decide)]
  · rw [held, if_pos rfl]

theorem State.readied_onLink : OnLink 2 s (s.readied f) := by
  have comes : OnLink 0 s (s.frameComes f) := .ofUnits s _ _
  unfold State.readied
  split
  · exact comes.trans (.changeLink _ _ _ _ _)
  · exact comes.mono (by omega)

theorem State.readied_pu : (s.readied f).pu = s.pu := by
  unfold State.readied
  split
  · exact State.changeLink_pu ..
  · rfl

theorem State.readied_llc (link : s.llc.link = .ready ∨ s.llc.link = .holdover) : (s.readied f).llc = { s.llc with
    link := .ready, run := 0, expected := some (f.sequence + 1), lastGood := some f.sequence
    deadline := some (stampAdd s.clock 384), modeTarget := (s.readied f).llc.modeTarget } := by
  unfold State.readied
  rcases link with ready | held
  · rw [if_neg (by rw [ready]; decide), ← ready]
    rfl
  · rw [if_pos held, State.changeLink_llc]
    rfl

/-- HOLDOVER becomes READY with LINK_STATE first (R71, R73). -/
theorem State.readied_raises {t : State} (held : s.llc.link = .holdover)
    (later : (s.readied f).cru.events <+: t.cru.events) :
    Raised s t 7 1 (.linkState .holdover .ready .recovered 0 (some f.sequence) none) := by
  have comes : OnLink 0 s (s.frameComes f) := .ofUnits s _ _
  unfold State.readied at later
  rw [if_pos held] at later
  have raised := comes.raised_changeLink (room := 1) (by omega) later
  rw [← held]
  exact raised

end

/-! ### The identified lens's frame (R69) -/

/-- The samples of a frame of the identified lens have been taken (R75, R84). -/
def State.fed (s : State) (f : LensFrame) : State :=
  (f.stamped (s.readied f).clock (s.readied f).cru.settings.latency).foldl State.takeSample (s.readied f)

theorem State.takeReady_checks {s : State} {f : LensFrame} (checks : f.checks (s.readied f).llc.identified = true) :
    (s.readied f).takeReady f = ((s.fed f).takePayload f.payload).checkMode f := by
  unfold State.takeReady
  exact if_pos checks

section
variable (s : State) (f : LensFrame)

theorem State.fed_sampled : Sampled (s.readied f) (s.fed f) := (State.takeSamples_kept _ _).1

theorem State.fed_br : (s.fed f).br = (f.samples.zipIdx.map fun (x, i) =>
    { stamp := s.ssu.clock - BitVec.ofNat 32 (s.cru.settings.latency + (f.samples.length - 1 - i) * 64)
      focus := x.focus, iris := x.iris, focusValid := x.focusValid
      irisValid := x.irisValid : Sample }).foldl historyTakes s.br := by
  have on := State.readied_onLink (s := s) (f := f)
  unfold State.fed
  rw [(State.takeSamples_kept _ _).2, LensFrame.stamped_eq, on.clock, on.settings, on.br]
  rfl

theorem State.fed_before : BeforeBlock s (s.fed f) f := by
  have on := State.readied_onLink (s := s) (f := f)
  have sampled := s.fed_sampled f
  refine ⟨sampled.settings.trans on.settings, sampled.clock.trans on.clock, on.events.trans sampled.events,
    (ProfileKept.ofPu State.readied_pu).trans sampled.profile, fun one none_ => ?_⟩
  obtain ⟨pu, few⟩ := State.takeSamples_few
    (l := f.stamped (s.readied f).clock (s.readied f).cru.settings.latency) (s := s.readied f)
    (by unfold LensFrame.stamped; rw [List.length_map, List.length_zipIdx]; exact one)
    fun i => by
      rw [State.frame, State.slot_ofSlots on.slots]
      exact none_ i
  have added := on.few
  refine ⟨pu.trans State.readied_pu, ?_⟩
  unfold State.fed
  omega

end

/-! ### Another lens's frame (R70) -/

/-- The link has left READY for IDENT at a frame of another lens (R70). -/
def State.estranged (s : State) (f : LensFrame) : State :=
  ((s.readied f).modLlc fun l => { l with attempts := 0, outstanding := none }).changeLink .ident .mismatch
    (s.readied f).llc.run (some f.checkByte)

theorem State.takeReady_differs {s : State} {f : LensFrame} (differs : f.checks (s.readied f).llc.identified = false) :
    (s.readied f).takeReady f = (s.estranged f).failLoad .link none 0 := by
  unfold State.takeReady
  rw [differs]
  exact if_neg Bool.false_ne_true

/-! ### The clauses -/

section
variable {s t : State} {f : LensFrame} {l : LensIdentity} (link : s.llc.link = .ready ∨ s.llc.link = .holdover)
  (identified : s.llc.identified = some l) (waits : s.llc.outstanding = none)
include link identified

theorem State.readied_checks : f.checks (s.readied f).llc.identified = (f.checkByte == l.id.setWidth 8) := by
  rw [State.readied_llc link, identified]
  rfl

include waits

/-- The end of a frame of the identified lens. -/
theorem FrameEnds.feeds (ends : FrameEnds (((s.fed f).takePayload f.payload).checkMode f) t f) :
    t.llc.link = .ready ∧ GoodPeriod s t f ∧ t.llc.linkMode = f.kind ∧ t.llc.identified = some l ∧ t.br = (s.fed f).br ∧
      (s.readied f).cru.events <+: t.cru.events ∧ (s.mpu.intake = none → PartSent s t f) := by
  have on := State.readied_onLink (s := s) (f := f)
  have sampled := s.fed_sampled f
  have payload := OnProfile.takePayload (s.fed f) f.payload
  have checked := OnLink.checkMode ((s.fed f).takePayload f.payload) f
  have llc : (((s.fed f).takePayload f.payload).checkMode f).llc = { s.llc with
      link := .ready, run := 0, expected := some (f.sequence + 1), lastGood := some f.sequence
      deadline := some (stampAdd s.clock 384), linkMode := f.kind
      modeTarget := ((s.fed f).takePayload f.payload).llc.modeTarget, focusRef := (s.fed f).llc.focusRef } := by
    rw [State.checkMode_llc, payload.llc, sampled.llc, State.readied_llc link]
  have before : (s.readied f).cru.events <+: (((s.fed f).takePayload f.payload).checkMode f).cru.events :=
    (sampled.events.trans payload.on.events).trans checked.events
  have br := checked.br.trans payload.on.br
  have lml : (((s.fed f).takePayload f.payload).checkMode f).ports.lml = s.ports.lml := by
    rw [checked.ports, payload.on.ports, sampled.lml, on.ports]
  have idle (none_ : s.mpu.intake = none) : (((s.fed f).takePayload f.payload).checkMode f).mpu.intake = none := by
    rw [checked.mpu, payload.on.mpu]
    exact sampled.idle (by rw [on.mpu, none_])
  generalize ((s.fed f).takePayload f.payload).checkMode f = u at *
  have ready : u.llc.link = .ready := by rw [llc]
  obtain ⟨known, rests⟩ := ends.settled (by rw [llc]; exact waits) fun asks => absurd (ready.symm.trans asks.1) (by decide)
  have counted : u.llc.hasCounted s.ssu.clock f := (s.frameComes_counted f).keeps (by rw [llc]; rfl)
  refine ⟨(congrArg Llc.link rests).trans ready, (ends.counted counted).goodPeriod, ?_, ?_, ends.br.trans br,
    before.trans ends.grown, fun none_ => ends.partSent lml known (idle none_)⟩
  · rw [ends.linkMode, llc]
  · rw [ends.identified, llc]
    exact identified

omit waits in
/-- The end of a frame of another lens (R70, R114). -/
theorem FrameEnds.estranges (ends : FrameEnds ((s.estranged f).failLoad .link none 0) t f) :
    GoodPeriod s t f ∧ t.llc.link = .ident ∧ t.llc.attempts = 1 ∧ t.llc.outstanding = some 0 ∧
      t.llc.identified = some l ∧ t.llc.linkMode = s.llc.linkMode ∧ t.llc.modeTarget = .normal ∧ t.br = s.br ∧
      t.pu.load = none ∧ (∀ a, (t.area a).bytes = (s.area a).bytes ∧ (t.area a).matchMark = (s.area a).matchMark) ∧
      t.ports.lml = s.ports.lml ++ [.identReq f.sequence] ∧ (s.readied f).cru.events <+: t.cru.events ∧
      Raised s t 7 3 (.linkState .ready .ident .mismatch 0 (some f.sequence) (some f.checkByte)) ∧
      ∀ ld, s.pu.load = some ld → (∀ a, ld.area = some a → (t.area a).state = .free) ∧
        Raised s t 10 6 (.profileFailed .link ld.area (some ld.target) none ld.known (s.blocksReceived ld) 0) := by
  have on := State.readied_onLink (s := s) (f := f)
  have settled : OnLink 2 s ((s.readied f).modLlc fun l => { l with attempts := 0, outstanding := none }) :=
    on.trans (.modLlc _ _)
  have changed : OnLink 4 s (s.estranged f) := settled.trans (.changeLink _ _ _ _ _)
  have failed := OnProfile.failLoad (s.estranged f) .link none 0
  have readied := State.readied_llc (f := f) link
  have pu : (s.estranged f).pu = s.pu := (State.changeLink_pu ..).trans State.readied_pu
  have normal : (s.estranged f).llc.modeTarget = .normal := State.changeLink_normal _ (by decide) (by decide) _ _ _
  have llc : (s.estranged f).llc = { s.llc with
      link := .ident, run := 0, expected := some (f.sequence + 1), lastGood := some f.sequence
      deadline := some (stampAdd s.clock 384), attempts := 0, outstanding := none, modeTarget := .normal } := by
    have changes : (s.estranged f).llc = _ := State.changeLink_llc _ _ _ _ _
    have target : (((s.readied f).modLlc fun l => { l with attempts := 0, outstanding := none }).changeLink .ident .mismatch
      (s.readied f).llc.run (some f.checkByte)).llc.modeTarget = .normal := normal
    rw [changes, target, State.modLlc, readied]
  have mismatch (later : (s.estranged f).cru.events <+: t.cru.events) :
      Raised s t 7 3 (.linkState .ready .ident .mismatch 0 (some f.sequence) (some f.checkByte)) := by
    have raised := settled.raised_changeLink (room := 3) (by omega) later
    rw [State.modLlc, readied] at raised
    exact raised
  have ready : (s.readied f).cru.events <+: (s.estranged f).cru.events :=
    (OnLink.changeLink ((s.readied f).modLlc fun l => { l with attempts := 0, outstanding := none }) _ _ _ _).events
  generalize s.estranged f = y at *
  have empty := y.failLoad_load .link none 0
  have rest := y.failLoad_area_rest .link none 0
  have area {ld : Load} (held : y.pu.load = some ld) := State.failLoad_area held .link none 0
  have eq {ld : Load} (held : y.pu.load = some ld) := State.failLoad_some held .link none 0
  have still : (y.failLoad .link none 0).llc.modeTarget = .normal :=
    (Within.failLoad y .link none 0).normal (by rw [llc]; exact LinkState.noConfusion) normal
  have grown := failed.on.events.trans ends.grown
  have llc' := failed.llc
  rw [llc, still] at llc'
  generalize y.failLoad .link none 0 = u at *
  have period := State.periodEvent_settled (s := u) (by rw [llc'])
  have asks : u.periodEvent.llc.asksIdentity := by
    rw [period, llc']
    exact ⟨rfl, Nat.zero_lt_succ 2, rfl⟩
  obtain ⟨isIdent, attempts, outstanding, lml⟩ := ends.asks asks
  have counted : u.llc.hasCounted s.ssu.clock f := (s.frameComes_counted f).keeps (by rw [llc']; rfl)
  have kept := ends.unloaded empty
  have target : t.llc.modeTarget = .normal := by
    have slow := State.periodEvent_normal (s := u) (Llc.not_fails (by rw [llc'])) (by rw [llc']; exact LinkState.noConfusion)
      (by rw [llc'])
    have answered := (u.periodEvent.answerFrame_answered f).llc
    refine ends.normal ?_ (by rw [answered]; exact slow)
    rw [answered]
    exact fun ready => absurd (asks.1.symm.trans ready) (by decide)
  refine ⟨(ends.counted counted).goodPeriod, isIdent, ?_, outstanding, ?_, ?_, target,
    ends.br.trans (failed.on.br.trans changed.br), kept.none_ empty, fun a => ⟨?_, ?_⟩, ?_, ready.trans grown, mismatch grown,
    fun ld held => ⟨fun a inArea => ?_, ?_⟩⟩
  · rw [attempts, period, llc']
  · rw [ends.identified, llc']
    exact identified
  · rw [ends.linkMode, llc']
  · rw [kept.bytes, rest, State.area_ofPu pu]
  · rw [kept.mark, rest, State.area_ofPu pu]
  · rw [lml, failed.on.ports, changed.ports]
  · refine (kept.area (Pu.unpending_none empty) a).free ?_
    rw [area (by rw [pu, held]), if_pos inArea]
  · have raises := eq (ld := ld) (by rw [pu, held])
    rw [State.blocksReceived_ofPu pu] at raises
    refine (changed.trans (.ofUnits y y.llc (y.pu.dropped ld))).raised rfl (by omega) (List.IsPrefix.trans ?_ ends.grown)
    rw [raises]
    exact (OnLink.evalMode _ false).events

end

theorem Llc.judgesGood_ready {l : Llc} {f : LensFrame} (good : (l.link = .ready ∧ l.expected = some f.sequence) ∨
    l.link = .holdover) : l.judgesGood f = true := by
  rcases good with ⟨_, expected⟩ | held
  · exact Llc.judgesGood_expected expected
  · unfold Llc.judgesGood
    rw [held]

/-- Settles O51: the frame of the identified lens feeds the history, the Profile Unit and the link mode; the frame of
another takes the link to IDENT and ends the load. -/
theorem readyFrameFeedsHistory : Obligations.ReadyFrameFeedsHistory := by
  intro s bytes f l live whole good identified waits
  have link : s.llc.link = .ready ∨ s.llc.link = .holdover := good.imp_left And.left
  have taken := State.takeGood_readied (f := f) link
  have checks := State.readied_checks (f := f) link identified
  refine ⟨fun same => ?_, fun differs => ?_⟩
  · rw [exec_lensFrame_good live whole (Llc.judgesGood_ready good), taken,
      State.takeReady_checks (by rw [checks]; exact beq_iff_eq.mpr same)]
    have ends := (((s.fed f).takePayload f.payload).checkMode f).frameEnds f
    generalize ((((s.fed f).takePayload f.payload).checkMode f).periodEvent.answerFrame f).finish = t at *
    obtain ⟨ready, period, linkMode, known, br, recovered, part⟩ := ends.feeds link identified waits
    refine ⟨t, rfl, ready, period, linkMode, known, br.trans (s.fed_br f), fun held => State.readied_raises held recovered,
      part, fun none_ a => ?_, fun block data ld a given held inArea loading => ?_⟩
    · rw [none_] at ends
      have pu := State.checkMode_pu ((s.fed f).takePayload none) f
      rw [(ends.area a).2, State.area_ofPu pu]
      exact (s.fed_before f).profile.bytes a
    · rw [given] at ends
      exact (s.fed_before f).blockTaken held inArea loading ends
  · rw [exec_lensFrame_good live whole (Llc.judgesGood_ready good), taken,
      State.takeReady_differs (by rw [checks]; exact beq_false_of_ne differs)]
    have ends := ((s.estranged f).failLoad .link none 0).frameEnds f
    obtain ⟨period, ident, attempts, outstanding, known, linkMode, target, br, load, areas, lml, recovered, mismatch, failed⟩ :=
      ends.estranges link identified
    exact ⟨_, rfl, period, ident, attempts, outstanding, known, linkMode, target, br, load, areas, lml,
      fun held => State.readied_raises held recovered, mismatch, failed⟩

end Sys2Proof.Machine
end
